-- ==== Sys2Proof/Word.lean ====
section
/-! DEFINITION. The machine's words and indices.

Registers, arguments and descriptor words are 32-bit words (20_memory.md R62, 30_encoding.md R80, R90).
A logical axis is one of eight (00_scope.md R7: `NUM_AXES` is 4..8), and per-axis state is a vector of eight,
of which the axes below `NUM_AXES` are used. -/

namespace Sys2Proof

/-- A 32-bit register, argument, command or descriptor word. -/
abbrev Word := BitVec 32

/-- One byte of a descriptor or of a register (20_memory.md R63). -/
abbrev Byte := BitVec 8

/-- The index of a logical axis: X = 0, Y = 1, Z = 2, E = 3, extras 4..7 (30_encoding.md R82). -/
abbrev Axis := Fin 8

/-- One value for each of the eight axes. -/
abbrev PerAxis (α : Type) := Vector α 8

/-- The same value for every axis. -/
def PerAxis.all {α : Type} (x : α) : PerAxis α := Vector.replicate 8 x

/-- The value of axis `a`. -/
def PerAxis.read {α : Type} (v : PerAxis α) (a : Axis) : α := v[a.val]

/-- `v` with the value of axis `a` replaced by `x`. -/
def PerAxis.write {α : Type} (v : PerAxis α) (a : Axis) (x : α) : PerAxis α := v.set a.val x a.isLt

/-- The eight axes in ascending order. -/
def allAxes : List Axis := [0, 1, 2, 3, 4, 5, 6, 7]

/-- A direction of motion: `pos` is +1, `neg` is −1 (10_state.md R27). -/
inductive Dir where
  | pos
  | neg
  deriving DecidableEq, Repr

/-- The direction as the integer the rules add: +1 or −1. -/
def Dir.sign : Dir → Int
  | .pos => 1
  | .neg => -1

/-- The opposite direction. -/
def Dir.flip : Dir → Dir
  | .pos => .neg
  | .neg => .pos

/-- The DIR output level of a direction: 1 is negative (46_direction_enable.md R260). -/
def Dir.level : Dir → Bool
  | .pos => false
  | .neg => true

/-- The direction a direction bit names: 1 is negative (10_state.md R28). -/
def Dir.ofBit (b : Bool) : Dir := if b then .neg else .pos

end Sys2Proof
end

