-- ==== Sys2Proof/Config.lean ====
section
/-! DEFINITION. The configuration parameters of 00_scope.md R7, and the free values.

"The model takes these parameters as arguments. They are fixed from reset onwards; no operation changes them"
(R7). State carries one `Config`; `Config.default` holds the defaults of R7's table, and every statement about
states is a statement about every configuration. Which configurations are legal (00_scope.md R8) is
`Config.legal`, in Machine/Ops.lean. -/

namespace Sys2Proof

/-- When the overrun shift returns to 0 (43_timer_interval.md R178). -/
inductive Deescalate where
  | atBlockLoad
  | never
  deriving DecidableEq, Repr

/-- The parameters of 00_scope.md R7, under R7's names. `shaped` is the set SHAPED_AXES, held as one membership
bit per axis. `plannerCap` is the planner's own parameter (47_host_interface.md R300). -/
structure Config where
  numAxes : Nat := 4
  eAxis : Axis := 3
  timerRate : Nat := 2000000
  timerBits : Nat := 32
  minStepRate : Nat := timerRate / (2 ^ timerBits - 1)
  idleInterval : Nat := timerRate / 1000
  maxStepIsrRate : Nat := 40000
  maxMultistepShift : Nat := 7
  minIsrMargin : Nat := 8
  overrunDeescalate : Deescalate := .atBlockLoad
  adaptiveSmoothing : Bool := false
  smoothMinIsrRate : Nat := 1000
  maxOversampling : Nat := 3
  scurve : Bool := false
  linAdvance : Bool := false
  inputShaping : Bool := false
  babystepping : Bool := false
  accelFrac : Nat := 24
  bezFrac : Nat := 24
  bezierTol : Nat := 0
  shaped : PerAxis Bool := PerAxis.all false
  shapingDelay : PerAxis Nat := PerAxis.all 25000
  shapingFactor1 : PerAxis Nat := PerAxis.all 64
  shapingQueueCap : Nat := 64
  shapingForceMargin : Nat := 0
  babystepQuiet : Nat := timerRate / 1000
  babystepMax : Nat := 127
  pulseHighNs : Nat := 0
  pulseLowNs : Nat := 0
  dirSetupNs : Nat := 0
  dirHoldNs : Nat := 0
  numEnableLines : Nat := numAxes
  enMap : PerAxis Nat := #v[0, 1, 2, 3, 4, 5, 6, 7]
  regBase : Nat := 0
  plannerCap : Nat := 16
  deriving DecidableEq, Repr

/-- The defaults of 00_scope.md R7. DESIGN CHOICE (log entry 14): the spec gives no shaping frequency and no
planner capacity, so `shapingDelay` (25 000) and `plannerCap` (16) are the model's. -/
def Config.default : Config := {}

/-- FREE VALUE (40_isr_scheduler.md R118, log entry 3): the time `e`, in ticks, a TICK's own computation takes,
where the schedule does not fix it. Applied to a counter in State, so that each TICK has its own. -/
opaque Config.freeElapsed : Nat → Nat

/-- FREE VALUE (42_velocity_profile.md R157, log entry 4): what the evaluator would answer for phase time `τ` and
endpoint rates `V0`, `V1`, before the laws of R157 bound it. It is a function of these three alone (law 1). -/
opaque Config.freeBezier : Nat → Nat → Nat → Int

end Sys2Proof
end

