-- ==== Sys2Proof/Syntax.lean ====
section
/-! DEFINITION. The operations of spec/opcode_table.json, one constructor for each row.

There is no instruction fetch (00_scope.md R10): a word is presented to the command register, the endstop port
or the planner port, or names a sub-operation of the engine (30_encoding.md R80). The axis operand is the 4-bit
field AXIS (30_encoding.md R82). -/

namespace Sys2Proof

/-- The operations, in the table's order. -/
inductive Instr where
  -- CMD: host commands (30_encoding.md R84)
  | nop
  | getPosition (axis : Fin 16)
  | setPosition
  | setAxisPosition (axis : Fin 16)
  | isBlockBusy
  | abort
  | babystep (axis : Fin 16)
  | enable (axis : Fin 16)
  | disable (axis : Fin 16)
  | clearEndstops
  | isIdle
  | clearDiag
  -- EIN: the endstop input (30_encoding.md R86)
  | endstop (axis : Fin 16)
  -- EVT: the engine's sub-operations (30_encoding.md R85)
  | tick
  | pulsePhase
  | stepEvent
  | blockPhase
  | shapingIsr
  | advanceIsr
  | babystepIsr
  -- PLN: the planner port (30_encoding.md R87)
  | getCurrentBlock
  | discardCurrentBlock
  deriving DecidableEq, Repr

/-- The four word formats (30_encoding.md R80). -/
inductive Format where
  | cmd
  | evt
  | ein
  | pln
  deriving DecidableEq, Repr

end Sys2Proof
end

