-- ==== Sys2Proof/WellFormed.lean ====
section
/-! DEFINITION. Which operations are well formed.

"An AXIS value ≥ NUM_AXES is illegal for a command that takes an axis" (30_encoding.md R82), and an EIN word with
such a value is ignored (30_encoding.md R89). No other operand stands in the word. -/

namespace Sys2Proof

/-- The axis field of an operation that takes one. -/
def Instr.axisField : Instr → Option (Fin 16)
  | .getPosition a => some a
  | .setAxisPosition a => some a
  | .babystep a => some a
  | .enable a => some a
  | .disable a => some a
  | .endstop a => some a
  | .nop => none
  | .setPosition => none
  | .isBlockBusy => none
  | .abort => none
  | .clearEndstops => none
  | .isIdle => none
  | .clearDiag => none
  | .tick => none
  | .pulsePhase => none
  | .stepEvent => none
  | .blockPhase => none
  | .shapingIsr => none
  | .advanceIsr => none
  | .babystepIsr => none
  | .getCurrentBlock => none
  | .discardCurrentBlock => none

/-- An operation is well formed under a configuration when its axis, if it takes one, exists (30_encoding.md R82). -/
def Instr.wellFormed (c : Config) (i : Instr) : Bool :=
  match i.axisField with
  | some a => a.val < c.numAxes
  | none => true

end Sys2Proof
end

