-- ==== Sys2Proof/Decode.lean ====
section
/-! DEFINITION. The decoder and the encoder of the 32-bit words (30_encoding.md R80 to R87).

"A decoder reads OPC = word[7:0] first, and OPC alone selects the format" (R81). A word that is no operation is
rejected by name. Whether the AXIS value exists is a question of the configuration and is asked where the word
arrives (30_encoding.md R88, R89), not here. -/

namespace Sys2Proof

/-- Why a word is no operation. -/
inductive DecodeError where
  /-- OPC names no operation (30_encoding.md R88). -/
  | reservedOpcode
  /-- Bits the format requires to be 0 are not: 31:12 of CMD and EIN, 31:8 of EVT and PLN (30_encoding.md R80). -/
  | reservedField
  /-- A command that takes no axis has a non-zero AXIS field (30_encoding.md R82). -/
  | axisNotZero
  /-- Fewer than four bytes were given. -/
  | truncated
  deriving DecidableEq, Repr

/-- OPC = word[7:0] (30_encoding.md R80). -/
def opcOf (w : Word) : Nat := w.toNat % 256

/-- AXIS = word[11:8] (30_encoding.md R82). -/
def axisOf (w : Word) : Fin 16 := ⟨w.toNat / 256 % 16, Nat.mod_lt _ (by decide)⟩

/-- RSV = word[31:12] (30_encoding.md R80). -/
def rsvOf (w : Word) : Nat := w.toNat / 4096

/-- The format OPC selects: 0x00..0x7F CMD, 0x80..0xBF EVT, 0xC0..0xDF EIN, 0xE0..0xFF PLN (30_encoding.md R81). -/
def formatOf (w : Word) : Format :=
  if opcOf w < 0x80 then .cmd
  else if opcOf w < 0xC0 then .evt
  else if opcOf w < 0xE0 then .ein
  else .pln

/-- The OPC values of the operations that take an axis (30_encoding.md R84, R86). -/
def axisInstr (opc : Nat) (a : Fin 16) : Option Instr :=
  match opc with
  | 0x10 => some (.getPosition a)
  | 0x12 => some (.setAxisPosition a)
  | 0x16 => some (.babystep a)
  | 0x17 => some (.enable a)
  | 0x18 => some (.disable a)
  | 0xC0 => some (.endstop a)
  | _ => none

/-- The OPC values of the operations that take none (30_encoding.md R84, R85, R87). -/
def plainInstr (opc : Nat) : Option Instr :=
  match opc with
  | 0x01 => some .nop
  | 0x11 => some .setPosition
  | 0x13 => some .isBlockBusy
  | 0x15 => some .abort
  | 0x19 => some .clearEndstops
  | 0x1A => some .isIdle
  | 0x1B => some .clearDiag
  | 0x80 => some .tick
  | 0x81 => some .pulsePhase
  | 0x82 => some .stepEvent
  | 0x83 => some .blockPhase
  | 0x84 => some .shapingIsr
  | 0x85 => some .advanceIsr
  | 0x86 => some .babystepIsr
  | 0xE0 => some .getCurrentBlock
  | 0xE1 => some .discardCurrentBlock
  | _ => none

/-- The operation a word stands for, or why it is none. The checks come in the order of 47_host_interface.md
R276: opcode, reserved bits, axis field. -/
def decode (w : Word) : Except DecodeError Instr :=
  match axisInstr (opcOf w) (axisOf w) with
  | some i => if rsvOf w = 0 then .ok i else .error .reservedField
  | none =>
    match plainInstr (opcOf w) with
    | none => .error .reservedOpcode
    | some i =>
      if rsvOf w ≠ 0 then .error .reservedField
      else if (axisOf w).val = 0 then .ok i
      else match formatOf w with
        | .cmd => .error .axisNotZero
        | _ => .error .reservedField

/-- The word four bytes hold, the first in bits 7:0 (20_memory.md R63). -/
def wordOfBytes (b0 b1 b2 b3 : Byte) : Word := b3 ++ b2 ++ b1 ++ b0

/-- The four bytes of a word, the one of bits 7:0 first (20_memory.md R63). -/
def bytesOfWord (w : Word) : List Byte :=
  [w.extractLsb' 0 8, w.extractLsb' 8 8, w.extractLsb' 16 8, w.extractLsb' 24 8]

/-- Decodes the first word of a list of bytes and returns the rest of the list. -/
def decodeBytes : List Byte → Except DecodeError (Instr × List Byte)
  | b0 :: b1 :: b2 :: b3 :: rest =>
    match decode (wordOfBytes b0 b1 b2 b3) with
    | .ok i => .ok (i, rest)
    | .error e => .error e
  | _ => .error .truncated

/-- The OPC value of an operation (30_encoding.md R84 to R87). -/
def Instr.opc : Instr → Nat
  | .nop => 0x01
  | .getPosition _ => 0x10
  | .setPosition => 0x11
  | .setAxisPosition _ => 0x12
  | .isBlockBusy => 0x13
  | .abort => 0x15
  | .babystep _ => 0x16
  | .enable _ => 0x17
  | .disable _ => 0x18
  | .clearEndstops => 0x19
  | .isIdle => 0x1A
  | .clearDiag => 0x1B
  | .endstop _ => 0xC0
  | .tick => 0x80
  | .pulsePhase => 0x81
  | .stepEvent => 0x82
  | .blockPhase => 0x83
  | .shapingIsr => 0x84
  | .advanceIsr => 0x85
  | .babystepIsr => 0x86
  | .getCurrentBlock => 0xE0
  | .discardCurrentBlock => 0xE1

/-- The value of the AXIS field an operation's word carries; 0 where it takes no axis (30_encoding.md R82). -/
def Instr.axisBits (i : Instr) : Nat := (i.axisField.map Fin.val).getD 0

/-- The word of an operation: `{20'b0, zext_4(axis), OPC}` (30_encoding.md R92). -/
def encode (i : Instr) : Word := BitVec.ofNat 32 (i.axisBits * 256 + i.opc)

/-- Synchronizing commands wait until the engine is idle (30_encoding.md R84). -/
def Instr.synchronizing : Instr → Bool
  | .getPosition _ => true
  | .setPosition => true
  | .setAxisPosition _ => true
  | .nop => false
  | .isBlockBusy => false
  | .abort => false
  | .babystep _ => false
  | .enable _ => false
  | .disable _ => false
  | .clearEndstops => false
  | .isIdle => false
  | .clearDiag => false
  | .endstop _ => false
  | .tick => false
  | .pulsePhase => false
  | .stepEvent => false
  | .blockPhase => false
  | .shapingIsr => false
  | .advanceIsr => false
  | .babystepIsr => false
  | .getCurrentBlock => false
  | .discardCurrentBlock => false

/-- The format an operation's word has (30_encoding.md R80). -/
def Instr.format (i : Instr) : Format := formatOf (encode i)

/-- The operation the decoder reads from an instruction of `nbits` bits whose bits are `w`, the bits above `nbits`
being 0: the word's four bytes, the one of bits 7:0 first, are given to `decodeBytes`. -/
def decodeTableWord (nbits w : Nat) : Option Instr :=
  match decodeBytes (bytesOfWord (BitVec.ofNat 32 (w % 2 ^ nbits))) with
  | .ok (i, _) => some i
  | .error _ => none

end Sys2Proof
end

