-- ==== Sys2Proof/Machine/State.lean ====
section
/-! DEFINITION. The machine's state as plain data, its reset value, and the reasons a step can stop.

State holds the elements of 10_state.md R21 to R45, grouped by sub-block as that file groups them, the planner
queue of 47_host_interface.md R300, the parameters of 00_scope.md R7, and the model's own `Env`.
A count or a rate the spec gives a width is an exact `Nat` or `Int` here, because the rules compute with
mathematical integers (00_scope.md R9) and narrow where they say so (`sat_32`, `wrap_s32`); that each stays inside
its width is an invariant (Safety.lean). Software-visible words and wrapping values are bit vectors.
DEDUCED (log entry 15). -/

namespace Sys2Proof.Machine

/-! ## Blocks -/

/-- A block descriptor: 25 words (30_encoding.md R90). Its bytes are little-endian (20_memory.md R63). -/
structure Descriptor where
  words : Vector Word 25
  deriving DecidableEq, Repr

/-- The loaded block (10_state.md R22). Words 16 + a of a descriptor are `steps[a]` or `sync_position[a]`
(30_encoding.md R90); the record holds both readings. -/
structure BlockRec where
  id : Word
  flags : Word
  directionBits : BitVec 8
  steps : PerAxis Nat
  stepEventCount : Nat
  accelerateBefore : Nat
  decelerateStart : Nat
  initialRate : Nat
  nominalRate : Nat
  finalRate : Nat
  accelerationRate : Nat
  accelTimeInverse : Nat
  decelTimeInverse : Nat
  laAdvanceRate : Nat
  laScaling : Nat
  maxAdvSteps : Nat
  finalAdvSteps : Nat
  syncPosition : PerAxis Word
  syncPayload : Word
  deriving DecidableEq, Repr

/-- The kinds of sync block: 0 POSITION, 1 FAN, 2 LASER_POWER (30_encoding.md R90). -/
inductive SyncKind where
  | position
  | fan
  | laserPower
  deriving DecidableEq, Repr

/-! ## The output trace -/

/-- The record kinds of the output trace (10_state.md R45). -/
inductive Event where
  | dir (axis : Axis) (level : Bool)
  | step (axis : Axis) (d : Dir)
  | enable (line : Nat) (level : Bool)
  | syncOut (kind : SyncKind) (payload : Word)
  | blockDone (id : Word)
  | blockAborted (id : Word)
  | positionResync (positions : List Word)
  | discard (id : Word)
  | overrun (elapsed interval : Nat)
  deriving DecidableEq, Repr

/-- One record of the output trace: the virtual time, the kind and its arguments (10_state.md R45). -/
structure Record where
  time : Nat
  event : Event
  deriving DecidableEq, Repr

/-! ## The sub-blocks' state -/

/-- Block sequencer state (10_state.md R21, R23, R24). `current = none` is NONE. -/
structure Sequencer where
  current : Option BlockRec
  stepEventsCompleted : Nat
  abortCurrentBlock : Bool
  deriving DecidableEq, Repr

/-- Bresenham state and positions (10_state.md R25 to R28). -/
structure Bresenham where
  deltaError : PerAxis Int
  advanceDividend : PerAxis Nat
  advanceDivisor : Nat
  countPosition : PerAxis Word
  countDirection : PerAxis Dir
  lastDirectionBits : BitVec 8
  deriving DecidableEq, Repr

/-- Timer schedule state (10_state.md R29 to R37). `nextAdv = none` is INF, `ticksNominal = none` is INVALID. -/
structure Timer where
  nextIsrTicks : Nat
  nextMain : Nat
  nextAdv : Option Nat
  nextBaby : Nat
  now : Nat
  accelerationTime : Nat
  decelerationTime : Nat
  ticksNominal : Option Nat
  nominalShift : Nat
  accStepRate : Nat
  stepsPerIsrShift : Nat
  overrunShift : Nat
  oversampling : Nat
  deriving DecidableEq, Repr

/-- S-curve state (10_state.md R38). -/
structure Bezier where
  a : Int
  b : Int
  c : Int
  f : Int
  v0 : Nat
  v1 : Nat
  secondHalf : Bool
  deriving DecidableEq, Repr

/-- Linear-advance state (10_state.md R39). `interval = none` is INF. `advanceSteps` is an s32 that wraps. -/
structure LinearAdvance where
  active : Bool
  deltaError : Int
  dividend : Nat
  interval : Option Nat
  advanceSteps : Word
  eReversed : Bool
  deriving DecidableEq, Repr

/-- One pending echo (10_state.md R41). -/
structure Echo where
  dir : Dir
  remaining : Nat
  deriving DecidableEq, Repr

/-- Input-shaping state (10_state.md R40, R41). A queue's head is its list's head. -/
structure Shaping where
  delta : PerAxis Int
  queue : PerAxis (List Echo)
  deriving DecidableEq, Repr

/-- Output pins (10_state.md R43). `enableLines` has bit l for line l. -/
structure Pins where
  dirOut : PerAxis Bool
  stepOut : PerAxis Bool
  enableLines : Word
  deriving DecidableEq, Repr

/-- Host-interface, diagnostic and fault state (10_state.md R44). -/
structure HostIf where
  arg : PerAxis Word
  result : Word
  cmdPending : Bool
  pendingCmd : Word
  err : Bool
  errCode : BitVec 8
  endstopPos : PerAxis Word
  endstopHit : BitVec 8
  overrunCount : Nat
  lostStepRisk : Bool
  fault : Bool
  faultCode : BitVec 8
  deriving DecidableEq, Repr

/-! ## The model's own fields -/

/-- One atomic move of an agent (00_scope.md R10, R11; 20_memory.md R69). -/
inductive Move where
  /-- The host reads `width` bytes at a bus address (20_memory.md R65). -/
  | read (addr width : Nat)
  /-- The host writes `width` bytes at a bus address (20_memory.md R65). -/
  | write (addr width : Nat) (v : Word)
  /-- The host agent's SYNC_PERFORM (47_host_interface.md R277). -/
  | syncPerform
  /-- The endstop source presents a word (47_host_interface.md R295). -/
  | endstopInput (w : Word)
  /-- The planner appends a block (47_host_interface.md R300). -/
  | append (d : Descriptor)
  /-- A timer compare match, with the draw `e` where the schedule fixes it (40_isr_scheduler.md R112, R118). -/
  | compareMatch (elapsed : Option Nat)
  /-- An EVT or PLN word taken by itself. No agent issues one (30_encoding.md R80): the model lets a schedule name
  a sub-operation so that each can be run and stated about alone. DESIGN CHOICE (log entry 7). -/
  | engineWord (w : Word)
  /-- Power-on or the platform's reset line (70_reset_and_hazards.md R340). -/
  | reset
  deriving DecidableEq, Repr

/-- What an operation that returns a value returned last. DESIGN CHOICE (log entry 8). -/
inductive Reply where
  | none
  /-- A register read's value (20_memory.md R65). -/
  | data (v : Word)
  /-- GET_CURRENT_BLOCK's answer, `none` being EMPTY (47_host_interface.md R300). -/
  | block (b : Option Descriptor)
  /-- BLOCK_PHASE's answer, the next main interval (44_block_sequencer.md R190). -/
  | interval (ticks : Nat)
  deriving DecidableEq, Repr

/-- The model's own fields, no state of the spec's: the moves still to come, oldest first (log entry 1), the draw of
the next TICK where a move fixes it, the counter of free draws (log entry 3), and the last reply (log entry 8). -/
structure Env where
  schedule : List Move
  elapsed : Option Nat
  drawCount : Nat
  reply : Reply
  deriving DecidableEq, Repr

/-- The whole machine (10_state.md R20). -/
structure State where
  cfg : Config
  seq : Sequencer
  bres : Bresenham
  timer : Timer
  bez : Bezier
  la : LinearAdvance
  shaping : Shaping
  babyPending : PerAxis Int
  pins : Pins
  host : HostIf
  trace : List Record
  pq : List Descriptor
  env : Env
  deriving DecidableEq, Repr

/-! ## Reset (70_reset_and_hazards.md R341) -/

/-- The machine at reset, under configuration `c`, with planner queue `pq` and the model's own fields `e`: every
element of 10_state.md at the value of 70_reset_and_hazards.md R341. Reset touches neither the parameters nor the
planner queue (R340).
`next_isr_ticks` is IDLE_INTERVAL as R341 says, also where IDLE_INTERVAL is above MAX_INTERVAL and so beyond the
u(TIMER_BITS) of 10_state.md R29, and where it is 0: no rule gives IDLE_INTERVAL a range or clamps it here. DESIGN
CHOICE (log entry 28). -/
def State.resetWith (c : Config) (pq : List Descriptor) (e : Env) : State where
  cfg := c
  seq := { current := none, stepEventsCompleted := 0, abortCurrentBlock := false }
  bres := {
    deltaError := PerAxis.all 0, advanceDividend := PerAxis.all 0, advanceDivisor := 0
    countPosition := PerAxis.all 0, countDirection := PerAxis.all .pos, lastDirectionBits := 0 }
  timer := {
    nextIsrTicks := c.idleInterval, nextMain := 0, nextAdv := none, nextBaby := 0, now := 0
    accelerationTime := 0, decelerationTime := 0, ticksNominal := none, nominalShift := 0
    accStepRate := 0, stepsPerIsrShift := 0, overrunShift := 0, oversampling := 0 }
  bez := { a := 0, b := 0, c := 0, f := 0, v0 := 0, v1 := 0, secondHalf := false }
  la := {
    active := false, deltaError := 0, dividend := 0, interval := none, advanceSteps := 0, eReversed := false }
  shaping := { delta := PerAxis.all 0, queue := PerAxis.all [] }
  babyPending := PerAxis.all 0
  pins := { dirOut := PerAxis.all false, stepOut := PerAxis.all false, enableLines := 0 }
  host := {
    arg := PerAxis.all 0, result := 0, cmdPending := false, pendingCmd := 0, err := false, errCode := 0
    endstopPos := PerAxis.all 0, endstopHit := 0, overrunCount := 0, lostStepRisk := false
    fault := false, faultCode := 0 }
  trace := []
  pq := pq
  env := e

/-- The model's own fields at reset: nothing scheduled, no draw fixed, no reply. DESIGN CHOICE (log entry 22). -/
def Env.initial : Env := { schedule := [], elapsed := none, drawCount := 0, reply := .none }

/-- The machine right after reset, with the default parameters and an empty planner queue (log entry 22). -/
def State.reset : State := State.resetWith Config.default [] Env.initial

/-! ## Why a step stops -/

/-- The model's faults. The engine's own faults (60_exceptions.md R314) are state, not these. -/
inductive Fault where
  /-- Raised by a host read or write at an address outside the register window (20_memory.md R61): no register of
  this block stands there. Safe: the run stops. -/
  | outsideWindow
  deriving DecidableEq, Repr

/-- The model's refusals. -/
inductive Refusal where
  /-- Raised by `exec` for an operation that has no meaning yet. Safe. -/
  | notModelled (mnemonic : String)
  /-- Raised by `step` under a configuration outside its stated ranges: "a refused configuration runs nothing"
  (00_scope.md R8). Safe. -/
  | illegalConfiguration
  /-- Raised by a host access that is not 32 bits wide or not at a multiple of 4: "the model refuses every other
  access" (20_memory.md R64). Safe. -/
  | accessNotAdmitted
  /-- Raised by a scheduled engine word that is no EVT or PLN operation (30_encoding.md R85, R87). Safe: nobody
  issues such a word. -/
  | noSuchOperation
  /-- Raised by an APPEND with which the planner breaks a duty of 47_host_interface.md R302 that no later rule meets:
  "refuse: such a run is outside the spec, and no claim is made about it" (93_implementation_defined.md I11). Safe: the
  run stops. -/
  | plannerDutyBroken
  deriving DecidableEq, Repr

end Sys2Proof.Machine
end

