-- ==== Sys2Proof/Machine/Ops.lean ====
section
/-! DEFINITION. The named operations the meanings share: the configuration's derived values and its legality, axis
loops, single bits, the trace, the two kinds of error, and the STEP pulse.

Taking an exception: the block has two kinds, HostError (`raiseHostError`, 60_exceptions.md R312) and engine Fault
(`raiseFault`, R314). "Faults and host errors transfer no control either: they only set the registers" (R322), and
"No return instruction and no restored state exist" (R323), so there is no return beside them: an accepted command
clears a HostError (`acceptCommand`, 47_host_interface.md R275) and only reset clears a Fault (`resetMachine`,
70_reset_and_hazards.md R340). -/

namespace Sys2Proof

/-! ## The configuration (00_scope.md R7, R8) -/

/-- `MAX_INTERVAL = 2^TIMER_BITS − 1` (00_scope.md R7). -/
def Config.maxInterval (c : Config) : Nat := 2 ^ c.timerBits - 1

/-- `SHAPING_FACTOR2[a] = 128 − SHAPING_FACTOR1[a]` (45_aux_pulse.md R231). -/
def Config.shapingFactor2 (c : Config) (a : Axis) : Nat := 128 - c.shapingFactor1.read a

/-- The axes 0 .. NUM_AXES−1, ascending. -/
def Config.liveAxes (c : Config) : List Axis := allAxes.filter (fun a => a.val < c.numAxes)

/-- SHAPED_AXES, ascending. -/
def Config.shapedAxes (c : Config) : List Axis := allAxes.filter (fun a => c.shaped.read a)

/-- "A model must refuse a configuration outside those ranges" (00_scope.md R8). The ranges are those of R7's table,
R8's three conditions, `REG_BASE` a multiple of 256 (20_memory.md R67) and `SHAPING_FORCE_MARGIN < SHAPING_QUEUE_CAP`
(45_aux_pulse.md R235). DEDUCED (log entry 13): MAX_MULTISTEP_SHIFT ≤ 7 and MAX_OVERSAMPLING ≤ 3 from the widths u3
and u2 of 10_state.md R35 to R37, and NUM_ENABLE_LINES ≤ 32 from the register ENABLE_STATE of 20_memory.md R62.
DESIGN CHOICE: no range is added where R7 states none, so an IDLE_INTERVAL of 0 or above MAX_INTERVAL (log entry 28) and a
SHAPING_DELAY or a BABYSTEP_QUIET of 2^32 or more (log entry 29) are accepted and kept whole (log entry 24). -/
def Config.legal (c : Config) : Bool :=
  decide (
    4 ≤ c.numAxes ∧ c.numAxes ≤ 8 ∧ c.eAxis.val < c.numAxes ∧
    0 < c.timerRate ∧ 16 ≤ c.timerBits ∧ c.timerBits ≤ 32 ∧
    1 ≤ c.minIsrMargin ∧ c.maxMultistepShift ≤ 7 ∧ c.maxOversampling ≤ 3 ∧
    1 ≤ c.shapingQueueCap ∧ c.shapingForceMargin < c.shapingQueueCap ∧
    c.numEnableLines ≤ 32 ∧ c.regBase % 256 = 0 ∧
    (∀ a ∈ c.shapedAxes, a.val < c.numAxes ∧ a ≠ c.eAxis ∧ 1 ≤ c.shapingDelay.read a ∧
      64 ≤ c.shapingFactor1.read a ∧ c.shapingFactor1.read a ≤ 128) ∧
    ∀ a ∈ c.liveAxes, c.enMap.read a < c.numEnableLines)

/-! ## Vectors and bits -/

/-- The per-axis value `f` gives for each axis. -/
def PerAxis.build {α : Type} (f : Axis → α) : PerAxis α := #v[f 0, f 1, f 2, f 3, f 4, f 5, f 6, f 7]

/-- `v` with bit `k` set to `b`. -/
def setBit {w : Nat} (v : BitVec w) (k : Nat) (b : Bool) : BitVec w :=
  if b then v ||| BitVec.twoPow w k else v &&& ~~~(BitVec.twoPow w k)

/-- The number whose bits are `bs`, bit 0 first. -/
def packBits : List Bool → Nat
  | [] => 0
  | b :: bs => b.toNat + 2 * packBits bs

/-- `sat_32(v) = min(v, 2^32 − 1)` (00_scope.md R9). -/
def sat32 (v : Nat) : Nat := min v (2 ^ 32 - 1)

/-- `wrap_s32` of a word plus a direction: the word moves by ±1 modulo 2^32 (00_scope.md R9). -/
def wrapStep (v : Word) (d : Dir) : Word := v + BitVec.ofInt 32 d.sign

namespace Machine

/-! ## The trace and the error registers -/

/-- `emit`: appends one record, at the current virtual time (00_scope.md R9, 10_state.md R45). -/
def emit (e : Event) (s : State) : State := { s with trace := s.trace ++ [⟨s.timer.now, e⟩] }

/-- `result <- v`. -/
def setResult (v : Word) (s : State) : State := { s with host.result := v }

/-- The host error codes (60_exceptions.md R311). -/
inductive HostError where
  | illegalOpcode
  | reservedField
  | badAxis
  | cmdOverrun
  | featureAbsent
  | badArg
  deriving DecidableEq, Repr

/-- The code of a host error (60_exceptions.md R311). -/
def HostError.code : HostError → BitVec 8
  | .illegalOpcode => 1
  | .reservedField => 2
  | .badAxis => 3
  | .cmdOverrun => 4
  | .featureAbsent => 5
  | .badArg => 6

/-- "Raising HostError(code) does exactly `err <- 1; err_code <- code`" (60_exceptions.md R312). -/
def raiseHostError (e : HostError) (s : State) : State :=
  { s with host := { s.host with err := true, errCode := e.code } }

/-- The engine's fault codes (60_exceptions.md R314). -/
inductive FaultCode where
  | pageBlock
  | invalidBlock
  deriving DecidableEq, Repr

/-- The code of an engine fault (60_exceptions.md R314). -/
def FaultCode.code : FaultCode → BitVec 8
  | .pageBlock => 1
  | .invalidBlock => 2

/-- "Raising Fault(code) does `fault <- 1; fault_code <- code`" (60_exceptions.md R314). -/
def raiseFault (f : FaultCode) (s : State) : State :=
  { s with host := { s.host with fault := true, faultCode := f.code } }

/-- The registers an accepted command word writes: `err <- 0; err_code <- 0; pending_cmd <- w`
(47_host_interface.md R275). -/
def acceptCommand (w : Word) (s : State) : State :=
  { s with host := { s.host with err := false, errCode := 0, pendingCmd := w } }

/-- A synchronizing command waits: `cmd_pending <- 1` (47_host_interface.md R275, R277). -/
def holdCommand (s : State) : State := { s with host.cmdPending := true }

/-- The command that was pending is done: `cmd_pending <- 0` (47_host_interface.md R277). -/
def releaseCommand (s : State) : State := { s with host.cmdPending := false }

/-- Reset: every state element at its reset value. It touches neither the parameters nor the planner queue
(70_reset_and_hazards.md R340), and it leaves the model's own fields alone (log entry 22). -/
def resetMachine (s : State) : State := State.resetWith s.cfg s.pq s.env

/-- An operation that returns a value delivers it here (log entry 8). -/
def setReply (r : Reply) (s : State) : State := { s with env.reply := r }

/-- A sub-operation of the engine taken by itself. "An engine fault freezes the engine" (10_state.md R47): while
`fault` = 1 it changes nothing (log entry 5). -/
def engineStep (k : State → State) (s : State) : State := if s.host.fault then s else k s

/-! ## Positions and pulses -/

/-- `count_position[a] <- v`. -/
def setCountPosition (a : Axis) (v : Word) (s : State) : State :=
  { s with bres.countPosition := s.bres.countPosition.write a v }

/-- Drives the DIR output of axis `a` to `lvl`: "Each write that changes the level emits `DIR(a, level)`"
(46_direction_enable.md R260). -/
def driveDir (a : Axis) (lvl : Bool) (s : State) : State :=
  if s.pins.dirOut.read a = lvl then s
  else emit (.dir a lvl) { s with pins.dirOut := s.pins.dirOut.write a lvl }

/-- Raises and lowers the STEP output of axis `a` (41_bresenham.md R136). -/
def strobeStep (a : Axis) (s : State) : State :=
  { s with pins.stepOut := (s.pins.stepOut.write a true).write a false }

/-- PHYSICAL_PULSE(a, d): DIR if it differs, both STEP edges, the STEP record, and the position
(41_bresenham.md R136). -/
def physicalPulse (a : Axis) (d : Dir) (s : State) : State :=
  let s1 := emit (.step a d) (strobeStep a (driveDir a d.level s))
  setCountPosition a (wrapStep (s1.bres.countPosition.read a) d) s1

/-! ## The planner port (47_host_interface.md R300, R301) -/

/-- GET_CURRENT_BLOCK: the head of the planner queue, not removed, or EMPTY (47_host_interface.md R300). -/
def plannerHead (s : State) : Option Descriptor := s.pq.head?

/-- DISCARD_CURRENT_BLOCK removes the head of the planner queue (47_host_interface.md R301). On an empty queue, which
R301 says does not occur, nothing is there to remove: DEDUCED (log entry 11). -/
def plannerDiscard (s : State) : State := { s with pq := s.pq.tail }

/-- APPEND(b) pushes at the tail when `length(pq) < PLANNER_CAP` (47_host_interface.md R300); otherwise the move is
not enabled and nothing happens (log entry 18). The planner's duties are asked before it (`plannerMove`). -/
def plannerAppend (d : Descriptor) (s : State) : State :=
  if s.pq.length < s.cfg.plannerCap then { s with pq := s.pq ++ [d] } else s

end Machine
end Sys2Proof
end

