-- ==== Sys2Proof/Machine/Operands.lean ====
section
/-! DEFINITION. Every operand form: the AXIS field, the argument registers, and the words of a block descriptor.

"Operand values travel in ARG0..ARG7 for CMD, and in the block descriptor for the planner" (30_encoding.md R80). -/

namespace Sys2Proof.Machine

/-! ## Command operands (30_encoding.md R82, R83) -/

/-- The axis an AXIS field names, if it exists: `AXIS < NUM_AXES` (30_encoding.md R82). -/
def axisOperand (c : Config) (f : Fin 16) : Option Axis :=
  if h : f.val < c.numAxes ∧ f.val < 8 then some ⟨f.val, h.2⟩ else none

/-- `arg[i]`, used unchanged as a position (30_encoding.md R83). -/
def argWord (i : Axis) (s : State) : Word := s.host.arg.read i

/-- `arg[0]` as an identifier, `arg[0] mod 2^32` (30_encoding.md R83). -/
def argId (s : State) : Word := argWord 0 s

/-- Bit 0 of `arg[0]` as a direction: 1 is negative (30_encoding.md R83). -/
def argDir (s : State) : Dir := Dir.ofBit ((argWord 0 s).getLsbD 0)

/-- "bits 31:1 must be 0" (30_encoding.md R83). -/
def argDirClean (s : State) : Bool := (argWord 0 s).toNat < 2

/-- The first of LEGALITY's checks 3, 4 and 5 that an operation fails: axis, feature, argument
(47_host_interface.md R276). -/
def operandError (i : Instr) (s : State) : Option HostError :=
  if !(i.wellFormed s.cfg) then some .badAxis
  else match i with
    | .babystep _ =>
      if !s.cfg.babystepping then some .featureAbsent
      else if !argDirClean s then some .badArg
      else none
    | _ => none

/-- The operation a command OPC names (30_encoding.md R84), whatever the word's other bits. -/
def commandOf (w : Word) : Option Instr :=
  if formatOf w = .cmd then (axisInstr (opcOf w) (axisOf w)).or (plainInstr (opcOf w)) else none

/-- LEGALITY(w): the first code that applies, in the order of 47_host_interface.md R276. -/
def legality (w : Word) (s : State) : Option HostError :=
  match commandOf w with
  | none => some .illegalOpcode
  | some i =>
    if rsvOf w ≠ 0 then some .reservedField
    else if i.axisField = none ∧ (axisOf w).val ≠ 0 then some .badAxis
    else operandError i s

/-! ## Block descriptors (30_encoding.md R90) -/

/-- The word a list of four bytes holds at byte offset `k` (20_memory.md R63). -/
def wordAt (bs : List Byte) (k : Nat) : Word :=
  wordOfBytes (bs.getD k 0) (bs.getD (k + 1) 0) (bs.getD (k + 2) 0) (bs.getD (k + 3) 0)

/-- A descriptor from its 100 bytes: 25 little-endian words (30_encoding.md R90). -/
def Descriptor.ofBytes (bs : List Byte) : Option Descriptor :=
  if bs.length = 100 then
    some ⟨#v[wordAt bs 0, wordAt bs 4, wordAt bs 8, wordAt bs 12, wordAt bs 16, wordAt bs 20, wordAt bs 24,
      wordAt bs 28, wordAt bs 32, wordAt bs 36, wordAt bs 40, wordAt bs 44, wordAt bs 48, wordAt bs 52,
      wordAt bs 56, wordAt bs 60, wordAt bs 64, wordAt bs 68, wordAt bs 72, wordAt bs 76, wordAt bs 80,
      wordAt bs 84, wordAt bs 88, wordAt bs 92, wordAt bs 96]⟩
  else none

/-- The 100 bytes of a descriptor (30_encoding.md R90). -/
def Descriptor.toBytes (d : Descriptor) : List Byte := d.words.toList.flatMap bytesOfWord

/-- Word `k` of a descriptor, as an unsigned number. -/
def Descriptor.num (d : Descriptor) (k : Fin 25) : Nat := d.words[k].toNat

/-- Word 1, `flags` (30_encoding.md R90). -/
def Descriptor.flags (d : Descriptor) : Word := d.words[1]

/-- flags bit 0, SYNC. -/
def Descriptor.isSync (d : Descriptor) : Bool := d.flags.getLsbD 0

/-- flags bit 1, PAGE. -/
def Descriptor.isPage (d : Descriptor) : Bool := d.flags.getLsbD 1

/-- flags bits 7:4, SYNC_KIND. -/
def Descriptor.kindBits (d : Descriptor) : Nat := d.flags.toNat / 16 % 16

/-- The kind of sync block a SYNC_KIND value names; "Any other value is invalid" (30_encoding.md R90). -/
def SyncKind.ofCode : Nat → Option SyncKind
  | 0 => some .position
  | 1 => some .fan
  | 2 => some .laserPower
  | _ => none

/-- Word 16 + a of a descriptor. -/
def Descriptor.axisWord (d : Descriptor) (a : Axis) : Word := d.words[16 + a.val]

/-- The block a descriptor describes, before oversampling (30_encoding.md R90, 10_state.md R22). -/
def Descriptor.block (d : Descriptor) : BlockRec where
  id := d.words[0]
  flags := d.words[1]
  directionBits := d.words[2].setWidth 8
  steps := PerAxis.build (fun a => (d.axisWord a).toNat)
  stepEventCount := d.num 3
  accelerateBefore := d.num 4
  decelerateStart := d.num 5
  initialRate := d.num 6
  nominalRate := d.num 7
  finalRate := d.num 8
  accelerationRate := d.num 9
  accelTimeInverse := d.num 10
  decelTimeInverse := d.num 11
  laAdvanceRate := d.num 12
  laScaling := d.num 13 % 256
  maxAdvSteps := d.num 14
  finalAdvSteps := d.num 15
  syncPosition := PerAxis.build d.axisWord
  syncPayload := d.words[24]

end Sys2Proof.Machine
end

