-- ==== Sys2Proof/Machine/Flags.lean ====
section
/-! DEFINITION. Every status bit the spec computes, and the packed registers (20_memory.md R62).

The block has no condition-code register (10_state.md R20): its flags are the bits of STATUS and of the packed
read-only registers. -/

namespace Sys2Proof.Machine

/-- The idle predicate: no block loaded, the planner queue empty, every shaped axis's queue empty
(47_host_interface.md R277). -/
def idle (s : State) : Bool :=
  s.seq.current.isNone && s.pq.isEmpty && s.cfg.shapedAxes.all (fun a => (s.shaping.queue.read a).isEmpty)

/-- STATUS bit 6: some shaping queue is non-empty or some `shaping_delta` is not 0 (20_memory.md R62). -/
def shapingPending (s : State) : Bool :=
  s.cfg.shapedAxes.any (fun a => !(s.shaping.queue.read a).isEmpty || s.shaping.delta.read a != 0)

/-- Some babystep is pending (20_memory.md R62, 40_isr_scheduler.md R112). -/
def babyDue (s : State) : Bool := s.cfg.liveAxes.any (fun a => s.babyPending.read a != 0)

/-- STATUS (20_memory.md R62). -/
def statusWord (s : State) : Word :=
  BitVec.ofNat 32 (packBits [
    s.host.cmdPending, s.host.err, s.seq.current.isSome, s.seq.abortCurrentBlock, s.host.fault,
    s.host.lostStepRisk, shapingPending s, babyDue s, idle s])

/-- ENGINE_INFO (20_memory.md R62): bits 2:0 steps_per_isr_shift, 5:3 overrun_shift, 7:6 oversampling. -/
def engineInfoWord (s : State) : Word :=
  BitVec.ofNat 32 (s.timer.stepsPerIsrShift % 8 + 8 * (s.timer.overrunShift % 8) + 64 * (s.timer.oversampling % 4))

/-- One bit per axis, those of axes at or above NUM_AXES reading 0 (20_memory.md R62). -/
def axisBitsNum (c : Config) (f : Axis → Bool) : Nat := packBits (allAxes.map (fun a => a.val < c.numAxes && f a))

/-- DIR_STATE (20_memory.md R62): bits 7:0 dir_out, 15:8 last_direction_bits. -/
def dirStateWord (s : State) : Word :=
  BitVec.ofNat 32 (axisBitsNum s.cfg (fun a => s.pins.dirOut.read a) +
    256 * axisBitsNum s.cfg (fun a => s.bres.lastDirectionBits.getLsbD a.val))

/-- ENDSTOP_HIT (20_memory.md R62). -/
def endstopHitWord (s : State) : Word :=
  BitVec.ofNat 32 (axisBitsNum s.cfg (fun a => s.host.endstopHit.getLsbD a.val))

/-- `zext_32(enable_line bits)`: bit l is enable_line[l], "the other bits read 0" (20_memory.md R62,
46_direction_enable.md R266). -/
def enableWord (s : State) : Word := BitVec.ofNat 32 (s.pins.enableLines.toNat % 2 ^ s.cfg.numEnableLines)

/-- ENDSTOP_POS a, 0 for an axis at or above NUM_AXES (20_memory.md R62). -/
def endstopPosWord (a : Axis) (s : State) : Word := if a.val < s.cfg.numAxes then s.host.endstopPos.read a else 0

/-- A truth value as a result word. -/
def boolWord (b : Bool) : Word := if b then 1 else 0

end Sys2Proof.Machine
end

