-- ==== Sys2Proof/Machine/Commands.lean ====
section
/-! DEFINITION. What each command does when it is performed (47_host_interface.md R279 to R288,
46_direction_enable.md R266, R267): PERFORM of 47_host_interface.md R275.

The handshake of a CMD write (ISSUE) and SYNC_PERFORM stand around these meanings, in Machine/Moves.lean. Each
meaning raises the HostErrors its rule lists (log entry 6). -/

namespace Sys2Proof.Machine

/-- A command's body `k` runs unless its operands raise a HostError, and then nothing of it happens
(60_exceptions.md R313: "either runs completely or has no effect"). -/
def perform (i : Instr) (s : State) (k : State → State) : Host.Outcome State Fault Refusal :=
  match operandError i s with
  | some e => .next (raiseHostError e s)
  | none => .next (k s)

/-- A command on axis field `f`: the body gets the axis. -/
def performAxis (i : Instr) (f : Fin 16) (s : State) (k : Axis → State → State) :
    Host.Outcome State Fault Refusal :=
  perform i s (fun t => match axisOperand t.cfg f with
    | some a => k a t
    | none => raiseHostError .badAxis t)

/-- A synchronizing command runs only when the engine is idle; until then it stays pending
(47_host_interface.md R277). -/
def whenIdle (k : State → State) (s : State) : State := if idle s then k s else holdCommand s

/-- NOP: `result <- 0` (47_host_interface.md R279). -/
def execNop (s : State) : Host.Outcome State Fault Refusal := perform .nop s (setResult 0)

/-- GET_POSITION: `result <- count_position[a]` (47_host_interface.md R280). -/
def execGetPosition (axis : Fin 16) (s : State) : Host.Outcome State Fault Refusal :=
  performAxis (.getPosition axis) axis s (fun a =>
    whenIdle (fun t => setResult (t.bres.countPosition.read a) t))

/-- Every axis's position from its argument register, in one step (47_host_interface.md R281). -/
def loadPositions (s : State) : State :=
  { s with bres.countPosition := PerAxis.build (fun a =>
      if a.val < s.cfg.numAxes then argWord a s else s.bres.countPosition.read a) }

/-- SET_POSITION (47_host_interface.md R281). -/
def execSetPosition (s : State) : Host.Outcome State Fault Refusal :=
  perform .setPosition s (whenIdle (fun t => setResult 0 (loadPositions t)))

/-- SET_AXIS_POSITION: `count_position[a] <- arg[0]` (47_host_interface.md R282). -/
def execSetAxisPosition (axis : Fin 16) (s : State) : Host.Outcome State Fault Refusal :=
  performAxis (.setAxisPosition axis) axis s (fun a =>
    whenIdle (fun t => setResult 0 (setCountPosition a (argWord 0 t) t)))

/-- The block whose id is `arg[0]` is loaded (47_host_interface.md R283). -/
def blockBusy (s : State) : Bool :=
  match s.seq.current with
  | some b => b.id == argId s
  | none => false

/-- IS_BLOCK_BUSY (47_host_interface.md R283). -/
def execIsBlockBusy (s : State) : Host.Outcome State Fault Refusal :=
  perform .isBlockBusy s (fun t => setResult (boolWord (blockBusy t)) t)

/-- `abort_current_block <- 1` (47_host_interface.md R284, R295). -/
def requestAbort (s : State) : State := { s with seq.abortCurrentBlock := true }

/-- ABORT (47_host_interface.md R284). -/
def execAbort (s : State) : Host.Outcome State Fault Refusal :=
  perform .abort s (fun t => setResult 0 (requestAbort t))

/-- One babystep request: counted unless the bound would be passed, and then dropped (47_host_interface.md R285). -/
def requestBabystep (a : Axis) (s : State) : State :=
  let n := s.babyPending.read a + (argDir s).sign
  if n.natAbs ≤ s.cfg.babystepMax then setResult 1 { s with babyPending := s.babyPending.write a n }
  else setResult 0 s

/-- BABYSTEP (47_host_interface.md R285). -/
def execBabystep (axis : Fin 16) (s : State) : Host.Outcome State Fault Refusal :=
  performAxis (.babystep axis) axis s requestBabystep

/-- Switches the driver line of axis `a` to `on`: `l <- EN_MAP[a]`, and a record when the level changes
(46_direction_enable.md R266, R267). -/
def driveEnable (a : Axis) (on : Bool) (s : State) : State :=
  let l := s.cfg.enMap.read a
  if s.pins.enableLines.getLsbD l = on then s
  else emit (.enable l on) { s with pins.enableLines := setBit s.pins.enableLines l on }

/-- The enable lines become the result (46_direction_enable.md R266, R267). -/
def reportEnable (s : State) : State := setResult (enableWord s) s

/-- ENABLE (46_direction_enable.md R266). -/
def execEnable (axis : Fin 16) (s : State) : Host.Outcome State Fault Refusal :=
  performAxis (.enable axis) axis s (fun a t => reportEnable (driveEnable a true t))

/-- DISABLE (46_direction_enable.md R267). -/
def execDisable (axis : Fin 16) (s : State) : Host.Outcome State Fault Refusal :=
  performAxis (.disable axis) axis s (fun a t => reportEnable (driveEnable a false t))

/-- CLEAR_ENDSTOPS: `endstop_hit <- 0`; `endstop_pos` is kept (47_host_interface.md R286). -/
def execClearEndstops (s : State) : Host.Outcome State Fault Refusal :=
  perform .clearEndstops s (fun t => setResult 0 { t with host.endstopHit := 0 })

/-- IS_IDLE: `result <- IDLE ? 1 : 0` (47_host_interface.md R287). -/
def execIsIdle (s : State) : Host.Outcome State Fault Refusal :=
  perform .isIdle s (fun t => setResult (boolWord (idle t)) t)

/-- CLEAR_DIAG: `overrun_count <- 0; lost_step_risk <- 0` (47_host_interface.md R288). -/
def execClearDiag (s : State) : Host.Outcome State Fault Refusal :=
  perform .clearDiag s (fun t =>
    setResult 0 { t with host := { t.host with overrunCount := 0, lostStepRisk := false } })

end Sys2Proof.Machine
end

