-- ==== Sys2Proof/Machine/Ports.lean ====
section
/-! DEFINITION. The endstop input (47_host_interface.md R295) and the planner port's two operations
(47_host_interface.md R300, R301). -/

namespace Sys2Proof.Machine

/-- ENDSTOP(a): records the trigger position, marks the axis and raises the abort (47_host_interface.md R295). -/
def endstopTriggered (a : Axis) (s : State) : State :=
  requestAbort { s with host := { s.host with
    endstopPos := s.host.endstopPos.write a (s.bres.countPosition.read a)
    endstopHit := setBit s.host.endstopHit a.val true } }

/-- ENDSTOP (EIN 0xC0). "An EIN word with ... AXIS ≥ NUM_AXES is ignored: it changes no state" (30_encoding.md R89). -/
def execEndstop (axis : Fin 16) (s : State) : Host.Outcome State Fault Refusal :=
  match axisOperand s.cfg axis with
  | some a => .next (endstopTriggered a s)
  | none => .next s

/-- GET_CURRENT_BLOCK (PLN 0xE0): "returns the head of pq, or EMPTY if pq is empty. It does not remove the head"
(47_host_interface.md R300). What it returns is its reply (log entry 8). -/
def execGetCurrentBlock (s : State) : Host.Outcome State Fault Refusal :=
  .next (engineStep (fun s => setReply (.block (plannerHead s)) s) s)

/-- DISCARD_CURRENT_BLOCK (PLN 0xE1) "removes the head of pq" (47_host_interface.md R301). -/
def execDiscardCurrentBlock (s : State) : Host.Outcome State Fault Refusal :=
  .next (engineStep plannerDiscard s)

end Sys2Proof.Machine
end

