-- ==== Sys2Proof/Machine/Babystep.lean ====
section
/-! DEFINITION. Babystepping (45_aux_pulse.md R242, R243). -/

namespace Sys2Proof.Machine

/-- The least axis with a babystep pending (45_aux_pulse.md R242). -/
def babyAxis (s : State) : Option Axis := s.cfg.liveAxes.find? (fun a => s.babyPending.read a != 0)

/-- The direction of a pending count: its sign. -/
def babyDir (n : Int) : Dir := if n < 0 then .neg else .pos

/-- BABYSTEP_ISR: one pulse on the least axis with a babystep pending, and DIR restored after it
(45_aux_pulse.md R242). With none pending the operation is not enabled and nothing happens (log entry 7). -/
def babystepIsr (s : State) : State :=
  match babyAxis s with
  | none => s
  | some a =>
    let n := s.babyPending.read a
    let d := babyDir n
    let saved := s.pins.dirOut.read a
    let s1 := physicalPulse a d s
    driveDir a saved { s1 with babyPending := s1.babyPending.write a (n - d.sign) }

/-- BABYSTEP_ISR as an operation of its own (EVT 0x86). -/
def execBabystepIsr (s : State) : Host.Outcome State Fault Refusal :=
  .next (engineStep babystepIsr s)

end Sys2Proof.Machine
end

