-- ==== Sys2Proof/Machine/Interval.lean ====
section
/-! DEFINITION. The timer interval calculator (43_timer_interval.md). -/

namespace Sys2Proof.Machine

/-- BASE_INTERVAL(r): ticks between steps at rate `r`; a rate of 0 or below the floor is "treated as 'stopped'"
(43_timer_interval.md R170). -/
def baseInterval (c : Config) (r : Nat) : Nat :=
  if r = 0 ∨ r < c.minStepRate then c.maxInterval else max 1 (min (c.timerRate / r) c.maxInterval)

/-- RATE_OF(x) = TIMER_RATE div x (43_timer_interval.md R175). -/
def rateOf (c : Config) (x : Nat) : Nat := c.timerRate / x

/-- The multi-step search of R172: raises `k` while it is below the ceiling (`fuel` steps are left) and the shifted
rate is above the limit. -/
def multiStepShift (limit r : Nat) : Nat → Nat → Nat
  | 0, k => k
  | fuel + 1, k => if r >>> k > limit then multiStepShift limit r fuel (k + 1) else k

/-- The shift `s = max(k, overrun_shift)` of CALC_TIMER_INTERVAL (43_timer_interval.md R172). -/
def isrShift (c : Config) (overrunShift r : Nat) : Nat :=
  max (multiStepShift c.maxStepIsrRate r c.maxMultistepShift 0) overrunShift

/-- CALC_TIMER_INTERVAL(r): writes `steps_per_isr_shift` and returns the interval (43_timer_interval.md R172). -/
def calcTimerInterval (r : Nat) (s : State) : State × Nat :=
  let k := isrShift s.cfg s.timer.overrunShift r
  ({ s with timer.stepsPerIsrShift := k }, baseInterval s.cfg (r >>> k))

/-- LA_INTERVAL(r) = BASE_INTERVAL(r) (43_timer_interval.md R174). -/
def laInterval (c : Config) (r : Nat) : Nat := baseInterval c r

/-- The doubling search of OVERSAMPLING_SHIFT (43_timer_interval.md R176), with `fuel` doublings left. -/
def oversampleSearch (floorRate : Nat) : Nat → Nat → Nat → Nat
  | 0, o, _ => o
  | fuel + 1, o, r => if r < floorRate then oversampleSearch floorRate fuel (o + 1) (r <<< 1) else o

/-- OVERSAMPLING_SHIFT of a block with this nominal rate (43_timer_interval.md R176). -/
def oversamplingShift (c : Config) (nominalRate : Nat) : Nat :=
  if c.adaptiveSmoothing then oversampleSearch c.smoothMinIsrRate c.maxOversampling 0 nominalRate else 0

/-- APPLY_OVERSAMPLING(blk, o) (43_timer_interval.md R176). -/
def applyOversampling (o : Nat) (b : BlockRec) : BlockRec :=
  { b with
    stepEventCount := b.stepEventCount <<< o
    accelerateBefore := b.accelerateBefore <<< o
    decelerateStart := b.decelerateStart <<< o
    initialRate := b.initialRate <<< o
    nominalRate := b.nominalRate <<< o
    finalRate := b.finalRate <<< o
    accelerationRate := b.accelerationRate <<< o
    laAdvanceRate := b.laAdvanceRate <<< o }

end Sys2Proof.Machine
end

