-- ==== Sys2Proof/Machine/Advance.lean ====
section
/-! DEFINITION. Linear advance (45_aux_pulse.md R220 to R228). -/

namespace Sys2Proof.Machine

/-- LA_SET(iv) schedules the sub-task; "A running countdown is not shortened" (45_aux_pulse.md R223). -/
def laSet (iv : Nat) (s : State) : State :=
  { s with
    la.interval := some iv
    timer.nextAdv := some (s.timer.nextAdv.getD iv) }

/-- LA_ACCEL(rate) (45_aux_pulse.md R225). The advance-compensated rate is summed exactly: DEDUCED (log entry 17). -/
def laAccel (b : BlockRec) (rate : Nat) (s : State) : State :=
  let laRate := if s.la.advanceSteps.toInt < b.maxAdvSteps then b.laAdvanceRate else 0
  laSet (laInterval s.cfg ((rate + laRate) >>> b.laScaling)) s

/-- LA_CRUISE (45_aux_pulse.md R226). -/
def laCruise (b : BlockRec) (s : State) : State := laSet (laInterval s.cfg (b.nominalRate >>> b.laScaling)) s

/-- E turns round: `e_reversed`, `count_direction[E_AXIS]` and `last_direction_bits[E_AXIS]` (45_aux_pulse.md R227). -/
def laReverse (reverse : Bool) (s : State) : State :=
  let e := s.cfg.eAxis
  { s with
    la.eReversed := reverse
    bres.countDirection := s.bres.countDirection.write e (s.bres.countDirection.read e).flip
    bres.lastDirectionBits :=
      setBit s.bres.lastDirectionBits e.val (!s.bres.lastDirectionBits.getLsbD e.val) }

/-- LA_DECEL(rate): E may run backwards to give back the advance (45_aux_pulse.md R227). -/
def laDecel (b : BlockRec) (rate : Nat) (s : State) : State :=
  let laRate := if s.la.advanceSteps.toInt > b.finalAdvSteps then b.laAdvanceRate else 0
  if laRate = rate then { s with la.interval := none }
  else
    let reverse : Bool := laRate > rate
    let diff := if reverse then laRate - rate else rate - laRate
    let s1 := laSet (laInterval s.cfg (diff >>> b.laScaling)) s
    if reverse = s1.la.eReversed then s1 else laReverse reverse s1

/-- LA_LOAD at the end of LOAD (45_aux_pulse.md R222). `la_advance_steps` is not reset. -/
def laLoad (b : BlockRec) (s : State) : State :=
  if b.laAdvanceRate = 0 then
    { s with
      la.active := false, la.eReversed := false, la.interval := none
      timer.nextAdv := none }
  else
    laAccel b b.initialRate
      { s with
        la.active := true, la.eReversed := false
        la.dividend := s.bres.advanceDividend.read s.cfg.eAxis <<< b.laScaling
        la.deltaError := -(b.stepEventCount : Int)
        timer.nextAdv := none }

/-- ADVANCE_ISR: one linear-advance step decision (45_aux_pulse.md R224). -/
def advanceIsr (s : State) : State :=
  if s.la.active then
    let de := s.la.deltaError + s.la.dividend
    let s1 := { s with la.deltaError := de }
    if 0 ≤ de then
      let e := s.cfg.eAxis
      let d := s.bres.countDirection.read e
      let s2 := physicalPulse e d { s1 with la.deltaError := de - s.bres.advanceDivisor }
      { s2 with la.advanceSteps := wrapStep s2.la.advanceSteps d }
    else s1
  else s

/-- ADVANCE_ISR as an operation of its own (EVT 0x85). -/
def execAdvanceIsr (s : State) : Host.Outcome State Fault Refusal :=
  .next (engineStep advanceIsr s)

end Sys2Proof.Machine
end

