-- ==== Sys2Proof/Machine/Shaping.lean ====
section
/-! DEFINITION. Input shaping (45_aux_pulse.md R230 to R240) and the routing of a logical step (41_bresenham.md R135). -/

namespace Sys2Proof.Machine

/-- `shaping_delta[a] <- v`. -/
def setShapingDelta (a : Axis) (v : Int) (s : State) : State :=
  { s with shaping.delta := s.shaping.delta.write a v }

/-- `shaping_queue[a] <- q`. -/
def setShapingQueue (a : Axis) (q : List Echo) (s : State) : State :=
  { s with shaping.queue := s.shaping.queue.write a q }

/-- SHAPE_APPLY(a, amt): adds one share to the axis's accumulator and emits a pulse once it passes half a step
(45_aux_pulse.md R234). -/
def shapeApply (a : Axis) (amt : Int) (s : State) : State :=
  let v := s.shaping.delta.read a + amt
  let s1 := setShapingDelta a v s
  if 64 ≤ v then setShapingDelta a (v - 128) (physicalPulse a .pos s1)
  else if v < -64 then setShapingDelta a (v + 128) (physicalPulse a .neg s1)
  else s1

/-- The echo's share of a step: `d · SHAPING_FACTOR2[a]` (45_aux_pulse.md R233). -/
def echoShare (c : Config) (a : Axis) (d : Dir) : Int := d.sign * c.shapingFactor2 a

/-- The head echo of axis `a` is popped and applied at once: "forced out early" (45_aux_pulse.md R235). -/
def forceEcho (a : Axis) (s : State) : State :=
  match s.shaping.queue.read a with
  | [] => s
  | e :: rest => shapeApply a (echoShare s.cfg a e.dir) (setShapingQueue a rest s)

/-- The queue of axis `a` is so full that an echo must be forced out (45_aux_pulse.md R235). -/
def queueNearlyFull (a : Axis) (s : State) : Bool :=
  s.cfg.shapingQueueCap - s.cfg.shapingForceMargin ≤ (s.shaping.queue.read a).length

/-- SHAPE_PRIMARY(a, d): a logical step of a shaped axis (45_aux_pulse.md R235). The echo is pushed with the whole
SHAPING_DELAY, also where that is 2^32 or more and so beyond the u32 `remaining` of 10_state.md R41, which no stated
range excludes: DESIGN CHOICE (log entry 29). -/
def shapePrimary (a : Axis) (d : Dir) (s : State) : State :=
  let s1 := if queueNearlyFull a s then forceEcho a s else s
  let s2 := shapeApply a (d.sign * s.cfg.shapingFactor1.read a) s1
  setShapingQueue a (s2.shaping.queue.read a ++ [⟨d, s.cfg.shapingDelay.read a⟩]) s2

/-- STEP_AXIS(a, d) delivers one logical step (41_bresenham.md R135). -/
def stepAxis (a : Axis) (d : Dir) (s : State) : State :=
  if s.cfg.inputShaping && s.cfg.shaped.read a then shapePrimary a d s else physicalPulse a d s

/-- The inner loop of SHAPING_ISR: pops and applies the echoes at the head of `q`, the queue of axis `a`, that are
due (45_aux_pulse.md R233). -/
def drainDue (a : Axis) : List Echo → State → State
  | [], s => s
  | e :: rest, s =>
    if e.remaining = 0 then drainDue a rest (shapeApply a (echoShare s.cfg a e.dir) (setShapingQueue a rest s))
    else s

/-- SHAPING_ISR: applies the echoes that are due, axis by axis (45_aux_pulse.md R233). -/
def shapingIsr (s : State) : State :=
  s.cfg.shapedAxes.foldl (fun t a => drainDue a (t.shaping.queue.read a) t) s

/-- SHAPING_FLUSH: every shaped axis's queue and accumulator are emptied (45_aux_pulse.md R238). -/
def shapingFlush (s : State) : State :=
  { s with shaping := {
      delta := PerAxis.build (fun a => if s.cfg.shaped.read a then 0 else s.shaping.delta.read a)
      queue := PerAxis.build (fun a => if s.cfg.shaped.read a then [] else s.shaping.queue.read a) } }

/-- SHAPING_ISR as an operation of its own (EVT 0x84). -/
def execShapingIsr (s : State) : Host.Outcome State Fault Refusal :=
  .next (engineStep shapingIsr s)

end Sys2Proof.Machine
end

