-- ==== Sys2Proof/Machine/Direction.lean ====
section
/-! DEFINITION. Direction control at block load (46_direction_enable.md R260, R261). -/

namespace Sys2Proof.Machine

/-- `bits[NUM_AXES−1:0]`, zero-extended (46_direction_enable.md R261). -/
def liveBits (c : Config) (bits : BitVec 8) : BitVec 8 := bits &&& BitVec.ofNat 8 (2 ^ c.numAxes - 1)

/-- One axis of SET_DIRECTIONS's second loop: the DIR pin follows a changed bit, but for a shaped axis
(46_direction_enable.md R261). -/
def setAxisDir (bits last : BitVec 8) (s : State) (a : Axis) : State :=
  if bits.getLsbD a.val = last.getLsbD a.val then s
  else if s.cfg.inputShaping && s.cfg.shaped.read a then s
  else driveDir a (bits.getLsbD a.val) s

/-- SET_DIRECTIONS(bits) (46_direction_enable.md R261). -/
def setDirections (bits : BitVec 8) (s : State) : State :=
  let s1 := { s with
    bres.countDirection := PerAxis.build (fun a =>
      if a.val < s.cfg.numAxes then Dir.ofBit (bits.getLsbD a.val) else s.bres.countDirection.read a) }
  let last := s.bres.lastDirectionBits
  if liveBits s.cfg bits = liveBits s.cfg last then s1
  else
    let s2 := s.cfg.liveAxes.foldl (setAxisDir bits last) s1
    { s2 with bres.lastDirectionBits := liveBits s.cfg bits }

end Sys2Proof.Machine
end

