-- ==== Sys2Proof/Machine/Velocity.lean ====
section
/-! DEFINITION. The velocity profile evaluator (42_velocity_profile.md). -/

namespace Sys2Proof.Machine

/-! ## Trapezoid (SCURVE false) -/

/-- TRAP_ACCEL_RATE(t) (42_velocity_profile.md R150). -/
def trapAccelRate (c : Config) (b : BlockRec) (t : Nat) : Nat :=
  min (b.initialRate + (b.accelerationRate * t) >>> c.accelFrac) b.nominalRate

/-- TRAP_DECEL_RATE(t) (42_velocity_profile.md R153). -/
def trapDecelRate (c : Config) (b : BlockRec) (accStepRate t : Nat) : Nat :=
  let dec := (b.accelerationRate * t) >>> c.accelFrac
  if dec < accStepRate then max (accStepRate - dec) b.finalRate else b.finalRate

/-! ## S-curve (SCURVE true) -/

/-- BEZ_COEFFS(V0, V1): the phase's coefficients (42_velocity_profile.md R154). `bezier_2nd_half` is not written
here. -/
def bezCoeffs (v0 v1 : Nat) (z : Bezier) : Bezier :=
  let δ : Int := (v1 : Int) - v0
  { z with v0 := v0, v1 := v1, a := 6 * δ, b := -15 * δ, c := 10 * δ, f := v0 }

/-- `D = 2^BEZ_FRAC` (42_velocity_profile.md R155). -/
def bezOne (c : Config) : Nat := 2 ^ c.bezFrac

/-- BEZ_REF(τ): the exact floor of the curve at t = τ / D (42_velocity_profile.md R156). -/
def bezRef (c : Config) (z : Bezier) (τ : Nat) : Int :=
  let d : Int := bezOne c
  let t : Int := τ
  (z.f * d ^ 5 + z.c * t ^ 3 * d ^ 2 + z.b * t ^ 4 * d + z.a * t ^ 5) / d ^ 5

/-- `x` brought into the set R157 draws from: within BEZIER_TOL of BEZ_REF(τ) and between `bz_V0` and `bz_V1`. -/
def bezAdmit (c : Config) (z : Bezier) (τ : Nat) (x : Int) : Int :=
  max (max (min z.v0 z.v1 : Nat) (bezRef c z τ - c.bezierTol))
    (min (min (max z.v0 z.v1 : Nat) (bezRef c z τ + c.bezierTol)) x)

/-- A rising draw for every phase time up to τ: `bz_V0` at 0 (law 3 of R157), and at each later time the free value
brought into its set, but never below the value before it (law 2). Every function the three laws of R157 allow is
one of these, for some free value. -/
def bezRise (c : Config) (z : Bezier) : Nat → Int
  | 0 => z.v0
  | τ + 1 => max (bezRise c z τ) (bezAdmit c z (τ + 1) (Config.freeBezier (τ + 1) z.v0 z.v1))

/-- A falling draw, likewise: never above the value before it (law 2 of R157 when V1 < V0). -/
def bezFall (c : Config) (z : Bezier) : Nat → Int
  | 0 => z.v0
  | τ + 1 => min (bezFall c z τ) (bezAdmit c z (τ + 1) (Config.freeBezier (τ + 1) z.v0 z.v1))

/-- BEZ_EVAL(elapsed, inverse) (42_velocity_profile.md R157): the endpoint once τ ≥ D; before that a value the spec
leaves open within BEZIER_TOL of BEZ_REF (FREE VALUE, log entry 4), which for BEZIER_TOL = 0 is BEZ_REF itself. -/
def bezEval (c : Config) (z : Bezier) (elapsed inverse : Nat) : Nat :=
  let τ := elapsed * inverse
  if bezOne c ≤ τ then z.v1
  else if c.bezierTol = 0 then (bezRef c z τ).toNat
  else if z.v0 ≤ z.v1 then (bezRise c z τ).toNat
  else (bezFall c z τ).toNat

/-- SCURVE_ACCEL_RATE (42_velocity_profile.md R158). -/
def scurveAccelRate (b : BlockRec) (s : State) : Nat :=
  bezEval s.cfg s.bez s.timer.accelerationTime b.accelTimeInverse

/-- SCURVE_DECEL_RATE (42_velocity_profile.md R159): the first entry computes the second half's coefficients and
returns the exact endpoint rate. -/
def scurveDecelRate (b : BlockRec) (s : State) : State × Nat :=
  if s.bez.secondHalf then (s, bezEval s.cfg s.bez s.timer.decelerationTime b.decelTimeInverse)
  else ({ s with bez := { bezCoeffs b.nominalRate b.finalRate s.bez with secondHalf := true } }, b.nominalRate)

/-- The rate of the acceleration phase (44_block_sequencer.md R192). -/
def accelRate (b : BlockRec) (s : State) : Nat :=
  if s.cfg.scurve then scurveAccelRate b s else trapAccelRate s.cfg b s.timer.accelerationTime

/-- The rate of the deceleration phase (44_block_sequencer.md R192). -/
def decelRate (b : BlockRec) (s : State) : State × Nat :=
  if s.cfg.scurve then scurveDecelRate b s
  else (s, trapDecelRate s.cfg b s.timer.accStepRate s.timer.decelerationTime)

end Sys2Proof.Machine
end

