-- ==== Sys2Proof/Machine/Sequencer.lean ====
section
/-! DEFINITION. The block sequencer (44_block_sequencer.md R190 to R205) and BRESENHAM_INIT (41_bresenham.md R133). -/

namespace Sys2Proof.Machine

/-! ## The states of a motion block (44_block_sequencer.md R191) -/

/-- The source's states, a function of the state and not extra state (44_block_sequencer.md R191). -/
inductive BlockStage where
  | empty
  | accelerating
  | cruising
  | decelerating
  | complete
  deriving DecidableEq, Repr

/-- The state a motion block is in; COMPLETE wins over DECELERATING (44_block_sequencer.md R191). -/
def blockStage (s : State) : BlockStage :=
  match s.seq.current with
  | none => .empty
  | some b =>
    if b.stepEventCount ≤ s.seq.stepEventsCompleted then .complete
    else if s.seq.stepEventsCompleted < b.accelerateBefore then .accelerating
    else if s.seq.stepEventsCompleted < b.decelerateStart then .cruising
    else .decelerating

/-! ## Validity (44_block_sequencer.md R198) -/

/-- Condition 1 of R198: flags bits 31:8 and 3:2 are 0, and not SYNC and PAGE together. -/
def validFlags (d : Descriptor) : Bool :=
  d.flags.toNat / 256 == 0 && d.flags.toNat / 4 % 4 == 0 && !(d.isSync && d.isPage)

/-- Condition 2 of R198: SYNC_KIND is at most 2 for a sync block and 0 otherwise. -/
def validKind (d : Descriptor) : Bool := if d.isSync then d.kindBits ≤ 2 else d.kindBits == 0

/-- Condition 3 of R198: the reserved bits of the direction and la_scaling words are 0. DESIGN CHOICE: word 13 is asked
also where LIN_ADVANCE is false and 30_encoding.md R91 says it is ignored (log entry 30). -/
def validReserved (d : Descriptor) : Bool := d.num 2 / 256 == 0 && d.num 13 / 256 == 0

/-- Condition 4 of R198: `steps[a] ≤ step_event_count` on every axis. -/
def validSteps (c : Config) (b : BlockRec) : Bool := c.liveAxes.all (fun a => b.steps.read a ≤ b.stepEventCount)

/-- Condition 5 of R198: `accelerate_before ≤ decelerate_start ≤ step_event_count`. -/
def validPhases (b : BlockRec) : Bool :=
  b.accelerateBefore ≤ b.decelerateStart && b.decelerateStart ≤ b.stepEventCount

/-- Conditions 6 and 7 of R198, on the block after APPLY_OVERSAMPLING: the event count is at most 2^30 − 1 and every
shifted field is below 2^32 (43_timer_interval.md R176). DESIGN CHOICE: word 12 is asked also where LIN_ADVANCE is false,
and word 9 also where SCURVE is true, though 30_encoding.md R91 says they are then ignored (log entry 30). -/
def validShifted (b : BlockRec) : Bool :=
  b.stepEventCount ≤ 2 ^ 30 - 1 && b.stepEventCount < 2 ^ 32 && b.accelerateBefore < 2 ^ 32 &&
  b.decelerateStart < 2 ^ 32 && b.initialRate < 2 ^ 32 && b.nominalRate < 2 ^ 32 && b.finalRate < 2 ^ 32 &&
  b.accelerationRate < 2 ^ 32 && b.laAdvanceRate < 2 ^ 32

/-- Condition 8 of R198: with linear advance, `la_scaling ≤ 31` and the scaled E dividend is at most the divisor.
It stands without "not SYNC" in R198 and is checked of every block (log entry 23). -/
def validAdvance (c : Config) (o : Nat) (b : BlockRec) : Bool :=
  !c.linAdvance || b.laAdvanceRate == 0 ||
    (b.laScaling ≤ 31 && (2 * b.steps.read c.eAxis) <<< b.laScaling ≤ 2 * (b.stepEventCount <<< o))

/-- VALID(b) (44_block_sequencer.md R198). -/
def valid (c : Config) (d : Descriptor) : Bool :=
  let b := d.block
  let o := oversamplingShift c b.nominalRate
  validFlags d && validKind d && validReserved d &&
  (d.isSync || (validSteps c b && validPhases b && validShifted (applyOversampling o b))) &&
  validAdvance c o b

/-! ## Loading (44_block_sequencer.md R194 to R199) -/

/-- BRESENHAM_INIT(blk) (41_bresenham.md R133). -/
def bresenhamInit (b : BlockRec) (s : State) : State :=
  { s with
    bres.advanceDivisor := 2 * b.stepEventCount
    bres.advanceDividend := PerAxis.build (fun a =>
      if a.val < s.cfg.numAxes then 2 * b.steps.read a else s.bres.advanceDividend.read a)
    bres.deltaError := PerAxis.build (fun a =>
      if a.val < s.cfg.numAxes then -(b.stepEventCount : Int) else s.bres.deltaError.read a) }

/-- The middle of LOAD: the timer and S-curve state of a fresh block (44_block_sequencer.md R199). -/
def loadTimers (b : BlockRec) (s : State) : State :=
  { s with
    timer := { s.timer with
      overrunShift := if s.cfg.overrunDeescalate = .atBlockLoad then 0 else s.timer.overrunShift
      ticksNominal := none
      nominalShift := 0
      decelerationTime := 0
      accStepRate := b.initialRate }
    bez :=
      if s.cfg.scurve then { bezCoeffs b.initialRate b.nominalRate s.bez with secondHalf := false }
      else { s.bez with secondHalf := false } }

/-- LOAD(b) starts a motion block and returns its first interval (44_block_sequencer.md R199). -/
def loadBlock (d : Descriptor) (s : State) : State × Nat :=
  let o := oversamplingShift s.cfg d.block.nominalRate
  let b := applyOversampling o d.block
  let s1 := { s with
    seq := { s.seq with current := some b, stepEventsCompleted := 0 }
    timer.oversampling := o }
  let s2 := loadTimers b (setDirections b.directionBits (bresenhamInit b s1))
  let (s3, interval) := calcTimerInterval b.initialRate s2
  let s4 := { s3 with timer.accelerationTime := interval }
  (if s.cfg.linAdvance then laLoad b s4 else s4, interval)

/-- APPLY_SYNC(b) (44_block_sequencer.md R196). VALID has refused every other SYNC_KIND before. -/
def applySync (d : Descriptor) (s : State) : State :=
  match SyncKind.ofCode d.kindBits with
  | some .position =>
    emit (.syncOut .position 0) { s with
      bres.countPosition := PerAxis.build (fun a =>
        if a.val < s.cfg.numAxes then d.block.syncPosition.read a else s.bres.countPosition.read a) }
  | some k => emit (.syncOut k d.block.syncPayload) s
  | none => s

/-- The loop of LOAD_NEXT (44_block_sequencer.md R194) over the planner queue `q` of the state it runs on: sync
blocks are applied and discarded until a motion block, a fault or the queue's end. It returns the interval, at the
queue's end IDLE_INTERVAL as it stands (R195). DESIGN CHOICE (log entry 28): that is so above MAX_INTERVAL too, and where
IDLE_INTERVAL is 0, though R190 says that the interval is at least 1. -/
def loadFrom : List Descriptor → State → State × Nat
  | [], s => (s, s.cfg.idleInterval)
  | d :: rest, s =>
    if d.isPage && !d.isSync then (raiseFault .pageBlock s, 0)
    else if !valid s.cfg d then (raiseFault .invalidBlock s, 0)
    else if d.isSync then loadFrom rest (emit (.discard d.block.id) (plannerDiscard (applySync d s)))
    else loadBlock d s

/-- LOAD_NEXT (44_block_sequencer.md R194). -/
def loadNext (s : State) : State × Nat := loadFrom s.pq s

/-! ## Running and ending a block -/

/-- DISCARD() releases the loaded block `b` (44_block_sequencer.md R203). -/
def discardBlock (b : BlockRec) (s : State) : State :=
  let s1 := emit (.discard b.id) (plannerDiscard s)
  let s2 := { s1 with seq.current := none }
  if s.cfg.linAdvance then { s2 with la.active := false, timer.nextAdv := none } else s2

/-- COMPLETE ends a block (44_block_sequencer.md R193). -/
def completeBlock (b : BlockRec) (s : State) : State := discardBlock b (emit (.blockDone b.id) s)

/-- The linear-advance part of a phase runs when `LIN_ADVANCE and la_active` (44_block_sequencer.md R192). -/
def laRuns (s : State) : Bool := s.cfg.linAdvance && s.la.active

/-- The ACCELERATING branch of PHASE_INTERVAL (44_block_sequencer.md R192). -/
def accelInterval (b : BlockRec) (s : State) : State × Nat :=
  let rate := accelRate b s
  let (s1, interval) := calcTimerInterval rate { s with timer.accStepRate := rate }
  let s2 := { s1 with timer.accelerationTime := sat32 (s1.timer.accelerationTime + interval) }
  (if laRuns s2 then laAccel b rate s2 else s2, interval)

/-- The cruise cache is filled when it is INVALID (44_block_sequencer.md R192). -/
def fillCruise (b : BlockRec) (s : State) : State :=
  let (s1, interval) := calcTimerInterval b.nominalRate s
  let s2 := { s1 with timer := { s1.timer with
    ticksNominal := some interval, nominalShift := s1.timer.stepsPerIsrShift } }
  if laRuns s2 then laCruise b s2 else s2

/-- The CRUISING branch of PHASE_INTERVAL: the cached interval, filled first if it is INVALID
(44_block_sequencer.md R192). -/
def cruiseInterval (b : BlockRec) (s : State) : State × Nat :=
  let t := if s.timer.ticksNominal = none then fillCruise b s else s
  ({ t with timer.stepsPerIsrShift := t.timer.nominalShift }, t.timer.ticksNominal.getD 0)

/-- The DECELERATING branch of PHASE_INTERVAL (44_block_sequencer.md R192). -/
def decelInterval (b : BlockRec) (s : State) : State × Nat :=
  let (s1, rate) := decelRate b s
  let (s2, interval) := calcTimerInterval rate s1
  let s3 := { s2 with timer.decelerationTime := sat32 (s2.timer.decelerationTime + interval) }
  (if laRuns s3 then laDecel b rate s3 else s3, interval)

/-- PHASE_INTERVAL: the next interval of a loaded, incomplete block (44_block_sequencer.md R192). -/
def phaseInterval (b : BlockRec) (s : State) : State × Nat :=
  if s.seq.stepEventsCompleted < b.accelerateBefore then accelInterval b s
  else if s.seq.stepEventsCompleted < b.decelerateStart then cruiseInterval b s
  else decelInterval b s

/-- BLOCK_PHASE: returns the next main interval (44_block_sequencer.md R190). -/
def blockPhase (s : State) : State × Nat :=
  match s.seq.current with
  | none => loadNext s
  | some b =>
    if b.stepEventCount ≤ s.seq.stepEventsCompleted then loadNext (completeBlock b s)
    else phaseInterval b s

/-- BLOCK_PHASE as an operation of its own (EVT 0x83): its interval is its reply (log entry 8). -/
def execBlockPhase (s : State) : Host.Outcome State Fault Refusal :=
  .next (engineStep (fun s => setReply (.interval (blockPhase s).2) (blockPhase s).1) s)

end Sys2Proof.Machine
end

