-- ==== Sys2Proof/Machine/Pulse.lean ====
section
/-! DEFINITION. The Bresenham pulse engine (41_bresenham.md R130 to R136). -/

namespace Sys2Proof.Machine

/-- Under active linear advance E takes no step here (41_bresenham.md R132, 45_aux_pulse.md R221). -/
def skipsAxis (s : State) (a : Axis) : Bool := s.cfg.linAdvance && s.la.active && a == s.cfg.eAxis

/-- One axis of STEP_EVENT: `delta_error[a]` is advanced, and the axis steps when it reaches 0 (41_bresenham.md R132). -/
def stepEventAxis (s : State) (a : Axis) : State :=
  if skipsAxis s a then s
  else
    let de := s.bres.deltaError.read a + s.bres.advanceDividend.read a
    if 0 ≤ de then
      let s1 := stepAxis a (s.bres.countDirection.read a) s
      { s1 with bres.deltaError := s1.bres.deltaError.write a (de - s.bres.advanceDivisor) }
    else { s with bres.deltaError := s.bres.deltaError.write a de }

/-- STEP_EVENT: one step event over all axes, ascending (41_bresenham.md R132). -/
def stepEvent (s : State) : State := s.cfg.liveAxes.foldl stepEventAxis s

/-- `repeat n times: STEP_EVENT(); step_events_completed <- step_events_completed + 1` (41_bresenham.md R130). -/
def runEvents : Nat → State → State
  | 0, s => s
  | n + 1, s =>
    let t := stepEvent s
    runEvents n { t with seq.stepEventsCompleted := t.seq.stepEventsCompleted + 1 }

/-- `count_position[0..NUM_AXES−1]`, the vector POSITION_RESYNC carries (41_bresenham.md R130). -/
def positions (s : State) : List Word := s.cfg.liveAxes.map (fun a => s.bres.countPosition.read a)

/-- The abort: the loaded block is discarded, shaping is flushed, and the position reported (41_bresenham.md R130). -/
def consumeAbort (s : State) : State :=
  let s1 := { s with seq.abortCurrentBlock := false }
  let s2 := match s1.seq.current with
    | some b => discardBlock b (emit (.blockAborted b.id) s1)
    | none => s1
  let s3 := shapingFlush s2
  emit (.positionResync (positions s3)) s3

/-- PULSE_PHASE (41_bresenham.md R130). -/
def pulsePhase (s : State) : State :=
  if s.seq.abortCurrentBlock then consumeAbort s
  else match s.seq.current with
    | none => s
    | some b => runEvents (min (2 ^ s.timer.stepsPerIsrShift) (b.stepEventCount - s.seq.stepEventsCompleted)) s

/-- PULSE_PHASE as an operation of its own (EVT 0x81). -/
def execPulsePhase (s : State) : Host.Outcome State Fault Refusal :=
  .next (engineStep pulsePhase s)

/-- STEP_EVENT as an operation of its own (EVT 0x82). -/
def execStepEvent (s : State) : Host.Outcome State Fault Refusal :=
  .next (engineStep stepEvent s)

end Sys2Proof.Machine
end

