-- ==== Sys2Proof/Machine/Scheduler.lean ====
section
/-! DEFINITION. The interrupt scheduler: TICK and its parts (40_isr_scheduler.md R112 to R118). -/

namespace Sys2Proof.Machine

/-- The draw `e` of the next TICK: what the schedule fixed, or a free value (40_isr_scheduler.md R118, log entry 3). -/
def tickElapsed (s : State) : Nat := s.env.elapsed.getD (Config.freeElapsed s.env.drawCount)

/-- The smaller of a finite countdown and one that may be INF, which `min` ignores (00_scope.md R9). -/
def minInf (n : Nat) : Option Nat → Nat
  | none => n
  | some m => min n m

/-- SELECT_INTERVAL: the smallest of the pending countdowns, at least 1 (40_isr_scheduler.md R113). -/
def selectInterval (s : State) : Nat :=
  let baby := if s.cfg.babystepping && babyDue s then some s.timer.nextBaby else none
  let heads := s.cfg.shapedAxes.map (fun a => (s.shaping.queue.read a).head?.map Echo.remaining)
  max 1 ((s.timer.nextAdv :: baby :: heads).foldl minInf s.timer.nextMain)

/-- The interval OVERRUN_CHECK returns (40_isr_scheduler.md R114). -/
def checkedInterval (c : Config) (interval e : Nat) : Nat :=
  min (if e + c.minIsrMargin > interval then e + c.minIsrMargin else interval) c.maxInterval

/-- The state OVERRUN_CHECK leaves (40_isr_scheduler.md R114). -/
def overrunCheck (interval e : Nat) (s : State) : State :=
  if e + s.cfg.minIsrMargin > interval then
    let s1 := emit (.overrun e interval) s
    let s2 := { s1 with host.overrunCount := sat32 (s1.host.overrunCount + 1) }
    if s2.timer.overrunShift < s2.cfg.maxMultistepShift then
      { s2 with timer := { s2.timer with overrunShift := s2.timer.overrunShift + 1, ticksNominal := none } }
    else { s2 with host.lostStepRisk := true }
  else s

/-- One shaping entry moved forward by `interval` (40_isr_scheduler.md R115). -/
def Echo.advance (interval : Nat) (q : Echo) : Echo := { q with remaining := q.remaining - interval }

/-- ADVANCE_COUNTDOWNS: every countdown moves forward and stops at 0 (40_isr_scheduler.md R115; natural subtraction
is `max(· − interval, 0)`). -/
def advanceCountdowns (interval : Nat) (s : State) : State :=
  { s with
    timer := { s.timer with
      nextMain := s.timer.nextMain - interval
      nextAdv := s.timer.nextAdv.map (fun n => n - interval)
      nextBaby := s.timer.nextBaby - interval }
    shaping.queue := PerAxis.build (fun a =>
      if s.cfg.shaped.read a then (s.shaping.queue.read a).map (Echo.advance interval)
      else s.shaping.queue.read a) }

/-- The end of a TICK: the interval is selected, checked against the draw `e` and programmed, and virtual time moves
(40_isr_scheduler.md R112). The draw is used up (log entry 3). -/
def programTimer (e : Nat) (s : State) : State :=
  let picked := selectInterval s
  let interval := checkedInterval s.cfg picked e
  let s1 := advanceCountdowns interval (overrunCheck picked e s)
  { s1 with
    timer := { s1.timer with nextIsrTicks := interval, now := s1.timer.now + interval }
    env := { s1.env with elapsed := none, drawCount := s1.env.drawCount + 1 } }

/-- The linear-advance part of a TICK (40_isr_scheduler.md R112). -/
def tickAdvance (s : State) : State :=
  if s.cfg.linAdvance && s.timer.nextAdv == some 0 then
    let t := advanceIsr s
    { t with timer.nextAdv := t.la.interval }
  else s

/-- The babystep part of a TICK (40_isr_scheduler.md R112). A BABYSTEP_QUIET of 2^32 or more is kept whole: DESIGN CHOICE
(log entry 29). -/
def tickBabystep (s : State) : State :=
  if s.cfg.babystepping && s.timer.nextBaby == 0 && babyDue s then
    { babystepIsr s with timer.nextBaby := s.cfg.babystepQuiet }
  else s

/-- The block part of a TICK: `next_main <- BLOCK_PHASE()` (40_isr_scheduler.md R112). -/
def tickBlock (s : State) : State :=
  let (t, interval) := blockPhase s
  { t with timer.nextMain := interval }

/-- The sub-tasks of a TICK, in their fixed order, before the timer is programmed (40_isr_scheduler.md R112,
60_exceptions.md R320). -/
def tickTasks (s : State) : State :=
  let mainDue := s.timer.nextMain == 0
  let s1 := if mainDue then pulsePhase s else s
  let s2 := if s1.cfg.inputShaping then shapingIsr s1 else s1
  let s3 := tickBabystep (tickAdvance s2)
  if mainDue then tickBlock s3 else s3

/-- TICK (40_isr_scheduler.md R112). "While `fault` = 1, no TICK is taken" (10_state.md R47): the compare match then
changes nothing (log entry 5). A fault raised by BLOCK_PHASE ends the TICK with nothing programmed
(60_exceptions.md R315). -/
def tick (s : State) : State :=
  if s.host.fault then s
  else
    let t := tickTasks s
    if t.host.fault then t else programTimer (tickElapsed s) t

/-- TICK as an operation (EVT 0x80). -/
def execTick (s : State) : Host.Outcome State Fault Refusal := .next (tick s)

end Sys2Proof.Machine
end

