-- ==== Sys2Proof/Machine/Dispatch.lean ====
section
/-! DEFINITION. One arm for each operation of spec/opcode_table.json. -/

namespace Sys2Proof.Machine

def exec (i : Instr) (s : State) : Host.Outcome State Fault Refusal :=
  match i with
  | .nop => Sys2Proof.Machine.execNop s
  | .getPosition axis => Sys2Proof.Machine.execGetPosition axis s
  | .setPosition => Sys2Proof.Machine.execSetPosition s
  | .setAxisPosition axis => Sys2Proof.Machine.execSetAxisPosition axis s
  | .isBlockBusy => Sys2Proof.Machine.execIsBlockBusy s
  | .abort => Sys2Proof.Machine.execAbort s
  | .babystep axis => Sys2Proof.Machine.execBabystep axis s
  | .enable axis => Sys2Proof.Machine.execEnable axis s
  | .disable axis => Sys2Proof.Machine.execDisable axis s
  | .clearEndstops => Sys2Proof.Machine.execClearEndstops s
  | .isIdle => Sys2Proof.Machine.execIsIdle s
  | .clearDiag => Sys2Proof.Machine.execClearDiag s
  | .endstop axis => Sys2Proof.Machine.execEndstop axis s
  | .tick => Sys2Proof.Machine.execTick s
  | .pulsePhase => Sys2Proof.Machine.execPulsePhase s
  | .stepEvent => Sys2Proof.Machine.execStepEvent s
  | .blockPhase => Sys2Proof.Machine.execBlockPhase s
  | .shapingIsr => Sys2Proof.Machine.execShapingIsr s
  | .advanceIsr => Sys2Proof.Machine.execAdvanceIsr s
  | .babystepIsr => Sys2Proof.Machine.execBabystepIsr s
  | .getCurrentBlock => Sys2Proof.Machine.execGetCurrentBlock s
  | .discardCurrentBlock => Sys2Proof.Machine.execDiscardCurrentBlock s

end Sys2Proof.Machine
end

