-- ==== Sys2Proof/Machine/Window.lean ====
section
/-! DEFINITION. The register window (20_memory.md R60 to R65).

The window is a view of the registers; it holds no memory of its own. Reads have no side effect and a write changes
state only at CMD (Machine/Moves.lean) and ARG0..ARG7 (R65). -/

namespace Sys2Proof.Machine

/-- The registers of 20_memory.md R62. -/
inductive Register where
  | cmd
  | status
  | result
  | err
  | arg (i : Axis)
  | overrunCount
  | engineInfo
  | nextIsrTicks
  | stepEventsCompleted
  | currentBlockId
  | dirState
  | enableState
  | endstopHit
  | fault
  | endstopPos (a : Axis)
  deriving DecidableEq, Repr

/-- The byte offset of a register (20_memory.md R62). -/
def Register.offset : Register → Nat
  | .cmd => 0x000
  | .status => 0x004
  | .result => 0x008
  | .err => 0x00C
  | .arg i => 0x010 + 4 * i.val
  | .overrunCount => 0x030
  | .engineInfo => 0x034
  | .nextIsrTicks => 0x038
  | .stepEventsCompleted => 0x03C
  | .currentBlockId => 0x040
  | .dirState => 0x044
  | .enableState => 0x048
  | .endstopHit => 0x04C
  | .fault => 0x050
  | .endstopPos a => 0x060 + 4 * a.val

/-- The register at a byte offset, if one is listed there (20_memory.md R61, R62). -/
def registerAt (off : Nat) : Option Register :=
  match off with
  | 0x000 => some .cmd
  | 0x004 => some .status
  | 0x008 => some .result
  | 0x00C => some .err
  | 0x010 => some (.arg 0)
  | 0x014 => some (.arg 1)
  | 0x018 => some (.arg 2)
  | 0x01C => some (.arg 3)
  | 0x020 => some (.arg 4)
  | 0x024 => some (.arg 5)
  | 0x028 => some (.arg 6)
  | 0x02C => some (.arg 7)
  | 0x030 => some .overrunCount
  | 0x034 => some .engineInfo
  | 0x038 => some .nextIsrTicks
  | 0x03C => some .stepEventsCompleted
  | 0x040 => some .currentBlockId
  | 0x044 => some .dirState
  | 0x048 => some .enableState
  | 0x04C => some .endstopHit
  | 0x050 => some .fault
  | 0x060 => some (.endstopPos 0)
  | 0x064 => some (.endstopPos 1)
  | 0x068 => some (.endstopPos 2)
  | 0x06C => some (.endstopPos 3)
  | 0x070 => some (.endstopPos 4)
  | 0x074 => some (.endstopPos 5)
  | 0x078 => some (.endstopPos 6)
  | 0x07C => some (.endstopPos 7)
  | _ => none

/-- `current.id` when a block is loaded, else 0 (20_memory.md R62). -/
def currentIdWord (s : State) : Word :=
  match s.seq.current with
  | some b => b.id
  | none => 0

/-- What a register reads as (20_memory.md R62). -/
def Register.value (r : Register) (s : State) : Word :=
  match r with
  | .cmd => s.host.pendingCmd
  | .status => statusWord s
  | .result => s.host.result
  | .err => s.host.errCode.setWidth 32
  | .arg i => argWord i s
  | .overrunCount => BitVec.ofNat 32 s.host.overrunCount
  | .engineInfo => engineInfoWord s
  | .nextIsrTicks => BitVec.ofNat 32 s.timer.nextIsrTicks
  | .stepEventsCompleted => BitVec.ofNat 32 s.seq.stepEventsCompleted
  | .currentBlockId => currentIdWord s
  | .dirState => dirStateWord s
  | .enableState => enableWord s
  | .endstopHit => endstopHitWord s
  | .fault => s.host.faultCode.setWidth 32
  | .endstopPos a => endstopPosWord a s

/-- `MemRead(REG_BASE + off, 4)`; "A read of a reserved offset returns 0" (20_memory.md R61, R65). -/
def readWindow (off : Nat) (s : State) : Word :=
  match registerAt off with
  | some r => r.value s
  | none => 0

/-- The byte of the window at offset `off`: byte k of a register holds its bits 8k+7 : 8k (20_memory.md R63). -/
def windowByte (off : Nat) (s : State) : Byte := (readWindow (off / 4 * 4) s).extractLsb' (8 * (off % 4)) 8

/-- A write to ARG i: `arg[i] <- sext_32(v)` (20_memory.md R65). -/
def setArg (i : Axis) (v : Word) (s : State) : State := { s with host.arg := s.host.arg.write i v }

/-- An address is in the window iff `REG_BASE ≤ A < REG_BASE + 256` (20_memory.md R61). -/
def inWindow (c : Config) (addr : Nat) : Bool := c.regBase ≤ addr && addr < c.regBase + 256

/-- "The only access the window admits is a 32-bit access at an offset that is a multiple of 4" (20_memory.md R64). -/
def admitted (c : Config) (addr width : Nat) : Bool := width == 4 && (addr - c.regBase) % 4 == 0

end Sys2Proof.Machine
end

