-- ==== Sys2Proof/Machine/Moves.lean ====
section
/-! DEFINITION. The agents' moves: what each atomic step of the host, the endstop source, the planner, the timer and
the platform does (00_scope.md R10, R11; 20_memory.md R69).

A command word is issued by a CMD write (ISSUE, 47_host_interface.md R275) and, if it is synchronizing, performed
later by SYNC_PERFORM (R277). -/

namespace Sys2Proof.Machine

/-- ISSUE(w) (47_host_interface.md R275). LEGALITY has refused every word that does not decode, so the last arm is
never taken (Laws/Moves.lean). -/
def issue (w : Word) (s : State) : Host.Outcome State Fault Refusal :=
  if s.host.cmdPending then .next (raiseHostError .cmdOverrun s)
  else match legality w s with
    | some e => .next (raiseHostError e s)
    | none =>
      match decode w with
      | .ok i =>
        if i.synchronizing then .next (holdCommand (acceptCommand w s)) else exec i (acceptCommand w s)
      | .error _ => .next (raiseHostError .illegalOpcode s)

/-- SYNC_PERFORM is enabled iff `cmd_pending = 1 ∧ IDLE` (47_host_interface.md R277). -/
def syncEnabled (s : State) : Bool := s.host.cmdPending && idle s

/-- SYNC_PERFORM: `PERFORM(pending_cmd); cmd_pending <- 0` (47_host_interface.md R277). Where it is not enabled
nothing happens. -/
def syncPerform (s : State) : Host.Outcome State Fault Refusal :=
  if syncEnabled s then
    match decode s.host.pendingCmd with
    | .ok i => exec i (releaseCommand s)
    | .error _ => .next s
  else .next s

/-- A host read: outside the window a fault, an access the window does not admit a refusal, else the register's
value (20_memory.md R61, R64, R65). -/
def hostRead (addr width : Nat) (s : State) : Host.Outcome State Fault Refusal :=
  if !inWindow s.cfg addr then .fault .outsideWindow
  else if !admitted s.cfg addr width then .refused .accessNotAdmitted
  else .next (setReply (.data (readWindow (addr - s.cfg.regBase) s)) s)

/-- An admitted write at an offset: CMD issues a command, ARG0..7 take the word, every other offset ignores it
(20_memory.md R61, R65). -/
def writeWindow (off : Nat) (v : Word) (s : State) : Host.Outcome State Fault Refusal :=
  match registerAt off with
  | some .cmd => issue v s
  | some (.arg i) => .next (setArg i v s)
  | _ => .next s

/-- A host write (20_memory.md R61, R64, R65). -/
def hostWrite (addr width : Nat) (v : Word) (s : State) : Host.Outcome State Fault Refusal :=
  if !inWindow s.cfg addr then .fault .outsideWindow
  else if !admitted s.cfg addr width then .refused .accessNotAdmitted
  else writeWindow (addr - s.cfg.regBase) v s

/-- A word on the endstop port; a malformed one "changes no state" (30_encoding.md R89). -/
def endstopInput (w : Word) (s : State) : Host.Outcome State Fault Refusal :=
  match decode w with
  | .ok i => if i.format = .ein then exec i s else .next s
  | .error _ => .next s

/-- An EVT or PLN word taken by itself (log entry 7). -/
def engineWord (w : Word) (s : State) : Host.Outcome State Fault Refusal :=
  match decode w with
  | .ok i => if i.format = .evt ∨ i.format = .pln then exec i s else .refused .noSuchOperation
  | .error _ => .refused .noSuchOperation

/-- The id of `d` is that of a block still in flight: "It gives each in-flight block a distinct id"
(47_host_interface.md R302, duty 3). The loaded block stays at the head of the queue until it is discarded. -/
def idInFlight (d : Descriptor) (s : State) : Bool := s.pq.any (fun q => q.words[0] == d.words[0])

/-- `d` is a motion block VALID accepts that breaks "step_event_count = max(steps per axis)", the invariant of which
"only `steps[a] ≤ N`" is checked (44_block_sequencer.md R198; 47_host_interface.md R302, duty 2): no axis takes N
steps. -/
def stepCountUnreached (c : Config) (d : Descriptor) : Bool :=
  !d.isSync && !d.isPage && valid c d && c.liveAxes.all (fun a => d.block.steps.read a != d.num 3)

/-- The planner breaks a duty of 47_host_interface.md R302 by appending `d`, in a way no later rule meets. DEDUCED (log
entry 26). -/
def breaksPlannerDuty (d : Descriptor) (s : State) : Bool := idInFlight d s || stepCountUnreached s.cfg d

/-- The planner's move APPEND (47_host_interface.md R300). Where there is room and it breaks a duty, the run is refused:
"such a run is outside the spec, and no claim is made about it" (93_implementation_defined.md I11). -/
def plannerMove (d : Descriptor) (s : State) : Host.Outcome State Fault Refusal :=
  if s.pq.length < s.cfg.plannerCap ∧ breaksPlannerDuty d s then .refused .plannerDutyBroken
  else .next (plannerAppend d s)

/-- A compare match with the draw the schedule fixes, if it fixes one (40_isr_scheduler.md R112, R118). -/
def compareMatch (e : Option Nat) (s : State) : Host.Outcome State Fault Refusal :=
  exec .tick { s with env.elapsed := e }

/-- One move of an agent. -/
def runMove (m : Move) (s : State) : Host.Outcome State Fault Refusal :=
  match m with
  | .read addr width => hostRead addr width s
  | .write addr width v => hostWrite addr width v s
  | .syncPerform => syncPerform s
  | .endstopInput w => endstopInput w s
  | .append d => plannerMove d s
  | .compareMatch e => compareMatch e s
  | .engineWord w => engineWord w s
  | .reset => .next (resetMachine s)

/-- The move the machine makes where the schedule names none: SYNC_PERFORM where it is enabled, else a compare match
with a free draw. DESIGN CHOICE (log entry 2). -/
def idleMove (s : State) : State → Host.Outcome State Fault Refusal :=
  if syncEnabled s then syncPerform else compareMatch none

/-- The next atomic step: the schedule's oldest move, or `idleMove` (log entries 1 and 2). -/
def nextMove (s : State) : Host.Outcome State Fault Refusal :=
  match s.env.schedule with
  | m :: rest => runMove m { s with env.schedule := rest }
  | [] => idleMove s s

/-- Puts a move before all others. -/
def scheduleFirst (m : Move) (s : State) : State := { s with env.schedule := m :: s.env.schedule }

/-- The state whose next step runs the operation of word `w` (log entry 21): a synchronizing command stands pending and
SYNC_PERFORM comes next; another command is written to CMD with none pending; an EIN word comes on the endstop port;
an EVT or PLN word is taken by itself. -/
def presentWord (w : Word) (s : State) : State :=
  match formatOf w with
  | .cmd =>
    match decode w with
    | .ok i =>
      if i.synchronizing then scheduleFirst .syncPerform (holdCommand (acceptCommand w s))
      else scheduleFirst (.write s.cfg.regBase 4 w) (releaseCommand s)
    | .error _ => scheduleFirst (.write s.cfg.regBase 4 w) (releaseCommand s)
  | .ein => scheduleFirst (.endstopInput w) s
  | .evt => scheduleFirst (.engineWord w) s
  | .pln => scheduleFirst (.engineWord w) s

end Sys2Proof.Machine
end

