-- ==== Sys2Proof/Machine/Step.lean ====
section
/-! DEFINITION. The step: one atomic move of one agent (00_scope.md R10, 20_memory.md R69). -/

namespace Sys2Proof.Machine

/-- One step of the machine. "A refused configuration runs nothing" (00_scope.md R8). -/
def step (s : State) : Host.Outcome State Fault Refusal :=
  if s.cfg.legal then nextMove s else .refused .illegalConfiguration

/-- `s` with the word of `nbits` bits `w` (the bits above them 0) placed so that the next step runs it (log entry 21). -/
def State.withFetchWord (s : State) (nbits w : Nat) : State := presentWord (BitVec.ofNat 32 (w % 2 ^ nbits)) s

end Sys2Proof.Machine
end

