-- ==== Sys2Proof/Machine/Assembler.lean ====
section
/-! DEFINITION. The textual actions of 30_encoding.md R92 and the pseudo-instructions of R93, as moves. -/

namespace Sys2Proof.Machine

/-- One line of a test program (30_encoding.md R92). -/
inductive Line where
  /-- `cmd MNEMONIC [axis]` -/
  | cmd (i : Instr)
  /-- `wr ARGi, v` -/
  | wr (i : Axis) (v : Word)
  /-- `rd REG` -/
  | rd (r : Register)
  /-- `push descriptor` -/
  | push (d : Descriptor)
  /-- `tick [elapsed=e]`; "The default is e = 0" -/
  | tick (e : Nat := 0)
  /-- `endstop axis` -/
  | endstop (axis : Fin 16)
  deriving DecidableEq, Repr

/-- The move a line is (30_encoding.md R92). -/
def Line.move (c : Config) : Line → Move
  | .cmd i => .write (c.regBase + Register.cmd.offset) 4 (encode i)
  | .wr i v => .write (c.regBase + (Register.arg i).offset) 4 v
  | .rd r => .read (c.regBase + r.offset) 4
  | .push d => .append d
  | .tick e => .compareMatch (some e)
  | .endstop axis => .endstopInput (encode (.endstop axis))

/-- `setpos a, v` (30_encoding.md R93). -/
def Line.setpos (axis : Fin 16) (v : Word) : List Line := [.wr 0 v, .cmd (.setAxisPosition axis)]

/-- `babystep a, +` and `babystep a, −` (30_encoding.md R93). -/
def Line.babystep (axis : Fin 16) (d : Dir) : List Line :=
  [.wr 0 (if d.level then 1 else 0), .cmd (.babystep axis)]

/-- `busy? id` (30_encoding.md R93). -/
def Line.busy (id : Word) : List Line := [.wr 0 id, .cmd .isBlockBusy, .rd .result]

end Sys2Proof.Machine
end

