-- ==== Sys2Proof/Safety.lean ====
section
/-! DEFINITION. What counts as a safe state and a safe step, in the terms the statements use. -/

namespace Sys2Proof.Machine

/-! ## Invariants: properties every step keeps -/

/-- "`step_out[a]` is 0 at the end of every step of every agent" (10_state.md R43). -/
def StepOutputsLow (s : State) : Prop := ∀ a, s.pins.stepOut.read a = false

/-- `step_events_completed` "never exceeds `current.step_event_count`" (10_state.md R23, 41_bresenham.md R131). -/
def EventsWithinBlock (s : State) : Prop :=
  ∀ b, s.seq.current = some b → s.seq.stepEventsCompleted ≤ b.stepEventCount

/-- While a block of N step events is loaded, the divisor is 2N, every dividend is at most 2N, and `delta_error` stays
in [−2N, 0) for N ≥ 1 (41_bresenham.md R134); for N = 0 it is 0. -/
def BresenhamInRange (s : State) : Prop :=
  ∀ b, s.seq.current = some b →
    s.bres.advanceDivisor = 2 * b.stepEventCount ∧
    ∀ a : Axis, a.val < s.cfg.numAxes →
      s.bres.advanceDividend.read a ≤ 2 * b.stepEventCount ∧
      -(2 * (b.stepEventCount : Int)) ≤ s.bres.deltaError.read a ∧
      s.bres.deltaError.read a ≤ 0 ∧
      (0 < b.stepEventCount → s.bres.deltaError.read a < 0)

/-- `shaping_delta[a]` stays in [−64, 63] (10_state.md R40, 45_aux_pulse.md R236). -/
def ShapingDeltaInRange (s : State) : Prop :=
  ∀ a, s.cfg.shaped.read a = true → -64 ≤ s.shaping.delta.read a ∧ s.shaping.delta.read a ≤ 63

/-- A shaping queue's length is at most CAP − MARGIN (45_aux_pulse.md R240). -/
def ShapingQueuesFit (s : State) : Prop :=
  ∀ a, s.cfg.shaped.read a = true →
    (s.shaping.queue.read a).length ≤ s.cfg.shapingQueueCap - s.cfg.shapingForceMargin

/-- "`remaining` never decreases from head to tail" (10_state.md R41, 45_aux_pulse.md R237), and is at most the delay
entries are pushed with. -/
def ShapingQueuesOrdered (s : State) : Prop :=
  ∀ a, s.cfg.shaped.read a = true →
    (s.shaping.queue.read a).Pairwise (fun p q => p.remaining ≤ q.remaining) ∧
    ∀ q ∈ s.shaping.queue.read a, q.remaining ≤ s.cfg.shapingDelay.read a

/-- The shifts stay inside their ranges (10_state.md R33, R35, R36, R37). -/
def ShiftsInRange (s : State) : Prop :=
  s.timer.stepsPerIsrShift ≤ s.cfg.maxMultistepShift ∧ s.timer.nominalShift ≤ s.cfg.maxMultistepShift ∧
  s.timer.overrunShift ≤ s.cfg.maxMultistepShift ∧ s.timer.oversampling ≤ s.cfg.maxOversampling

/-- `baby_pending[a]` stays in [−BABYSTEP_MAX, BABYSTEP_MAX] (10_state.md R42). -/
def BabystepsInRange (s : State) : Prop := ∀ a, (s.babyPending.read a).natAbs ≤ s.cfg.babystepMax

/-- A pending command is a synchronizing one whose axis exists (47_host_interface.md R275, R277). -/
def PendingCommandLegal (s : State) : Prop :=
  s.host.cmdPending = true →
    ∃ i, decode s.host.pendingCmd = .ok i ∧ i.synchronizing = true ∧ i.wellFormed s.cfg = true

/-- The counters of 10_state.md R32 and R44 stay inside 32 bits: they saturate. -/
def SaturatedCounters (s : State) : Prop :=
  s.timer.accelerationTime < 2 ^ 32 ∧ s.timer.decelerationTime < 2 ^ 32 ∧ s.host.overrunCount < 2 ^ 32

/-- After a fault "the block stays at the head of the planner queue" (60_exceptions.md R314): for code 1 a page block,
PAGE set and SYNC clear (44_block_sequencer.md R197), for code 2 a block VALID refuses (R198). -/
def FaultHoldsBlock (s : State) : Prop :=
  s.host.fault = true → ∃ d rest, s.pq = d :: rest ∧
    (s.host.faultCode = 1 ∧ d.words[1].getLsbD 1 = true ∧ d.words[1].getLsbD 0 = false ∨
      s.host.faultCode = 2 ∧ valid s.cfg d = false)

/-- Appending `d` breaks a duty of the planner that no later rule meets: its id is in flight (47_host_interface.md R302,
duty 3), or it is a motion block VALID accepts with "step_event_count = max(steps per axis)" broken, no axis taking as
many steps as word 3 says (duty 2, 44_block_sequencer.md R198). -/
def PlannerDutyBroken (d : Descriptor) (s : State) : Prop :=
  (∃ q ∈ s.pq, q.words[0] = d.words[0]) ∨
  (d.words[1].getLsbD 0 = false ∧ d.words[1].getLsbD 1 = false ∧ valid s.cfg d = true ∧
    ∀ a : Axis, a.val < s.cfg.numAxes → d.words[16 + a.val] ≠ d.words[3])

/-- The idle predicate as a proposition (47_host_interface.md R277). -/
def EngineIdle (s : State) : Prop :=
  s.seq.current = none ∧ s.pq = [] ∧ ∀ a, s.cfg.shaped.read a = true → s.shaping.queue.read a = []

/-! ## What a step may not touch -/

/-- What the engine's own work never changes: the parameters, the host's registers but for the diagnostics and the
fault, the enable lines (46_direction_enable.md R265), and the moves to come. It only appends to the trace
(10_state.md R45) and only takes blocks from the head of the planner queue (44_block_sequencer.md R204). -/
def EngineFrame (s t : State) : Prop :=
  t.cfg = s.cfg ∧
  t.host.arg = s.host.arg ∧ t.host.result = s.host.result ∧ t.host.cmdPending = s.host.cmdPending ∧
  t.host.pendingCmd = s.host.pendingCmd ∧ t.host.err = s.host.err ∧ t.host.errCode = s.host.errCode ∧
  t.host.endstopPos = s.host.endstopPos ∧ t.host.endstopHit = s.host.endstopHit ∧
  t.pins.enableLines = s.pins.enableLines ∧
  t.env.schedule = s.env.schedule ∧
  (∃ added, t.trace = s.trace ++ added) ∧
  (∃ k, t.pq = s.pq.drop k)

/-! ## Steps of a block -/

/-- Axis `a` takes a logical step at the next step event (41_bresenham.md R132). -/
def takesStep (s : State) (a : Axis) : Bool :=
  a.val < s.cfg.numAxes && !skipsAxis s a &&
    decide (0 ≤ s.bres.deltaError.read a + (s.bres.advanceDividend.read a : Int))

/-- `k(j) = floor((2S·j + N) / (2N))`: the steps an axis of step count `S` has taken after `j` of a block's `N` step
events (41_bresenham.md R138). -/
def stepsAfter (S N j : Nat) : Nat := (2 * S * j + N) / (2 * N)

/-- The AXIS field that names axis `a` (30_encoding.md R82). -/
def fieldOf (a : Axis) : Fin 16 := ⟨a.val, by omega⟩

/-! ## Ledgers: what the trace says of positions and shares -/

/-- The net number of STEP pulses on axis `a` in a piece of trace: the sum of their directions. -/
def netSteps (a : Axis) : List Record → Int
  | [] => 0
  | r :: rest =>
    match r.event with
    | .step b d => (if b = a then d.sign else 0) + netSteps a rest
    | _ => netSteps a rest

/-- The 1/128-step shares axis `a` has been given and not yet paid out in pulses: its accumulator and its echoes
still to come (45_aux_pulse.md R239). -/
def pendingShares (a : Axis) (s : State) : Int :=
  s.shaping.delta.read a + ((s.shaping.queue.read a).map (fun q => echoShare s.cfg a q.dir)).sum

/-- The directions of the STEP pulses on axis `a` in a piece of trace, oldest first. -/
def stepsOf (a : Axis) : List Record → List Dir
  | [] => []
  | r :: rest =>
    match r.event with
    | .step b d => if b = a then d :: stepsOf a rest else stepsOf a rest
    | _ => stepsOf a rest

/-- What an accumulator and the shares `xs`, taken one after another, come to: each share is added, and a sum of at
least 64, or below −64, gives one pulse and pays 128 shares for it (45_aux_pulse.md R234). It answers the accumulator
that remains and the pulses, in order. -/
def payOut : Int → List Int → Int × List Dir
  | δ, [] => (δ, [])
  | δ, x :: xs =>
    if 64 ≤ δ + x then ((payOut (δ + x - 128) xs).1, .pos :: (payOut (δ + x - 128) xs).2)
    else if δ + x < -64 then ((payOut (δ + x + 128) xs).1, .neg :: (payOut (δ + x + 128) xs).2)
    else payOut (δ + x) xs

/-- The shares of axis `a`'s echoes that are due, in the queue's order: those before the first whose countdown is not 0
(45_aux_pulse.md R233). -/
def dueShares (a : Axis) (s : State) : List Int :=
  ((s.shaping.queue.read a).takeWhile (fun q => q.remaining == 0)).map (fun q => q.dir.sign * s.cfg.shapingFactor2 a)

/-- The records of the pulses `ds` on axis `a`, in order, at time `now`, with DIR at `level` before the first: before
each STEP a DIR record exactly if the level differs (41_bresenham.md R136). -/
def pulseRecords (now : Nat) (a : Axis) : Bool → List Dir → List Record
  | _, [] => []
  | level, d :: ds =>
    (if level = (d == Dir.neg) then [] else [⟨now, .dir a (d == Dir.neg)⟩]) ++
      ⟨now, .step a d⟩ :: pulseRecords now a (d == Dir.neg) ds

/-- The DIR level the pulses `ds` leave: the last one's, or `level` where there is none (41_bresenham.md R136). -/
def levelAfter : Bool → List Dir → Bool
  | level, [] => level
  | _, d :: ds => levelAfter (d == Dir.neg) ds

/-- The queue of axis `a` holds CAP − MARGIN echoes or more, so SHAPE_PRIMARY forces its head out (45_aux_pulse.md
R235). -/
def forcesEcho (s : State) (a : Axis) : Bool :=
  decide (s.cfg.shapingQueueCap - s.cfg.shapingForceMargin ≤ (s.shaping.queue.read a).length)

/-- The shares a logical step gives a shaped axis: the head echo's where it is forced out, then FACTOR1 in the step's
direction (45_aux_pulse.md R235). -/
def primaryShares (s : State) (a : Axis) : List Int :=
  (if forcesEcho s a then
      ((s.shaping.queue.read a).take 1).map (fun q => q.dir.sign * (s.cfg.shapingFactor2 a : Int))
    else []) ++
  [(s.bres.countDirection.read a).sign * (s.cfg.shapingFactor1.read a : Int)]

/-- The pulses axis `a` gives in the next step event: none where it takes no step, one in its direction where it is not
shaped, and where it is shaped those its shares pay for (41_bresenham.md R132, R135; 45_aux_pulse.md R234, R235). -/
def eventPulses (s : State) (a : Axis) : List Dir :=
  if !takesStep s a then []
  else if s.cfg.inputShaping && s.cfg.shaped.read a then (payOut (s.shaping.delta.read a) (primaryShares s a)).2
  else [s.bres.countDirection.read a]

/-- The premise "no overrun" of a TICK (40_isr_scheduler.md R118). -/
def NoOverrun (s : State) : Prop := tickElapsed s + s.cfg.minIsrMargin ≤ selectInterval (tickTasks s)

end Sys2Proof.Machine
end

