-- ==== Sys2Proof/Certificates/Slice0/Obligations.lean ====
section
/-! DEFINITION. The statements for the provers, one `def Obligations.<Name> : Prop` each.

Each docstring names the rule of the spec the statement formalises. A state written `{ s with … }` fixes every field:
what the update does not name is unchanged. -/

section

open Sys2Proof Sys2Proof.Machine

/-! ## Encoding (30_encoding.md) -/

/-- Decoding the bytes of an encoded operation gives it back, with its operand, and leaves the bytes after it
(30_encoding.md R80 to R87, R92). -/
def Obligations.DecodeOfEncode : Prop :=
  ∀ (i : Instr) (rest : List Byte), decodeBytes (bytesOfWord (encode i) ++ rest) = .ok (i, rest)

/-- A word the decoder accepts is the one encoding of its operation: no two words mean the same, and every word with
a bit where R80 requires 0 is rejected (30_encoding.md R80, R82, R88). -/
def Obligations.EncodeOfDecode : Prop :=
  ∀ (w : Word) (i : Instr), decode w = .ok i → encode i = w

/-- Words written out from the encodings of 30_encoding.md R80, R84 to R87 decode to what they stand for, and words
R88 calls illegal do not. -/
def Obligations.TableWordsDecode : Prop :=
  decodeTableWord 32 0x00000001 = some .nop ∧
  decodeTableWord 32 0x00000212 = some (.setAxisPosition 2) ∧
  decodeTableWord 32 0x00000117 = some (.enable 1) ∧
  decodeTableWord 32 0x000003C0 = some (.endstop 3) ∧
  decodeTableWord 32 0x00000080 = some .tick ∧
  decodeTableWord 32 0x000000E1 = some .discardCurrentBlock ∧
  decodeTableWord 32 0x00000000 = none ∧
  decodeTableWord 32 0x00000014 = none ∧
  decodeTableWord 32 0x00000101 = none ∧
  decodeTableWord 32 0x00001117 = none

/-! ## The step (00_scope.md R10, R11; 20_memory.md R69) -/

/-- A step runs the operation of the word on the endstop port (47_host_interface.md R295), and a compare match runs TICK
(40_isr_scheduler.md R112) with the draw the schedule fixes. That an EVT or PLN word can be presented by itself, and a
step then runs its operation, is the model's choice (log entry 7: nobody issues an EVT word and the engine alone issues
a PLN word, 30_encoding.md R80), and so is that a schedule names the moves (log entry 1) and a draw (log entry 3). -/
def Obligations.StepRunsPortWord : Prop :=
  ∀ (s : State) (w : Word) (i : Instr) (rest : List Move), s.cfg.legal = true → decode w = .ok i →
    (i.format = .evt ∨ i.format = .pln → s.env.schedule = .engineWord w :: rest →
      step s = exec i { s with env.schedule := rest }) ∧
    (i.format = .ein → s.env.schedule = .endstopInput w :: rest →
      step s = exec i { s with env.schedule := rest }) ∧
    (∀ e, s.env.schedule = .compareMatch e :: rest →
      step s = exec .tick { s with env := { s.env with schedule := rest, elapsed := e } })

/-- A step runs the operation of a command word: a command that is not synchronizing by the CMD write itself, after
ISSUE's bookkeeping, a synchronizing one by SYNC_PERFORM once the engine is idle; a command whose operands raise an
error runs (and only raises it) without the bookkeeping (47_host_interface.md R275, R277). -/
def Obligations.StepRunsCommandWord : Prop :=
  ∀ (s : State) (w : Word) (i : Instr) (rest : List Move), s.cfg.legal = true → decode w = .ok i → i.format = .cmd →
    (s.host.cmdPending = false → s.env.schedule = .write s.cfg.regBase 4 w :: rest →
      (operandError i s = none → i.synchronizing = false →
        step s = exec i (acceptCommand w { s with env.schedule := rest })) ∧
      (operandError i s ≠ none → step s = exec i { s with env.schedule := rest })) ∧
    (s.host.cmdPending = true → s.host.pendingCmd = w → EngineIdle s → s.env.schedule = .syncPerform :: rest →
      step s = exec i (releaseCommand { s with env.schedule := rest }))

/-- Where a step stops, and that it goes on everywhere else: an illegal configuration runs nothing (00_scope.md R8), an
access the window does not admit is refused (20_memory.md R64; that the run ends there is log entry 20), and an append
with which the planner breaks a duty is refused (93_implementation_defined.md I11; which duties is log entry 26). Two
stops are the model's choice, not the spec's: an access outside the window of 20_memory.md R61 faults (log entry 19),
and an engine word that names no EVT or PLN operation is refused (log entry 7). -/
def Obligations.StepStopsOnlyWhereNamed : Prop :=
  ∀ s : State,
    (s.cfg.legal = false → step s = .refused .illegalConfiguration) ∧
    (s.cfg.legal = true →
      (s.env.schedule = [] → ∃ t, step s = .next t) ∧
      ∀ m rest, s.env.schedule = m :: rest →
        (∀ addr width v, m = .read addr width ∨ m = .write addr width v →
          (addr < s.cfg.regBase ∨ s.cfg.regBase + 256 ≤ addr → step s = .fault .outsideWindow) ∧
          (s.cfg.regBase ≤ addr → addr < s.cfg.regBase + 256 →
            (width ≠ 4 ∨ (addr - s.cfg.regBase) % 4 ≠ 0 → step s = .refused .accessNotAdmitted) ∧
            (width = 4 → (addr - s.cfg.regBase) % 4 = 0 → ∃ t, step s = .next t))) ∧
        (∀ w, m = .engineWord w →
          (∀ i, decode w = .ok i → i.format = .evt ∨ i.format = .pln → ∃ t, step s = .next t) ∧
          ((∀ i, decode w = .ok i → ¬(i.format = .evt ∨ i.format = .pln)) →
            step s = .refused .noSuchOperation)) ∧
        (∀ d, m = .append d →
          (s.pq.length < s.cfg.plannerCap ∧ PlannerDutyBroken d s → step s = .refused .plannerDutyBroken) ∧
          (¬(s.pq.length < s.cfg.plannerCap ∧ PlannerDutyBroken d s) → ∃ t, step s = .next t)) ∧
        ((∀ addr width, m ≠ .read addr width) → (∀ addr width v, m ≠ .write addr width v) →
          (∀ w, m ≠ .engineWord w) → (∀ d, m ≠ .append d) → ∃ t, step s = .next t))

/-! ## The command handshake (47_host_interface.md R275 to R277) -/

/-- ISSUE (47_host_interface.md R275), by the step that writes CMD. -/
def Obligations.IssueHandshake : Prop :=
  ∀ (s : State) (w : Word) (rest : List Move), s.cfg.legal = true →
    s.env.schedule = .write s.cfg.regBase 4 w :: rest →
    let s0 : State := { s with env.schedule := rest }
    let s1 : State := { s0 with host := { s.host with err := false, errCode := 0, pendingCmd := w } }
    (s.host.cmdPending = true → step s = .next { s0 with host := { s.host with err := true, errCode := 4 } }) ∧
    (s.host.cmdPending = false → ∀ e, legality w s = some e →
      step s = .next { s0 with host := { s.host with err := true, errCode := e.code } }) ∧
    (s.host.cmdPending = false → legality w s = none →
      ∃ i, decode w = .ok i ∧ i.format = .cmd ∧
        (i.synchronizing = true → step s = .next { s1 with host.cmdPending := true }) ∧
        (i.synchronizing = false → step s = exec i s1))

/-- LEGALITY returns the first code that applies, in the rule's order (47_host_interface.md R276). -/
def Obligations.LegalityOrder : Prop :=
  ∀ (w : Word) (s : State),
    let opc := w.toNat % 256
    let axis := w.toNat / 256 % 16
    (legality w s).map HostError.code =
      if opc ∉ [0x01, 0x10, 0x11, 0x12, 0x13, 0x15, 0x16, 0x17, 0x18, 0x19, 0x1A, 0x1B] then some 1
      else if w.toNat / 4096 ≠ 0 then some 2
      else if opc ∈ [0x10, 0x12, 0x16, 0x17, 0x18] ∧ s.cfg.numAxes ≤ axis ∨
          opc ∉ [0x10, 0x12, 0x16, 0x17, 0x18] ∧ axis ≠ 0 then some 3
      else if opc = 0x16 ∧ s.cfg.babystepping = false then some 5
      else if opc = 0x16 ∧ 2 ≤ (s.host.arg.read 0).toNat then some 6
      else none

/-- SYNC_PERFORM runs the pending command and ends it exactly when one is pending and the engine is idle; otherwise
nothing changes (47_host_interface.md R277; that nothing changes where it is not enabled is the model's reading of
"enabled iff"). -/
def Obligations.SyncPerformOnlyWhenIdle : Prop :=
  ∀ (s : State) (rest : List Move), s.cfg.legal = true → PendingCommandLegal s →
    s.env.schedule = .syncPerform :: rest →
    (s.host.cmdPending = false ∨ ¬EngineIdle s → step s = .next { s with env.schedule := rest }) ∧
    (s.host.cmdPending = true → EngineIdle s →
      ∃ v p, step s = .next { s with
        env.schedule := rest
        host := { s.host with cmdPending := false, result := v }
        bres.countPosition := p })

/-! ## Commands (47_host_interface.md R279 to R288, 46_direction_enable.md R266, R267) -/

/-- A command whose axis does not exist, whose feature is absent or whose argument has a forbidden bit raises its
HostError and changes nothing else (60_exceptions.md R311 to R313, 47_host_interface.md R276). -/
def Obligations.BadOperandsRaiseHostErrors : Prop :=
  ∀ (s : State) (f : Fin 16),
    (s.cfg.numAxes ≤ f.val →
      ∀ i ∈ [Instr.getPosition f, .setAxisPosition f, .babystep f, .enable f, .disable f],
        exec i s = .next { s with host := { s.host with err := true, errCode := 3 } }) ∧
    (f.val < s.cfg.numAxes → s.cfg.babystepping = false →
      exec (.babystep f) s = .next { s with host := { s.host with err := true, errCode := 5 } }) ∧
    (f.val < s.cfg.numAxes → s.cfg.babystepping = true → 2 ≤ (s.host.arg.read 0).toNat →
      exec (.babystep f) s = .next { s with host := { s.host with err := true, errCode := 6 } })

/-- NOP, ABORT, CLEAR_ENDSTOPS, CLEAR_DIAG, IS_BLOCK_BUSY and IS_IDLE always complete, with the results of
47_host_interface.md R279, R284, R286, R288, R283 and R287, and nothing else changes. -/
def Obligations.PlainCommandResults : Prop :=
  ∀ s : State,
    exec .nop s = .next { s with host.result := 0 } ∧
    exec .abort s = .next { s with seq.abortCurrentBlock := true, host.result := 0 } ∧
    exec .clearEndstops s = .next { s with host := { s.host with endstopHit := 0, result := 0 } } ∧
    exec .clearDiag s =
      .next { s with host := { s.host with overrunCount := 0, lostStepRisk := false, result := 0 } } ∧
    (s.seq.current = none → exec .isBlockBusy s = .next { s with host.result := 0 }) ∧
    (∀ b, s.seq.current = some b →
      exec .isBlockBusy s = .next { s with host.result := if b.id = s.host.arg.read 0 then 1 else 0 }) ∧
    (EngineIdle s → exec .isIdle s = .next { s with host.result := 1 }) ∧
    (¬EngineIdle s → exec .isIdle s = .next { s with host.result := 0 })

/-- The synchronizing commands: performed at once when the engine is idle, with the effects of 47_host_interface.md
R280 to R282. Taken by `exec` when it is not idle, one sets cmd_pending and nothing else: the model's choice (log
entry 6); no step takes that path, since ISSUE holds the command (R275) and SYNC_PERFORM waits for idle (R277). -/
def Obligations.PositionCommands : Prop :=
  ∀ (s : State) (a : Axis), a.val < s.cfg.numAxes →
    (EngineIdle s →
      exec (.getPosition (fieldOf a)) s = .next { s with host.result := s.bres.countPosition.read a } ∧
      exec (.setAxisPosition (fieldOf a)) s = .next { s with
        bres.countPosition := s.bres.countPosition.write a (s.host.arg.read 0), host.result := 0 } ∧
      ∃ p : PerAxis Word, exec .setPosition s = .next { s with bres.countPosition := p, host.result := 0 } ∧
        ∀ b : Axis, p.read b =
          if b.val < s.cfg.numAxes then s.host.arg.read b else s.bres.countPosition.read b) ∧
    (¬EngineIdle s → ∀ i ∈ [Instr.getPosition (fieldOf a), .setPosition, .setAxisPosition (fieldOf a)],
      exec i s = .next { s with host.cmdPending := true })

/-- ENABLE and DISABLE drive the line EN_MAP names, record a change of level, and report the lines
(46_direction_enable.md R266, R267). -/
def Obligations.EnableLines : Prop :=
  ∀ (s : State) (a : Axis) (on : Bool), s.cfg.legal = true → a.val < s.cfg.numAxes →
    let line := s.cfg.enMap.read a
    ∃ t, exec (if on then .enable (fieldOf a) else .disable (fieldOf a)) s = .next t ∧
      (∀ k, k < 32 → t.pins.enableLines.getLsbD k = if k = line then on else s.pins.enableLines.getLsbD k) ∧
      (∀ k, t.host.result.getLsbD k = (decide (k < s.cfg.numEnableLines) && t.pins.enableLines.getLsbD k)) ∧
      t.trace = s.trace ++
        (if s.pins.enableLines.getLsbD line = on then [] else [⟨s.timer.now, .enable line on⟩]) ∧
      t = { s with pins.enableLines := t.pins.enableLines, trace := t.trace, host.result := t.host.result }

/-- BABYSTEP counts a request unless the bound would be passed (47_host_interface.md R285). -/
def Obligations.BabystepRequest : Prop :=
  ∀ (s : State) (a : Axis), a.val < s.cfg.numAxes → s.cfg.babystepping = true →
    (s.host.arg.read 0 = 0 ∨ s.host.arg.read 0 = 1) →
    let n := s.babyPending.read a + (if s.host.arg.read 0 = 1 then -1 else 1)
    (n.natAbs ≤ s.cfg.babystepMax →
      exec (.babystep (fieldOf a)) s =
        .next { s with babyPending := s.babyPending.write a n, host.result := 1 }) ∧
    (s.cfg.babystepMax < n.natAbs → exec (.babystep (fieldOf a)) s = .next { s with host.result := 0 })

/-- ENDSTOP records the trigger position, marks the axis and raises the abort (47_host_interface.md R295); a word
that names no axis of the machine, or is no endstop word, changes no state (30_encoding.md R89). -/
def Obligations.EndstopRecordsAndAborts : Prop :=
  (∀ (s : State) (a : Axis), a.val < s.cfg.numAxes →
    exec (.endstop (fieldOf a)) s = .next { s with
      seq.abortCurrentBlock := true
      host := { s.host with
        endstopPos := s.host.endstopPos.write a (s.bres.countPosition.read a)
        endstopHit := s.host.endstopHit ||| BitVec.twoPow 8 a.val } }) ∧
  (∀ (s : State) (f : Fin 16), s.cfg.numAxes ≤ f.val → exec (.endstop f) s = .next s) ∧
  (∀ (s : State) (w : Word) (rest : List Move), s.cfg.legal = true → s.env.schedule = .endstopInput w :: rest →
    (∀ f, decode w ≠ .ok (.endstop f)) → step s = .next { s with env.schedule := rest })

/-! ## The register window (20_memory.md R60 to R65) -/

/-- An admitted read returns the register's value and changes no state; an admitted write changes state only at CMD
(`IssueHandshake`) and ARG0 to ARG7, every other offset ignoring it (20_memory.md R65). That the value read stands in
the reply is the model's own way to show it (log entry 8). -/
def Obligations.WindowAccesses : Prop :=
  ∀ (s : State) (off : Nat) (v : Word) (rest : List Move), s.cfg.legal = true → off < 256 → off % 4 = 0 →
    (s.env.schedule = .read (s.cfg.regBase + off) 4 :: rest →
      step s = .next { s with env := { s.env with schedule := rest, reply := .data (readWindow off s) } }) ∧
    (s.env.schedule = .write (s.cfg.regBase + off) 4 v :: rest →
      (∀ i : Axis, off = 0x010 + 4 * i.val →
        step s = .next { s with env.schedule := rest, host.arg := s.host.arg.write i v }) ∧
      (off ≠ 0 → ¬(0x010 ≤ off ∧ off < 0x030) → step s = .next { s with env.schedule := rest }))

/-- The registers that show one element of the state, the reserved offsets, and the byte order (20_memory.md R61 to
R63). -/
def Obligations.RegisterMap : Prop :=
  ∀ s : State,
    readWindow 0x000 s = s.host.pendingCmd ∧
    readWindow 0x008 s = s.host.result ∧
    (readWindow 0x00C s).toNat = s.host.errCode.toNat ∧
    (∀ i : Axis, readWindow (0x010 + 4 * i.val) s = s.host.arg.read i) ∧
    (s.host.overrunCount < 2 ^ 32 → (readWindow 0x030 s).toNat = s.host.overrunCount) ∧
    (s.timer.nextIsrTicks < 2 ^ 32 → (readWindow 0x038 s).toNat = s.timer.nextIsrTicks) ∧
    (s.seq.stepEventsCompleted < 2 ^ 32 → (readWindow 0x03C s).toNat = s.seq.stepEventsCompleted) ∧
    (∀ b, s.seq.current = some b → readWindow 0x040 s = b.id) ∧
    (s.seq.current = none → readWindow 0x040 s = 0) ∧
    (readWindow 0x050 s).toNat = s.host.faultCode.toNat ∧
    (∀ a : Axis, readWindow (0x060 + 4 * a.val) s =
      if a.val < s.cfg.numAxes then s.host.endstopPos.read a else 0) ∧
    (∀ off, off % 4 = 0 → 0x054 ≤ off ∧ off < 0x060 ∨ 0x080 ≤ off → readWindow off s = 0) ∧
    (∀ off k, off % 4 = 0 → k < 4 →
      (windowByte (off + k) s).toNat = (readWindow off s).toNat / 256 ^ k % 256)

/-- STATUS, ENGINE_INFO, DIR_STATE, ENABLE_STATE and ENDSTOP_HIT, bit by bit; bits of axes that do not exist read 0
(20_memory.md R62). -/
def Obligations.PackedRegisterBits : Prop :=
  ∀ s : State, s.cfg.legal = true →
    let bit := fun off k => (readWindow off s).getLsbD k
    (bit 0x004 0 = s.host.cmdPending ∧ bit 0x004 1 = s.host.err ∧ bit 0x004 2 = s.seq.current.isSome ∧
      bit 0x004 3 = s.seq.abortCurrentBlock ∧ bit 0x004 4 = s.host.fault ∧ bit 0x004 5 = s.host.lostStepRisk ∧
      (bit 0x004 6 = true ↔
        ∃ a, s.cfg.shaped.read a = true ∧ (s.shaping.queue.read a ≠ [] ∨ s.shaping.delta.read a ≠ 0)) ∧
      (bit 0x004 7 = true ↔ ∃ a : Axis, a.val < s.cfg.numAxes ∧ s.babyPending.read a ≠ 0) ∧
      (bit 0x004 8 = true ↔ EngineIdle s) ∧
      ∀ k, 9 ≤ k → bit 0x004 k = false) ∧
    (ShiftsInRange s → (readWindow 0x034 s).toNat =
      s.timer.stepsPerIsrShift + 2 ^ 3 * s.timer.overrunShift + 2 ^ 6 * s.timer.oversampling) ∧
    (∀ a : Axis, bit 0x044 a.val = (decide (a.val < s.cfg.numAxes) && s.pins.dirOut.read a)) ∧
    (∀ a : Axis, bit 0x044 (8 + a.val) =
      (decide (a.val < s.cfg.numAxes) && s.bres.lastDirectionBits.getLsbD a.val)) ∧
    (∀ k, 16 ≤ k → bit 0x044 k = false) ∧
    (∀ k, bit 0x048 k = (decide (k < s.cfg.numEnableLines) && s.pins.enableLines.getLsbD k)) ∧
    (∀ a : Axis, bit 0x04C a.val = (decide (a.val < s.cfg.numAxes) && s.host.endstopHit.getLsbD a.val)) ∧
    (∀ k, 8 ≤ k → bit 0x04C k = false)

/-! ## The planner port (47_host_interface.md R300, R301) -/

/-- GET_CURRENT_BLOCK answers the head or EMPTY and removes nothing, its answer being the reply of log entry 8;
DISCARD_CURRENT_BLOCK removes the head (of an empty queue nothing: the model's reading, log entry 11); APPEND pushes at
the tail while there is room and is no move otherwise (log entry 18); an append that breaks a duty of
47_host_interface.md R302 is refused (93_implementation_defined.md I11, log entry 26). -/
def Obligations.PlannerPort : Prop :=
  ∀ s : State,
    (s.host.fault = false → exec .getCurrentBlock s = .next { s with env.reply := .block s.pq.head? }) ∧
    (s.host.fault = false → ∀ d rest, s.pq = d :: rest → exec .discardCurrentBlock s = .next { s with pq := rest }) ∧
    (s.host.fault = false → s.pq = [] → exec .discardCurrentBlock s = .next s) ∧
    (∀ d rest, s.cfg.legal = true → s.env.schedule = .append d :: rest →
      (s.pq.length < s.cfg.plannerCap → ¬PlannerDutyBroken d s →
        step s = .next { s with env.schedule := rest, pq := s.pq ++ [d] }) ∧
      (s.pq.length < s.cfg.plannerCap → PlannerDutyBroken d s → step s = .refused .plannerDutyBroken) ∧
      (s.cfg.plannerCap ≤ s.pq.length → step s = .next { s with env.schedule := rest }))

/-! ## TICK (40_isr_scheduler.md) -/

/-- A TICK is its sub-tasks in their fixed order, each where it is due, and then the timer (40_isr_scheduler.md R112,
60_exceptions.md R320): PULSE_PHASE, SHAPING_ISR, ADVANCE_ISR with `next_adv <- la_interval` after it, BABYSTEP_ISR with
`next_baby <- BABYSTEP_QUIET` after it, and BLOCK_PHASE, whose interval is the next main countdown. Every TICK that does
not end in a fault programs an interval between 1 and MAX_INTERVAL, and virtual time moves by it (R112, R116); a TICK
whose BLOCK_PHASE faults programs nothing, leaves the compare register and virtual time alone, and leaves the refused
block at the head of the queue with none loaded (60_exceptions.md R314, R315). Where the draw `e` comes from, and that
it is used up, is the model's choice (log entry 3). `SelectIntervalIsLeast` and `OverrunAndCountdowns` say what the
three parts of the end are. -/
def Obligations.TickProgramsTheTimer : Prop :=
  ∀ s : State, s.cfg.legal = true → s.host.fault = false →
    ∃ s1 s2 s3 s4 s5 t, exec .tick s = .next t ∧
      (if s.timer.nextMain = 0 then exec .pulsePhase s = .next s1 else s1 = s) ∧
      (if s.cfg.inputShaping = true then exec .shapingIsr s1 = .next s2 else s2 = s1) ∧
      (if s.cfg.linAdvance = true ∧ s2.timer.nextAdv = some 0 then
          ∃ u, exec .advanceIsr s2 = .next u ∧ s3 = { u with timer.nextAdv := u.la.interval }
        else s3 = s2) ∧
      (if s.cfg.babystepping = true ∧ s3.timer.nextBaby = 0 ∧
            ∃ a : Axis, a.val < s.cfg.numAxes ∧ s3.babyPending.read a ≠ 0 then
          ∃ u, exec .babystepIsr s3 = .next u ∧ s4 = { u with timer.nextBaby := s.cfg.babystepQuiet }
        else s4 = s3) ∧
      (if s.timer.nextMain = 0 then
          ∃ u iv, exec .blockPhase s4 = .next u ∧ u.env.reply = .interval iv ∧
            s5 = { u with timer.nextMain := iv, env := s.env }
        else s5 = s4) ∧
      (s5.host.fault = true → t = s5) ∧
      (s5.host.fault = false →
        let picked := selectInterval s5
        let interval := checkedInterval s.cfg picked (tickElapsed s)
        let u := advanceCountdowns interval (overrunCheck picked (tickElapsed s) s5)
        t = { u with
          timer := { u.timer with nextIsrTicks := interval, now := s.timer.now + interval }
          env := { s.env with elapsed := none, drawCount := s.env.drawCount + 1 } }) ∧
      (t.host.fault = false →
        1 ≤ t.timer.nextIsrTicks ∧ t.timer.nextIsrTicks ≤ s.cfg.maxInterval ∧
        t.timer.now = s.timer.now + t.timer.nextIsrTicks) ∧
      (t.host.fault = true →
        s.timer.nextMain = 0 ∧ t.timer.nextMain = 0 ∧
        t.timer.nextIsrTicks = s.timer.nextIsrTicks ∧ t.timer.now = s.timer.now ∧
        t.seq.current = none ∧ FaultHoldsBlock t ∧ (t.host.faultCode = 1 ∨ t.host.faultCode = 2))

/-- A TICK whose main countdown is not 0 serves only the auxiliary tasks: no block is loaded, ended or aborted, no step
event runs, and an abort stays pending (40_isr_scheduler.md R112, 70_reset_and_hazards.md R355). -/
def Obligations.TickWithoutMainTask : Prop :=
  ∀ s : State, s.host.fault = false → s.timer.nextMain ≠ 0 →
    ∃ t, exec .tick s = .next t ∧ t.host.fault = false ∧ t.seq = s.seq ∧ t.pq = s.pq ∧
      t.bres.deltaError = s.bres.deltaError ∧ t.bres.advanceDividend = s.bres.advanceDividend ∧
      t.bres.advanceDivisor = s.bres.advanceDivisor ∧ t.bez = s.bez ∧
      t.timer.nextMain = s.timer.nextMain - t.timer.nextIsrTicks

/-- An idle engine's TICK programs IDLE_INTERVAL and does nothing else (40_isr_scheduler.md R112's example, R117),
for every draw that does not overrun it. How the draw is counted off is the model's choice (log entry 3). -/
def Obligations.IdleTick : Prop :=
  ∀ s : State, s.host.fault = false → EngineIdle s → s.seq.abortCurrentBlock = false →
    s.timer.nextMain = 0 → s.timer.nextAdv = none → (∀ a : Axis, a.val < s.cfg.numAxes → s.babyPending.read a = 0) →
    1 ≤ s.cfg.idleInterval → s.cfg.idleInterval ≤ s.cfg.maxInterval →
    tickElapsed s + s.cfg.minIsrMargin ≤ s.cfg.idleInterval →
    exec .tick s = .next { s with
      timer := { s.timer with
        nextIsrTicks := s.cfg.idleInterval, now := s.timer.now + s.cfg.idleInterval
        nextBaby := s.timer.nextBaby - s.cfg.idleInterval }
      env := { s.env with elapsed := none, drawCount := s.env.drawCount + 1 } }

/-- Every TICK serves a pending babystep exactly when the quiet period is over, one pulse on the least axis, and starts
the quiet period again (40_isr_scheduler.md R112, 45_aux_pulse.md R242, R243). -/
def Obligations.TickServesBabystep : Prop :=
  ∀ s : State, s.host.fault = false → s.cfg.babystepping = true → ∃ t, exec .tick s = .next t ∧
    (s.timer.nextBaby ≠ 0 → t.babyPending = s.babyPending) ∧
    ∀ a : Axis, s.timer.nextBaby = 0 → a.val < s.cfg.numAxes → s.babyPending.read a ≠ 0 →
      (∀ b : Axis, b.val < a.val → s.babyPending.read b = 0) →
      t.babyPending = s.babyPending.write a
        (s.babyPending.read a - (if s.babyPending.read a < 0 then -1 else 1)) ∧
      (t.host.fault = false → t.timer.nextBaby = s.cfg.babystepQuiet - t.timer.nextIsrTicks)

/-- SELECT_INTERVAL is the least of the pending countdowns, raised to 1 (40_isr_scheduler.md R113). -/
def Obligations.SelectIntervalIsLeast : Prop :=
  ∀ s : State,
    let pending : Nat → Prop := fun x =>
      x = s.timer.nextMain ∨ s.timer.nextAdv = some x ∨
      (s.cfg.babystepping = true ∧ (∃ a : Axis, a.val < s.cfg.numAxes ∧ s.babyPending.read a ≠ 0) ∧
        x = s.timer.nextBaby) ∨
      ∃ a q rest, s.cfg.shaped.read a = true ∧ s.shaping.queue.read a = q :: rest ∧ x = q.remaining
    ∃ m, pending m ∧ (∀ x, pending x → m ≤ x) ∧ selectInterval s = max 1 m

/-- OVERRUN_CHECK and ADVANCE_COUNTDOWNS, the two parts of a TICK's end (40_isr_scheduler.md R114, R115). -/
def Obligations.OverrunAndCountdowns : Prop :=
  ∀ (s : State) (interval e : Nat),
    (e + s.cfg.minIsrMargin ≤ interval →
      overrunCheck interval e s = s ∧ checkedInterval s.cfg interval e = min interval s.cfg.maxInterval) ∧
    (interval < e + s.cfg.minIsrMargin →
      checkedInterval s.cfg interval e = min (e + s.cfg.minIsrMargin) s.cfg.maxInterval ∧
      overrunCheck interval e s = { s with
        trace := s.trace ++ [⟨s.timer.now, .overrun e interval⟩]
        host := { s.host with
          overrunCount := min (s.host.overrunCount + 1) (2 ^ 32 - 1)
          lostStepRisk := s.host.lostStepRisk || decide (s.cfg.maxMultistepShift ≤ s.timer.overrunShift) }
        timer :=
          if s.timer.overrunShift < s.cfg.maxMultistepShift then
            { s.timer with overrunShift := s.timer.overrunShift + 1, ticksNominal := none }
          else s.timer }) ∧
    ∃ q : PerAxis (List Echo), advanceCountdowns interval s = { s with
        timer := { s.timer with
          nextMain := (max ((s.timer.nextMain : Int) - interval) 0).toNat
          nextAdv := s.timer.nextAdv.map (fun (n : Nat) => (max ((n : Int) - interval) 0).toNat)
          nextBaby := (max ((s.timer.nextBaby : Int) - interval) 0).toNat }
        shaping.queue := q } ∧
      ∀ a, q.read a =
        if s.cfg.shaped.read a = true then
          (s.shaping.queue.read a).map (fun x => ⟨x.dir, (max ((x.remaining : Int) - interval) 0).toNat⟩)
        else s.shaping.queue.read a

/-! ## Intervals (43_timer_interval.md) -/

/-- BASE_INTERVAL (43_timer_interval.md R170): the two branches, its bounds, and that a higher rate never gives a
longer interval. -/
def Obligations.BaseIntervalRule : Prop :=
  ∀ (c : Config) (r : Nat),
    (r = 0 ∨ r < c.minStepRate → baseInterval c r = c.maxInterval) ∧
    (r ≠ 0 → c.minStepRate ≤ r → baseInterval c r = max 1 (min (c.timerRate / r) c.maxInterval)) ∧
    (c.legal = true → 1 ≤ baseInterval c r ∧ baseInterval c r ≤ c.maxInterval ∧
      ∀ r', r ≤ r' → baseInterval c r' ≤ baseInterval c r)

/-- CALC_TIMER_INTERVAL takes the least multi-step shift that brings the rate under the limit, or the ceiling, raised to
the overrun shift, and writes nothing but `steps_per_isr_shift` (43_timer_interval.md R172). -/
def Obligations.CalcTimerIntervalLeastShift : Prop :=
  ∀ (s : State) (r : Nat), ∃ k, k ≤ s.cfg.maxMultistepShift ∧
    (∀ j, j < k → s.cfg.maxStepIsrRate < r / 2 ^ j) ∧
    (k = s.cfg.maxMultistepShift ∨ r / 2 ^ k ≤ s.cfg.maxStepIsrRate) ∧
    calcTimerInterval r s =
      ({ s with timer.stepsPerIsrShift := max k s.timer.overrunShift },
        baseInterval s.cfg (r / 2 ^ max k s.timer.overrunShift))

/-- An interval turned into a rate and back comes back within one tick in the supported range, and not always beyond it
(43_timer_interval.md R175, with its example). -/
def Obligations.IntervalRoundTrip : Prop :=
  (∀ (c : Config) (x : Nat), 1 ≤ x → x ≤ c.maxInterval → x * (x + 1) ≤ c.timerRate →
    c.minStepRate ≤ rateOf c x →
    x ≤ baseInterval c (rateOf c x) ∧ baseInterval c (rateOf c x) - x ≤ 1) ∧
  rateOf Config.default 70000 = 28 ∧ baseInterval Config.default 28 = 71428

/-- OVERSAMPLING_SHIFT is the least shift that brings the nominal rate to the floor, or the ceiling, and 0 without
adaptive smoothing; APPLY_OVERSAMPLING shifts exactly the listed fields (43_timer_interval.md R176). -/
def Obligations.OversamplingRule : Prop :=
  (∀ (c : Config) (r : Nat), c.adaptiveSmoothing = false → oversamplingShift c r = 0) ∧
  (∀ (c : Config) (r : Nat), c.adaptiveSmoothing = true →
    oversamplingShift c r ≤ c.maxOversampling ∧
    (∀ j, j < oversamplingShift c r → r * 2 ^ j < c.smoothMinIsrRate) ∧
    (oversamplingShift c r = c.maxOversampling ∨ c.smoothMinIsrRate ≤ r * 2 ^ oversamplingShift c r)) ∧
  ∀ (o : Nat) (b : BlockRec), applyOversampling o b = { b with
    stepEventCount := b.stepEventCount * 2 ^ o, accelerateBefore := b.accelerateBefore * 2 ^ o
    decelerateStart := b.decelerateStart * 2 ^ o, initialRate := b.initialRate * 2 ^ o
    nominalRate := b.nominalRate * 2 ^ o, finalRate := b.finalRate * 2 ^ o
    accelerationRate := b.accelerationRate * 2 ^ o, laAdvanceRate := b.laAdvanceRate * 2 ^ o }

/-! ## Rates (42_velocity_profile.md) -/

/-- The trapezoid's rates (42_velocity_profile.md R150, R153), and that they are monotone in the phase time
(R160's trapezoid case). -/
def Obligations.TrapezoidRates : Prop :=
  ∀ (c : Config) (b : BlockRec) (acc t : Nat),
    trapAccelRate c b t = min (b.initialRate + b.accelerationRate * t / 2 ^ c.accelFrac) b.nominalRate ∧
    (b.accelerationRate * t / 2 ^ c.accelFrac < acc →
      trapDecelRate c b acc t = max (acc - b.accelerationRate * t / 2 ^ c.accelFrac) b.finalRate) ∧
    (acc ≤ b.accelerationRate * t / 2 ^ c.accelFrac → trapDecelRate c b acc t = b.finalRate) ∧
    ∀ t', t ≤ t' →
      trapAccelRate c b t ≤ trapAccelRate c b t' ∧ trapDecelRate c b acc t' ≤ trapDecelRate c b acc t

/-- The S-curve evaluator with the coefficients of BEZ_COEFFS(V0, V1) (42_velocity_profile.md R154): its reference is
the exact floor of the curve and lies between the endpoint rates (R156), and the value it produces is the endpoint once
τ ≥ D, is within BEZIER_TOL of the reference and between the endpoints before that (so it is the reference when
BEZIER_TOL = 0), starts at V0, is a function of τ = elapsed · inverse and the endpoints alone, and is monotone in τ
(R157, and R160's S-curve case). It holds whatever the free value of log entry 4 is. -/
def Obligations.BezierLaws : Prop :=
  ∀ (c : Config) (v0 v1 : Nat) (z0 : Bezier) (elapsed inverse : Nat),
    let z := bezCoeffs v0 v1 z0
    let τ := elapsed * inverse
    let v := bezEval c z elapsed inverse
    (2 ^ c.bezFrac ≤ τ → v = v1) ∧
    (τ < 2 ^ c.bezFrac →
      min v0 v1 ≤ v ∧ v ≤ max v0 v1 ∧
      (let D : Int := 2 ^ c.bezFrac
        let δ : Int := (v1 : Int) - v0
        bezRef c z τ =
          (v0 * D ^ 5 + 10 * δ * (τ : Int) ^ 3 * D ^ 2 - 15 * δ * (τ : Int) ^ 4 * D + 6 * δ * (τ : Int) ^ 5) / D ^ 5) ∧
      (min v0 v1 : Nat) ≤ bezRef c z τ ∧ bezRef c z τ ≤ (max v0 v1 : Nat) ∧
      ((v : Int) - bezRef c z τ).natAbs ≤ c.bezierTol) ∧
    bezEval c z 0 inverse = v0 ∧
    (∀ z1 elapsed' inverse', elapsed' * inverse' = τ → bezEval c (bezCoeffs v0 v1 z1) elapsed' inverse' = v) ∧
    ∀ elapsed' inverse', τ ≤ elapsed' * inverse' →
      (v0 ≤ v1 → v ≤ bezEval c z elapsed' inverse') ∧ (v1 < v0 → bezEval c z elapsed' inverse' ≤ v)

/-! ## The pulse engine (41_bresenham.md) -/

/-- PULSE_PHASE with no abort: the block's next step events run, at most `2^steps_per_isr_shift` and never beyond the
block's end, and are counted (41_bresenham.md R130, R131); without a block it does nothing. -/
def Obligations.PulsePhaseRunsEvents : Prop :=
  ∀ s : State, s.host.fault = false → s.seq.abortCurrentBlock = false →
    (s.seq.current = none → exec .pulsePhase s = .next s) ∧
    ∀ b, s.seq.current = some b →
      let n := min (2 ^ s.timer.stepsPerIsrShift) (b.stepEventCount - s.seq.stepEventsCompleted)
      ∃ t, exec .pulsePhase s = .next t ∧ t = runEvents n s ∧
        t.seq = { s.seq with stepEventsCompleted := s.seq.stepEventsCompleted + n } ∧
        (s.seq.stepEventsCompleted ≤ b.stepEventCount → t.seq.stepEventsCompleted ≤ b.stepEventCount) ∧
        t.bres.advanceDividend = s.bres.advanceDividend ∧ t.bres.advanceDivisor = s.bres.advanceDivisor ∧
        t.bres.countDirection = s.bres.countDirection ∧ t.bres.lastDirectionBits = s.bres.lastDirectionBits ∧
        t.timer = s.timer ∧ t.bez = s.bez ∧ t.la = s.la ∧ t.babyPending = s.babyPending ∧
        t.pins.enableLines = s.pins.enableLines ∧ t.host = s.host ∧ t.pq = s.pq ∧ t.env = s.env

/-- PULSE_PHASE consumes an abort: the loaded block is discarded and nothing else of the queue, shaping is flushed, the
position is reported, and no step event runs (41_bresenham.md R130, 44_block_sequencer.md R203, R204, 45_aux_pulse.md
R238). -/
def Obligations.PulsePhaseConsumesAbort : Prop :=
  ∀ s : State, s.host.fault = false → s.seq.abortCurrentBlock = true →
    ∃ t, exec .pulsePhase s = .next t ∧
      t.seq = { s.seq with current := none, abortCurrentBlock := false } ∧
      t.pq = (if s.seq.current.isSome then s.pq.tail else s.pq) ∧
      (∀ a, s.cfg.shaped.read a = true → t.shaping.queue.read a = [] ∧ t.shaping.delta.read a = 0) ∧
      (∀ a, s.cfg.shaped.read a = false →
        t.shaping.queue.read a = s.shaping.queue.read a ∧ t.shaping.delta.read a = s.shaping.delta.read a) ∧
      t.trace = s.trace ++
        (match s.seq.current with
          | some b => [⟨s.timer.now, .blockAborted b.id⟩, ⟨s.timer.now, .discard b.id⟩]
          | none => []) ++
        [⟨s.timer.now, .positionResync
          ((allAxes.filter (fun a => a.val < s.cfg.numAxes)).map (fun a => s.bres.countPosition.read a))⟩] ∧
      t.la = (if s.seq.current.isSome && s.cfg.linAdvance then { s.la with active := false } else s.la) ∧
      t.timer = (if s.seq.current.isSome && s.cfg.linAdvance then { s.timer with nextAdv := none } else s.timer) ∧
      t.bres = s.bres ∧ t.bez = s.bez ∧ t.babyPending = s.babyPending ∧ t.pins = s.pins ∧ t.host = s.host ∧
      t.env = s.env ∧ t.cfg = s.cfg

/-- STEP_EVENT, axis by axis (41_bresenham.md R132, R135, R136), with its frame: the axes that step, `delta_error`, the
pulses with their records, pins and position, and on a shaped axis SHAPE_PRIMARY (45_aux_pulse.md R235): the head echo
forced out first where the queue is too full, FACTOR1's share applied at once, and one echo pushed at the tail with the
whole SHAPING_DELAY. The records stand in ascending order of the axes. -/
def Obligations.StepEventByAxis : Prop :=
  ∀ s : State, s.host.fault = false → ∃ t, exec .stepEvent s = .next t ∧
    (∀ a : Axis,
      let de := s.bres.deltaError.read a + (s.bres.advanceDividend.read a : Int)
      let driven := a.val < s.cfg.numAxes ∧ ¬(s.cfg.linAdvance = true ∧ s.la.active = true ∧ a = s.cfg.eAxis)
      let shaped := s.cfg.inputShaping = true ∧ s.cfg.shaped.read a = true
      let queue := s.shaping.queue.read a
      (takesStep s a = true ↔ driven ∧ 0 ≤ de) ∧
      (driven → t.bres.deltaError.read a = if 0 ≤ de then de - s.bres.advanceDivisor else de) ∧
      (¬driven → t.bres.deltaError.read a = s.bres.deltaError.read a) ∧
      (takesStep s a = true → ¬shaped → eventPulses s a = [s.bres.countDirection.read a]) ∧
      (takesStep s a = true → shaped →
        t.shaping.queue.read a =
          (if forcesEcho s a then queue.tail else queue) ++
            [⟨s.bres.countDirection.read a, s.cfg.shapingDelay.read a⟩] ∧
        payOut (s.shaping.delta.read a) (primaryShares s a) = (t.shaping.delta.read a, eventPulses s a)) ∧
      (takesStep s a = false → eventPulses s a = []) ∧
      (¬(takesStep s a = true ∧ shaped) →
        t.shaping.queue.read a = queue ∧ t.shaping.delta.read a = s.shaping.delta.read a) ∧
      t.bres.countPosition.read a =
        s.bres.countPosition.read a + BitVec.ofInt 32 ((eventPulses s a).map Dir.sign).sum ∧
      t.pins.dirOut.read a = levelAfter (s.pins.dirOut.read a) (eventPulses s a) ∧
      t.pins.stepOut.read a = if eventPulses s a = [] then s.pins.stepOut.read a else false) ∧
    t.trace = s.trace ++
      allAxes.flatMap (fun a => pulseRecords s.timer.now a (s.pins.dirOut.read a) (eventPulses s a)) ∧
    t.bres.advanceDividend = s.bres.advanceDividend ∧ t.bres.advanceDivisor = s.bres.advanceDivisor ∧
    t.bres.countDirection = s.bres.countDirection ∧ t.bres.lastDirectionBits = s.bres.lastDirectionBits ∧
    t.cfg = s.cfg ∧ t.seq = s.seq ∧ t.timer = s.timer ∧ t.bez = s.bez ∧ t.la = s.la ∧
    t.babyPending = s.babyPending ∧ t.pins.enableLines = s.pins.enableLines ∧ t.host = s.host ∧ t.pq = s.pq ∧
    t.env = s.env

/-- Bresenham exactness: of a block of N ≥ 1 step events, an axis of step count S ≤ N that linear advance does not drive
has taken `k(j) = floor((2S·j + N) / (2N))` logical steps after j of its events, in particular S after N; it steps at
an event exactly when k grows, and its accumulator is −N + 2S·j − 2N·k(j) (41_bresenham.md R137, R138). On an axis
without shaping each logical step moves the position. -/
def Obligations.BresenhamExactness : Prop :=
  ∀ (s : State) (b : BlockRec) (a : Axis) (j : Nat),
    1 ≤ b.stepEventCount → b.steps.read a ≤ b.stepEventCount → a.val < s.cfg.numAxes → skipsAxis s a = false →
    let N := b.stepEventCount
    let S := b.steps.read a
    let t := runEvents j (bresenhamInit b s)
    t.bres.deltaError.read a = -(N : Int) + 2 * S * j - 2 * N * stepsAfter S N j ∧
    takesStep t a = decide (stepsAfter S N j < stepsAfter S N (j + 1)) ∧
    ((s.cfg.inputShaping && s.cfg.shaped.read a) = false →
      t.bres.countPosition.read a =
        s.bres.countPosition.read a +
          BitVec.ofInt 32 ((s.bres.countDirection.read a).sign * (stepsAfter S N j : Int))) ∧
    stepsAfter S N 0 = 0 ∧ stepsAfter S N N = S

/-- PHYSICAL_PULSE drives one pulse (41_bresenham.md R136), and STEP_AXIS gives an axis without shaping one
(41_bresenham.md R135). -/
def Obligations.PhysicalPulseRule : Prop :=
  ∀ (s : State) (a : Axis) (d : Dir), ∃ t, physicalPulse a d s = t ∧
    t.trace = s.trace ++
      (if s.pins.dirOut.read a = (d == Dir.neg) then [] else [⟨s.timer.now, .dir a (d == Dir.neg)⟩]) ++
      [⟨s.timer.now, .step a d⟩] ∧
    (∀ b, t.pins.dirOut.read b = if b = a then d == Dir.neg else s.pins.dirOut.read b) ∧
    (∀ b, t.pins.stepOut.read b = if b = a then false else s.pins.stepOut.read b) ∧
    (∀ b, t.bres.countPosition.read b =
      if b = a then s.bres.countPosition.read a + BitVec.ofInt 32 d.sign else s.bres.countPosition.read b) ∧
    t = { s with pins := { s.pins with dirOut := t.pins.dirOut, stepOut := t.pins.stepOut }
                 bres.countPosition := t.bres.countPosition, trace := t.trace } ∧
    ((s.cfg.inputShaping && s.cfg.shaped.read a) = false → stepAxis a d s = t)

/-! ## Input shaping (45_aux_pulse.md R230 to R240) -/

/-- One SHAPE_APPLY: the sum is taken, at most one pulse is emitted and pays 128 shares, the accumulator comes back into
[−64, 63], the position moves by the pulses, and nothing but that axis's accumulator, position, pins and records changes
(45_aux_pulse.md R234, R236; 41_bresenham.md R136). -/
def Obligations.ShapeApplyRule : Prop :=
  ∀ (s : State) (a : Axis) (amt : Int),
    -64 ≤ s.shaping.delta.read a → s.shaping.delta.read a ≤ 63 → -128 ≤ amt → amt ≤ 128 →
    let v := s.shaping.delta.read a + amt
    let pulses : Int := if 64 ≤ v then 1 else if v < -64 then -1 else 0
    let ds : List Dir := if 64 ≤ v then [.pos] else if v < -64 then [.neg] else []
    let t := shapeApply a amt s
    t.shaping.delta.read a = v - 128 * pulses ∧
    -64 ≤ t.shaping.delta.read a ∧ t.shaping.delta.read a ≤ 63 ∧
    t.bres.countPosition.read a = s.bres.countPosition.read a + BitVec.ofInt 32 pulses ∧
    (∃ added, t.trace = s.trace ++ added ∧ netSteps a added = pulses ∧
      added.length ≤ 2 ∧ (pulses = 0 → added = []) ∧
      added = pulseRecords s.timer.now a (s.pins.dirOut.read a) ds) ∧
    t.pins.dirOut.read a = levelAfter (s.pins.dirOut.read a) ds ∧
    t.pins.stepOut.read a = (if ds = [] then s.pins.stepOut.read a else false) ∧
    (∀ b, b ≠ a → t.shaping.delta.read b = s.shaping.delta.read b ∧
      t.bres.countPosition.read b = s.bres.countPosition.read b ∧
      t.pins.dirOut.read b = s.pins.dirOut.read b ∧ t.pins.stepOut.read b = s.pins.stepOut.read b) ∧
    t = { s with
      shaping.delta := t.shaping.delta, bres.countPosition := t.bres.countPosition
      pins := { s.pins with dirOut := t.pins.dirOut, stepOut := t.pins.stepOut }, trace := t.trace }

/-- SHAPING_ISR pops exactly the echoes that are due on every shaped axis and pays them out in FIFO order, each by one
SHAPE_APPLY: the accumulator and the pulses, in order, are those of the due shares taken from the head on
(45_aux_pulse.md R233, R234), with their records axis by axis in ascending order; the shares they carry are not lost
(R239), and nothing else changes. -/
def Obligations.ShapingIsrDrainsDue : Prop :=
  ∀ s : State, s.host.fault = false → ∃ t added, exec .shapingIsr s = .next t ∧ t.trace = s.trace ++ added ∧
    (∀ a, s.cfg.shaped.read a = true →
      t.shaping.queue.read a = (s.shaping.queue.read a).dropWhile (fun q => q.remaining == 0) ∧
      payOut (s.shaping.delta.read a) (dueShares a s) = (t.shaping.delta.read a, stepsOf a added) ∧
      t.pins.dirOut.read a = levelAfter (s.pins.dirOut.read a) (stepsOf a added) ∧
      t.pins.stepOut.read a = (if stepsOf a added = [] then s.pins.stepOut.read a else false) ∧
      pendingShares a t + 128 * netSteps a added = pendingShares a s ∧
      t.bres.countPosition.read a = s.bres.countPosition.read a + BitVec.ofInt 32 (netSteps a added)) ∧
    (∀ a, s.cfg.shaped.read a = false →
      t.shaping.queue.read a = s.shaping.queue.read a ∧ t.shaping.delta.read a = s.shaping.delta.read a ∧
      t.bres.countPosition.read a = s.bres.countPosition.read a ∧ t.pins.dirOut.read a = s.pins.dirOut.read a ∧
      t.pins.stepOut.read a = s.pins.stepOut.read a) ∧
    added = (allAxes.filter (fun a => s.cfg.shaped.read a)).flatMap (fun a =>
      pulseRecords s.timer.now a (s.pins.dirOut.read a) (payOut (s.shaping.delta.read a) (dueShares a s)).2) ∧
    t.pins.enableLines = s.pins.enableLines ∧ t.bres.advanceDividend = s.bres.advanceDividend ∧
    t.bres.advanceDivisor = s.bres.advanceDivisor ∧
    t.bres.deltaError = s.bres.deltaError ∧ t.bres.countDirection = s.bres.countDirection ∧
    t.bres.lastDirectionBits = s.bres.lastDirectionBits ∧
    t.cfg = s.cfg ∧ t.seq = s.seq ∧ t.timer = s.timer ∧ t.bez = s.bez ∧ t.la = s.la ∧
    t.babyPending = s.babyPending ∧ t.host = s.host ∧ t.pq = s.pq ∧ t.env = s.env

/-- Shaping exactness over a block: after j of its step events the shares of a shaped axis, still pending or paid out in
pulses of 128, have grown by 128 for each of its `k(j)` logical steps (45_aux_pulse.md R235, R239, 41_bresenham.md
R137); and once the queue is empty, with the accumulator in its range, whole steps owed are none. -/
def Obligations.ShapingExactness : Prop :=
  (∀ (s : State) (b : BlockRec) (a : Axis) (j : Nat), s.cfg.legal = true → s.cfg.inputShaping = true →
    s.cfg.shaped.read a = true → 1 ≤ b.stepEventCount → b.steps.read a ≤ b.stepEventCount →
    ∃ added, (runEvents j (bresenhamInit b s)).trace = s.trace ++ added ∧
      pendingShares a (runEvents j (bresenhamInit b s)) + 128 * netSteps a added =
        pendingShares a s +
          128 * ((s.bres.countDirection.read a).sign * (stepsAfter (b.steps.read a) b.stepEventCount j : Int))) ∧
  ∀ (s : State) (a : Axis) (owed : Int), s.shaping.queue.read a = [] → -64 ≤ s.shaping.delta.read a →
    s.shaping.delta.read a ≤ 63 → pendingShares a s = 128 * owed → owed = 0 ∧ s.shaping.delta.read a = 0

/-! ## Linear advance and babystepping (45_aux_pulse.md) -/

/-- ADVANCE_ISR (45_aux_pulse.md R224). -/
def Obligations.AdvanceIsrRule : Prop :=
  ∀ s : State, s.host.fault = false →
    let e := s.cfg.eAxis
    let d := s.bres.countDirection.read e
    let de := s.la.deltaError + (s.la.dividend : Int)
    (s.la.active = false → exec .advanceIsr s = .next s) ∧
    (s.la.active = true → de < 0 → exec .advanceIsr s = .next { s with la.deltaError := de }) ∧
    (s.la.active = true → 0 ≤ de → ∃ t, exec .advanceIsr s = .next t ∧
      t.la = { s.la with
        deltaError := de - s.bres.advanceDivisor, advanceSteps := s.la.advanceSteps + BitVec.ofInt 32 d.sign } ∧
      t.bres = { s.bres with countPosition :=
        s.bres.countPosition.write e (s.bres.countPosition.read e + BitVec.ofInt 32 d.sign) } ∧
      t.pins.dirOut = s.pins.dirOut.write e (d == Dir.neg) ∧
      (∀ b, t.pins.stepOut.read b = if b = e then false else s.pins.stepOut.read b) ∧
      t.trace = s.trace ++
        (if s.pins.dirOut.read e = (d == Dir.neg) then [] else [⟨s.timer.now, .dir e (d == Dir.neg)⟩]) ++
        [⟨s.timer.now, .step e d⟩] ∧
      t.cfg = s.cfg ∧ t.seq = s.seq ∧ t.timer = s.timer ∧ t.bez = s.bez ∧ t.shaping = s.shaping ∧
      t.babyPending = s.babyPending ∧ t.pins.enableLines = s.pins.enableLines ∧ t.host = s.host ∧ t.pq = s.pq ∧
      t.env = s.env)

/-- The scheduling of linear advance: LA_SET (45_aux_pulse.md R223), LA_ACCEL (R225), LA_CRUISE (R226) and LA_DECEL
with E's reversal (R227). The sum of the two rates is taken exactly (log entry 17). -/
def Obligations.LinearAdvanceRules : Prop :=
  ∀ (s : State) (b : BlockRec) (rate iv : Nat),
    laSet iv s = { s with
      la.interval := some iv
      timer.nextAdv := match s.timer.nextAdv with
        | none => some iv
        | some n => some n } ∧
    laAccel b rate s = laSet (baseInterval s.cfg
      ((rate + if s.la.advanceSteps.toInt < (b.maxAdvSteps : Int) then b.laAdvanceRate else 0) / 2 ^ b.laScaling)) s ∧
    laCruise b s = laSet (baseInterval s.cfg (b.nominalRate / 2 ^ b.laScaling)) s ∧
    let lr := if (b.finalAdvSteps : Int) < s.la.advanceSteps.toInt then b.laAdvanceRate else 0
    (lr = rate → laDecel b rate s = { s with la.interval := none }) ∧
    (lr ≠ rate → ∃ t, laDecel b rate s = t ∧
      t.la = { s.la with
        interval := some (baseInterval s.cfg (((lr : Int) - rate).natAbs / 2 ^ b.laScaling))
        eReversed := decide (rate < lr) } ∧
      t.timer = { s.timer with nextAdv := match s.timer.nextAdv with
        | none => t.la.interval
        | some n => some n } ∧
      (∀ a : Axis, t.bres.countDirection.read a =
        if a = s.cfg.eAxis ∧ decide (rate < lr) ≠ s.la.eReversed then (s.bres.countDirection.read a).flip
        else s.bres.countDirection.read a) ∧
      (∀ k, k < 8 → t.bres.lastDirectionBits.getLsbD k =
        if k = s.cfg.eAxis.val ∧ decide (rate < lr) ≠ s.la.eReversed then !s.bres.lastDirectionBits.getLsbD k
        else s.bres.lastDirectionBits.getLsbD k) ∧
      t = { s with la := t.la, timer := t.timer
                   bres := { s.bres with
                     countDirection := t.bres.countDirection, lastDirectionBits := t.bres.lastDirectionBits } })

/-- BABYSTEP_ISR gives one pulse on the least axis with a babystep pending, counts it off and restores DIR
(45_aux_pulse.md R242); with none pending nothing happens (log entry 7). -/
def Obligations.BabystepIsrRule : Prop :=
  ∀ s : State, s.host.fault = false →
    ((∀ a : Axis, a.val < s.cfg.numAxes → s.babyPending.read a = 0) → exec .babystepIsr s = .next s) ∧
    ∀ a : Axis, a.val < s.cfg.numAxes → s.babyPending.read a ≠ 0 →
      (∀ b : Axis, b.val < a.val → s.babyPending.read b = 0) →
      let d : Dir := if s.babyPending.read a < 0 then .neg else .pos
      let turn := s.pins.dirOut.read a ≠ (d == Dir.neg)
      ∃ t, exec .babystepIsr s = .next t ∧
        t.babyPending = s.babyPending.write a (s.babyPending.read a - d.sign) ∧
        t.bres = { s.bres with countPosition :=
          s.bres.countPosition.write a (s.bres.countPosition.read a + BitVec.ofInt 32 d.sign) } ∧
        t.pins.dirOut = s.pins.dirOut ∧
        (∀ b, t.pins.stepOut.read b = if b = a then false else s.pins.stepOut.read b) ∧
        t.pins.enableLines = s.pins.enableLines ∧
        t.trace = s.trace ++
          (if turn then [⟨s.timer.now, .dir a (d == Dir.neg)⟩] else []) ++ [⟨s.timer.now, .step a d⟩] ++
          (if turn then [⟨s.timer.now, .dir a (s.pins.dirOut.read a)⟩] else []) ∧
        t.cfg = s.cfg ∧ t.seq = s.seq ∧ t.timer = s.timer ∧ t.bez = s.bez ∧ t.la = s.la ∧
        t.shaping = s.shaping ∧ t.host = s.host ∧ t.pq = s.pq ∧ t.env = s.env

/-- SET_DIRECTIONS (46_direction_enable.md R261). -/
def Obligations.SetDirectionsRule : Prop :=
  ∀ (s : State) (bits : BitVec 8), s.cfg.legal = true →
    let last := s.bres.lastDirectionBits
    let moves : Axis → Bool := fun a =>
      decide (a.val < s.cfg.numAxes) && (bits.getLsbD a.val != last.getLsbD a.val) &&
        !(s.cfg.inputShaping && s.cfg.shaped.read a)
    ∃ t, setDirections bits s = t ∧
      (∀ a : Axis, t.bres.countDirection.read a =
        if a.val < s.cfg.numAxes then (if bits.getLsbD a.val then .neg else .pos)
        else s.bres.countDirection.read a) ∧
      ((∀ a : Axis, a.val < s.cfg.numAxes → bits.getLsbD a.val = last.getLsbD a.val) →
        t.bres.lastDirectionBits = last) ∧
      ((∃ a : Axis, a.val < s.cfg.numAxes ∧ bits.getLsbD a.val ≠ last.getLsbD a.val) →
        ∀ k, k < 8 → t.bres.lastDirectionBits.getLsbD k = (decide (k < s.cfg.numAxes) && bits.getLsbD k)) ∧
      (∀ a, t.pins.dirOut.read a = if moves a then bits.getLsbD a.val else s.pins.dirOut.read a) ∧
      t.trace = s.trace ++
        (allAxes.filter (fun a => moves a && (s.pins.dirOut.read a != bits.getLsbD a.val))).map
          (fun a => ⟨s.timer.now, .dir a (bits.getLsbD a.val)⟩) ∧
      t = { s with
        bres := { s.bres with
          countDirection := t.bres.countDirection, lastDirectionBits := t.bres.lastDirectionBits }
        pins.dirOut := t.pins.dirOut, trace := t.trace }

/-! ## The block sequencer (44_block_sequencer.md) -/

/-- VALID is the eight conditions of 44_block_sequencer.md R198, on the descriptor's words. Two things are the
model's choice: condition 8 is asked of every block (log entry 23), and conditions 3 and 7 are asked of words 9, 12 and
13 also where 30_encoding.md R91 says those words are ignored (log entry 30). -/
def Obligations.ValidConditions : Prop :=
  ∀ (c : Config) (d : Descriptor),
    let w := fun (k : Fin 25) => d.words[k].toNat
    let sync := d.words[1].getLsbD 0
    let page := d.words[1].getLsbD 1
    let kind := w 1 / 16 % 16
    let N := w 3
    let o := oversamplingShift c (w 7)
    valid c d = true ↔
      (w 1 / 256 = 0 ∧ w 1 / 4 % 4 = 0 ∧ ¬(sync = true ∧ page = true)) ∧
      (sync = true → kind ≤ 2) ∧ (sync = false → kind = 0) ∧
      (w 2 / 256 = 0 ∧ w 13 / 256 = 0) ∧
      (sync = false →
        (∀ a : Axis, a.val < c.numAxes → (d.words[16 + a.val]).toNat ≤ N) ∧
        (w 4 ≤ w 5 ∧ w 5 ≤ N) ∧ N * 2 ^ o ≤ 2 ^ 30 - 1 ∧
        ∀ k ∈ ([3, 4, 5, 6, 7, 8, 9, 12] : List (Fin 25)), w k * 2 ^ o < 2 ^ 32) ∧
      (c.linAdvance = true → w 12 ≠ 0 →
        w 13 % 256 ≤ 31 ∧ 2 * (d.words[16 + c.eAxis.val]).toNat * 2 ^ (w 13 % 256) ≤ 2 * (N * 2 ^ o))

/-- BLOCK_PHASE with no block loaded: an empty queue idles (44_block_sequencer.md R195), a page block and an invalid
block raise their faults and stay where they are (R197, R198, 60_exceptions.md R314). Three things are the model's:
the reply (log entry 8); that IDLE_INTERVAL is answered as it stands, also where it is 0 or above MAX_INTERVAL (log entry
28); and which blocks are invalid where VALID asks condition 8 of sync blocks too (log entry 23) and conditions 3 and 7
of words 9, 12 and 13 that 30_encoding.md R91 says are ignored (log entry 30). -/
def Obligations.BlockPhaseWithoutMotion : Prop :=
  ∀ s : State, s.host.fault = false → s.seq.current = none →
    (s.pq = [] → exec .blockPhase s = .next { s with env.reply := .interval s.cfg.idleInterval }) ∧
    ∀ d rest, s.pq = d :: rest →
      (d.words[1].getLsbD 1 = true → d.words[1].getLsbD 0 = false →
        exec .blockPhase s = .next { s with
          host := { s.host with fault := true, faultCode := 1 }, env.reply := .interval 0 }) ∧
      (¬(d.words[1].getLsbD 1 = true ∧ d.words[1].getLsbD 0 = false) → valid s.cfg d = false →
        exec .blockPhase s = .next { s with
          host := { s.host with fault := true, faultCode := 2 }, env.reply := .interval 0 })

/-- BLOCK_PHASE loads a motion block: the block is read from the words of its descriptor (30_encoding.md R90) with the
listed fields shifted (43_timer_interval.md R176), and every effect of LOAD, BRESENHAM_INIT and LA_LOAD follows
(44_block_sequencer.md R199, 41_bresenham.md R133, 45_aux_pulse.md R222, with LA_ACCEL's interval of R225). The
directions are `SetDirectionsRule`'s. Three things are the model's: the reply (log entry 8), that BLOCK_PHASE itself
leaves `next_main` to TICK (log entry 10), and that LA_ACCEL's sum of the two rates is taken exactly (log entry 17). -/
def Obligations.BlockPhaseLoadsMotion : Prop :=
  ∀ (s : State) (d : Descriptor) (rest : List Descriptor), s.host.fault = false → s.seq.current = none →
    s.pq = d :: rest → d.words[1].getLsbD 1 = false → d.words[1].getLsbD 0 = false → valid s.cfg d = true →
    let w := fun (k : Fin 25) => d.words[k].toNat
    let o := oversamplingShift s.cfg (w 7)
    let b : BlockRec := {
      id := d.words[0], flags := d.words[1], directionBits := d.words[2].setWidth 8
      stepEventCount := w 3 * 2 ^ o, accelerateBefore := w 4 * 2 ^ o, decelerateStart := w 5 * 2 ^ o
      initialRate := w 6 * 2 ^ o, nominalRate := w 7 * 2 ^ o, finalRate := w 8 * 2 ^ o
      accelerationRate := w 9 * 2 ^ o, accelTimeInverse := w 10, decelTimeInverse := w 11
      laAdvanceRate := w 12 * 2 ^ o, laScaling := w 13 % 256, maxAdvSteps := w 14, finalAdvSteps := w 15
      steps := #v[w 16, w 17, w 18, w 19, w 20, w 21, w 22, w 23]
      syncPosition := #v[d.words[16], d.words[17], d.words[18], d.words[19], d.words[20], d.words[21], d.words[22],
        d.words[23]]
      syncPayload := d.words[24] }
    ∃ t interval, exec .blockPhase s = .next t ∧ t.env = { s.env with reply := .interval interval } ∧
      t.seq = { s.seq with current := some b, stepEventsCompleted := 0 } ∧
      interval = baseInterval s.cfg (b.initialRate / 2 ^ t.timer.stepsPerIsrShift) ∧
      t.timer.stepsPerIsrShift = isrShift s.cfg t.timer.overrunShift b.initialRate ∧
      t.timer.overrunShift =
        (if s.cfg.overrunDeescalate = .atBlockLoad then 0 else s.timer.overrunShift) ∧
      t.timer.oversampling = o ∧ t.timer.ticksNominal = none ∧ t.timer.nominalShift = 0 ∧
      t.timer.decelerationTime = 0 ∧ t.timer.accStepRate = b.initialRate ∧ t.timer.accelerationTime = interval ∧
      t.timer.nextIsrTicks = s.timer.nextIsrTicks ∧ t.timer.nextMain = s.timer.nextMain ∧
      t.timer.nextBaby = s.timer.nextBaby ∧ t.timer.now = s.timer.now ∧
      t.bez = (if s.cfg.scurve then
          { a := 6 * ((b.nominalRate : Int) - b.initialRate), b := -15 * ((b.nominalRate : Int) - b.initialRate)
            c := 10 * ((b.nominalRate : Int) - b.initialRate), f := b.initialRate
            v0 := b.initialRate, v1 := b.nominalRate, secondHalf := false }
        else { s.bez with secondHalf := false }) ∧
      t.bres.advanceDivisor = 2 * b.stepEventCount ∧
      (∀ a : Axis, a.val < s.cfg.numAxes →
        t.bres.advanceDividend.read a = 2 * b.steps.read a ∧
        t.bres.deltaError.read a = -(b.stepEventCount : Int)) ∧
      t.bres.countDirection = (setDirections b.directionBits s).bres.countDirection ∧
      t.bres.lastDirectionBits = (setDirections b.directionBits s).bres.lastDirectionBits ∧
      t.bres.countPosition = s.bres.countPosition ∧
      t.pins = (setDirections b.directionBits s).pins ∧ t.trace = (setDirections b.directionBits s).trace ∧
      (s.cfg.linAdvance = false → t.la = s.la ∧ t.timer.nextAdv = s.timer.nextAdv) ∧
      (s.cfg.linAdvance = true → b.laAdvanceRate = 0 →
        t.la = { s.la with active := false, eReversed := false, interval := none } ∧ t.timer.nextAdv = none) ∧
      (s.cfg.linAdvance = true → b.laAdvanceRate ≠ 0 →
        t.la = { s.la with
          active := true, eReversed := false, deltaError := -(b.stepEventCount : Int)
          dividend := t.bres.advanceDividend.read s.cfg.eAxis * 2 ^ b.laScaling
          interval := some (baseInterval s.cfg ((b.initialRate +
            if s.la.advanceSteps.toInt < (b.maxAdvSteps : Int) then b.laAdvanceRate else 0) / 2 ^ b.laScaling)) } ∧
        t.timer.nextAdv = t.la.interval) ∧
      t.cfg = s.cfg ∧ t.shaping = s.shaping ∧ t.babyPending = s.babyPending ∧ t.host = s.host ∧ t.pq = s.pq

/-- BLOCK_PHASE applies a sync block and discards it, and then goes on as from the state that leaves
(44_block_sequencer.md R194, R196). -/
def Obligations.BlockPhaseAppliesSync : Prop :=
  ∀ (s : State) (d : Descriptor) (rest : List Descriptor), s.host.fault = false → s.seq.current = none →
    s.pq = d :: rest → d.words[1].getLsbD 0 = true → valid s.cfg d = true →
    let kind := d.words[1].toNat / 16 % 16
    ∃ p : PerAxis Word,
      (∀ a : Axis, p.read a =
        if kind = 0 ∧ a.val < s.cfg.numAxes then d.words[16 + a.val] else s.bres.countPosition.read a) ∧
      exec .blockPhase s = exec .blockPhase { s with
        bres.countPosition := p
        pq := rest
        trace := s.trace ++
          [⟨s.timer.now,
            if kind = 0 then .syncOut .position 0
            else if kind = 1 then .syncOut .fan d.words[24] else .syncOut .laserPower d.words[24]⟩,
           ⟨s.timer.now, .discard d.words[0]⟩] }

/-- BLOCK_PHASE of a loaded, incomplete block: PHASE_INTERVAL's three branches (44_block_sequencer.md R192). With linear
advance running each branch ends in its own call, LA_ACCEL, LA_CRUISE where the cruise cache is filled, or LA_DECEL;
what those do is `LinearAdvanceRules`. The reply is the model's own (log entry 8). -/
def Obligations.BlockPhaseIntervals : Prop :=
  ∀ (s : State) (b : BlockRec), s.host.fault = false → s.seq.current = some b →
    s.seq.stepEventsCompleted < b.stepEventCount →
    let advancing := s.cfg.linAdvance && s.la.active
    let shift := fun r => isrShift s.cfg s.timer.overrunShift r
    let ticks := fun r => baseInterval s.cfg (r / 2 ^ shift r)
    (s.seq.stepEventsCompleted < b.accelerateBefore →
      let r := if s.cfg.scurve then bezEval s.cfg s.bez s.timer.accelerationTime b.accelTimeInverse
        else trapAccelRate s.cfg b s.timer.accelerationTime
      let t : State := { s with timer := { s.timer with
        accStepRate := r, stepsPerIsrShift := shift r
        accelerationTime := min (s.timer.accelerationTime + ticks r) (2 ^ 32 - 1) } }
      exec .blockPhase s =
        .next { if advancing then laAccel b r t else t with env.reply := .interval (ticks r) }) ∧
    (b.accelerateBefore ≤ s.seq.stepEventsCompleted → s.seq.stepEventsCompleted < b.decelerateStart →
      (∀ iv, s.timer.ticksNominal = some iv →
        exec .blockPhase s = .next { s with
          timer.stepsPerIsrShift := s.timer.nominalShift, env.reply := .interval iv }) ∧
      (s.timer.ticksNominal = none →
        let t : State := { s with timer := { s.timer with
          ticksNominal := some (ticks b.nominalRate), nominalShift := shift b.nominalRate
          stepsPerIsrShift := shift b.nominalRate } }
        exec .blockPhase s =
          .next { if advancing then laCruise b t else t with env.reply := .interval (ticks b.nominalRate) })) ∧
    (b.accelerateBefore ≤ s.seq.stepEventsCompleted → b.decelerateStart ≤ s.seq.stepEventsCompleted →
      let first := s.cfg.scurve && !s.bez.secondHalf
      let r := if s.cfg.scurve then
          (if s.bez.secondHalf then bezEval s.cfg s.bez s.timer.decelerationTime b.decelTimeInverse
            else b.nominalRate)
        else trapDecelRate s.cfg b s.timer.accStepRate s.timer.decelerationTime
      let t : State := { s with
        timer := { s.timer with
          stepsPerIsrShift := shift r
          decelerationTime := min (s.timer.decelerationTime + ticks r) (2 ^ 32 - 1) }
        bez := if first then
            { a := 6 * ((b.finalRate : Int) - b.nominalRate), b := -15 * ((b.finalRate : Int) - b.nominalRate)
              c := 10 * ((b.finalRate : Int) - b.nominalRate), f := b.nominalRate
              v0 := b.nominalRate, v1 := b.finalRate, secondHalf := true }
          else s.bez }
      exec .blockPhase s = .next { if advancing then laDecel b r t else t with env.reply := .interval (ticks r) })

/-- BLOCK_PHASE completes a block whose events have all run, and then goes on as with no block loaded
(44_block_sequencer.md R190, R193, R203). -/
def Obligations.BlockPhaseCompletes : Prop :=
  ∀ (s : State) (b : BlockRec), s.host.fault = false → s.seq.current = some b →
    b.stepEventCount ≤ s.seq.stepEventsCompleted →
    exec .blockPhase s = exec .blockPhase { s with
      seq.current := none
      pq := s.pq.tail
      la := if s.cfg.linAdvance then { s.la with active := false } else s.la
      timer := if s.cfg.linAdvance then { s.timer with nextAdv := none } else s.timer
      trace := s.trace ++ [⟨s.timer.now, .blockDone b.id⟩, ⟨s.timer.now, .discard b.id⟩] }

/-! ## Invariants every step keeps -/

/-- No STEP output is left high by a step (10_state.md R43). -/
def Obligations.StepKeepsStepOutputsLow : Prop :=
  ∀ s t : State, StepOutputsLow s → step s = .next t → StepOutputsLow t

/-- The step events of the loaded block never exceed its count (41_bresenham.md R131, 10_state.md R23), and its
Bresenham terms stay in the range of 41_bresenham.md R134. -/
def Obligations.StepKeepsBlockInRange : Prop :=
  ∀ s t : State, step s = .next t →
    (EventsWithinBlock s → EventsWithinBlock t) ∧ (BresenhamInRange s → BresenhamInRange t)

/-- The accumulators stay in [−64, 63], the echo queues within their capacity and in order of `remaining`
(45_aux_pulse.md R236, R237, R240). -/
def Obligations.StepKeepsShapingInvariants : Prop :=
  ∀ s t : State, ShapingDeltaInRange s → ShapingQueuesFit s → ShapingQueuesOrdered s → step s = .next t →
    ShapingDeltaInRange t ∧ ShapingQueuesFit t ∧ ShapingQueuesOrdered t

/-- The shifts, the pending babysteps and the saturating counters stay in their ranges (10_state.md R32, R33, R35 to
R37, R42, R44). -/
def Obligations.StepKeepsRanges : Prop :=
  ∀ s t : State, step s = .next t →
    (ShiftsInRange s → ShiftsInRange t) ∧ (BabystepsInRange s → BabystepsInRange t) ∧
    (SaturatedCounters s → SaturatedCounters t)

/-- A pending command stays a synchronizing command of an axis that exists (47_host_interface.md R277, 60_exceptions.md
R313), and after a fault the block the engine refused stands at the head of the queue and stays there: every step but
reset leaves the queue as it is or appends to it (60_exceptions.md R314). -/
def Obligations.StepKeepsPendingAndFaultBlock : Prop :=
  ∀ s t : State, step s = .next t →
    (PendingCommandLegal s → PendingCommandLegal t) ∧ (FaultHoldsBlock s → FaultHoldsBlock t) ∧
    (s.host.fault = true → (∀ rest, s.env.schedule ≠ .reset :: rest) → ∃ more, t.pq = s.pq ++ more)

/-- The invariants hold at reset, under every configuration and whatever the planner's queue holds
(70_reset_and_hazards.md R341). -/
def Obligations.InvariantsAtReset : Prop :=
  ∀ (c : Config) (pq : List Descriptor) (e : Env),
    let s := State.resetWith c pq e
    StepOutputsLow s ∧ EventsWithinBlock s ∧ BresenhamInRange s ∧ ShapingDeltaInRange s ∧ ShapingQueuesFit s ∧
    ShapingQueuesOrdered s ∧ ShiftsInRange s ∧ BabystepsInRange s ∧ PendingCommandLegal s ∧ SaturatedCounters s ∧
    FaultHoldsBlock s

/-! ## Rules of the whole machine -/

/-- Reset gives every element the value of 70_reset_and_hazards.md R341 and touches neither the parameters nor the
planner queue (R340). That it leaves the moves to come, the draws and the reply alone is the model's choice (log entry
12), and so is IDLE_INTERVAL as it stands in the compare register where it is 0 or above MAX_INTERVAL (log entry 28). -/
def Obligations.ResetValues : Prop :=
  ∀ (s : State) (rest : List Move), s.cfg.legal = true → s.env.schedule = .reset :: rest →
    ∃ t, step s = .next t ∧ t.cfg = s.cfg ∧ t.pq = s.pq ∧ t.env = { s.env with schedule := rest } ∧
      t.seq.current = none ∧ t.seq.stepEventsCompleted = 0 ∧ t.seq.abortCurrentBlock = false ∧
      (∀ a, t.bres.deltaError.read a = 0 ∧ t.bres.advanceDividend.read a = 0 ∧ t.bres.countPosition.read a = 0 ∧
        t.bres.countDirection.read a = .pos) ∧
      t.bres.advanceDivisor = 0 ∧ t.bres.lastDirectionBits = 0 ∧
      t.timer.nextIsrTicks = s.cfg.idleInterval ∧ t.timer.nextMain = 0 ∧ t.timer.nextAdv = none ∧
      t.timer.nextBaby = 0 ∧ t.timer.now = 0 ∧ t.timer.accelerationTime = 0 ∧ t.timer.decelerationTime = 0 ∧
      t.timer.ticksNominal = none ∧ t.timer.nominalShift = 0 ∧ t.timer.accStepRate = 0 ∧
      t.timer.stepsPerIsrShift = 0 ∧ t.timer.overrunShift = 0 ∧ t.timer.oversampling = 0 ∧
      t.bez = { a := 0, b := 0, c := 0, f := 0, v0 := 0, v1 := 0, secondHalf := false } ∧
      t.la = { active := false, deltaError := 0, dividend := 0, interval := none, advanceSteps := 0
               eReversed := false } ∧
      (∀ a, t.shaping.delta.read a = 0 ∧ t.shaping.queue.read a = [] ∧ t.babyPending.read a = 0 ∧
        t.pins.dirOut.read a = false ∧ t.pins.stepOut.read a = false) ∧
      t.pins.enableLines = 0 ∧
      (∀ i, t.host.arg.read i = 0 ∧ t.host.endstopPos.read i = 0) ∧
      t.host.result = 0 ∧ t.host.cmdPending = false ∧ t.host.pendingCmd = 0 ∧ t.host.err = false ∧
      t.host.errCode = 0 ∧ t.host.endstopHit = 0 ∧ t.host.overrunCount = 0 ∧ t.host.lostStepRisk = false ∧
      t.host.fault = false ∧ t.host.faultCode = 0 ∧ t.trace = []

/-- Whatever a step does, short of reset: the parameters stay (00_scope.md R7), the trace only grows (10_state.md R45),
virtual time and the compare register move only at a compare match (60_exceptions.md R326, 70_reset_and_hazards.md
R366), and an enable line changes only by an ENABLE or DISABLE command (46_direction_enable.md R265). That a step with
nothing scheduled may be a compare match (log entry 2) and that a TICK word may be taken by itself (log entry 7) are the
model's choices. Premise: a pending command is a synchronizing one, which `StepKeepsPendingAndFaultBlock` keeps. -/
def Obligations.StepFrame : Prop :=
  ∀ s t : State, PendingCommandLegal s → step s = .next t → (∀ rest, s.env.schedule ≠ .reset :: rest) →
    t.cfg = s.cfg ∧ (∃ added, t.trace = s.trace ++ added) ∧
    (t.timer.now ≠ s.timer.now ∨ t.timer.nextIsrTicks ≠ s.timer.nextIsrTicks →
      s.env.schedule = [] ∨ (∃ e rest, s.env.schedule = .compareMatch e :: rest) ∨
      ∃ w rest, s.env.schedule = .engineWord w :: rest ∧ decode w = .ok .tick) ∧
    (t.pins.enableLines ≠ s.pins.enableLines →
      ∃ w rest f, s.env.schedule = .write s.cfg.regBase 4 w :: rest ∧
        (decode w = .ok (.enable f) ∨ decode w = .ok (.disable f)))

/-- A fault freezes the engine and only reset ends it: while `fault` = 1 no engine or planner-port operation changes
anything (10_state.md R47 says that no TICK is taken and no block loaded; that each sub-operation taken by itself
changes nothing too is the model's reading, log entry 5), no other step clears it or overwrites its code, and no block
is loaded, ended or stepped; a synchronizing command then stays pending (60_exceptions.md R314, 47_host_interface.md
R277). -/
def Obligations.FaultFreezesEngine : Prop :=
  (∀ (s : State) (i : Instr), s.host.fault = true → i.format = .evt ∨ i.format = .pln → exec i s = .next s) ∧
  ∀ s t : State, s.host.fault = true → step s = .next t → (∀ rest, s.env.schedule ≠ .reset :: rest) →
    t.host.fault = true ∧ t.host.faultCode = s.host.faultCode ∧ t.seq.current = s.seq.current ∧
    t.seq.stepEventsCompleted = s.seq.stepEventsCompleted ∧ t.timer = s.timer ∧ t.bez = s.bez ∧ t.la = s.la ∧
    t.shaping = s.shaping ∧ t.bres.deltaError = s.bres.deltaError ∧
    (FaultHoldsBlock s →
      t.bres = s.bres ∧ (s.host.cmdPending = true → t.host.cmdPending = true ∧ t.host.pendingCmd = s.host.pendingCmd))

/-- Every STEP record moves its axis's position by its direction, and nothing else of the engine's work does: over a
TICK or a sub-operation that emits no position sync, the position changes by the net number of STEP records
(41_bresenham.md R136, 10_state.md R26). -/
def Obligations.NetStepsMovePosition : Prop :=
  ∀ (s t : State) (i : Instr) (added : List Record), i.format = .evt → exec i s = .next t →
    t.trace = s.trace ++ added → (∀ r ∈ added, ∀ v, r.event ≠ .syncOut .position v) →
    ∀ a, t.bres.countPosition.read a = s.bres.countPosition.read a + BitVec.ofInt 32 (netSteps a added)

/-- The engine's own work never changes the parameters, the host's registers but for the diagnostics and the fault, the
enable lines or the moves to come; it only appends to the trace and only takes blocks from the head of the queue
(46_direction_enable.md R265, 10_state.md R45, 44_block_sequencer.md R204). -/
def Obligations.EngineFrameHolds : Prop :=
  ∀ (s t : State) (i : Instr), i.format = .evt → exec i s = .next t → EngineFrame s t

end
end

