-- ==== Sys2Proof/Laws/Basics.lean ====
section
/-! SUPPORT. The small lemmas of per-axis vectors, axis lists, bits and counts. -/

namespace Sys2Proof

/-! ## Per-axis values -/

@[simp] theorem PerAxis.read_all {α : Type} (x : α) (a : Axis) : (PerAxis.all x).read a = x := by
  simp [PerAxis.all, PerAxis.read]

theorem PerAxis.read_write {α : Type} (v : PerAxis α) (a b : Axis) (x : α) :
    (v.write a x).read b = if a = b then x else v.read b := by
  simp only [PerAxis.write, PerAxis.read, Vector.getElem_set, Fin.ext_iff]

@[simp] theorem PerAxis.read_write_same {α : Type} (v : PerAxis α) (a : Axis) (x : α) :
    (v.write a x).read a = x := by
  simp [PerAxis.read_write]

theorem PerAxis.read_write_ne {α : Type} (v : PerAxis α) {a b : Axis} (x : α) (h : a ≠ b) :
    (v.write a x).read b = v.read b := by
  simp [PerAxis.read_write, h]

@[simp] theorem PerAxis.read_build {α : Type} (f : Axis → α) (a : Axis) : (PerAxis.build f).read a = f a := by
  fin_cases a <;> rfl

/-- Two per-axis values that read alike on every axis are equal. -/
theorem PerAxis.ext_read {α : Type} {v w : PerAxis α} (h : ∀ a, v.read a = w.read a) : v = w := by
  apply Vector.ext
  intro i hi
  exact h ⟨i, hi⟩

@[simp] theorem PerAxis.write_read {α : Type} (v : PerAxis α) (a : Axis) : v.write a (v.read a) = v := by
  apply PerAxis.ext_read
  intro b
  rw [PerAxis.read_write]
  split
  · subst_vars; rfl
  · rfl

/-! ## Axis lists -/

@[simp] theorem mem_allAxes (a : Axis) : a ∈ allAxes := by fin_cases a <;> decide

theorem allAxes_nodup : allAxes.Nodup := by decide

@[simp] theorem Config.mem_liveAxes (c : Config) (a : Axis) : a ∈ c.liveAxes ↔ a.val < c.numAxes := by
  simp [Config.liveAxes]

@[simp] theorem Config.mem_shapedAxes (c : Config) (a : Axis) : a ∈ c.shapedAxes ↔ c.shaped.read a = true := by
  simp [Config.shapedAxes]

theorem Config.liveAxes_nodup (c : Config) : c.liveAxes.Nodup := allAxes_nodup.filter _

theorem Config.shapedAxes_nodup (c : Config) : c.shapedAxes.Nodup := allAxes_nodup.filter _

/-! ## What a legal configuration guarantees (00_scope.md R8) -/

theorem Config.legal_eAxis_lt {c : Config} (h : c.legal = true) : c.eAxis.val < c.numAxes := by
  simp only [Config.legal, decide_eq_true_eq] at h; tauto

theorem Config.legal_numAxes_le {c : Config} (h : c.legal = true) : c.numAxes ≤ 8 := by
  simp only [Config.legal, decide_eq_true_eq] at h; tauto

theorem Config.legal_margin_lt {c : Config} (h : c.legal = true) : c.shapingForceMargin < c.shapingQueueCap := by
  simp only [Config.legal, decide_eq_true_eq] at h; tauto

theorem Config.legal_shift_le {c : Config} (h : c.legal = true) : c.maxMultistepShift ≤ 7 := by
  simp only [Config.legal, decide_eq_true_eq] at h; tauto

theorem Config.legal_oversampling_le {c : Config} (h : c.legal = true) : c.maxOversampling ≤ 3 := by
  simp only [Config.legal, decide_eq_true_eq] at h; tauto

theorem Config.legal_regBase_mod {c : Config} (h : c.legal = true) : c.regBase % 256 = 0 := by
  simp only [Config.legal, decide_eq_true_eq] at h; tauto

theorem Config.legal_timerBits_bounds {c : Config} (h : c.legal = true) : 16 ≤ c.timerBits ∧ c.timerBits ≤ 32 := by
  simp only [Config.legal, decide_eq_true_eq] at h; tauto

/-- Everything R8 asks of a shaped axis. -/
theorem Config.legal_shaped {c : Config} (h : c.legal = true) {a : Axis} (ha : c.shaped.read a = true) :
    a.val < c.numAxes ∧ a ≠ c.eAxis ∧ 1 ≤ c.shapingDelay.read a ∧ 64 ≤ c.shapingFactor1.read a ∧
      c.shapingFactor1.read a ≤ 128 := by
  simp only [Config.legal, decide_eq_true_eq, Config.mem_shapedAxes] at h
  obtain ⟨-, -, -, -, -, -, -, -, -, -, -, -, -, hs, -⟩ := h
  exact hs a ha

/-- Every axis drives a line that exists, and a line fits the register. -/
theorem Config.legal_enMap {c : Config} (h : c.legal = true) {a : Axis} (ha : a.val < c.numAxes) :
    c.enMap.read a < c.numEnableLines ∧ c.numEnableLines ≤ 32 := by
  simp only [Config.legal, decide_eq_true_eq, Config.mem_liveAxes] at h
  obtain ⟨-, -, -, -, -, -, -, -, -, -, -, hl, -, -, hm⟩ := h
  exact ⟨hm a ha, hl⟩

theorem Config.legal_maxInterval_pos {c : Config} (h : c.legal = true) : 1 ≤ c.maxInterval := by
  have hb := (Config.legal_timerBits_bounds h).1
  have : 2 ^ 1 ≤ 2 ^ c.timerBits := Nat.pow_le_pow_right (by decide) (by omega)
  simp only [Config.maxInterval]; omega

/-! ## Bits -/

theorem getLsbD_setBit {w : Nat} (v : BitVec w) (k j : Nat) (b : Bool) :
    (setBit v k b).getLsbD j = if j = k ∧ k < w then b else v.getLsbD j := by
  unfold setBit
  by_cases hj : j < w
  · by_cases hk : j = k
    · subst hk
      cases b <;> simp [hj]
    · cases b <;> simp [hk, hj]
  · cases b <;> simp only [Bool.false_eq_true, if_true, if_false, BitVec.getLsbD_of_ge _ _ (Nat.le_of_not_lt hj)]
    all_goals
      rw [if_neg]; omega

theorem testBit_packBits (bs : List Bool) (k : Nat) : (packBits bs).testBit k = bs.getD k false := by
  induction bs generalizing k with
  | nil => simp [packBits]
  | cons b bs ih =>
    cases k with
    | zero => cases b <;> simp [packBits, Nat.testBit_zero]
    | succ k =>
      rw [Nat.testBit_succ]
      have : (packBits (b :: bs)) / 2 = packBits bs := by
        cases b
        · simp [packBits]
        · simp [packBits]; omega
      rw [this, ih]; rfl

theorem packBits_lt (bs : List Bool) : packBits bs < 2 ^ bs.length := by
  induction bs with
  | nil => simp [packBits]
  | cons b bs ih =>
    simp only [packBits, List.length_cons, Nat.pow_succ]
    cases b <;> simp <;> omega

/-! ## Directions -/

@[simp] theorem Dir.flip_flip (d : Dir) : d.flip.flip = d := by cases d <;> rfl

@[simp] theorem Dir.sign_flip (d : Dir) : d.flip.sign = -d.sign := by cases d <;> rfl

theorem Dir.sign_bound (d : Dir) : d.sign = 1 ∨ d.sign = -1 := by cases d <;> simp [Dir.sign]

end Sys2Proof
end

