-- ==== Sys2Proof/Laws/State.lean ====
section
/-! SUPPORT. The small lemmas of State's updates: for each named update and each group of State, what the group is
afterwards. All are true by definition; later proofs rewrite with them and never unfold an update. -/

namespace Sys2Proof.Machine

/-! ## emit -/

@[simp] theorem emit_cfg (e : Event) (s : State) : (emit e s).cfg = s.cfg := rfl
@[simp] theorem emit_seq (e : Event) (s : State) : (emit e s).seq = s.seq := rfl
@[simp] theorem emit_bres (e : Event) (s : State) : (emit e s).bres = s.bres := rfl
@[simp] theorem emit_timer (e : Event) (s : State) : (emit e s).timer = s.timer := rfl
@[simp] theorem emit_bez (e : Event) (s : State) : (emit e s).bez = s.bez := rfl
@[simp] theorem emit_la (e : Event) (s : State) : (emit e s).la = s.la := rfl
@[simp] theorem emit_shaping (e : Event) (s : State) : (emit e s).shaping = s.shaping := rfl
@[simp] theorem emit_babyPending (e : Event) (s : State) : (emit e s).babyPending = s.babyPending := rfl
@[simp] theorem emit_pins (e : Event) (s : State) : (emit e s).pins = s.pins := rfl
@[simp] theorem emit_host (e : Event) (s : State) : (emit e s).host = s.host := rfl
@[simp] theorem emit_trace (e : Event) (s : State) : (emit e s).trace = s.trace ++ [⟨s.timer.now, e⟩] := rfl
@[simp] theorem emit_pq (e : Event) (s : State) : (emit e s).pq = s.pq := rfl
@[simp] theorem emit_env (e : Event) (s : State) : (emit e s).env = s.env := rfl

/-! ## setResult -/

@[simp] theorem setResult_cfg (v : Word) (s : State) : (setResult v s).cfg = s.cfg := rfl
@[simp] theorem setResult_seq (v : Word) (s : State) : (setResult v s).seq = s.seq := rfl
@[simp] theorem setResult_bres (v : Word) (s : State) : (setResult v s).bres = s.bres := rfl
@[simp] theorem setResult_timer (v : Word) (s : State) : (setResult v s).timer = s.timer := rfl
@[simp] theorem setResult_bez (v : Word) (s : State) : (setResult v s).bez = s.bez := rfl
@[simp] theorem setResult_la (v : Word) (s : State) : (setResult v s).la = s.la := rfl
@[simp] theorem setResult_shaping (v : Word) (s : State) : (setResult v s).shaping = s.shaping := rfl
@[simp] theorem setResult_babyPending (v : Word) (s : State) : (setResult v s).babyPending = s.babyPending := rfl
@[simp] theorem setResult_pins (v : Word) (s : State) : (setResult v s).pins = s.pins := rfl
@[simp] theorem setResult_host (v : Word) (s : State) : (setResult v s).host = { s.host with result := v } := rfl
@[simp] theorem setResult_trace (v : Word) (s : State) : (setResult v s).trace = s.trace := rfl
@[simp] theorem setResult_pq (v : Word) (s : State) : (setResult v s).pq = s.pq := rfl
@[simp] theorem setResult_env (v : Word) (s : State) : (setResult v s).env = s.env := rfl

/-! ## raiseHostError -/

@[simp] theorem raiseHostError_cfg (e : HostError) (s : State) : (raiseHostError e s).cfg = s.cfg := rfl
@[simp] theorem raiseHostError_seq (e : HostError) (s : State) : (raiseHostError e s).seq = s.seq := rfl
@[simp] theorem raiseHostError_bres (e : HostError) (s : State) : (raiseHostError e s).bres = s.bres := rfl
@[simp] theorem raiseHostError_timer (e : HostError) (s : State) : (raiseHostError e s).timer = s.timer := rfl
@[simp] theorem raiseHostError_bez (e : HostError) (s : State) : (raiseHostError e s).bez = s.bez := rfl
@[simp] theorem raiseHostError_la (e : HostError) (s : State) : (raiseHostError e s).la = s.la := rfl
@[simp] theorem raiseHostError_shaping (e : HostError) (s : State) : (raiseHostError e s).shaping = s.shaping := rfl
@[simp] theorem raiseHostError_babyPending (e : HostError) (s : State) : (raiseHostError e s).babyPending = s.babyPending := rfl
@[simp] theorem raiseHostError_pins (e : HostError) (s : State) : (raiseHostError e s).pins = s.pins := rfl
@[simp] theorem raiseHostError_host (e : HostError) (s : State) : (raiseHostError e s).host = { s.host with err := true, errCode := e.code } := rfl
@[simp] theorem raiseHostError_trace (e : HostError) (s : State) : (raiseHostError e s).trace = s.trace := rfl
@[simp] theorem raiseHostError_pq (e : HostError) (s : State) : (raiseHostError e s).pq = s.pq := rfl
@[simp] theorem raiseHostError_env (e : HostError) (s : State) : (raiseHostError e s).env = s.env := rfl

/-! ## raiseFault -/

@[simp] theorem raiseFault_cfg (f : FaultCode) (s : State) : (raiseFault f s).cfg = s.cfg := rfl
@[simp] theorem raiseFault_seq (f : FaultCode) (s : State) : (raiseFault f s).seq = s.seq := rfl
@[simp] theorem raiseFault_bres (f : FaultCode) (s : State) : (raiseFault f s).bres = s.bres := rfl
@[simp] theorem raiseFault_timer (f : FaultCode) (s : State) : (raiseFault f s).timer = s.timer := rfl
@[simp] theorem raiseFault_bez (f : FaultCode) (s : State) : (raiseFault f s).bez = s.bez := rfl
@[simp] theorem raiseFault_la (f : FaultCode) (s : State) : (raiseFault f s).la = s.la := rfl
@[simp] theorem raiseFault_shaping (f : FaultCode) (s : State) : (raiseFault f s).shaping = s.shaping := rfl
@[simp] theorem raiseFault_babyPending (f : FaultCode) (s : State) : (raiseFault f s).babyPending = s.babyPending := rfl
@[simp] theorem raiseFault_pins (f : FaultCode) (s : State) : (raiseFault f s).pins = s.pins := rfl
@[simp] theorem raiseFault_host (f : FaultCode) (s : State) : (raiseFault f s).host = { s.host with fault := true, faultCode := f.code } := rfl
@[simp] theorem raiseFault_trace (f : FaultCode) (s : State) : (raiseFault f s).trace = s.trace := rfl
@[simp] theorem raiseFault_pq (f : FaultCode) (s : State) : (raiseFault f s).pq = s.pq := rfl
@[simp] theorem raiseFault_env (f : FaultCode) (s : State) : (raiseFault f s).env = s.env := rfl

/-! ## acceptCommand -/

@[simp] theorem acceptCommand_cfg (w : Word) (s : State) : (acceptCommand w s).cfg = s.cfg := rfl
@[simp] theorem acceptCommand_seq (w : Word) (s : State) : (acceptCommand w s).seq = s.seq := rfl
@[simp] theorem acceptCommand_bres (w : Word) (s : State) : (acceptCommand w s).bres = s.bres := rfl
@[simp] theorem acceptCommand_timer (w : Word) (s : State) : (acceptCommand w s).timer = s.timer := rfl
@[simp] theorem acceptCommand_bez (w : Word) (s : State) : (acceptCommand w s).bez = s.bez := rfl
@[simp] theorem acceptCommand_la (w : Word) (s : State) : (acceptCommand w s).la = s.la := rfl
@[simp] theorem acceptCommand_shaping (w : Word) (s : State) : (acceptCommand w s).shaping = s.shaping := rfl
@[simp] theorem acceptCommand_babyPending (w : Word) (s : State) : (acceptCommand w s).babyPending = s.babyPending := rfl
@[simp] theorem acceptCommand_pins (w : Word) (s : State) : (acceptCommand w s).pins = s.pins := rfl
@[simp] theorem acceptCommand_host (w : Word) (s : State) : (acceptCommand w s).host = { s.host with err := false, errCode := 0, pendingCmd := w } := rfl
@[simp] theorem acceptCommand_trace (w : Word) (s : State) : (acceptCommand w s).trace = s.trace := rfl
@[simp] theorem acceptCommand_pq (w : Word) (s : State) : (acceptCommand w s).pq = s.pq := rfl
@[simp] theorem acceptCommand_env (w : Word) (s : State) : (acceptCommand w s).env = s.env := rfl

/-! ## holdCommand -/

@[simp] theorem holdCommand_cfg (s : State) : (holdCommand s).cfg = s.cfg := rfl
@[simp] theorem holdCommand_seq (s : State) : (holdCommand s).seq = s.seq := rfl
@[simp] theorem holdCommand_bres (s : State) : (holdCommand s).bres = s.bres := rfl
@[simp] theorem holdCommand_timer (s : State) : (holdCommand s).timer = s.timer := rfl
@[simp] theorem holdCommand_bez (s : State) : (holdCommand s).bez = s.bez := rfl
@[simp] theorem holdCommand_la (s : State) : (holdCommand s).la = s.la := rfl
@[simp] theorem holdCommand_shaping (s : State) : (holdCommand s).shaping = s.shaping := rfl
@[simp] theorem holdCommand_babyPending (s : State) : (holdCommand s).babyPending = s.babyPending := rfl
@[simp] theorem holdCommand_pins (s : State) : (holdCommand s).pins = s.pins := rfl
@[simp] theorem holdCommand_host (s : State) : (holdCommand s).host = { s.host with cmdPending := true } := rfl
@[simp] theorem holdCommand_trace (s : State) : (holdCommand s).trace = s.trace := rfl
@[simp] theorem holdCommand_pq (s : State) : (holdCommand s).pq = s.pq := rfl
@[simp] theorem holdCommand_env (s : State) : (holdCommand s).env = s.env := rfl

/-! ## releaseCommand -/

@[simp] theorem releaseCommand_cfg (s : State) : (releaseCommand s).cfg = s.cfg := rfl
@[simp] theorem releaseCommand_seq (s : State) : (releaseCommand s).seq = s.seq := rfl
@[simp] theorem releaseCommand_bres (s : State) : (releaseCommand s).bres = s.bres := rfl
@[simp] theorem releaseCommand_timer (s : State) : (releaseCommand s).timer = s.timer := rfl
@[simp] theorem releaseCommand_bez (s : State) : (releaseCommand s).bez = s.bez := rfl
@[simp] theorem releaseCommand_la (s : State) : (releaseCommand s).la = s.la := rfl
@[simp] theorem releaseCommand_shaping (s : State) : (releaseCommand s).shaping = s.shaping := rfl
@[simp] theorem releaseCommand_babyPending (s : State) : (releaseCommand s).babyPending = s.babyPending := rfl
@[simp] theorem releaseCommand_pins (s : State) : (releaseCommand s).pins = s.pins := rfl
@[simp] theorem releaseCommand_host (s : State) : (releaseCommand s).host = { s.host with cmdPending := false } := rfl
@[simp] theorem releaseCommand_trace (s : State) : (releaseCommand s).trace = s.trace := rfl
@[simp] theorem releaseCommand_pq (s : State) : (releaseCommand s).pq = s.pq := rfl
@[simp] theorem releaseCommand_env (s : State) : (releaseCommand s).env = s.env := rfl

/-! ## setReply -/

@[simp] theorem setReply_cfg (r : Reply) (s : State) : (setReply r s).cfg = s.cfg := rfl
@[simp] theorem setReply_seq (r : Reply) (s : State) : (setReply r s).seq = s.seq := rfl
@[simp] theorem setReply_bres (r : Reply) (s : State) : (setReply r s).bres = s.bres := rfl
@[simp] theorem setReply_timer (r : Reply) (s : State) : (setReply r s).timer = s.timer := rfl
@[simp] theorem setReply_bez (r : Reply) (s : State) : (setReply r s).bez = s.bez := rfl
@[simp] theorem setReply_la (r : Reply) (s : State) : (setReply r s).la = s.la := rfl
@[simp] theorem setReply_shaping (r : Reply) (s : State) : (setReply r s).shaping = s.shaping := rfl
@[simp] theorem setReply_babyPending (r : Reply) (s : State) : (setReply r s).babyPending = s.babyPending := rfl
@[simp] theorem setReply_pins (r : Reply) (s : State) : (setReply r s).pins = s.pins := rfl
@[simp] theorem setReply_host (r : Reply) (s : State) : (setReply r s).host = s.host := rfl
@[simp] theorem setReply_trace (r : Reply) (s : State) : (setReply r s).trace = s.trace := rfl
@[simp] theorem setReply_pq (r : Reply) (s : State) : (setReply r s).pq = s.pq := rfl
@[simp] theorem setReply_env (r : Reply) (s : State) : (setReply r s).env = { s.env with reply := r } := rfl

/-! ## setCountPosition -/

@[simp] theorem setCountPosition_cfg (a : Axis) (v : Word) (s : State) : (setCountPosition a v s).cfg = s.cfg := rfl
@[simp] theorem setCountPosition_seq (a : Axis) (v : Word) (s : State) : (setCountPosition a v s).seq = s.seq := rfl
@[simp] theorem setCountPosition_bres (a : Axis) (v : Word) (s : State) : (setCountPosition a v s).bres = { s.bres with countPosition := s.bres.countPosition.write a v } := rfl
@[simp] theorem setCountPosition_timer (a : Axis) (v : Word) (s : State) : (setCountPosition a v s).timer = s.timer := rfl
@[simp] theorem setCountPosition_bez (a : Axis) (v : Word) (s : State) : (setCountPosition a v s).bez = s.bez := rfl
@[simp] theorem setCountPosition_la (a : Axis) (v : Word) (s : State) : (setCountPosition a v s).la = s.la := rfl
@[simp] theorem setCountPosition_shaping (a : Axis) (v : Word) (s : State) : (setCountPosition a v s).shaping = s.shaping := rfl
@[simp] theorem setCountPosition_babyPending (a : Axis) (v : Word) (s : State) : (setCountPosition a v s).babyPending = s.babyPending := rfl
@[simp] theorem setCountPosition_pins (a : Axis) (v : Word) (s : State) : (setCountPosition a v s).pins = s.pins := rfl
@[simp] theorem setCountPosition_host (a : Axis) (v : Word) (s : State) : (setCountPosition a v s).host = s.host := rfl
@[simp] theorem setCountPosition_trace (a : Axis) (v : Word) (s : State) : (setCountPosition a v s).trace = s.trace := rfl
@[simp] theorem setCountPosition_pq (a : Axis) (v : Word) (s : State) : (setCountPosition a v s).pq = s.pq := rfl
@[simp] theorem setCountPosition_env (a : Axis) (v : Word) (s : State) : (setCountPosition a v s).env = s.env := rfl

/-! ## strobeStep -/

@[simp] theorem strobeStep_cfg (a : Axis) (s : State) : (strobeStep a s).cfg = s.cfg := rfl
@[simp] theorem strobeStep_seq (a : Axis) (s : State) : (strobeStep a s).seq = s.seq := rfl
@[simp] theorem strobeStep_bres (a : Axis) (s : State) : (strobeStep a s).bres = s.bres := rfl
@[simp] theorem strobeStep_timer (a : Axis) (s : State) : (strobeStep a s).timer = s.timer := rfl
@[simp] theorem strobeStep_bez (a : Axis) (s : State) : (strobeStep a s).bez = s.bez := rfl
@[simp] theorem strobeStep_la (a : Axis) (s : State) : (strobeStep a s).la = s.la := rfl
@[simp] theorem strobeStep_shaping (a : Axis) (s : State) : (strobeStep a s).shaping = s.shaping := rfl
@[simp] theorem strobeStep_babyPending (a : Axis) (s : State) : (strobeStep a s).babyPending = s.babyPending := rfl
@[simp] theorem strobeStep_pins (a : Axis) (s : State) : (strobeStep a s).pins = { s.pins with stepOut := (s.pins.stepOut.write a true).write a false } := rfl
@[simp] theorem strobeStep_host (a : Axis) (s : State) : (strobeStep a s).host = s.host := rfl
@[simp] theorem strobeStep_trace (a : Axis) (s : State) : (strobeStep a s).trace = s.trace := rfl
@[simp] theorem strobeStep_pq (a : Axis) (s : State) : (strobeStep a s).pq = s.pq := rfl
@[simp] theorem strobeStep_env (a : Axis) (s : State) : (strobeStep a s).env = s.env := rfl

/-! ## plannerDiscard -/

@[simp] theorem plannerDiscard_cfg (s : State) : (plannerDiscard s).cfg = s.cfg := rfl
@[simp] theorem plannerDiscard_seq (s : State) : (plannerDiscard s).seq = s.seq := rfl
@[simp] theorem plannerDiscard_bres (s : State) : (plannerDiscard s).bres = s.bres := rfl
@[simp] theorem plannerDiscard_timer (s : State) : (plannerDiscard s).timer = s.timer := rfl
@[simp] theorem plannerDiscard_bez (s : State) : (plannerDiscard s).bez = s.bez := rfl
@[simp] theorem plannerDiscard_la (s : State) : (plannerDiscard s).la = s.la := rfl
@[simp] theorem plannerDiscard_shaping (s : State) : (plannerDiscard s).shaping = s.shaping := rfl
@[simp] theorem plannerDiscard_babyPending (s : State) : (plannerDiscard s).babyPending = s.babyPending := rfl
@[simp] theorem plannerDiscard_pins (s : State) : (plannerDiscard s).pins = s.pins := rfl
@[simp] theorem plannerDiscard_host (s : State) : (plannerDiscard s).host = s.host := rfl
@[simp] theorem plannerDiscard_trace (s : State) : (plannerDiscard s).trace = s.trace := rfl
@[simp] theorem plannerDiscard_pq (s : State) : (plannerDiscard s).pq = s.pq.tail := rfl
@[simp] theorem plannerDiscard_env (s : State) : (plannerDiscard s).env = s.env := rfl

/-! ## setShapingDelta -/

@[simp] theorem setShapingDelta_cfg (a : Axis) (v : Int) (s : State) : (setShapingDelta a v s).cfg = s.cfg := rfl
@[simp] theorem setShapingDelta_seq (a : Axis) (v : Int) (s : State) : (setShapingDelta a v s).seq = s.seq := rfl
@[simp] theorem setShapingDelta_bres (a : Axis) (v : Int) (s : State) : (setShapingDelta a v s).bres = s.bres := rfl
@[simp] theorem setShapingDelta_timer (a : Axis) (v : Int) (s : State) : (setShapingDelta a v s).timer = s.timer := rfl
@[simp] theorem setShapingDelta_bez (a : Axis) (v : Int) (s : State) : (setShapingDelta a v s).bez = s.bez := rfl
@[simp] theorem setShapingDelta_la (a : Axis) (v : Int) (s : State) : (setShapingDelta a v s).la = s.la := rfl
@[simp] theorem setShapingDelta_shaping (a : Axis) (v : Int) (s : State) : (setShapingDelta a v s).shaping = { s.shaping with delta := s.shaping.delta.write a v } := rfl
@[simp] theorem setShapingDelta_babyPending (a : Axis) (v : Int) (s : State) : (setShapingDelta a v s).babyPending = s.babyPending := rfl
@[simp] theorem setShapingDelta_pins (a : Axis) (v : Int) (s : State) : (setShapingDelta a v s).pins = s.pins := rfl
@[simp] theorem setShapingDelta_host (a : Axis) (v : Int) (s : State) : (setShapingDelta a v s).host = s.host := rfl
@[simp] theorem setShapingDelta_trace (a : Axis) (v : Int) (s : State) : (setShapingDelta a v s).trace = s.trace := rfl
@[simp] theorem setShapingDelta_pq (a : Axis) (v : Int) (s : State) : (setShapingDelta a v s).pq = s.pq := rfl
@[simp] theorem setShapingDelta_env (a : Axis) (v : Int) (s : State) : (setShapingDelta a v s).env = s.env := rfl

/-! ## setShapingQueue -/

@[simp] theorem setShapingQueue_cfg (a : Axis) (q : List Echo) (s : State) : (setShapingQueue a q s).cfg = s.cfg := rfl
@[simp] theorem setShapingQueue_seq (a : Axis) (q : List Echo) (s : State) : (setShapingQueue a q s).seq = s.seq := rfl
@[simp] theorem setShapingQueue_bres (a : Axis) (q : List Echo) (s : State) : (setShapingQueue a q s).bres = s.bres := rfl
@[simp] theorem setShapingQueue_timer (a : Axis) (q : List Echo) (s : State) : (setShapingQueue a q s).timer = s.timer := rfl
@[simp] theorem setShapingQueue_bez (a : Axis) (q : List Echo) (s : State) : (setShapingQueue a q s).bez = s.bez := rfl
@[simp] theorem setShapingQueue_la (a : Axis) (q : List Echo) (s : State) : (setShapingQueue a q s).la = s.la := rfl
@[simp] theorem setShapingQueue_shaping (a : Axis) (q : List Echo) (s : State) : (setShapingQueue a q s).shaping = { s.shaping with queue := s.shaping.queue.write a q } := rfl
@[simp] theorem setShapingQueue_babyPending (a : Axis) (q : List Echo) (s : State) : (setShapingQueue a q s).babyPending = s.babyPending := rfl
@[simp] theorem setShapingQueue_pins (a : Axis) (q : List Echo) (s : State) : (setShapingQueue a q s).pins = s.pins := rfl
@[simp] theorem setShapingQueue_host (a : Axis) (q : List Echo) (s : State) : (setShapingQueue a q s).host = s.host := rfl
@[simp] theorem setShapingQueue_trace (a : Axis) (q : List Echo) (s : State) : (setShapingQueue a q s).trace = s.trace := rfl
@[simp] theorem setShapingQueue_pq (a : Axis) (q : List Echo) (s : State) : (setShapingQueue a q s).pq = s.pq := rfl
@[simp] theorem setShapingQueue_env (a : Axis) (q : List Echo) (s : State) : (setShapingQueue a q s).env = s.env := rfl

/-! ## setArg -/

@[simp] theorem setArg_cfg (i : Axis) (v : Word) (s : State) : (setArg i v s).cfg = s.cfg := rfl
@[simp] theorem setArg_seq (i : Axis) (v : Word) (s : State) : (setArg i v s).seq = s.seq := rfl
@[simp] theorem setArg_bres (i : Axis) (v : Word) (s : State) : (setArg i v s).bres = s.bres := rfl
@[simp] theorem setArg_timer (i : Axis) (v : Word) (s : State) : (setArg i v s).timer = s.timer := rfl
@[simp] theorem setArg_bez (i : Axis) (v : Word) (s : State) : (setArg i v s).bez = s.bez := rfl
@[simp] theorem setArg_la (i : Axis) (v : Word) (s : State) : (setArg i v s).la = s.la := rfl
@[simp] theorem setArg_shaping (i : Axis) (v : Word) (s : State) : (setArg i v s).shaping = s.shaping := rfl
@[simp] theorem setArg_babyPending (i : Axis) (v : Word) (s : State) : (setArg i v s).babyPending = s.babyPending := rfl
@[simp] theorem setArg_pins (i : Axis) (v : Word) (s : State) : (setArg i v s).pins = s.pins := rfl
@[simp] theorem setArg_host (i : Axis) (v : Word) (s : State) : (setArg i v s).host = { s.host with arg := s.host.arg.write i v } := rfl
@[simp] theorem setArg_trace (i : Axis) (v : Word) (s : State) : (setArg i v s).trace = s.trace := rfl
@[simp] theorem setArg_pq (i : Axis) (v : Word) (s : State) : (setArg i v s).pq = s.pq := rfl
@[simp] theorem setArg_env (i : Axis) (v : Word) (s : State) : (setArg i v s).env = s.env := rfl

/-! ## requestAbort -/

@[simp] theorem requestAbort_cfg (s : State) : (requestAbort s).cfg = s.cfg := rfl
@[simp] theorem requestAbort_seq (s : State) : (requestAbort s).seq = { s.seq with abortCurrentBlock := true } := rfl
@[simp] theorem requestAbort_bres (s : State) : (requestAbort s).bres = s.bres := rfl
@[simp] theorem requestAbort_timer (s : State) : (requestAbort s).timer = s.timer := rfl
@[simp] theorem requestAbort_bez (s : State) : (requestAbort s).bez = s.bez := rfl
@[simp] theorem requestAbort_la (s : State) : (requestAbort s).la = s.la := rfl
@[simp] theorem requestAbort_shaping (s : State) : (requestAbort s).shaping = s.shaping := rfl
@[simp] theorem requestAbort_babyPending (s : State) : (requestAbort s).babyPending = s.babyPending := rfl
@[simp] theorem requestAbort_pins (s : State) : (requestAbort s).pins = s.pins := rfl
@[simp] theorem requestAbort_host (s : State) : (requestAbort s).host = s.host := rfl
@[simp] theorem requestAbort_trace (s : State) : (requestAbort s).trace = s.trace := rfl
@[simp] theorem requestAbort_pq (s : State) : (requestAbort s).pq = s.pq := rfl
@[simp] theorem requestAbort_env (s : State) : (requestAbort s).env = s.env := rfl

end Sys2Proof.Machine
end

