-- ==== Sys2Proof/Laws/Ops.lean ====
section
/-! SUPPORT. What the shared pulse operations can do: for each, the groups of State it leaves alone and what the
others are afterwards. Callers rewrite with these and never unfold the operations. -/

namespace Sys2Proof.Machine

/-! ## driveDir -/

@[simp] theorem driveDir_cfg (a : Axis) (lvl : Bool) (s : State) : (driveDir a lvl s).cfg = s.cfg := by
  unfold driveDir; split <;> simp

@[simp] theorem driveDir_seq (a : Axis) (lvl : Bool) (s : State) : (driveDir a lvl s).seq = s.seq := by
  unfold driveDir; split <;> simp

@[simp] theorem driveDir_bres (a : Axis) (lvl : Bool) (s : State) : (driveDir a lvl s).bres = s.bres := by
  unfold driveDir; split <;> simp

@[simp] theorem driveDir_timer (a : Axis) (lvl : Bool) (s : State) : (driveDir a lvl s).timer = s.timer := by
  unfold driveDir; split <;> simp

@[simp] theorem driveDir_bez (a : Axis) (lvl : Bool) (s : State) : (driveDir a lvl s).bez = s.bez := by
  unfold driveDir; split <;> simp

@[simp] theorem driveDir_la (a : Axis) (lvl : Bool) (s : State) : (driveDir a lvl s).la = s.la := by
  unfold driveDir; split <;> simp

@[simp] theorem driveDir_shaping (a : Axis) (lvl : Bool) (s : State) : (driveDir a lvl s).shaping = s.shaping := by
  unfold driveDir; split <;> simp

@[simp] theorem driveDir_babyPending (a : Axis) (lvl : Bool) (s : State) : (driveDir a lvl s).babyPending = s.babyPending := by
  unfold driveDir; split <;> simp

@[simp] theorem driveDir_host (a : Axis) (lvl : Bool) (s : State) : (driveDir a lvl s).host = s.host := by
  unfold driveDir; split <;> simp

@[simp] theorem driveDir_pq (a : Axis) (lvl : Bool) (s : State) : (driveDir a lvl s).pq = s.pq := by
  unfold driveDir; split <;> simp

@[simp] theorem driveDir_env (a : Axis) (lvl : Bool) (s : State) : (driveDir a lvl s).env = s.env := by
  unfold driveDir; split <;> simp

@[simp] theorem driveDir_pins (a : Axis) (lvl : Bool) (s : State) :
    (driveDir a lvl s).pins = { s.pins with dirOut := s.pins.dirOut.write a lvl } := by
  unfold driveDir
  split
  · next h => rw [← h]; simp
  · simp

/-- The DIR record a change of level leaves (46_direction_enable.md R260). -/
theorem driveDir_trace (a : Axis) (lvl : Bool) (s : State) :
    (driveDir a lvl s).trace =
      s.trace ++ (if s.pins.dirOut.read a = lvl then [] else [⟨s.timer.now, .dir a lvl⟩]) := by
  unfold driveDir
  split <;> simp

/-! ## physicalPulse -/

@[simp] theorem physicalPulse_cfg (a : Axis) (d : Dir) (s : State) : (physicalPulse a d s).cfg = s.cfg := by
  simp [physicalPulse]

@[simp] theorem physicalPulse_seq (a : Axis) (d : Dir) (s : State) : (physicalPulse a d s).seq = s.seq := by
  simp [physicalPulse]

@[simp] theorem physicalPulse_timer (a : Axis) (d : Dir) (s : State) : (physicalPulse a d s).timer = s.timer := by
  simp [physicalPulse]

@[simp] theorem physicalPulse_bez (a : Axis) (d : Dir) (s : State) : (physicalPulse a d s).bez = s.bez := by
  simp [physicalPulse]

@[simp] theorem physicalPulse_la (a : Axis) (d : Dir) (s : State) : (physicalPulse a d s).la = s.la := by
  simp [physicalPulse]

@[simp] theorem physicalPulse_shaping (a : Axis) (d : Dir) (s : State) : (physicalPulse a d s).shaping = s.shaping := by
  simp [physicalPulse]

@[simp] theorem physicalPulse_babyPending (a : Axis) (d : Dir) (s : State) : (physicalPulse a d s).babyPending = s.babyPending := by
  simp [physicalPulse]

@[simp] theorem physicalPulse_host (a : Axis) (d : Dir) (s : State) : (physicalPulse a d s).host = s.host := by
  simp [physicalPulse]

@[simp] theorem physicalPulse_pq (a : Axis) (d : Dir) (s : State) : (physicalPulse a d s).pq = s.pq := by
  simp [physicalPulse]

@[simp] theorem physicalPulse_env (a : Axis) (d : Dir) (s : State) : (physicalPulse a d s).env = s.env := by
  simp [physicalPulse]

@[simp] theorem physicalPulse_bres (a : Axis) (d : Dir) (s : State) :
    (physicalPulse a d s).bres =
      { s.bres with countPosition := s.bres.countPosition.write a (wrapStep (s.bres.countPosition.read a) d) } := by
  simp [physicalPulse]

@[simp] theorem physicalPulse_pins (a : Axis) (d : Dir) (s : State) :
    (physicalPulse a d s).pins =
      { s.pins with
        dirOut := s.pins.dirOut.write a d.level
        stepOut := (s.pins.stepOut.write a true).write a false } := by
  simp [physicalPulse]

/-- The records of one pulse: DIR if the level changes, then STEP (41_bresenham.md R136). -/
theorem physicalPulse_trace (a : Axis) (d : Dir) (s : State) :
    (physicalPulse a d s).trace =
      s.trace ++ ((if s.pins.dirOut.read a = d.level then [] else [⟨s.timer.now, .dir a d.level⟩]) ++
        [⟨s.timer.now, .step a d⟩]) := by
  simp [physicalPulse, driveDir_trace]

/-! ## Shaping -/

@[simp] theorem shapeApply_cfg (a : Axis) (amt : Int) (s : State) : (shapeApply a amt s).cfg = s.cfg := by
  unfold shapeApply; simp only []; split
  · simp
  · split <;> simp

@[simp] theorem shapeApply_seq (a : Axis) (amt : Int) (s : State) : (shapeApply a amt s).seq = s.seq := by
  unfold shapeApply; simp only []; split
  · simp
  · split <;> simp

@[simp] theorem shapeApply_timer (a : Axis) (amt : Int) (s : State) : (shapeApply a amt s).timer = s.timer := by
  unfold shapeApply; simp only []; split
  · simp
  · split <;> simp

@[simp] theorem shapeApply_bez (a : Axis) (amt : Int) (s : State) : (shapeApply a amt s).bez = s.bez := by
  unfold shapeApply; simp only []; split
  · simp
  · split <;> simp

@[simp] theorem shapeApply_la (a : Axis) (amt : Int) (s : State) : (shapeApply a amt s).la = s.la := by
  unfold shapeApply; simp only []; split
  · simp
  · split <;> simp

@[simp] theorem shapeApply_babyPending (a : Axis) (amt : Int) (s : State) : (shapeApply a amt s).babyPending = s.babyPending := by
  unfold shapeApply; simp only []; split
  · simp
  · split <;> simp

@[simp] theorem shapeApply_host (a : Axis) (amt : Int) (s : State) : (shapeApply a amt s).host = s.host := by
  unfold shapeApply; simp only []; split
  · simp
  · split <;> simp

@[simp] theorem shapeApply_pq (a : Axis) (amt : Int) (s : State) : (shapeApply a amt s).pq = s.pq := by
  unfold shapeApply; simp only []; split
  · simp
  · split <;> simp

@[simp] theorem shapeApply_env (a : Axis) (amt : Int) (s : State) : (shapeApply a amt s).env = s.env := by
  unfold shapeApply; simp only []; split
  · simp
  · split <;> simp

/-- SHAPE_APPLY leaves the queues alone. -/
@[simp] theorem shapeApply_queue (a : Axis) (amt : Int) (s : State) :
    (shapeApply a amt s).shaping.queue = s.shaping.queue := by
  unfold shapeApply; simp only []; split
  · simp
  · split <;> simp

/-- The accumulator after SHAPE_APPLY (45_aux_pulse.md R234). -/
theorem shapeApply_delta (a : Axis) (amt : Int) (s : State) :
    (shapeApply a amt s).shaping.delta = s.shaping.delta.write a
      (let v := s.shaping.delta.read a + amt
       if 64 ≤ v then v - 128 else if v < -64 then v + 128 else v) := by
  unfold shapeApply
  simp only []
  split
  · apply PerAxis.ext_read; intro b; simp [PerAxis.read_write]; split <;> rfl
  · split
    · apply PerAxis.ext_read; intro b; simp [PerAxis.read_write]; split <;> rfl
    · simp

@[simp] theorem forceEcho_cfg (a : Axis) (s : State) : (forceEcho a s).cfg = s.cfg := by
  unfold forceEcho; split <;> simp

@[simp] theorem forceEcho_seq (a : Axis) (s : State) : (forceEcho a s).seq = s.seq := by
  unfold forceEcho; split <;> simp

@[simp] theorem forceEcho_timer (a : Axis) (s : State) : (forceEcho a s).timer = s.timer := by
  unfold forceEcho; split <;> simp

@[simp] theorem forceEcho_bez (a : Axis) (s : State) : (forceEcho a s).bez = s.bez := by
  unfold forceEcho; split <;> simp

@[simp] theorem forceEcho_la (a : Axis) (s : State) : (forceEcho a s).la = s.la := by
  unfold forceEcho; split <;> simp

@[simp] theorem forceEcho_babyPending (a : Axis) (s : State) : (forceEcho a s).babyPending = s.babyPending := by
  unfold forceEcho; split <;> simp

@[simp] theorem forceEcho_host (a : Axis) (s : State) : (forceEcho a s).host = s.host := by
  unfold forceEcho; split <;> simp

@[simp] theorem forceEcho_pq (a : Axis) (s : State) : (forceEcho a s).pq = s.pq := by
  unfold forceEcho; split <;> simp

@[simp] theorem forceEcho_env (a : Axis) (s : State) : (forceEcho a s).env = s.env := by
  unfold forceEcho; split <;> simp

@[simp] theorem shapePrimary_cfg (a : Axis) (d : Dir) (s : State) : (shapePrimary a d s).cfg = s.cfg := by
  unfold shapePrimary; simp only [setShapingQueue_cfg, shapeApply_cfg]; split <;> simp

@[simp] theorem shapePrimary_seq (a : Axis) (d : Dir) (s : State) : (shapePrimary a d s).seq = s.seq := by
  unfold shapePrimary; simp only [setShapingQueue_seq, shapeApply_seq]; split <;> simp

@[simp] theorem shapePrimary_timer (a : Axis) (d : Dir) (s : State) : (shapePrimary a d s).timer = s.timer := by
  unfold shapePrimary; simp only [setShapingQueue_timer, shapeApply_timer]; split <;> simp

@[simp] theorem shapePrimary_bez (a : Axis) (d : Dir) (s : State) : (shapePrimary a d s).bez = s.bez := by
  unfold shapePrimary; simp only [setShapingQueue_bez, shapeApply_bez]; split <;> simp

@[simp] theorem shapePrimary_la (a : Axis) (d : Dir) (s : State) : (shapePrimary a d s).la = s.la := by
  unfold shapePrimary; simp only [setShapingQueue_la, shapeApply_la]; split <;> simp

@[simp] theorem shapePrimary_babyPending (a : Axis) (d : Dir) (s : State) : (shapePrimary a d s).babyPending = s.babyPending := by
  unfold shapePrimary; simp only [setShapingQueue_babyPending, shapeApply_babyPending]; split <;> simp

@[simp] theorem shapePrimary_host (a : Axis) (d : Dir) (s : State) : (shapePrimary a d s).host = s.host := by
  unfold shapePrimary; simp only [setShapingQueue_host, shapeApply_host]; split <;> simp

@[simp] theorem shapePrimary_pq (a : Axis) (d : Dir) (s : State) : (shapePrimary a d s).pq = s.pq := by
  unfold shapePrimary; simp only [setShapingQueue_pq, shapeApply_pq]; split <;> simp

@[simp] theorem shapePrimary_env (a : Axis) (d : Dir) (s : State) : (shapePrimary a d s).env = s.env := by
  unfold shapePrimary; simp only [setShapingQueue_env, shapeApply_env]; split <;> simp

@[simp] theorem stepAxis_cfg (a : Axis) (d : Dir) (s : State) : (stepAxis a d s).cfg = s.cfg := by
  unfold stepAxis; split <;> simp

@[simp] theorem stepAxis_seq (a : Axis) (d : Dir) (s : State) : (stepAxis a d s).seq = s.seq := by
  unfold stepAxis; split <;> simp

@[simp] theorem stepAxis_timer (a : Axis) (d : Dir) (s : State) : (stepAxis a d s).timer = s.timer := by
  unfold stepAxis; split <;> simp

@[simp] theorem stepAxis_bez (a : Axis) (d : Dir) (s : State) : (stepAxis a d s).bez = s.bez := by
  unfold stepAxis; split <;> simp

@[simp] theorem stepAxis_la (a : Axis) (d : Dir) (s : State) : (stepAxis a d s).la = s.la := by
  unfold stepAxis; split <;> simp

@[simp] theorem stepAxis_babyPending (a : Axis) (d : Dir) (s : State) : (stepAxis a d s).babyPending = s.babyPending := by
  unfold stepAxis; split <;> simp

@[simp] theorem stepAxis_host (a : Axis) (d : Dir) (s : State) : (stepAxis a d s).host = s.host := by
  unfold stepAxis; split <;> simp

@[simp] theorem stepAxis_pq (a : Axis) (d : Dir) (s : State) : (stepAxis a d s).pq = s.pq := by
  unfold stepAxis; split <;> simp

@[simp] theorem stepAxis_env (a : Axis) (d : Dir) (s : State) : (stepAxis a d s).env = s.env := by
  unfold stepAxis; split <;> simp

@[simp] theorem drainDue_cfg (a : Axis) (q : List Echo) (s : State) : (drainDue a q s).cfg = s.cfg := by
  induction q generalizing s with
  | nil => rfl
  | cons e rest ih =>
    unfold drainDue; split
    · rw [ih]; simp
    · rfl

@[simp] theorem drainDue_seq (a : Axis) (q : List Echo) (s : State) : (drainDue a q s).seq = s.seq := by
  induction q generalizing s with
  | nil => rfl
  | cons e rest ih =>
    unfold drainDue; split
    · rw [ih]; simp
    · rfl

@[simp] theorem drainDue_timer (a : Axis) (q : List Echo) (s : State) : (drainDue a q s).timer = s.timer := by
  induction q generalizing s with
  | nil => rfl
  | cons e rest ih =>
    unfold drainDue; split
    · rw [ih]; simp
    · rfl

@[simp] theorem drainDue_bez (a : Axis) (q : List Echo) (s : State) : (drainDue a q s).bez = s.bez := by
  induction q generalizing s with
  | nil => rfl
  | cons e rest ih =>
    unfold drainDue; split
    · rw [ih]; simp
    · rfl

@[simp] theorem drainDue_la (a : Axis) (q : List Echo) (s : State) : (drainDue a q s).la = s.la := by
  induction q generalizing s with
  | nil => rfl
  | cons e rest ih =>
    unfold drainDue; split
    · rw [ih]; simp
    · rfl

@[simp] theorem drainDue_babyPending (a : Axis) (q : List Echo) (s : State) : (drainDue a q s).babyPending = s.babyPending := by
  induction q generalizing s with
  | nil => rfl
  | cons e rest ih =>
    unfold drainDue; split
    · rw [ih]; simp
    · rfl

@[simp] theorem drainDue_host (a : Axis) (q : List Echo) (s : State) : (drainDue a q s).host = s.host := by
  induction q generalizing s with
  | nil => rfl
  | cons e rest ih =>
    unfold drainDue; split
    · rw [ih]; simp
    · rfl

@[simp] theorem drainDue_pq (a : Axis) (q : List Echo) (s : State) : (drainDue a q s).pq = s.pq := by
  induction q generalizing s with
  | nil => rfl
  | cons e rest ih =>
    unfold drainDue; split
    · rw [ih]; simp
    · rfl

@[simp] theorem drainDue_env (a : Axis) (q : List Echo) (s : State) : (drainDue a q s).env = s.env := by
  induction q generalizing s with
  | nil => rfl
  | cons e rest ih =>
    unfold drainDue; split
    · rw [ih]; simp
    · rfl

/-- A fold over axes leaves alone what each of its steps leaves alone. -/
theorem foldl_keeps {α β : Type} (f : State → α → State) (g : State → β) (h : ∀ s a, g (f s a) = g s)
    (l : List α) (s : State) : g (l.foldl f s) = g s := by
  induction l generalizing s with
  | nil => rfl
  | cons a l ih => rw [List.foldl_cons, ih, h]

@[simp] theorem shapingIsr_cfg (s : State) : (shapingIsr s).cfg = s.cfg :=
  foldl_keeps (fun t a => drainDue a (t.shaping.queue.read a) t) State.cfg (fun t a => by simp) _ s

@[simp] theorem shapingIsr_seq (s : State) : (shapingIsr s).seq = s.seq :=
  foldl_keeps (fun t a => drainDue a (t.shaping.queue.read a) t) State.seq (fun t a => by simp) _ s

@[simp] theorem shapingIsr_timer (s : State) : (shapingIsr s).timer = s.timer :=
  foldl_keeps (fun t a => drainDue a (t.shaping.queue.read a) t) State.timer (fun t a => by simp) _ s

@[simp] theorem shapingIsr_bez (s : State) : (shapingIsr s).bez = s.bez :=
  foldl_keeps (fun t a => drainDue a (t.shaping.queue.read a) t) State.bez (fun t a => by simp) _ s

@[simp] theorem shapingIsr_la (s : State) : (shapingIsr s).la = s.la :=
  foldl_keeps (fun t a => drainDue a (t.shaping.queue.read a) t) State.la (fun t a => by simp) _ s

@[simp] theorem shapingIsr_babyPending (s : State) : (shapingIsr s).babyPending = s.babyPending :=
  foldl_keeps (fun t a => drainDue a (t.shaping.queue.read a) t) State.babyPending (fun t a => by simp) _ s

@[simp] theorem shapingIsr_host (s : State) : (shapingIsr s).host = s.host :=
  foldl_keeps (fun t a => drainDue a (t.shaping.queue.read a) t) State.host (fun t a => by simp) _ s

@[simp] theorem shapingIsr_pq (s : State) : (shapingIsr s).pq = s.pq :=
  foldl_keeps (fun t a => drainDue a (t.shaping.queue.read a) t) State.pq (fun t a => by simp) _ s

@[simp] theorem shapingIsr_env (s : State) : (shapingIsr s).env = s.env :=
  foldl_keeps (fun t a => drainDue a (t.shaping.queue.read a) t) State.env (fun t a => by simp) _ s

@[simp] theorem shapingFlush_cfg (s : State) : (shapingFlush s).cfg = s.cfg := by
  rfl

@[simp] theorem shapingFlush_seq (s : State) : (shapingFlush s).seq = s.seq := by
  rfl

@[simp] theorem shapingFlush_bres (s : State) : (shapingFlush s).bres = s.bres := by
  rfl

@[simp] theorem shapingFlush_timer (s : State) : (shapingFlush s).timer = s.timer := by
  rfl

@[simp] theorem shapingFlush_bez (s : State) : (shapingFlush s).bez = s.bez := by
  rfl

@[simp] theorem shapingFlush_la (s : State) : (shapingFlush s).la = s.la := by
  rfl

@[simp] theorem shapingFlush_babyPending (s : State) : (shapingFlush s).babyPending = s.babyPending := by
  rfl

@[simp] theorem shapingFlush_pins (s : State) : (shapingFlush s).pins = s.pins := by
  rfl

@[simp] theorem shapingFlush_host (s : State) : (shapingFlush s).host = s.host := by
  rfl

@[simp] theorem shapingFlush_trace (s : State) : (shapingFlush s).trace = s.trace := by
  rfl

@[simp] theorem shapingFlush_pq (s : State) : (shapingFlush s).pq = s.pq := by
  rfl

@[simp] theorem shapingFlush_env (s : State) : (shapingFlush s).env = s.env := by
  rfl

end Sys2Proof.Machine
end

