-- ==== Sys2Proof/Laws/Engine.lean ====
section
/-! SUPPORT. What the engine's sub-operations leave alone: for each, every group of State it never changes. Callers
rewrite with these and never unfold an operation to learn what it keeps. -/

namespace Sys2Proof.Machine

/-! ## Steps (41_bresenham.md R130 to R135) -/

@[simp] theorem stepEventAxis_cfg (s : State) (a : Axis) :
    (stepEventAxis s a).cfg = s.cfg := by
  unfold stepEventAxis; split
  · rfl
  · simp only []; split <;> simp
@[simp] theorem stepEventAxis_seq (s : State) (a : Axis) :
    (stepEventAxis s a).seq = s.seq := by
  unfold stepEventAxis; split
  · rfl
  · simp only []; split <;> simp
@[simp] theorem stepEventAxis_timer (s : State) (a : Axis) :
    (stepEventAxis s a).timer = s.timer := by
  unfold stepEventAxis; split
  · rfl
  · simp only []; split <;> simp
@[simp] theorem stepEventAxis_bez (s : State) (a : Axis) :
    (stepEventAxis s a).bez = s.bez := by
  unfold stepEventAxis; split
  · rfl
  · simp only []; split <;> simp
@[simp] theorem stepEventAxis_la (s : State) (a : Axis) :
    (stepEventAxis s a).la = s.la := by
  unfold stepEventAxis; split
  · rfl
  · simp only []; split <;> simp
@[simp] theorem stepEventAxis_babyPending (s : State) (a : Axis) :
    (stepEventAxis s a).babyPending = s.babyPending := by
  unfold stepEventAxis; split
  · rfl
  · simp only []; split <;> simp
@[simp] theorem stepEventAxis_host (s : State) (a : Axis) :
    (stepEventAxis s a).host = s.host := by
  unfold stepEventAxis; split
  · rfl
  · simp only []; split <;> simp
@[simp] theorem stepEventAxis_pq (s : State) (a : Axis) :
    (stepEventAxis s a).pq = s.pq := by
  unfold stepEventAxis; split
  · rfl
  · simp only []; split <;> simp
@[simp] theorem stepEventAxis_env (s : State) (a : Axis) :
    (stepEventAxis s a).env = s.env := by
  unfold stepEventAxis; split
  · rfl
  · simp only []; split <;> simp

@[simp] theorem stepEvent_cfg (s : State) :
    (stepEvent s).cfg = s.cfg := 
  foldl_keeps stepEventAxis State.cfg (fun t a => by simp) _ s
@[simp] theorem stepEvent_seq (s : State) :
    (stepEvent s).seq = s.seq := 
  foldl_keeps stepEventAxis State.seq (fun t a => by simp) _ s
@[simp] theorem stepEvent_timer (s : State) :
    (stepEvent s).timer = s.timer := 
  foldl_keeps stepEventAxis State.timer (fun t a => by simp) _ s
@[simp] theorem stepEvent_bez (s : State) :
    (stepEvent s).bez = s.bez := 
  foldl_keeps stepEventAxis State.bez (fun t a => by simp) _ s
@[simp] theorem stepEvent_la (s : State) :
    (stepEvent s).la = s.la := 
  foldl_keeps stepEventAxis State.la (fun t a => by simp) _ s
@[simp] theorem stepEvent_babyPending (s : State) :
    (stepEvent s).babyPending = s.babyPending := 
  foldl_keeps stepEventAxis State.babyPending (fun t a => by simp) _ s
@[simp] theorem stepEvent_host (s : State) :
    (stepEvent s).host = s.host := 
  foldl_keeps stepEventAxis State.host (fun t a => by simp) _ s
@[simp] theorem stepEvent_pq (s : State) :
    (stepEvent s).pq = s.pq := 
  foldl_keeps stepEventAxis State.pq (fun t a => by simp) _ s
@[simp] theorem stepEvent_env (s : State) :
    (stepEvent s).env = s.env := 
  foldl_keeps stepEventAxis State.env (fun t a => by simp) _ s

@[simp] theorem runEvents_cfg (n : Nat) (s : State) :
    (runEvents n s).cfg = s.cfg := by
  induction n generalizing s with
  | zero => rfl
  | succ n ih => simp [runEvents, ih]
@[simp] theorem runEvents_timer (n : Nat) (s : State) :
    (runEvents n s).timer = s.timer := by
  induction n generalizing s with
  | zero => rfl
  | succ n ih => simp [runEvents, ih]
@[simp] theorem runEvents_bez (n : Nat) (s : State) :
    (runEvents n s).bez = s.bez := by
  induction n generalizing s with
  | zero => rfl
  | succ n ih => simp [runEvents, ih]
@[simp] theorem runEvents_la (n : Nat) (s : State) :
    (runEvents n s).la = s.la := by
  induction n generalizing s with
  | zero => rfl
  | succ n ih => simp [runEvents, ih]
@[simp] theorem runEvents_babyPending (n : Nat) (s : State) :
    (runEvents n s).babyPending = s.babyPending := by
  induction n generalizing s with
  | zero => rfl
  | succ n ih => simp [runEvents, ih]
@[simp] theorem runEvents_host (n : Nat) (s : State) :
    (runEvents n s).host = s.host := by
  induction n generalizing s with
  | zero => rfl
  | succ n ih => simp [runEvents, ih]
@[simp] theorem runEvents_pq (n : Nat) (s : State) :
    (runEvents n s).pq = s.pq := by
  induction n generalizing s with
  | zero => rfl
  | succ n ih => simp [runEvents, ih]
@[simp] theorem runEvents_env (n : Nat) (s : State) :
    (runEvents n s).env = s.env := by
  induction n generalizing s with
  | zero => rfl
  | succ n ih => simp [runEvents, ih]

@[simp] theorem discardBlock_cfg (b : BlockRec) (s : State) :
    (discardBlock b s).cfg = s.cfg := by
  unfold discardBlock; simp only []; split <;> simp
@[simp] theorem discardBlock_bres (b : BlockRec) (s : State) :
    (discardBlock b s).bres = s.bres := by
  unfold discardBlock; simp only []; split <;> simp
@[simp] theorem discardBlock_bez (b : BlockRec) (s : State) :
    (discardBlock b s).bez = s.bez := by
  unfold discardBlock; simp only []; split <;> simp
@[simp] theorem discardBlock_shaping (b : BlockRec) (s : State) :
    (discardBlock b s).shaping = s.shaping := by
  unfold discardBlock; simp only []; split <;> simp
@[simp] theorem discardBlock_babyPending (b : BlockRec) (s : State) :
    (discardBlock b s).babyPending = s.babyPending := by
  unfold discardBlock; simp only []; split <;> simp
@[simp] theorem discardBlock_pins (b : BlockRec) (s : State) :
    (discardBlock b s).pins = s.pins := by
  unfold discardBlock; simp only []; split <;> simp
@[simp] theorem discardBlock_host (b : BlockRec) (s : State) :
    (discardBlock b s).host = s.host := by
  unfold discardBlock; simp only []; split <;> simp
@[simp] theorem discardBlock_env (b : BlockRec) (s : State) :
    (discardBlock b s).env = s.env := by
  unfold discardBlock; simp only []; split <;> simp

@[simp] theorem completeBlock_cfg (b : BlockRec) (s : State) :
    (completeBlock b s).cfg = s.cfg := by
  simp [completeBlock]
@[simp] theorem completeBlock_bres (b : BlockRec) (s : State) :
    (completeBlock b s).bres = s.bres := by
  simp [completeBlock]
@[simp] theorem completeBlock_bez (b : BlockRec) (s : State) :
    (completeBlock b s).bez = s.bez := by
  simp [completeBlock]
@[simp] theorem completeBlock_shaping (b : BlockRec) (s : State) :
    (completeBlock b s).shaping = s.shaping := by
  simp [completeBlock]
@[simp] theorem completeBlock_babyPending (b : BlockRec) (s : State) :
    (completeBlock b s).babyPending = s.babyPending := by
  simp [completeBlock]
@[simp] theorem completeBlock_pins (b : BlockRec) (s : State) :
    (completeBlock b s).pins = s.pins := by
  simp [completeBlock]
@[simp] theorem completeBlock_host (b : BlockRec) (s : State) :
    (completeBlock b s).host = s.host := by
  simp [completeBlock]
@[simp] theorem completeBlock_env (b : BlockRec) (s : State) :
    (completeBlock b s).env = s.env := by
  simp [completeBlock]

@[simp] theorem consumeAbort_cfg (s : State) :
    (consumeAbort s).cfg = s.cfg := by
  unfold consumeAbort; simp only []; split <;> simp
@[simp] theorem consumeAbort_bres (s : State) :
    (consumeAbort s).bres = s.bres := by
  unfold consumeAbort; simp only []; split <;> simp
@[simp] theorem consumeAbort_bez (s : State) :
    (consumeAbort s).bez = s.bez := by
  unfold consumeAbort; simp only []; split <;> simp
@[simp] theorem consumeAbort_babyPending (s : State) :
    (consumeAbort s).babyPending = s.babyPending := by
  unfold consumeAbort; simp only []; split <;> simp
@[simp] theorem consumeAbort_pins (s : State) :
    (consumeAbort s).pins = s.pins := by
  unfold consumeAbort; simp only []; split <;> simp
@[simp] theorem consumeAbort_host (s : State) :
    (consumeAbort s).host = s.host := by
  unfold consumeAbort; simp only []; split <;> simp
@[simp] theorem consumeAbort_env (s : State) :
    (consumeAbort s).env = s.env := by
  unfold consumeAbort; simp only []; split <;> simp

@[simp] theorem pulsePhase_cfg (s : State) :
    (pulsePhase s).cfg = s.cfg := by
  unfold pulsePhase; split
  · simp
  · split <;> simp
@[simp] theorem pulsePhase_bez (s : State) :
    (pulsePhase s).bez = s.bez := by
  unfold pulsePhase; split
  · simp
  · split <;> simp
@[simp] theorem pulsePhase_babyPending (s : State) :
    (pulsePhase s).babyPending = s.babyPending := by
  unfold pulsePhase; split
  · simp
  · split <;> simp
@[simp] theorem pulsePhase_host (s : State) :
    (pulsePhase s).host = s.host := by
  unfold pulsePhase; split
  · simp
  · split <;> simp
@[simp] theorem pulsePhase_env (s : State) :
    (pulsePhase s).env = s.env := by
  unfold pulsePhase; split
  · simp
  · split <;> simp

/-! ## Linear advance (45_aux_pulse.md R222 to R227) -/

@[simp] theorem advanceIsr_cfg (s : State) :
    (advanceIsr s).cfg = s.cfg := by
  unfold advanceIsr; split
  · simp only []; split <;> simp
  · rfl
@[simp] theorem advanceIsr_seq (s : State) :
    (advanceIsr s).seq = s.seq := by
  unfold advanceIsr; split
  · simp only []; split <;> simp
  · rfl
@[simp] theorem advanceIsr_timer (s : State) :
    (advanceIsr s).timer = s.timer := by
  unfold advanceIsr; split
  · simp only []; split <;> simp
  · rfl
@[simp] theorem advanceIsr_bez (s : State) :
    (advanceIsr s).bez = s.bez := by
  unfold advanceIsr; split
  · simp only []; split <;> simp
  · rfl
@[simp] theorem advanceIsr_shaping (s : State) :
    (advanceIsr s).shaping = s.shaping := by
  unfold advanceIsr; split
  · simp only []; split <;> simp
  · rfl
@[simp] theorem advanceIsr_babyPending (s : State) :
    (advanceIsr s).babyPending = s.babyPending := by
  unfold advanceIsr; split
  · simp only []; split <;> simp
  · rfl
@[simp] theorem advanceIsr_host (s : State) :
    (advanceIsr s).host = s.host := by
  unfold advanceIsr; split
  · simp only []; split <;> simp
  · rfl
@[simp] theorem advanceIsr_pq (s : State) :
    (advanceIsr s).pq = s.pq := by
  unfold advanceIsr; split
  · simp only []; split <;> simp
  · rfl
@[simp] theorem advanceIsr_env (s : State) :
    (advanceIsr s).env = s.env := by
  unfold advanceIsr; split
  · simp only []; split <;> simp
  · rfl

@[simp] theorem tickAdvance_cfg (s : State) :
    (tickAdvance s).cfg = s.cfg := by
  unfold tickAdvance; split <;> simp
@[simp] theorem tickAdvance_seq (s : State) :
    (tickAdvance s).seq = s.seq := by
  unfold tickAdvance; split <;> simp
@[simp] theorem tickAdvance_bez (s : State) :
    (tickAdvance s).bez = s.bez := by
  unfold tickAdvance; split <;> simp
@[simp] theorem tickAdvance_shaping (s : State) :
    (tickAdvance s).shaping = s.shaping := by
  unfold tickAdvance; split <;> simp
@[simp] theorem tickAdvance_babyPending (s : State) :
    (tickAdvance s).babyPending = s.babyPending := by
  unfold tickAdvance; split <;> simp
@[simp] theorem tickAdvance_host (s : State) :
    (tickAdvance s).host = s.host := by
  unfold tickAdvance; split <;> simp
@[simp] theorem tickAdvance_pq (s : State) :
    (tickAdvance s).pq = s.pq := by
  unfold tickAdvance; split <;> simp
@[simp] theorem tickAdvance_env (s : State) :
    (tickAdvance s).env = s.env := by
  unfold tickAdvance; split <;> simp

@[simp] theorem laSet_cfg (iv : Nat) (s : State) :
    (laSet iv s).cfg = s.cfg := rfl
@[simp] theorem laSet_seq (iv : Nat) (s : State) :
    (laSet iv s).seq = s.seq := rfl
@[simp] theorem laSet_bres (iv : Nat) (s : State) :
    (laSet iv s).bres = s.bres := rfl
@[simp] theorem laSet_bez (iv : Nat) (s : State) :
    (laSet iv s).bez = s.bez := rfl
@[simp] theorem laSet_shaping (iv : Nat) (s : State) :
    (laSet iv s).shaping = s.shaping := rfl
@[simp] theorem laSet_babyPending (iv : Nat) (s : State) :
    (laSet iv s).babyPending = s.babyPending := rfl
@[simp] theorem laSet_pins (iv : Nat) (s : State) :
    (laSet iv s).pins = s.pins := rfl
@[simp] theorem laSet_host (iv : Nat) (s : State) :
    (laSet iv s).host = s.host := rfl
@[simp] theorem laSet_trace (iv : Nat) (s : State) :
    (laSet iv s).trace = s.trace := rfl
@[simp] theorem laSet_pq (iv : Nat) (s : State) :
    (laSet iv s).pq = s.pq := rfl
@[simp] theorem laSet_env (iv : Nat) (s : State) :
    (laSet iv s).env = s.env := rfl

@[simp] theorem laAccel_cfg (b : BlockRec) (rate : Nat) (s : State) :
    (laAccel b rate s).cfg = s.cfg := rfl
@[simp] theorem laAccel_seq (b : BlockRec) (rate : Nat) (s : State) :
    (laAccel b rate s).seq = s.seq := rfl
@[simp] theorem laAccel_bres (b : BlockRec) (rate : Nat) (s : State) :
    (laAccel b rate s).bres = s.bres := rfl
@[simp] theorem laAccel_bez (b : BlockRec) (rate : Nat) (s : State) :
    (laAccel b rate s).bez = s.bez := rfl
@[simp] theorem laAccel_shaping (b : BlockRec) (rate : Nat) (s : State) :
    (laAccel b rate s).shaping = s.shaping := rfl
@[simp] theorem laAccel_babyPending (b : BlockRec) (rate : Nat) (s : State) :
    (laAccel b rate s).babyPending = s.babyPending := rfl
@[simp] theorem laAccel_pins (b : BlockRec) (rate : Nat) (s : State) :
    (laAccel b rate s).pins = s.pins := rfl
@[simp] theorem laAccel_host (b : BlockRec) (rate : Nat) (s : State) :
    (laAccel b rate s).host = s.host := rfl
@[simp] theorem laAccel_trace (b : BlockRec) (rate : Nat) (s : State) :
    (laAccel b rate s).trace = s.trace := rfl
@[simp] theorem laAccel_pq (b : BlockRec) (rate : Nat) (s : State) :
    (laAccel b rate s).pq = s.pq := rfl
@[simp] theorem laAccel_env (b : BlockRec) (rate : Nat) (s : State) :
    (laAccel b rate s).env = s.env := rfl

@[simp] theorem laCruise_cfg (b : BlockRec) (s : State) :
    (laCruise b s).cfg = s.cfg := rfl
@[simp] theorem laCruise_seq (b : BlockRec) (s : State) :
    (laCruise b s).seq = s.seq := rfl
@[simp] theorem laCruise_bres (b : BlockRec) (s : State) :
    (laCruise b s).bres = s.bres := rfl
@[simp] theorem laCruise_bez (b : BlockRec) (s : State) :
    (laCruise b s).bez = s.bez := rfl
@[simp] theorem laCruise_shaping (b : BlockRec) (s : State) :
    (laCruise b s).shaping = s.shaping := rfl
@[simp] theorem laCruise_babyPending (b : BlockRec) (s : State) :
    (laCruise b s).babyPending = s.babyPending := rfl
@[simp] theorem laCruise_pins (b : BlockRec) (s : State) :
    (laCruise b s).pins = s.pins := rfl
@[simp] theorem laCruise_host (b : BlockRec) (s : State) :
    (laCruise b s).host = s.host := rfl
@[simp] theorem laCruise_trace (b : BlockRec) (s : State) :
    (laCruise b s).trace = s.trace := rfl
@[simp] theorem laCruise_pq (b : BlockRec) (s : State) :
    (laCruise b s).pq = s.pq := rfl
@[simp] theorem laCruise_env (b : BlockRec) (s : State) :
    (laCruise b s).env = s.env := rfl

@[simp] theorem laReverse_cfg (r : Bool) (s : State) :
    (laReverse r s).cfg = s.cfg := rfl
@[simp] theorem laReverse_seq (r : Bool) (s : State) :
    (laReverse r s).seq = s.seq := rfl
@[simp] theorem laReverse_timer (r : Bool) (s : State) :
    (laReverse r s).timer = s.timer := rfl
@[simp] theorem laReverse_bez (r : Bool) (s : State) :
    (laReverse r s).bez = s.bez := rfl
@[simp] theorem laReverse_shaping (r : Bool) (s : State) :
    (laReverse r s).shaping = s.shaping := rfl
@[simp] theorem laReverse_babyPending (r : Bool) (s : State) :
    (laReverse r s).babyPending = s.babyPending := rfl
@[simp] theorem laReverse_pins (r : Bool) (s : State) :
    (laReverse r s).pins = s.pins := rfl
@[simp] theorem laReverse_host (r : Bool) (s : State) :
    (laReverse r s).host = s.host := rfl
@[simp] theorem laReverse_trace (r : Bool) (s : State) :
    (laReverse r s).trace = s.trace := rfl
@[simp] theorem laReverse_pq (r : Bool) (s : State) :
    (laReverse r s).pq = s.pq := rfl
@[simp] theorem laReverse_env (r : Bool) (s : State) :
    (laReverse r s).env = s.env := rfl

@[simp] theorem laDecel_cfg (b : BlockRec) (rate : Nat) (s : State) :
    (laDecel b rate s).cfg = s.cfg := by
  unfold laDecel; simp only []
  generalize (if s.la.advanceSteps.toInt > b.finalAdvSteps then b.laAdvanceRate else 0) = r
  split
  · rfl
  · generalize (if decide (r > rate) = true then r - rate else rate - r) = diff
    split <;> simp
@[simp] theorem laDecel_seq (b : BlockRec) (rate : Nat) (s : State) :
    (laDecel b rate s).seq = s.seq := by
  unfold laDecel; simp only []
  generalize (if s.la.advanceSteps.toInt > b.finalAdvSteps then b.laAdvanceRate else 0) = r
  split
  · rfl
  · generalize (if decide (r > rate) = true then r - rate else rate - r) = diff
    split <;> simp
@[simp] theorem laDecel_bez (b : BlockRec) (rate : Nat) (s : State) :
    (laDecel b rate s).bez = s.bez := by
  unfold laDecel; simp only []
  generalize (if s.la.advanceSteps.toInt > b.finalAdvSteps then b.laAdvanceRate else 0) = r
  split
  · rfl
  · generalize (if decide (r > rate) = true then r - rate else rate - r) = diff
    split <;> simp
@[simp] theorem laDecel_shaping (b : BlockRec) (rate : Nat) (s : State) :
    (laDecel b rate s).shaping = s.shaping := by
  unfold laDecel; simp only []
  generalize (if s.la.advanceSteps.toInt > b.finalAdvSteps then b.laAdvanceRate else 0) = r
  split
  · rfl
  · generalize (if decide (r > rate) = true then r - rate else rate - r) = diff
    split <;> simp
@[simp] theorem laDecel_babyPending (b : BlockRec) (rate : Nat) (s : State) :
    (laDecel b rate s).babyPending = s.babyPending := by
  unfold laDecel; simp only []
  generalize (if s.la.advanceSteps.toInt > b.finalAdvSteps then b.laAdvanceRate else 0) = r
  split
  · rfl
  · generalize (if decide (r > rate) = true then r - rate else rate - r) = diff
    split <;> simp
@[simp] theorem laDecel_pins (b : BlockRec) (rate : Nat) (s : State) :
    (laDecel b rate s).pins = s.pins := by
  unfold laDecel; simp only []
  generalize (if s.la.advanceSteps.toInt > b.finalAdvSteps then b.laAdvanceRate else 0) = r
  split
  · rfl
  · generalize (if decide (r > rate) = true then r - rate else rate - r) = diff
    split <;> simp
@[simp] theorem laDecel_host (b : BlockRec) (rate : Nat) (s : State) :
    (laDecel b rate s).host = s.host := by
  unfold laDecel; simp only []
  generalize (if s.la.advanceSteps.toInt > b.finalAdvSteps then b.laAdvanceRate else 0) = r
  split
  · rfl
  · generalize (if decide (r > rate) = true then r - rate else rate - r) = diff
    split <;> simp
@[simp] theorem laDecel_trace (b : BlockRec) (rate : Nat) (s : State) :
    (laDecel b rate s).trace = s.trace := by
  unfold laDecel; simp only []
  generalize (if s.la.advanceSteps.toInt > b.finalAdvSteps then b.laAdvanceRate else 0) = r
  split
  · rfl
  · generalize (if decide (r > rate) = true then r - rate else rate - r) = diff
    split <;> simp
@[simp] theorem laDecel_pq (b : BlockRec) (rate : Nat) (s : State) :
    (laDecel b rate s).pq = s.pq := by
  unfold laDecel; simp only []
  generalize (if s.la.advanceSteps.toInt > b.finalAdvSteps then b.laAdvanceRate else 0) = r
  split
  · rfl
  · generalize (if decide (r > rate) = true then r - rate else rate - r) = diff
    split <;> simp
@[simp] theorem laDecel_env (b : BlockRec) (rate : Nat) (s : State) :
    (laDecel b rate s).env = s.env := by
  unfold laDecel; simp only []
  generalize (if s.la.advanceSteps.toInt > b.finalAdvSteps then b.laAdvanceRate else 0) = r
  split
  · rfl
  · generalize (if decide (r > rate) = true then r - rate else rate - r) = diff
    split <;> simp

@[simp] theorem laLoad_cfg (b : BlockRec) (s : State) :
    (laLoad b s).cfg = s.cfg := by
  unfold laLoad; split <;> simp
@[simp] theorem laLoad_seq (b : BlockRec) (s : State) :
    (laLoad b s).seq = s.seq := by
  unfold laLoad; split <;> simp
@[simp] theorem laLoad_bres (b : BlockRec) (s : State) :
    (laLoad b s).bres = s.bres := by
  unfold laLoad; split <;> simp
@[simp] theorem laLoad_bez (b : BlockRec) (s : State) :
    (laLoad b s).bez = s.bez := by
  unfold laLoad; split <;> simp
@[simp] theorem laLoad_shaping (b : BlockRec) (s : State) :
    (laLoad b s).shaping = s.shaping := by
  unfold laLoad; split <;> simp
@[simp] theorem laLoad_babyPending (b : BlockRec) (s : State) :
    (laLoad b s).babyPending = s.babyPending := by
  unfold laLoad; split <;> simp
@[simp] theorem laLoad_pins (b : BlockRec) (s : State) :
    (laLoad b s).pins = s.pins := by
  unfold laLoad; split <;> simp
@[simp] theorem laLoad_host (b : BlockRec) (s : State) :
    (laLoad b s).host = s.host := by
  unfold laLoad; split <;> simp
@[simp] theorem laLoad_trace (b : BlockRec) (s : State) :
    (laLoad b s).trace = s.trace := by
  unfold laLoad; split <;> simp
@[simp] theorem laLoad_pq (b : BlockRec) (s : State) :
    (laLoad b s).pq = s.pq := by
  unfold laLoad; split <;> simp
@[simp] theorem laLoad_env (b : BlockRec) (s : State) :
    (laLoad b s).env = s.env := by
  unfold laLoad; split <;> simp

/-! ## Babystepping (45_aux_pulse.md R242) -/

@[simp] theorem babystepIsr_cfg (s : State) :
    (babystepIsr s).cfg = s.cfg := by
  unfold babystepIsr; split <;> simp
@[simp] theorem babystepIsr_seq (s : State) :
    (babystepIsr s).seq = s.seq := by
  unfold babystepIsr; split <;> simp
@[simp] theorem babystepIsr_timer (s : State) :
    (babystepIsr s).timer = s.timer := by
  unfold babystepIsr; split <;> simp
@[simp] theorem babystepIsr_bez (s : State) :
    (babystepIsr s).bez = s.bez := by
  unfold babystepIsr; split <;> simp
@[simp] theorem babystepIsr_la (s : State) :
    (babystepIsr s).la = s.la := by
  unfold babystepIsr; split <;> simp
@[simp] theorem babystepIsr_shaping (s : State) :
    (babystepIsr s).shaping = s.shaping := by
  unfold babystepIsr; split <;> simp
@[simp] theorem babystepIsr_host (s : State) :
    (babystepIsr s).host = s.host := by
  unfold babystepIsr; split <;> simp
@[simp] theorem babystepIsr_pq (s : State) :
    (babystepIsr s).pq = s.pq := by
  unfold babystepIsr; split <;> simp
@[simp] theorem babystepIsr_env (s : State) :
    (babystepIsr s).env = s.env := by
  unfold babystepIsr; split <;> simp

@[simp] theorem tickBabystep_cfg (s : State) :
    (tickBabystep s).cfg = s.cfg := by
  unfold tickBabystep; split <;> simp
@[simp] theorem tickBabystep_seq (s : State) :
    (tickBabystep s).seq = s.seq := by
  unfold tickBabystep; split <;> simp
@[simp] theorem tickBabystep_bez (s : State) :
    (tickBabystep s).bez = s.bez := by
  unfold tickBabystep; split <;> simp
@[simp] theorem tickBabystep_la (s : State) :
    (tickBabystep s).la = s.la := by
  unfold tickBabystep; split <;> simp
@[simp] theorem tickBabystep_shaping (s : State) :
    (tickBabystep s).shaping = s.shaping := by
  unfold tickBabystep; split <;> simp
@[simp] theorem tickBabystep_host (s : State) :
    (tickBabystep s).host = s.host := by
  unfold tickBabystep; split <;> simp
@[simp] theorem tickBabystep_pq (s : State) :
    (tickBabystep s).pq = s.pq := by
  unfold tickBabystep; split <;> simp
@[simp] theorem tickBabystep_env (s : State) :
    (tickBabystep s).env = s.env := by
  unfold tickBabystep; split <;> simp

/-! ## Loading and running a block (44_block_sequencer.md R192 to R199) -/

@[simp] theorem calcTimerInterval_cfg (r : Nat) (s : State) :
    ((calcTimerInterval r s).1).cfg = s.cfg := rfl
@[simp] theorem calcTimerInterval_seq (r : Nat) (s : State) :
    ((calcTimerInterval r s).1).seq = s.seq := rfl
@[simp] theorem calcTimerInterval_bres (r : Nat) (s : State) :
    ((calcTimerInterval r s).1).bres = s.bres := rfl
@[simp] theorem calcTimerInterval_bez (r : Nat) (s : State) :
    ((calcTimerInterval r s).1).bez = s.bez := rfl
@[simp] theorem calcTimerInterval_la (r : Nat) (s : State) :
    ((calcTimerInterval r s).1).la = s.la := rfl
@[simp] theorem calcTimerInterval_shaping (r : Nat) (s : State) :
    ((calcTimerInterval r s).1).shaping = s.shaping := rfl
@[simp] theorem calcTimerInterval_babyPending (r : Nat) (s : State) :
    ((calcTimerInterval r s).1).babyPending = s.babyPending := rfl
@[simp] theorem calcTimerInterval_pins (r : Nat) (s : State) :
    ((calcTimerInterval r s).1).pins = s.pins := rfl
@[simp] theorem calcTimerInterval_host (r : Nat) (s : State) :
    ((calcTimerInterval r s).1).host = s.host := rfl
@[simp] theorem calcTimerInterval_trace (r : Nat) (s : State) :
    ((calcTimerInterval r s).1).trace = s.trace := rfl
@[simp] theorem calcTimerInterval_pq (r : Nat) (s : State) :
    ((calcTimerInterval r s).1).pq = s.pq := rfl
@[simp] theorem calcTimerInterval_env (r : Nat) (s : State) :
    ((calcTimerInterval r s).1).env = s.env := rfl

@[simp] theorem setAxisDir_cfg (bits last : BitVec 8) (s : State) (a : Axis) :
    (setAxisDir bits last s a).cfg = s.cfg := by
  unfold setAxisDir; split
  · rfl
  · split <;> simp
@[simp] theorem setAxisDir_seq (bits last : BitVec 8) (s : State) (a : Axis) :
    (setAxisDir bits last s a).seq = s.seq := by
  unfold setAxisDir; split
  · rfl
  · split <;> simp
@[simp] theorem setAxisDir_bres (bits last : BitVec 8) (s : State) (a : Axis) :
    (setAxisDir bits last s a).bres = s.bres := by
  unfold setAxisDir; split
  · rfl
  · split <;> simp
@[simp] theorem setAxisDir_timer (bits last : BitVec 8) (s : State) (a : Axis) :
    (setAxisDir bits last s a).timer = s.timer := by
  unfold setAxisDir; split
  · rfl
  · split <;> simp
@[simp] theorem setAxisDir_bez (bits last : BitVec 8) (s : State) (a : Axis) :
    (setAxisDir bits last s a).bez = s.bez := by
  unfold setAxisDir; split
  · rfl
  · split <;> simp
@[simp] theorem setAxisDir_la (bits last : BitVec 8) (s : State) (a : Axis) :
    (setAxisDir bits last s a).la = s.la := by
  unfold setAxisDir; split
  · rfl
  · split <;> simp
@[simp] theorem setAxisDir_shaping (bits last : BitVec 8) (s : State) (a : Axis) :
    (setAxisDir bits last s a).shaping = s.shaping := by
  unfold setAxisDir; split
  · rfl
  · split <;> simp
@[simp] theorem setAxisDir_babyPending (bits last : BitVec 8) (s : State) (a : Axis) :
    (setAxisDir bits last s a).babyPending = s.babyPending := by
  unfold setAxisDir; split
  · rfl
  · split <;> simp
@[simp] theorem setAxisDir_host (bits last : BitVec 8) (s : State) (a : Axis) :
    (setAxisDir bits last s a).host = s.host := by
  unfold setAxisDir; split
  · rfl
  · split <;> simp
@[simp] theorem setAxisDir_pq (bits last : BitVec 8) (s : State) (a : Axis) :
    (setAxisDir bits last s a).pq = s.pq := by
  unfold setAxisDir; split
  · rfl
  · split <;> simp
@[simp] theorem setAxisDir_env (bits last : BitVec 8) (s : State) (a : Axis) :
    (setAxisDir bits last s a).env = s.env := by
  unfold setAxisDir; split
  · rfl
  · split <;> simp

@[simp] theorem setDirections_cfg (bits : BitVec 8) (s : State) :
    (setDirections bits s).cfg = s.cfg := by
  unfold setDirections; simp only []; split
  · rfl
  · exact foldl_keeps (setAxisDir bits s.bres.lastDirectionBits) State.cfg (fun t a => by simp) _ _
@[simp] theorem setDirections_seq (bits : BitVec 8) (s : State) :
    (setDirections bits s).seq = s.seq := by
  unfold setDirections; simp only []; split
  · rfl
  · exact foldl_keeps (setAxisDir bits s.bres.lastDirectionBits) State.seq (fun t a => by simp) _ _
@[simp] theorem setDirections_timer (bits : BitVec 8) (s : State) :
    (setDirections bits s).timer = s.timer := by
  unfold setDirections; simp only []; split
  · rfl
  · exact foldl_keeps (setAxisDir bits s.bres.lastDirectionBits) State.timer (fun t a => by simp) _ _
@[simp] theorem setDirections_bez (bits : BitVec 8) (s : State) :
    (setDirections bits s).bez = s.bez := by
  unfold setDirections; simp only []; split
  · rfl
  · exact foldl_keeps (setAxisDir bits s.bres.lastDirectionBits) State.bez (fun t a => by simp) _ _
@[simp] theorem setDirections_la (bits : BitVec 8) (s : State) :
    (setDirections bits s).la = s.la := by
  unfold setDirections; simp only []; split
  · rfl
  · exact foldl_keeps (setAxisDir bits s.bres.lastDirectionBits) State.la (fun t a => by simp) _ _
@[simp] theorem setDirections_shaping (bits : BitVec 8) (s : State) :
    (setDirections bits s).shaping = s.shaping := by
  unfold setDirections; simp only []; split
  · rfl
  · exact foldl_keeps (setAxisDir bits s.bres.lastDirectionBits) State.shaping (fun t a => by simp) _ _
@[simp] theorem setDirections_babyPending (bits : BitVec 8) (s : State) :
    (setDirections bits s).babyPending = s.babyPending := by
  unfold setDirections; simp only []; split
  · rfl
  · exact foldl_keeps (setAxisDir bits s.bres.lastDirectionBits) State.babyPending (fun t a => by simp) _ _
@[simp] theorem setDirections_host (bits : BitVec 8) (s : State) :
    (setDirections bits s).host = s.host := by
  unfold setDirections; simp only []; split
  · rfl
  · exact foldl_keeps (setAxisDir bits s.bres.lastDirectionBits) State.host (fun t a => by simp) _ _
@[simp] theorem setDirections_pq (bits : BitVec 8) (s : State) :
    (setDirections bits s).pq = s.pq := by
  unfold setDirections; simp only []; split
  · rfl
  · exact foldl_keeps (setAxisDir bits s.bres.lastDirectionBits) State.pq (fun t a => by simp) _ _
@[simp] theorem setDirections_env (bits : BitVec 8) (s : State) :
    (setDirections bits s).env = s.env := by
  unfold setDirections; simp only []; split
  · rfl
  · exact foldl_keeps (setAxisDir bits s.bres.lastDirectionBits) State.env (fun t a => by simp) _ _

@[simp] theorem bresenhamInit_cfg (b : BlockRec) (s : State) :
    (bresenhamInit b s).cfg = s.cfg := rfl
@[simp] theorem bresenhamInit_seq (b : BlockRec) (s : State) :
    (bresenhamInit b s).seq = s.seq := rfl
@[simp] theorem bresenhamInit_timer (b : BlockRec) (s : State) :
    (bresenhamInit b s).timer = s.timer := rfl
@[simp] theorem bresenhamInit_bez (b : BlockRec) (s : State) :
    (bresenhamInit b s).bez = s.bez := rfl
@[simp] theorem bresenhamInit_la (b : BlockRec) (s : State) :
    (bresenhamInit b s).la = s.la := rfl
@[simp] theorem bresenhamInit_shaping (b : BlockRec) (s : State) :
    (bresenhamInit b s).shaping = s.shaping := rfl
@[simp] theorem bresenhamInit_babyPending (b : BlockRec) (s : State) :
    (bresenhamInit b s).babyPending = s.babyPending := rfl
@[simp] theorem bresenhamInit_pins (b : BlockRec) (s : State) :
    (bresenhamInit b s).pins = s.pins := rfl
@[simp] theorem bresenhamInit_host (b : BlockRec) (s : State) :
    (bresenhamInit b s).host = s.host := rfl
@[simp] theorem bresenhamInit_trace (b : BlockRec) (s : State) :
    (bresenhamInit b s).trace = s.trace := rfl
@[simp] theorem bresenhamInit_pq (b : BlockRec) (s : State) :
    (bresenhamInit b s).pq = s.pq := rfl
@[simp] theorem bresenhamInit_env (b : BlockRec) (s : State) :
    (bresenhamInit b s).env = s.env := rfl

@[simp] theorem loadTimers_cfg (b : BlockRec) (s : State) :
    (loadTimers b s).cfg = s.cfg := rfl
@[simp] theorem loadTimers_seq (b : BlockRec) (s : State) :
    (loadTimers b s).seq = s.seq := rfl
@[simp] theorem loadTimers_bres (b : BlockRec) (s : State) :
    (loadTimers b s).bres = s.bres := rfl
@[simp] theorem loadTimers_la (b : BlockRec) (s : State) :
    (loadTimers b s).la = s.la := rfl
@[simp] theorem loadTimers_shaping (b : BlockRec) (s : State) :
    (loadTimers b s).shaping = s.shaping := rfl
@[simp] theorem loadTimers_babyPending (b : BlockRec) (s : State) :
    (loadTimers b s).babyPending = s.babyPending := rfl
@[simp] theorem loadTimers_pins (b : BlockRec) (s : State) :
    (loadTimers b s).pins = s.pins := rfl
@[simp] theorem loadTimers_host (b : BlockRec) (s : State) :
    (loadTimers b s).host = s.host := rfl
@[simp] theorem loadTimers_trace (b : BlockRec) (s : State) :
    (loadTimers b s).trace = s.trace := rfl
@[simp] theorem loadTimers_pq (b : BlockRec) (s : State) :
    (loadTimers b s).pq = s.pq := rfl
@[simp] theorem loadTimers_env (b : BlockRec) (s : State) :
    (loadTimers b s).env = s.env := rfl

@[simp] theorem loadBlock_cfg (d : Descriptor) (s : State) :
    ((loadBlock d s).1).cfg = s.cfg := by
  unfold loadBlock; simp only []; split <;> simp
@[simp] theorem loadBlock_shaping (d : Descriptor) (s : State) :
    ((loadBlock d s).1).shaping = s.shaping := by
  unfold loadBlock; simp only []; split <;> simp
@[simp] theorem loadBlock_babyPending (d : Descriptor) (s : State) :
    ((loadBlock d s).1).babyPending = s.babyPending := by
  unfold loadBlock; simp only []; split <;> simp
@[simp] theorem loadBlock_host (d : Descriptor) (s : State) :
    ((loadBlock d s).1).host = s.host := by
  unfold loadBlock; simp only []; split <;> simp
@[simp] theorem loadBlock_pq (d : Descriptor) (s : State) :
    ((loadBlock d s).1).pq = s.pq := by
  unfold loadBlock; simp only []; split <;> simp
@[simp] theorem loadBlock_env (d : Descriptor) (s : State) :
    ((loadBlock d s).1).env = s.env := by
  unfold loadBlock; simp only []; split <;> simp

@[simp] theorem applySync_cfg (d : Descriptor) (s : State) :
    (applySync d s).cfg = s.cfg := by
  unfold applySync; split <;> simp
@[simp] theorem applySync_seq (d : Descriptor) (s : State) :
    (applySync d s).seq = s.seq := by
  unfold applySync; split <;> simp
@[simp] theorem applySync_timer (d : Descriptor) (s : State) :
    (applySync d s).timer = s.timer := by
  unfold applySync; split <;> simp
@[simp] theorem applySync_bez (d : Descriptor) (s : State) :
    (applySync d s).bez = s.bez := by
  unfold applySync; split <;> simp
@[simp] theorem applySync_la (d : Descriptor) (s : State) :
    (applySync d s).la = s.la := by
  unfold applySync; split <;> simp
@[simp] theorem applySync_shaping (d : Descriptor) (s : State) :
    (applySync d s).shaping = s.shaping := by
  unfold applySync; split <;> simp
@[simp] theorem applySync_babyPending (d : Descriptor) (s : State) :
    (applySync d s).babyPending = s.babyPending := by
  unfold applySync; split <;> simp
@[simp] theorem applySync_pins (d : Descriptor) (s : State) :
    (applySync d s).pins = s.pins := by
  unfold applySync; split <;> simp
@[simp] theorem applySync_host (d : Descriptor) (s : State) :
    (applySync d s).host = s.host := by
  unfold applySync; split <;> simp
@[simp] theorem applySync_pq (d : Descriptor) (s : State) :
    (applySync d s).pq = s.pq := by
  unfold applySync; split <;> simp
@[simp] theorem applySync_env (d : Descriptor) (s : State) :
    (applySync d s).env = s.env := by
  unfold applySync; split <;> simp

@[simp] theorem loadFrom_cfg (q : List Descriptor) (s : State) :
    ((loadFrom q s).1).cfg = s.cfg := by
  induction q generalizing s with
  | nil => rfl
  | cons d rest ih =>
    unfold loadFrom; split
    · simp
    · split
      · simp
      · split
        · rw [ih]; simp
        · simp
@[simp] theorem loadFrom_shaping (q : List Descriptor) (s : State) :
    ((loadFrom q s).1).shaping = s.shaping := by
  induction q generalizing s with
  | nil => rfl
  | cons d rest ih =>
    unfold loadFrom; split
    · simp
    · split
      · simp
      · split
        · rw [ih]; simp
        · simp
@[simp] theorem loadFrom_babyPending (q : List Descriptor) (s : State) :
    ((loadFrom q s).1).babyPending = s.babyPending := by
  induction q generalizing s with
  | nil => rfl
  | cons d rest ih =>
    unfold loadFrom; split
    · simp
    · split
      · simp
      · split
        · rw [ih]; simp
        · simp
@[simp] theorem loadFrom_env (q : List Descriptor) (s : State) :
    ((loadFrom q s).1).env = s.env := by
  induction q generalizing s with
  | nil => rfl
  | cons d rest ih =>
    unfold loadFrom; split
    · simp
    · split
      · simp
      · split
        · rw [ih]; simp
        · simp

@[simp] theorem loadNext_cfg (s : State) :
    ((loadNext s).1).cfg = s.cfg := loadFrom_cfg _ s
@[simp] theorem loadNext_shaping (s : State) :
    ((loadNext s).1).shaping = s.shaping := loadFrom_shaping _ s
@[simp] theorem loadNext_babyPending (s : State) :
    ((loadNext s).1).babyPending = s.babyPending := loadFrom_babyPending _ s
@[simp] theorem loadNext_env (s : State) :
    ((loadNext s).1).env = s.env := loadFrom_env _ s

@[simp] theorem scurveDecelRate_cfg (b : BlockRec) (s : State) :
    ((scurveDecelRate b s).1).cfg = s.cfg := by
  unfold scurveDecelRate; split <;> rfl
@[simp] theorem scurveDecelRate_seq (b : BlockRec) (s : State) :
    ((scurveDecelRate b s).1).seq = s.seq := by
  unfold scurveDecelRate; split <;> rfl
@[simp] theorem scurveDecelRate_bres (b : BlockRec) (s : State) :
    ((scurveDecelRate b s).1).bres = s.bres := by
  unfold scurveDecelRate; split <;> rfl
@[simp] theorem scurveDecelRate_timer (b : BlockRec) (s : State) :
    ((scurveDecelRate b s).1).timer = s.timer := by
  unfold scurveDecelRate; split <;> rfl
@[simp] theorem scurveDecelRate_la (b : BlockRec) (s : State) :
    ((scurveDecelRate b s).1).la = s.la := by
  unfold scurveDecelRate; split <;> rfl
@[simp] theorem scurveDecelRate_shaping (b : BlockRec) (s : State) :
    ((scurveDecelRate b s).1).shaping = s.shaping := by
  unfold scurveDecelRate; split <;> rfl
@[simp] theorem scurveDecelRate_babyPending (b : BlockRec) (s : State) :
    ((scurveDecelRate b s).1).babyPending = s.babyPending := by
  unfold scurveDecelRate; split <;> rfl
@[simp] theorem scurveDecelRate_pins (b : BlockRec) (s : State) :
    ((scurveDecelRate b s).1).pins = s.pins := by
  unfold scurveDecelRate; split <;> rfl
@[simp] theorem scurveDecelRate_host (b : BlockRec) (s : State) :
    ((scurveDecelRate b s).1).host = s.host := by
  unfold scurveDecelRate; split <;> rfl
@[simp] theorem scurveDecelRate_trace (b : BlockRec) (s : State) :
    ((scurveDecelRate b s).1).trace = s.trace := by
  unfold scurveDecelRate; split <;> rfl
@[simp] theorem scurveDecelRate_pq (b : BlockRec) (s : State) :
    ((scurveDecelRate b s).1).pq = s.pq := by
  unfold scurveDecelRate; split <;> rfl
@[simp] theorem scurveDecelRate_env (b : BlockRec) (s : State) :
    ((scurveDecelRate b s).1).env = s.env := by
  unfold scurveDecelRate; split <;> rfl

@[simp] theorem decelRate_cfg (b : BlockRec) (s : State) :
    ((decelRate b s).1).cfg = s.cfg := by
  unfold decelRate; split <;> simp
@[simp] theorem decelRate_seq (b : BlockRec) (s : State) :
    ((decelRate b s).1).seq = s.seq := by
  unfold decelRate; split <;> simp
@[simp] theorem decelRate_bres (b : BlockRec) (s : State) :
    ((decelRate b s).1).bres = s.bres := by
  unfold decelRate; split <;> simp
@[simp] theorem decelRate_timer (b : BlockRec) (s : State) :
    ((decelRate b s).1).timer = s.timer := by
  unfold decelRate; split <;> simp
@[simp] theorem decelRate_la (b : BlockRec) (s : State) :
    ((decelRate b s).1).la = s.la := by
  unfold decelRate; split <;> simp
@[simp] theorem decelRate_shaping (b : BlockRec) (s : State) :
    ((decelRate b s).1).shaping = s.shaping := by
  unfold decelRate; split <;> simp
@[simp] theorem decelRate_babyPending (b : BlockRec) (s : State) :
    ((decelRate b s).1).babyPending = s.babyPending := by
  unfold decelRate; split <;> simp
@[simp] theorem decelRate_pins (b : BlockRec) (s : State) :
    ((decelRate b s).1).pins = s.pins := by
  unfold decelRate; split <;> simp
@[simp] theorem decelRate_host (b : BlockRec) (s : State) :
    ((decelRate b s).1).host = s.host := by
  unfold decelRate; split <;> simp
@[simp] theorem decelRate_trace (b : BlockRec) (s : State) :
    ((decelRate b s).1).trace = s.trace := by
  unfold decelRate; split <;> simp
@[simp] theorem decelRate_pq (b : BlockRec) (s : State) :
    ((decelRate b s).1).pq = s.pq := by
  unfold decelRate; split <;> simp
@[simp] theorem decelRate_env (b : BlockRec) (s : State) :
    ((decelRate b s).1).env = s.env := by
  unfold decelRate; split <;> simp

@[simp] theorem accelInterval_cfg (b : BlockRec) (s : State) :
    ((accelInterval b s).1).cfg = s.cfg := by
  unfold accelInterval; simp only []; split <;> simp
@[simp] theorem accelInterval_seq (b : BlockRec) (s : State) :
    ((accelInterval b s).1).seq = s.seq := by
  unfold accelInterval; simp only []; split <;> simp
@[simp] theorem accelInterval_bres (b : BlockRec) (s : State) :
    ((accelInterval b s).1).bres = s.bres := by
  unfold accelInterval; simp only []; split <;> simp
@[simp] theorem accelInterval_bez (b : BlockRec) (s : State) :
    ((accelInterval b s).1).bez = s.bez := by
  unfold accelInterval; simp only []; split <;> simp
@[simp] theorem accelInterval_shaping (b : BlockRec) (s : State) :
    ((accelInterval b s).1).shaping = s.shaping := by
  unfold accelInterval; simp only []; split <;> simp
@[simp] theorem accelInterval_babyPending (b : BlockRec) (s : State) :
    ((accelInterval b s).1).babyPending = s.babyPending := by
  unfold accelInterval; simp only []; split <;> simp
@[simp] theorem accelInterval_pins (b : BlockRec) (s : State) :
    ((accelInterval b s).1).pins = s.pins := by
  unfold accelInterval; simp only []; split <;> simp
@[simp] theorem accelInterval_host (b : BlockRec) (s : State) :
    ((accelInterval b s).1).host = s.host := by
  unfold accelInterval; simp only []; split <;> simp
@[simp] theorem accelInterval_trace (b : BlockRec) (s : State) :
    ((accelInterval b s).1).trace = s.trace := by
  unfold accelInterval; simp only []; split <;> simp
@[simp] theorem accelInterval_pq (b : BlockRec) (s : State) :
    ((accelInterval b s).1).pq = s.pq := by
  unfold accelInterval; simp only []; split <;> simp
@[simp] theorem accelInterval_env (b : BlockRec) (s : State) :
    ((accelInterval b s).1).env = s.env := by
  unfold accelInterval; simp only []; split <;> simp

@[simp] theorem fillCruise_cfg (b : BlockRec) (s : State) :
    (fillCruise b s).cfg = s.cfg := by
  unfold fillCruise; simp only []; split <;> simp
@[simp] theorem fillCruise_seq (b : BlockRec) (s : State) :
    (fillCruise b s).seq = s.seq := by
  unfold fillCruise; simp only []; split <;> simp
@[simp] theorem fillCruise_bres (b : BlockRec) (s : State) :
    (fillCruise b s).bres = s.bres := by
  unfold fillCruise; simp only []; split <;> simp
@[simp] theorem fillCruise_bez (b : BlockRec) (s : State) :
    (fillCruise b s).bez = s.bez := by
  unfold fillCruise; simp only []; split <;> simp
@[simp] theorem fillCruise_shaping (b : BlockRec) (s : State) :
    (fillCruise b s).shaping = s.shaping := by
  unfold fillCruise; simp only []; split <;> simp
@[simp] theorem fillCruise_babyPending (b : BlockRec) (s : State) :
    (fillCruise b s).babyPending = s.babyPending := by
  unfold fillCruise; simp only []; split <;> simp
@[simp] theorem fillCruise_pins (b : BlockRec) (s : State) :
    (fillCruise b s).pins = s.pins := by
  unfold fillCruise; simp only []; split <;> simp
@[simp] theorem fillCruise_host (b : BlockRec) (s : State) :
    (fillCruise b s).host = s.host := by
  unfold fillCruise; simp only []; split <;> simp
@[simp] theorem fillCruise_trace (b : BlockRec) (s : State) :
    (fillCruise b s).trace = s.trace := by
  unfold fillCruise; simp only []; split <;> simp
@[simp] theorem fillCruise_pq (b : BlockRec) (s : State) :
    (fillCruise b s).pq = s.pq := by
  unfold fillCruise; simp only []; split <;> simp
@[simp] theorem fillCruise_env (b : BlockRec) (s : State) :
    (fillCruise b s).env = s.env := by
  unfold fillCruise; simp only []; split <;> simp

@[simp] theorem cruiseInterval_cfg (b : BlockRec) (s : State) :
    ((cruiseInterval b s).1).cfg = s.cfg := by
  unfold cruiseInterval; simp only []; split <;> simp
@[simp] theorem cruiseInterval_seq (b : BlockRec) (s : State) :
    ((cruiseInterval b s).1).seq = s.seq := by
  unfold cruiseInterval; simp only []; split <;> simp
@[simp] theorem cruiseInterval_bres (b : BlockRec) (s : State) :
    ((cruiseInterval b s).1).bres = s.bres := by
  unfold cruiseInterval; simp only []; split <;> simp
@[simp] theorem cruiseInterval_bez (b : BlockRec) (s : State) :
    ((cruiseInterval b s).1).bez = s.bez := by
  unfold cruiseInterval; simp only []; split <;> simp
@[simp] theorem cruiseInterval_shaping (b : BlockRec) (s : State) :
    ((cruiseInterval b s).1).shaping = s.shaping := by
  unfold cruiseInterval; simp only []; split <;> simp
@[simp] theorem cruiseInterval_babyPending (b : BlockRec) (s : State) :
    ((cruiseInterval b s).1).babyPending = s.babyPending := by
  unfold cruiseInterval; simp only []; split <;> simp
@[simp] theorem cruiseInterval_pins (b : BlockRec) (s : State) :
    ((cruiseInterval b s).1).pins = s.pins := by
  unfold cruiseInterval; simp only []; split <;> simp
@[simp] theorem cruiseInterval_host (b : BlockRec) (s : State) :
    ((cruiseInterval b s).1).host = s.host := by
  unfold cruiseInterval; simp only []; split <;> simp
@[simp] theorem cruiseInterval_trace (b : BlockRec) (s : State) :
    ((cruiseInterval b s).1).trace = s.trace := by
  unfold cruiseInterval; simp only []; split <;> simp
@[simp] theorem cruiseInterval_pq (b : BlockRec) (s : State) :
    ((cruiseInterval b s).1).pq = s.pq := by
  unfold cruiseInterval; simp only []; split <;> simp
@[simp] theorem cruiseInterval_env (b : BlockRec) (s : State) :
    ((cruiseInterval b s).1).env = s.env := by
  unfold cruiseInterval; simp only []; split <;> simp

@[simp] theorem decelInterval_cfg (b : BlockRec) (s : State) :
    ((decelInterval b s).1).cfg = s.cfg := by
  unfold decelInterval; simp only []; split <;> simp
@[simp] theorem decelInterval_seq (b : BlockRec) (s : State) :
    ((decelInterval b s).1).seq = s.seq := by
  unfold decelInterval; simp only []; split <;> simp
@[simp] theorem decelInterval_shaping (b : BlockRec) (s : State) :
    ((decelInterval b s).1).shaping = s.shaping := by
  unfold decelInterval; simp only []; split <;> simp
@[simp] theorem decelInterval_babyPending (b : BlockRec) (s : State) :
    ((decelInterval b s).1).babyPending = s.babyPending := by
  unfold decelInterval; simp only []; split <;> simp
@[simp] theorem decelInterval_pins (b : BlockRec) (s : State) :
    ((decelInterval b s).1).pins = s.pins := by
  unfold decelInterval; simp only []; split <;> simp
@[simp] theorem decelInterval_host (b : BlockRec) (s : State) :
    ((decelInterval b s).1).host = s.host := by
  unfold decelInterval; simp only []; split <;> simp
@[simp] theorem decelInterval_trace (b : BlockRec) (s : State) :
    ((decelInterval b s).1).trace = s.trace := by
  unfold decelInterval; simp only []; split <;> simp
@[simp] theorem decelInterval_pq (b : BlockRec) (s : State) :
    ((decelInterval b s).1).pq = s.pq := by
  unfold decelInterval; simp only []; split <;> simp
@[simp] theorem decelInterval_env (b : BlockRec) (s : State) :
    ((decelInterval b s).1).env = s.env := by
  unfold decelInterval; simp only []; split <;> simp

@[simp] theorem phaseInterval_cfg (b : BlockRec) (s : State) :
    ((phaseInterval b s).1).cfg = s.cfg := by
  unfold phaseInterval; split
  · simp
  · split <;> simp
@[simp] theorem phaseInterval_seq (b : BlockRec) (s : State) :
    ((phaseInterval b s).1).seq = s.seq := by
  unfold phaseInterval; split
  · simp
  · split <;> simp
@[simp] theorem phaseInterval_shaping (b : BlockRec) (s : State) :
    ((phaseInterval b s).1).shaping = s.shaping := by
  unfold phaseInterval; split
  · simp
  · split <;> simp
@[simp] theorem phaseInterval_babyPending (b : BlockRec) (s : State) :
    ((phaseInterval b s).1).babyPending = s.babyPending := by
  unfold phaseInterval; split
  · simp
  · split <;> simp
@[simp] theorem phaseInterval_pins (b : BlockRec) (s : State) :
    ((phaseInterval b s).1).pins = s.pins := by
  unfold phaseInterval; split
  · simp
  · split <;> simp
@[simp] theorem phaseInterval_host (b : BlockRec) (s : State) :
    ((phaseInterval b s).1).host = s.host := by
  unfold phaseInterval; split
  · simp
  · split <;> simp
@[simp] theorem phaseInterval_trace (b : BlockRec) (s : State) :
    ((phaseInterval b s).1).trace = s.trace := by
  unfold phaseInterval; split
  · simp
  · split <;> simp
@[simp] theorem phaseInterval_pq (b : BlockRec) (s : State) :
    ((phaseInterval b s).1).pq = s.pq := by
  unfold phaseInterval; split
  · simp
  · split <;> simp
@[simp] theorem phaseInterval_env (b : BlockRec) (s : State) :
    ((phaseInterval b s).1).env = s.env := by
  unfold phaseInterval; split
  · simp
  · split <;> simp

@[simp] theorem blockPhase_cfg (s : State) :
    ((blockPhase s).1).cfg = s.cfg := by
  unfold blockPhase; split
  · simp
  · split <;> simp
@[simp] theorem blockPhase_shaping (s : State) :
    ((blockPhase s).1).shaping = s.shaping := by
  unfold blockPhase; split
  · simp
  · split <;> simp
@[simp] theorem blockPhase_babyPending (s : State) :
    ((blockPhase s).1).babyPending = s.babyPending := by
  unfold blockPhase; split
  · simp
  · split <;> simp
@[simp] theorem blockPhase_env (s : State) :
    ((blockPhase s).1).env = s.env := by
  unfold blockPhase; split
  · simp
  · split <;> simp

@[simp] theorem tickBlock_cfg (s : State) :
    (tickBlock s).cfg = s.cfg := by
  simp [tickBlock]
@[simp] theorem tickBlock_shaping (s : State) :
    (tickBlock s).shaping = s.shaping := by
  simp [tickBlock]
@[simp] theorem tickBlock_babyPending (s : State) :
    (tickBlock s).babyPending = s.babyPending := by
  simp [tickBlock]
@[simp] theorem tickBlock_env (s : State) :
    (tickBlock s).env = s.env := by
  simp [tickBlock]

/-! ## The timer (40_isr_scheduler.md R112 to R115) -/

@[simp] theorem overrunCheck_cfg (interval e : Nat) (s : State) :
    (overrunCheck interval e s).cfg = s.cfg := by
  unfold overrunCheck; split
  · simp only []; split <;> simp
  · rfl
@[simp] theorem overrunCheck_seq (interval e : Nat) (s : State) :
    (overrunCheck interval e s).seq = s.seq := by
  unfold overrunCheck; split
  · simp only []; split <;> simp
  · rfl
@[simp] theorem overrunCheck_bres (interval e : Nat) (s : State) :
    (overrunCheck interval e s).bres = s.bres := by
  unfold overrunCheck; split
  · simp only []; split <;> simp
  · rfl
@[simp] theorem overrunCheck_bez (interval e : Nat) (s : State) :
    (overrunCheck interval e s).bez = s.bez := by
  unfold overrunCheck; split
  · simp only []; split <;> simp
  · rfl
@[simp] theorem overrunCheck_la (interval e : Nat) (s : State) :
    (overrunCheck interval e s).la = s.la := by
  unfold overrunCheck; split
  · simp only []; split <;> simp
  · rfl
@[simp] theorem overrunCheck_shaping (interval e : Nat) (s : State) :
    (overrunCheck interval e s).shaping = s.shaping := by
  unfold overrunCheck; split
  · simp only []; split <;> simp
  · rfl
@[simp] theorem overrunCheck_babyPending (interval e : Nat) (s : State) :
    (overrunCheck interval e s).babyPending = s.babyPending := by
  unfold overrunCheck; split
  · simp only []; split <;> simp
  · rfl
@[simp] theorem overrunCheck_pins (interval e : Nat) (s : State) :
    (overrunCheck interval e s).pins = s.pins := by
  unfold overrunCheck; split
  · simp only []; split <;> simp
  · rfl
@[simp] theorem overrunCheck_pq (interval e : Nat) (s : State) :
    (overrunCheck interval e s).pq = s.pq := by
  unfold overrunCheck; split
  · simp only []; split <;> simp
  · rfl
@[simp] theorem overrunCheck_env (interval e : Nat) (s : State) :
    (overrunCheck interval e s).env = s.env := by
  unfold overrunCheck; split
  · simp only []; split <;> simp
  · rfl

@[simp] theorem advanceCountdowns_cfg (interval : Nat) (s : State) :
    (advanceCountdowns interval s).cfg = s.cfg := rfl
@[simp] theorem advanceCountdowns_seq (interval : Nat) (s : State) :
    (advanceCountdowns interval s).seq = s.seq := rfl
@[simp] theorem advanceCountdowns_bres (interval : Nat) (s : State) :
    (advanceCountdowns interval s).bres = s.bres := rfl
@[simp] theorem advanceCountdowns_bez (interval : Nat) (s : State) :
    (advanceCountdowns interval s).bez = s.bez := rfl
@[simp] theorem advanceCountdowns_la (interval : Nat) (s : State) :
    (advanceCountdowns interval s).la = s.la := rfl
@[simp] theorem advanceCountdowns_babyPending (interval : Nat) (s : State) :
    (advanceCountdowns interval s).babyPending = s.babyPending := rfl
@[simp] theorem advanceCountdowns_pins (interval : Nat) (s : State) :
    (advanceCountdowns interval s).pins = s.pins := rfl
@[simp] theorem advanceCountdowns_host (interval : Nat) (s : State) :
    (advanceCountdowns interval s).host = s.host := rfl
@[simp] theorem advanceCountdowns_trace (interval : Nat) (s : State) :
    (advanceCountdowns interval s).trace = s.trace := rfl
@[simp] theorem advanceCountdowns_pq (interval : Nat) (s : State) :
    (advanceCountdowns interval s).pq = s.pq := rfl
@[simp] theorem advanceCountdowns_env (interval : Nat) (s : State) :
    (advanceCountdowns interval s).env = s.env := rfl

@[simp] theorem programTimer_cfg (e : Nat) (s : State) :
    (programTimer e s).cfg = s.cfg := by
  simp [programTimer]
@[simp] theorem programTimer_seq (e : Nat) (s : State) :
    (programTimer e s).seq = s.seq := by
  simp [programTimer]
@[simp] theorem programTimer_bres (e : Nat) (s : State) :
    (programTimer e s).bres = s.bres := by
  simp [programTimer]
@[simp] theorem programTimer_bez (e : Nat) (s : State) :
    (programTimer e s).bez = s.bez := by
  simp [programTimer]
@[simp] theorem programTimer_la (e : Nat) (s : State) :
    (programTimer e s).la = s.la := by
  simp [programTimer]
@[simp] theorem programTimer_babyPending (e : Nat) (s : State) :
    (programTimer e s).babyPending = s.babyPending := by
  simp [programTimer]
@[simp] theorem programTimer_pins (e : Nat) (s : State) :
    (programTimer e s).pins = s.pins := by
  simp [programTimer]
@[simp] theorem programTimer_pq (e : Nat) (s : State) :
    (programTimer e s).pq = s.pq := by
  simp [programTimer]

@[simp] theorem tickTasks_cfg (s : State) :
    (tickTasks s).cfg = s.cfg := by
  unfold tickTasks; simp only []; repeat' split
  all_goals simp
@[simp] theorem tickTasks_env (s : State) :
    (tickTasks s).env = s.env := by
  unfold tickTasks; simp only []; repeat' split
  all_goals simp

@[simp] theorem tick_cfg (s : State) :
    (tick s).cfg = s.cfg := by
  unfold tick; split
  · rfl
  · simp only []; split <;> simp

/-! ## The virtual time and the compare register: only the end of a TICK writes them (60_exceptions.md R326) -/

@[simp] theorem discardBlock_now (b : BlockRec) (s : State) :
    (discardBlock b s).timer.now = s.timer.now := by
  unfold discardBlock; simp only []; split <;> simp
@[simp] theorem completeBlock_now (b : BlockRec) (s : State) :
    (completeBlock b s).timer.now = s.timer.now := by
  simp [completeBlock]
@[simp] theorem consumeAbort_now (s : State) :
    (consumeAbort s).timer.now = s.timer.now := by
  unfold consumeAbort; simp only []; split <;> simp
@[simp] theorem pulsePhase_now (s : State) :
    (pulsePhase s).timer.now = s.timer.now := by
  unfold pulsePhase; split
  · simp
  · split <;> simp
@[simp] theorem tickAdvance_now (s : State) :
    (tickAdvance s).timer.now = s.timer.now := by
  unfold tickAdvance; split <;> simp
@[simp] theorem laSet_now (iv : Nat) (s : State) :
    (laSet iv s).timer.now = s.timer.now := rfl
@[simp] theorem laAccel_now (b : BlockRec) (rate : Nat) (s : State) :
    (laAccel b rate s).timer.now = s.timer.now := rfl
@[simp] theorem laCruise_now (b : BlockRec) (s : State) :
    (laCruise b s).timer.now = s.timer.now := rfl
@[simp] theorem laDecel_now (b : BlockRec) (rate : Nat) (s : State) :
    (laDecel b rate s).timer.now = s.timer.now := by
  unfold laDecel; simp only []
  generalize (if s.la.advanceSteps.toInt > b.finalAdvSteps then b.laAdvanceRate else 0) = r
  split
  · rfl
  · generalize (if decide (r > rate) = true then r - rate else rate - r) = diff
    split <;> simp
@[simp] theorem laLoad_now (b : BlockRec) (s : State) :
    (laLoad b s).timer.now = s.timer.now := by
  unfold laLoad; split <;> simp
@[simp] theorem tickBabystep_now (s : State) :
    (tickBabystep s).timer.now = s.timer.now := by
  unfold tickBabystep; split <;> simp
@[simp] theorem calcTimerInterval_now (r : Nat) (s : State) :
    ((calcTimerInterval r s).1).timer.now = s.timer.now := rfl
@[simp] theorem loadTimers_now (b : BlockRec) (s : State) :
    (loadTimers b s).timer.now = s.timer.now := rfl
@[simp] theorem loadBlock_now (d : Descriptor) (s : State) :
    ((loadBlock d s).1).timer.now = s.timer.now := by
  unfold loadBlock; simp only []; split <;> simp
@[simp] theorem loadFrom_now (q : List Descriptor) (s : State) :
    ((loadFrom q s).1).timer.now = s.timer.now := by
  induction q generalizing s with
  | nil => rfl
  | cons d rest ih =>
    unfold loadFrom; split
    · simp
    · split
      · simp
      · split
        · rw [ih]; simp
        · simp
@[simp] theorem loadNext_now (s : State) :
    ((loadNext s).1).timer.now = s.timer.now := loadFrom_now _ s
@[simp] theorem accelInterval_now (b : BlockRec) (s : State) :
    ((accelInterval b s).1).timer.now = s.timer.now := by
  unfold accelInterval; simp only []; split <;> simp
@[simp] theorem fillCruise_now (b : BlockRec) (s : State) :
    (fillCruise b s).timer.now = s.timer.now := by
  unfold fillCruise; simp only []; split <;> simp
@[simp] theorem cruiseInterval_now (b : BlockRec) (s : State) :
    ((cruiseInterval b s).1).timer.now = s.timer.now := by
  unfold cruiseInterval; simp only []; split <;> simp
@[simp] theorem decelInterval_now (b : BlockRec) (s : State) :
    ((decelInterval b s).1).timer.now = s.timer.now := by
  unfold decelInterval; simp only []; split <;> simp
@[simp] theorem phaseInterval_now (b : BlockRec) (s : State) :
    ((phaseInterval b s).1).timer.now = s.timer.now := by
  unfold phaseInterval; split
  · simp
  · split <;> simp
@[simp] theorem blockPhase_now (s : State) :
    ((blockPhase s).1).timer.now = s.timer.now := by
  unfold blockPhase; split
  · simp
  · split <;> simp
@[simp] theorem tickBlock_now (s : State) :
    (tickBlock s).timer.now = s.timer.now := by
  simp [tickBlock]
@[simp] theorem overrunCheck_now (interval e : Nat) (s : State) :
    (overrunCheck interval e s).timer.now = s.timer.now := by
  unfold overrunCheck; split
  · simp only []; split <;> simp
  · rfl
@[simp] theorem advanceCountdowns_now (interval : Nat) (s : State) :
    (advanceCountdowns interval s).timer.now = s.timer.now := rfl
@[simp] theorem tickTasks_now (s : State) :
    (tickTasks s).timer.now = s.timer.now := by
  unfold tickTasks; simp only []; repeat' split
  all_goals simp

@[simp] theorem discardBlock_nextIsrTicks (b : BlockRec) (s : State) :
    (discardBlock b s).timer.nextIsrTicks = s.timer.nextIsrTicks := by
  unfold discardBlock; simp only []; split <;> simp
@[simp] theorem completeBlock_nextIsrTicks (b : BlockRec) (s : State) :
    (completeBlock b s).timer.nextIsrTicks = s.timer.nextIsrTicks := by
  simp [completeBlock]
@[simp] theorem consumeAbort_nextIsrTicks (s : State) :
    (consumeAbort s).timer.nextIsrTicks = s.timer.nextIsrTicks := by
  unfold consumeAbort; simp only []; split <;> simp
@[simp] theorem pulsePhase_nextIsrTicks (s : State) :
    (pulsePhase s).timer.nextIsrTicks = s.timer.nextIsrTicks := by
  unfold pulsePhase; split
  · simp
  · split <;> simp
@[simp] theorem tickAdvance_nextIsrTicks (s : State) :
    (tickAdvance s).timer.nextIsrTicks = s.timer.nextIsrTicks := by
  unfold tickAdvance; split <;> simp
@[simp] theorem laSet_nextIsrTicks (iv : Nat) (s : State) :
    (laSet iv s).timer.nextIsrTicks = s.timer.nextIsrTicks := rfl
@[simp] theorem laAccel_nextIsrTicks (b : BlockRec) (rate : Nat) (s : State) :
    (laAccel b rate s).timer.nextIsrTicks = s.timer.nextIsrTicks := rfl
@[simp] theorem laCruise_nextIsrTicks (b : BlockRec) (s : State) :
    (laCruise b s).timer.nextIsrTicks = s.timer.nextIsrTicks := rfl
@[simp] theorem laDecel_nextIsrTicks (b : BlockRec) (rate : Nat) (s : State) :
    (laDecel b rate s).timer.nextIsrTicks = s.timer.nextIsrTicks := by
  unfold laDecel; simp only []
  generalize (if s.la.advanceSteps.toInt > b.finalAdvSteps then b.laAdvanceRate else 0) = r
  split
  · rfl
  · generalize (if decide (r > rate) = true then r - rate else rate - r) = diff
    split <;> simp
@[simp] theorem laLoad_nextIsrTicks (b : BlockRec) (s : State) :
    (laLoad b s).timer.nextIsrTicks = s.timer.nextIsrTicks := by
  unfold laLoad; split <;> simp
@[simp] theorem tickBabystep_nextIsrTicks (s : State) :
    (tickBabystep s).timer.nextIsrTicks = s.timer.nextIsrTicks := by
  unfold tickBabystep; split <;> simp
@[simp] theorem calcTimerInterval_nextIsrTicks (r : Nat) (s : State) :
    ((calcTimerInterval r s).1).timer.nextIsrTicks = s.timer.nextIsrTicks := rfl
@[simp] theorem loadTimers_nextIsrTicks (b : BlockRec) (s : State) :
    (loadTimers b s).timer.nextIsrTicks = s.timer.nextIsrTicks := rfl
@[simp] theorem loadBlock_nextIsrTicks (d : Descriptor) (s : State) :
    ((loadBlock d s).1).timer.nextIsrTicks = s.timer.nextIsrTicks := by
  unfold loadBlock; simp only []; split <;> simp
@[simp] theorem loadFrom_nextIsrTicks (q : List Descriptor) (s : State) :
    ((loadFrom q s).1).timer.nextIsrTicks = s.timer.nextIsrTicks := by
  induction q generalizing s with
  | nil => rfl
  | cons d rest ih =>
    unfold loadFrom; split
    · simp
    · split
      · simp
      · split
        · rw [ih]; simp
        · simp
@[simp] theorem loadNext_nextIsrTicks (s : State) :
    ((loadNext s).1).timer.nextIsrTicks = s.timer.nextIsrTicks := loadFrom_nextIsrTicks _ s
@[simp] theorem accelInterval_nextIsrTicks (b : BlockRec) (s : State) :
    ((accelInterval b s).1).timer.nextIsrTicks = s.timer.nextIsrTicks := by
  unfold accelInterval; simp only []; split <;> simp
@[simp] theorem fillCruise_nextIsrTicks (b : BlockRec) (s : State) :
    (fillCruise b s).timer.nextIsrTicks = s.timer.nextIsrTicks := by
  unfold fillCruise; simp only []; split <;> simp
@[simp] theorem cruiseInterval_nextIsrTicks (b : BlockRec) (s : State) :
    ((cruiseInterval b s).1).timer.nextIsrTicks = s.timer.nextIsrTicks := by
  unfold cruiseInterval; simp only []; split <;> simp
@[simp] theorem decelInterval_nextIsrTicks (b : BlockRec) (s : State) :
    ((decelInterval b s).1).timer.nextIsrTicks = s.timer.nextIsrTicks := by
  unfold decelInterval; simp only []; split <;> simp
@[simp] theorem phaseInterval_nextIsrTicks (b : BlockRec) (s : State) :
    ((phaseInterval b s).1).timer.nextIsrTicks = s.timer.nextIsrTicks := by
  unfold phaseInterval; split
  · simp
  · split <;> simp
@[simp] theorem blockPhase_nextIsrTicks (s : State) :
    ((blockPhase s).1).timer.nextIsrTicks = s.timer.nextIsrTicks := by
  unfold blockPhase; split
  · simp
  · split <;> simp
@[simp] theorem tickBlock_nextIsrTicks (s : State) :
    (tickBlock s).timer.nextIsrTicks = s.timer.nextIsrTicks := by
  simp [tickBlock]
@[simp] theorem overrunCheck_nextIsrTicks (interval e : Nat) (s : State) :
    (overrunCheck interval e s).timer.nextIsrTicks = s.timer.nextIsrTicks := by
  unfold overrunCheck; split
  · simp only []; split <;> simp
  · rfl
@[simp] theorem advanceCountdowns_nextIsrTicks (interval : Nat) (s : State) :
    (advanceCountdowns interval s).timer.nextIsrTicks = s.timer.nextIsrTicks := rfl
@[simp] theorem tickTasks_nextIsrTicks (s : State) :
    (tickTasks s).timer.nextIsrTicks = s.timer.nextIsrTicks := by
  unfold tickTasks; simp only []; repeat' split
  all_goals simp

/-! ## Positions: what changes the rest of the Bresenham state without a pulse (10_state.md R26) -/

@[simp] theorem laReverse_countPosition (r : Bool) (s : State) :
    (laReverse r s).bres.countPosition = s.bres.countPosition := rfl
@[simp] theorem laDecel_countPosition (b : BlockRec) (rate : Nat) (s : State) :
    (laDecel b rate s).bres.countPosition = s.bres.countPosition := by
  unfold laDecel; simp only []
  generalize (if s.la.advanceSteps.toInt > b.finalAdvSteps then b.laAdvanceRate else 0) = r
  split
  · rfl
  · generalize (if decide (r > rate) = true then r - rate else rate - r) = diff
    split <;> simp
@[simp] theorem bresenhamInit_countPosition (b : BlockRec) (s : State) :
    (bresenhamInit b s).bres.countPosition = s.bres.countPosition := rfl
@[simp] theorem setDirections_countPosition (bits : BitVec 8) (s : State) :
    (setDirections bits s).bres.countPosition = s.bres.countPosition := by
  unfold setDirections; simp only []; split
  · rfl
  · exact foldl_keeps (setAxisDir bits s.bres.lastDirectionBits) (fun u => u.bres.countPosition) (fun t a => by simp) _ _
@[simp] theorem loadBlock_countPosition (d : Descriptor) (s : State) :
    ((loadBlock d s).1).bres.countPosition = s.bres.countPosition := by
  unfold loadBlock; simp only []; split <;> simp
@[simp] theorem decelInterval_countPosition (b : BlockRec) (s : State) :
    ((decelInterval b s).1).bres.countPosition = s.bres.countPosition := by
  unfold decelInterval; simp only []; split <;> simp
@[simp] theorem phaseInterval_countPosition (b : BlockRec) (s : State) :
    ((phaseInterval b s).1).bres.countPosition = s.bres.countPosition := by
  unfold phaseInterval; split
  · simp
  · split <;> simp

/-! ## The Bresenham terms: only a block load and STEP_EVENT write them (10_state.md R25) -/

@[simp] theorem laReverse_deltaError (r : Bool) (s : State) :
    (laReverse r s).bres.deltaError = s.bres.deltaError := rfl
@[simp] theorem laDecel_deltaError (b : BlockRec) (rate : Nat) (s : State) :
    (laDecel b rate s).bres.deltaError = s.bres.deltaError := by
  unfold laDecel; simp only []
  generalize (if s.la.advanceSteps.toInt > b.finalAdvSteps then b.laAdvanceRate else 0) = r
  split
  · rfl
  · generalize (if decide (r > rate) = true then r - rate else rate - r) = diff
    split <;> simp
@[simp] theorem setDirections_deltaError (bits : BitVec 8) (s : State) :
    (setDirections bits s).bres.deltaError = s.bres.deltaError := by
  unfold setDirections; simp only []; split
  · rfl
  · exact foldl_keeps (setAxisDir bits s.bres.lastDirectionBits) (fun u => u.bres.deltaError) (fun t a => by simp) _ _
@[simp] theorem decelInterval_deltaError (b : BlockRec) (s : State) :
    ((decelInterval b s).1).bres.deltaError = s.bres.deltaError := by
  unfold decelInterval; simp only []; split <;> simp
@[simp] theorem phaseInterval_deltaError (b : BlockRec) (s : State) :
    ((phaseInterval b s).1).bres.deltaError = s.bres.deltaError := by
  unfold phaseInterval; split
  · simp
  · split <;> simp

@[simp] theorem laReverse_advanceDividend (r : Bool) (s : State) :
    (laReverse r s).bres.advanceDividend = s.bres.advanceDividend := rfl
@[simp] theorem laDecel_advanceDividend (b : BlockRec) (rate : Nat) (s : State) :
    (laDecel b rate s).bres.advanceDividend = s.bres.advanceDividend := by
  unfold laDecel; simp only []
  generalize (if s.la.advanceSteps.toInt > b.finalAdvSteps then b.laAdvanceRate else 0) = r
  split
  · rfl
  · generalize (if decide (r > rate) = true then r - rate else rate - r) = diff
    split <;> simp
@[simp] theorem setDirections_advanceDividend (bits : BitVec 8) (s : State) :
    (setDirections bits s).bres.advanceDividend = s.bres.advanceDividend := by
  unfold setDirections; simp only []; split
  · rfl
  · exact foldl_keeps (setAxisDir bits s.bres.lastDirectionBits) (fun u => u.bres.advanceDividend) (fun t a => by simp) _ _
@[simp] theorem decelInterval_advanceDividend (b : BlockRec) (s : State) :
    ((decelInterval b s).1).bres.advanceDividend = s.bres.advanceDividend := by
  unfold decelInterval; simp only []; split <;> simp
@[simp] theorem phaseInterval_advanceDividend (b : BlockRec) (s : State) :
    ((phaseInterval b s).1).bres.advanceDividend = s.bres.advanceDividend := by
  unfold phaseInterval; split
  · simp
  · split <;> simp

@[simp] theorem laReverse_advanceDivisor (r : Bool) (s : State) :
    (laReverse r s).bres.advanceDivisor = s.bres.advanceDivisor := rfl
@[simp] theorem laDecel_advanceDivisor (b : BlockRec) (rate : Nat) (s : State) :
    (laDecel b rate s).bres.advanceDivisor = s.bres.advanceDivisor := by
  unfold laDecel; simp only []
  generalize (if s.la.advanceSteps.toInt > b.finalAdvSteps then b.laAdvanceRate else 0) = r
  split
  · rfl
  · generalize (if decide (r > rate) = true then r - rate else rate - r) = diff
    split <;> simp
@[simp] theorem setDirections_advanceDivisor (bits : BitVec 8) (s : State) :
    (setDirections bits s).bres.advanceDivisor = s.bres.advanceDivisor := by
  unfold setDirections; simp only []; split
  · rfl
  · exact foldl_keeps (setAxisDir bits s.bres.lastDirectionBits) (fun u => u.bres.advanceDivisor) (fun t a => by simp) _ _
@[simp] theorem decelInterval_advanceDivisor (b : BlockRec) (s : State) :
    ((decelInterval b s).1).bres.advanceDivisor = s.bres.advanceDivisor := by
  unfold decelInterval; simp only []; split <;> simp
@[simp] theorem phaseInterval_advanceDivisor (b : BlockRec) (s : State) :
    ((phaseInterval b s).1).bres.advanceDivisor = s.bres.advanceDivisor := by
  unfold phaseInterval; split
  · simp
  · split <;> simp

/-! ## A discarded block is gone (44_block_sequencer.md R203) -/

@[simp] theorem discardBlock_current (b : BlockRec) (s : State) : (discardBlock b s).seq.current = none := by
  unfold discardBlock; simp only []; split <;> rfl

@[simp] theorem completeBlock_current (b : BlockRec) (s : State) : (completeBlock b s).seq.current = none := by
  simp [completeBlock]

@[simp] theorem consumeAbort_current (s : State) : (consumeAbort s).seq.current = none := by
  unfold consumeAbort; simp only [emit_seq, shapingFlush_seq]
  split
  · simp
  · assumption

end Sys2Proof.Machine
end

