-- ==== Sys2Proof/Laws/Moves.lean ====
section
/-! SUPPORT. What a step can be: inversion lemmas of the decoder, LEGALITY, the moves and the step, and the packaged
case split over them. Callers cite these and never unfold `step`. -/

namespace Sys2Proof

/-! ## The decoder -/

theorem decode_axis {w : Word} {i : Instr} (h : axisInstr (opcOf w) (axisOf w) = some i) (hr : rsvOf w = 0) :
    decode w = .ok i := by
  simp [decode, h, hr]

theorem decode_plain {w : Word} {i : Instr} (h0 : axisInstr (opcOf w) (axisOf w) = none)
    (h : plainInstr (opcOf w) = some i) (hr : rsvOf w = 0) (ha : (axisOf w).val = 0) : decode w = .ok i := by
  simp [decode, h0, h, hr, ha]

/-- A word decodes in one of two ways: as an operation with an axis field or as one without. -/
theorem decode_ok_cases {w : Word} {i : Instr} (h : decode w = .ok i) :
    rsvOf w = 0 ∧
      (axisInstr (opcOf w) (axisOf w) = some i ∨
        axisInstr (opcOf w) (axisOf w) = none ∧ plainInstr (opcOf w) = some i ∧ (axisOf w).val = 0) := by
  unfold decode at h
  split at h
  · next j hj =>
    split at h
    · next hr => cases h; exact ⟨hr, .inl hj⟩
    · cases h
  · next hj =>
    split at h
    · cases h
    · next k hk =>
      split at h
      · cases h
      · next hr =>
        split at h
        · next ha => cases h; exact ⟨by simpa using hr, .inr ⟨hj, hk, ha⟩⟩
        · split at h <;> cases h

/-- An operation with an axis field carries the AXIS of its word; its OPC is the word's. -/
theorem axisInstr_fields {opc : Nat} {a : Fin 16} {i : Instr} (h : axisInstr opc a = some i) :
    i.opc = opc ∧ i.axisField = some a := by
  unfold axisInstr at h
  split at h <;> first | (cases h; exact ⟨rfl, rfl⟩) | cases h

/-- An operation without an axis field: its OPC is the word's. -/
theorem plainInstr_fields {opc : Nat} {i : Instr} (h : plainInstr opc = some i) :
    i.opc = opc ∧ i.axisField = none := by
  unfold plainInstr at h
  split at h <;> first | (cases h; exact ⟨rfl, rfl⟩) | cases h

/-- The encoder puts the operation's OPC in bits 7:0. -/
theorem opcOf_encode (i : Instr) : opcOf (encode i) = i.opc := by
  have hopc : i.opc < 256 := by cases i <;> (simp only [Instr.opc]; decide)
  have hax : i.axisBits < 16 := by cases i <;> simp [Instr.axisBits, Instr.axisField]
  simp only [opcOf, encode, BitVec.toNat_ofNat]
  omega

/-- A word is what its four bytes hold. -/
theorem wordOfBytes_bytesOfWord (w : Word) :
    wordOfBytes (w.extractLsb' 0 8) (w.extractLsb' 8 8) (w.extractLsb' 16 8) (w.extractLsb' 24 8) = w := by
  unfold wordOfBytes
  apply BitVec.eq_of_getLsbD_eq
  intro i hi
  simp only [BitVec.getLsbD_append, BitVec.getLsbD_extractLsb']
  split
  · simp [*]
  · split
    · have : 8 + (i - 8) = i := by omega
      simp [*]
    · split
      · have : 16 + (i - 8 - 8) = i := by omega
        simp [*]
      · have : 24 + (i - 8 - 8 - 8) = i := by omega
        have : i - 8 - 8 - 8 < 8 := by omega
        simp [*]

namespace Machine

/-! ## LEGALITY (47_host_interface.md R276) -/

/-- A word LEGALITY passes decodes, to a command whose operands raise no error. -/
theorem legality_none {w : Word} {s : State} (h : legality w s = none) :
    ∃ i, decode w = .ok i ∧ formatOf w = .cmd ∧ operandError i s = none := by
  unfold legality at h
  split at h
  · cases h
  · next i hi =>
    unfold commandOf at hi
    split at hi
    · next hf =>
      split at h
      · cases h
      · next hr =>
        split at h
        · cases h
        · next hx =>
          have hr' : rsvOf w = 0 := by simpa using hr
          cases ha : axisInstr (opcOf w) (axisOf w) with
          | some j =>
            rw [ha] at hi; cases hi
            exact ⟨_, decode_axis ha hr', hf, h⟩
          | none =>
            rw [ha] at hi; simp only [Option.none_or] at hi
            have hn := (plainInstr_fields hi).2
            have h0 : (axisOf w).val = 0 := by
              by_contra hc
              exact hx ⟨hn, hc⟩
            exact ⟨_, decode_plain ha hi hr' h0, hf, h⟩
    · cases hi

theorem operandError_none_wellFormed {i : Instr} {s : State} (h : operandError i s = none) :
    i.wellFormed s.cfg = true := by
  unfold operandError at h
  cases hw : i.wellFormed s.cfg with
  | true => rfl
  | false => simp [hw] at h

/-! ## The moves -/

/-- What ISSUE can do (47_host_interface.md R275). -/
theorem issue_cases (w : Word) (s : State) :
    (s.host.cmdPending = true ∧ issue w s = .next (raiseHostError .cmdOverrun s)) ∨
    (s.host.cmdPending = false ∧ ∃ e, legality w s = some e ∧ issue w s = .next (raiseHostError e s)) ∨
    (s.host.cmdPending = false ∧ legality w s = none ∧ ∃ i, decode w = .ok i ∧ formatOf w = .cmd ∧
      operandError i s = none ∧
      ((i.synchronizing = true ∧ issue w s = .next (holdCommand (acceptCommand w s))) ∨
       (i.synchronizing = false ∧ issue w s = exec i (acceptCommand w s)))) := by
  unfold issue
  cases hp : s.host.cmdPending with
  | true => exact .inl ⟨rfl, by simp⟩
  | false =>
    cases hl : legality w s with
    | some e => exact .inr (.inl ⟨rfl, e, rfl, by simp⟩)
    | none =>
      obtain ⟨i, hd, hf, ho⟩ := legality_none hl
      refine .inr (.inr ⟨rfl, rfl, i, hd, hf, ho, ?_⟩)
      cases hs : i.synchronizing with
      | true => exact .inl ⟨rfl, by simp [hd, hs]⟩
      | false => exact .inr ⟨rfl, by simp [hd, hs]⟩

/-- A step that goes on runs one move, on the state whose schedule has lost it. -/
theorem step_next {s t : State} (h : step s = .next t) :
    s.cfg.legal = true ∧ ∃ m e, runMove m { s with env := e } = .next t := by
  unfold step at h
  split at h
  · next hl =>
    refine ⟨hl, ?_⟩
    unfold nextMove at h
    split at h
    · next m rest _ => exact ⟨m, _, h⟩
    · unfold idleMove at h
      split at h
      · exact ⟨.syncPerform, s.env, h⟩
      · exact ⟨.compareMatch none, s.env, h⟩
  · cases h

/-- What a move that goes on can do. Every clause but those of `exec` names the next state. -/
theorem runMove_next {m : Move} {s t : State} (h : runMove m s = .next t) :
    (∃ r, t = setReply r s) ∨
    (∃ e, t = raiseHostError e s) ∨
    (∃ w i, decode w = .ok i ∧ i.synchronizing = true ∧ i.wellFormed s.cfg = true ∧
      t = holdCommand (acceptCommand w s)) ∨
    (∃ w i, s.host.cmdPending = false ∧ i.synchronizing = false ∧ i.format = .cmd ∧
      exec i (acceptCommand w s) = .next t) ∨
    (∃ i, idle s = true ∧ s.host.cmdPending = true ∧ decode s.host.pendingCmd = .ok i ∧
      exec i (releaseCommand s) = .next t) ∨
    (∃ i v, t = setArg i v s) ∨
    t = s ∨
    (∃ i, (i.format = .ein ∨ i.format = .evt ∨ i.format = .pln) ∧ exec i s = .next t) ∨
    (∃ d, t = plannerAppend d s) ∨
    (∃ e, t = tick { s with env.elapsed := e }) ∨
    t = resetMachine s := by
  cases m with
  | read a n =>
    simp only [runMove, hostRead] at h
    split at h
    · cases h
    · split at h
      · cases h
      · cases h; exact .inl ⟨_, rfl⟩
  | write a n v =>
    simp only [runMove, hostWrite] at h
    split at h
    · cases h
    · split at h
      · cases h
      · unfold writeWindow at h
        split at h
        · rcases issue_cases v s with ⟨-, hi⟩ | ⟨-, e, -, hi⟩ | ⟨hp, -, i, hd, hf, ho, ⟨hs, hi⟩ | ⟨hs, hi⟩⟩
          · rw [hi] at h; cases h; exact .inr (.inl ⟨_, rfl⟩)
          · rw [hi] at h; cases h; exact .inr (.inl ⟨_, rfl⟩)
          · rw [hi] at h; cases h
            exact .inr (.inr (.inl ⟨v, i, hd, hs, operandError_none_wellFormed ho, rfl⟩))
          · rw [hi] at h
            refine .inr (.inr (.inr (.inl ⟨v, i, hp, hs, ?_, h⟩)))
            have hopc : i.opc = opcOf v := by
              rcases (decode_ok_cases hd).2 with hx | ⟨-, hx, -⟩
              · exact (axisInstr_fields hx).1
              · exact (plainInstr_fields hx).1
            have : opcOf v < 0x80 := by
              unfold formatOf at hf; split at hf
              · assumption
              · split at hf
                · cases hf
                · split at hf <;> cases hf
            rw [← hopc] at this
            simp [Instr.format, formatOf, opcOf_encode, this]
        · cases h; exact .inr (.inr (.inr (.inr (.inr (.inl ⟨_, _, rfl⟩)))))
        · cases h; exact .inr (.inr (.inr (.inr (.inr (.inr (.inl rfl))))))
  | syncPerform =>
    simp only [runMove, syncPerform] at h
    split at h
    · next he =>
      simp only [syncEnabled, Bool.and_eq_true] at he
      split at h
      · next i hd => exact .inr (.inr (.inr (.inr (.inl ⟨i, he.2, he.1, hd, h⟩))))
      · cases h; exact .inr (.inr (.inr (.inr (.inr (.inr (.inl rfl))))))
    · cases h; exact .inr (.inr (.inr (.inr (.inr (.inr (.inl rfl))))))
  | endstopInput w =>
    simp only [runMove, endstopInput] at h
    split at h
    · next i _ =>
      split at h
      · next hf => exact .inr (.inr (.inr (.inr (.inr (.inr (.inr (.inl ⟨i, .inl hf, h⟩)))))))
      · cases h; exact .inr (.inr (.inr (.inr (.inr (.inr (.inl rfl))))))
    · cases h; exact .inr (.inr (.inr (.inr (.inr (.inr (.inl rfl))))))
  | append d =>
    simp only [runMove, plannerMove] at h
    split at h
    · cases h
    · cases h; exact .inr (.inr (.inr (.inr (.inr (.inr (.inr (.inr (.inl ⟨d, rfl⟩))))))))
  | compareMatch e =>
    simp only [runMove, compareMatch, exec, execTick] at h
    cases h; exact .inr (.inr (.inr (.inr (.inr (.inr (.inr (.inr (.inr (.inl ⟨e, rfl⟩)))))))))
  | engineWord w =>
    simp only [runMove, engineWord] at h
    split at h
    · next i _ =>
      split at h
      · next hf => exact .inr (.inr (.inr (.inr (.inr (.inr (.inr (.inl ⟨i, .inr hf, h⟩)))))))
      · cases h
    · cases h
  | reset =>
    simp only [runMove] at h
    cases h; exact .inr (.inr (.inr (.inr (.inr (.inr (.inr (.inr (.inr (.inr rfl)))))))))

/-- What the planner's move can do: with room it is refused or appends, without room nothing happens. -/
theorem plannerMove_cases (d : Descriptor) (s : State) :
    (s.pq.length < s.cfg.plannerCap ∧ breaksPlannerDuty d s = true ∧ plannerMove d s = .refused .plannerDutyBroken) ∨
    (s.pq.length < s.cfg.plannerCap ∧ breaksPlannerDuty d s = false ∧
      plannerMove d s = .next { s with pq := s.pq ++ [d] }) ∨
    (s.cfg.plannerCap ≤ s.pq.length ∧ plannerMove d s = .next s) := by
  unfold plannerMove plannerAppend
  by_cases hr : s.pq.length < s.cfg.plannerCap
  · cases hb : breaksPlannerDuty d s with
    | true => exact .inl ⟨hr, rfl, by simp [hr]⟩
    | false => exact .inr (.inl ⟨hr, rfl, by simp [hr]⟩)
  · exact .inr (.inr ⟨by omega, by simp [hr]⟩)

/-- The duties an APPEND is asked, computed and stated (47_host_interface.md R302). -/
theorem breaksPlannerDuty_iff (d : Descriptor) (s : State) :
    breaksPlannerDuty d s = true ↔ PlannerDutyBroken d s := by
  simp only [breaksPlannerDuty, idInFlight, stepCountUnreached, PlannerDutyBroken, Descriptor.isSync, Descriptor.isPage,
    Descriptor.flags, Descriptor.block, Descriptor.num, Descriptor.axisWord, PerAxis.read_build, Bool.or_eq_true,
    Bool.and_eq_true, Bool.not_eq_true', List.any_eq_true, List.all_eq_true, beq_iff_eq, bne_iff_ne, ne_eq,
    BitVec.toNat_inj, Config.mem_liveAxes, and_assoc]
  rfl

/-- A step runs the schedule's oldest move. -/
theorem step_head {s : State} (hl : s.cfg.legal = true) {m : Move} {rest : List Move}
    (hs : s.env.schedule = m :: rest) : step s = runMove m { s with env.schedule := rest } := by
  simp only [step, hl, if_true, nextMove, hs]

/-- A read the window admits. -/
theorem hostRead_window {off : Nat} (h : off < 256) (h4 : off % 4 = 0) (s : State) :
    hostRead (s.cfg.regBase + off) 4 s = .next (setReply (.data (readWindow off s)) s) := by
  have h1 : inWindow s.cfg (s.cfg.regBase + off) = true := by simp [inWindow, h]
  have h2 : admitted s.cfg (s.cfg.regBase + off) 4 = true := by simp [admitted, h4]
  simp [hostRead, h1, h2]

/-- A write the window admits. -/
theorem hostWrite_window {off : Nat} (h : off < 256) (h4 : off % 4 = 0) (v : Word) (s : State) :
    hostWrite (s.cfg.regBase + off) 4 v s = writeWindow off v s := by
  have h1 : inWindow s.cfg (s.cfg.regBase + off) = true := by simp [inWindow, h]
  have h2 : admitted s.cfg (s.cfg.regBase + off) 4 = true := by simp [admitted, h4]
  simp [hostWrite, h1, h2]

/-- A write to CMD issues its word. -/
theorem hostWrite_cmd (w : Word) (s : State) : hostWrite s.cfg.regBase 4 w s = issue w s :=
  hostWrite_window (off := 0) (by decide) (by decide) w s

/-- The idle predicate, computed and stated. -/
theorem idle_iff_engineIdle (s : State) : idle s = true ↔ EngineIdle s := by
  simp only [idle, EngineIdle, Bool.and_eq_true, Option.isNone_iff_eq_none, List.isEmpty_iff, List.all_eq_true,
    Config.mem_shapedAxes, and_assoc]

/-- LEGALITY of a word that decodes to a command is the command's operand checks. -/
theorem legality_of_decode {w : Word} {i : Instr} {s : State} (hd : decode w = .ok i) (hf : i.format = .cmd) :
    legality w s = operandError i s := by
  obtain ⟨hr, h⟩ := decode_ok_cases hd
  have hopc : i.opc = opcOf w := by
    rcases h with hx | ⟨-, hx, -⟩
    · exact (axisInstr_fields hx).1
    · exact (plainInstr_fields hx).1
  have hw : formatOf w = .cmd := by
    have : formatOf (encode i) = formatOf w := by unfold formatOf; rw [opcOf_encode, hopc]
    rw [← this]; exact hf
  have hc : commandOf w = some i := by
    unfold commandOf
    rw [if_pos hw]
    rcases h with h | ⟨h0, h, -⟩
    · rw [h]; rfl
    · rw [h0, h]; rfl
  unfold legality
  rw [hc]
  simp only [hr, ne_eq, not_true, if_false]
  rw [if_neg]
  rintro ⟨q1, q2⟩
  rcases h with h | ⟨h0, h, ha⟩
  · rw [(axisInstr_fields h).2] at q1; cases q1
  · exact q2 ha

/-! ## exec -/

/-- A command's meaning either raises its operand error or runs its body. -/
theorem perform_cases (i : Instr) (s : State) (k : State → State) :
    (∃ e, operandError i s = some e ∧ perform i s k = .next (raiseHostError e s)) ∨
    (operandError i s = none ∧ perform i s k = .next (k s)) := by
  unfold perform
  cases h : operandError i s with
  | some e => exact .inl ⟨e, rfl, rfl⟩
  | none => exact .inr ⟨rfl, rfl⟩

/-- A command whose operands raise an error raises it and does nothing else. -/
theorem exec_operandError {i : Instr} {s : State} {e : HostError} (hf : i.format = .cmd)
    (h : operandError i s = some e) : exec i s = .next (raiseHostError e s) := by
  cases i <;> simp only [exec, execNop, execGetPosition, execSetPosition, execSetAxisPosition, execIsBlockBusy,
    execAbort, execBabystep, execEnable, execDisable, execClearEndstops, execIsIdle, execClearDiag, performAxis,
    perform, h] at hf ⊢
  all_goals
    exfalso
    clear h
    first
      | (revert hf; decide)
      | (rename_i a; revert hf; revert a; decide)

/-- Every operation answers a next state. -/
theorem exec_next (i : Instr) (s : State) : ∃ t, exec i s = .next t := by
  cases i <;>
    simp only [exec, execNop, execGetPosition, execSetPosition, execSetAxisPosition, execIsBlockBusy, execAbort,
      execBabystep, execEnable, execDisable, execClearEndstops, execIsIdle, execClearDiag, execEndstop, execTick,
      execPulsePhase, execStepEvent, execBlockPhase, execShapingIsr, execAdvanceIsr, execBabystepIsr,
      execGetCurrentBlock, execDiscardCurrentBlock, performAxis, perform] <;>
    first | exact ⟨_, rfl⟩ | (split <;> exact ⟨_, rfl⟩)

end Machine
end Sys2Proof
end

