-- ==== Sys2Proof/Laws/PerInstr.lean ====
section
/-! SUPPORT. Families of statements made per operation, one lemma for each constructor of `Instr`. -/

namespace Sys2Proof.Laws

/-- The encoder puts an operation's OPC value where the decoder reads it (30_encoding.md R80, R81). -/
def OpcodeByte.Statement (i : Instr) : Prop := opcOf (encode i) = i.opc

namespace OpcodeByte

theorem nop : Statement .nop := opcOf_encode _

theorem getPosition (axis : Fin 16) : Statement (.getPosition axis) := opcOf_encode _

theorem setPosition : Statement .setPosition := opcOf_encode _

theorem setAxisPosition (axis : Fin 16) : Statement (.setAxisPosition axis) := opcOf_encode _

theorem isBlockBusy : Statement .isBlockBusy := opcOf_encode _

theorem abort : Statement .abort := opcOf_encode _

theorem babystep (axis : Fin 16) : Statement (.babystep axis) := opcOf_encode _

theorem enable (axis : Fin 16) : Statement (.enable axis) := opcOf_encode _

theorem disable (axis : Fin 16) : Statement (.disable axis) := opcOf_encode _

theorem clearEndstops : Statement .clearEndstops := opcOf_encode _

theorem isIdle : Statement .isIdle := opcOf_encode _

theorem clearDiag : Statement .clearDiag := opcOf_encode _

theorem endstop (axis : Fin 16) : Statement (.endstop axis) := opcOf_encode _

theorem tick : Statement .tick := opcOf_encode _

theorem pulsePhase : Statement .pulsePhase := opcOf_encode _

theorem stepEvent : Statement .stepEvent := opcOf_encode _

theorem blockPhase : Statement .blockPhase := opcOf_encode _

theorem shapingIsr : Statement .shapingIsr := opcOf_encode _

theorem advanceIsr : Statement .advanceIsr := opcOf_encode _

theorem babystepIsr : Statement .babystepIsr := opcOf_encode _

theorem getCurrentBlock : Statement .getCurrentBlock := opcOf_encode _

theorem discardCurrentBlock : Statement .discardCurrentBlock := opcOf_encode _

end OpcodeByte

end Sys2Proof.Laws
end

