-- ==== Sys2Proof/Laws/Pulses.lean ====
section
/-! SUPPORT. What the pulse operations do axis by axis: an operation on one axis leaves every other axis alone, and a
loop over axes does to each what its step does to it. -/

namespace Sys2Proof.Machine

/-! ## Loops over axes -/

/-- What a loop over distinct axes does to the part `g` of State that only axis `b`'s step changes: that step's
effect `φ`, which may read `c`, a part no step of the loop changes. -/
theorem foldl_axis {β γ : Type} (b : Axis) (f : State → Axis → State) (g : State → β) (c : State → γ)
    (φ : γ → β → β) (hc : ∀ s a, c (f s a) = c s) (hsame : ∀ s, g (f s b) = φ (c s) (g s))
    (hne : ∀ s a, a ≠ b → g (f s a) = g s) {l : List Axis} (hl : l.Nodup) (s : State) :
    g (l.foldl f s) = if b ∈ l then φ (c s) (g s) else g s := by
  induction l generalizing s with
  | nil => simp
  | cons a l ih =>
    rw [List.foldl_cons, ih hl.of_cons]
    by_cases hab : a = b
    · subst hab
      simp [(List.nodup_cons.1 hl).1, hsame]
    · have : b ≠ a := fun h => hab h.symm
      simp [hne s a hab, hc, this]

/-! ## A pulse moves one axis's position and pins, and nothing else of the Bresenham state -/

theorem shapeApply_bres (a : Axis) (n : Int) (s : State) :
    (shapeApply a n s).bres = { s.bres with countPosition := (shapeApply a n s).bres.countPosition } := by
  unfold shapeApply; simp only []; split
  · simp
  · split <;> simp

theorem forceEcho_bres (a : Axis) (s : State) :
    (forceEcho a s).bres = { s.bres with countPosition := (forceEcho a s).bres.countPosition } := by
  unfold forceEcho; split
  · rfl
  · rw [shapeApply_bres]; simp

theorem shapePrimary_bres (a : Axis) (d : Dir) (s : State) :
    (shapePrimary a d s).bres = { s.bres with countPosition := (shapePrimary a d s).bres.countPosition } := by
  unfold shapePrimary; simp only [setShapingQueue_bres]; rw [shapeApply_bres]; split
  · rw [forceEcho_bres]
  · rfl

theorem stepAxis_bres (a : Axis) (d : Dir) (s : State) :
    (stepAxis a d s).bres = { s.bres with countPosition := (stepAxis a d s).bres.countPosition } := by
  unfold stepAxis; split
  · exact shapePrimary_bres a d s
  · simp

theorem drainDue_bres (a : Axis) (q : List Echo) (s : State) :
    (drainDue a q s).bres = { s.bres with countPosition := (drainDue a q s).bres.countPosition } := by
  induction q generalizing s with
  | nil => rfl
  | cons e rest ih =>
    unfold drainDue; split
    · rw [ih, shapeApply_bres]; simp
    · rfl

theorem shapingIsr_bres (s : State) :
    (shapingIsr s).bres = { s.bres with countPosition := (shapingIsr s).bres.countPosition } := by
  have : ∀ (l : List Axis) (s : State),
      (l.foldl (fun t a => drainDue a (t.shaping.queue.read a) t) s).bres =
        { s.bres with countPosition :=
          (l.foldl (fun t a => drainDue a (t.shaping.queue.read a) t) s).bres.countPosition } := by
    intro l
    induction l with
    | nil => intro s; rfl
    | cons a l ih => intro s; rw [List.foldl_cons, ih, drainDue_bres]
  exact this _ s

theorem advanceIsr_bres (s : State) :
    (advanceIsr s).bres = { s.bres with countPosition := (advanceIsr s).bres.countPosition } := by
  unfold advanceIsr; split
  · simp only []; split <;> simp
  · rfl

theorem babystepIsr_bres (s : State) :
    (babystepIsr s).bres = { s.bres with countPosition := (babystepIsr s).bres.countPosition } := by
  unfold babystepIsr; split <;> simp

theorem stepEventAxis_bres (s : State) (a : Axis) :
    (stepEventAxis s a).bres = { s.bres with
      countPosition := (stepEventAxis s a).bres.countPosition
      deltaError := (stepEventAxis s a).bres.deltaError } := by
  unfold stepEventAxis; split
  · rfl
  · simp only []; split
    · simp only []; rw [stepAxis_bres]
    · rfl

/-- STEP_EVENT writes `delta_error` and the positions, and nothing else of the Bresenham state. -/
theorem stepEvent_bres (s : State) :
    (stepEvent s).bres = { s.bres with
      countPosition := (stepEvent s).bres.countPosition, deltaError := (stepEvent s).bres.deltaError } := by
  have : ∀ (l : List Axis) (s : State), (l.foldl stepEventAxis s).bres = { s.bres with
      countPosition := (l.foldl stepEventAxis s).bres.countPosition
      deltaError := (l.foldl stepEventAxis s).bres.deltaError } := by
    intro l
    induction l with
    | nil => intro s; rfl
    | cons a l ih => intro s; rw [List.foldl_cons, ih, stepEventAxis_bres]
  exact this _ s

theorem runEvents_bres (n : Nat) (s : State) :
    (runEvents n s).bres = { s.bres with
      countPosition := (runEvents n s).bres.countPosition, deltaError := (runEvents n s).bres.deltaError } := by
  induction n generalizing s with
  | zero => rfl
  | succ n ih => simp only [runEvents]; rw [ih, stepEvent_bres]

/-- The events are counted (41_bresenham.md R130). -/
theorem runEvents_seq (n : Nat) (s : State) :
    (runEvents n s).seq = { s.seq with stepEventsCompleted := s.seq.stepEventsCompleted + n } := by
  induction n generalizing s with
  | zero => rfl
  | succ n ih => simp only [runEvents]; rw [ih]; simp; omega

/-! ## Other axes -/

theorem shapeApply_position_ne {a b : Axis} (h : a ≠ b) (n : Int) (s : State) :
    (shapeApply a n s).bres.countPosition.read b = s.bres.countPosition.read b := by
  unfold shapeApply; simp only []; split
  · simp [PerAxis.read_write, h]
  · split <;> simp [PerAxis.read_write, h]

theorem shapePrimary_position_ne {a b : Axis} (h : a ≠ b) (d : Dir) (s : State) :
    (shapePrimary a d s).bres.countPosition.read b = s.bres.countPosition.read b := by
  unfold shapePrimary; simp only [setShapingQueue_bres]; rw [shapeApply_position_ne h]; split
  · unfold forceEcho; split
    · rfl
    · rw [shapeApply_position_ne h]; rfl
  · rfl

/-- A logical step of one axis moves no other axis. -/
theorem stepAxis_position_ne {a b : Axis} (h : a ≠ b) (d : Dir) (s : State) :
    (stepAxis a d s).bres.countPosition.read b = s.bres.countPosition.read b := by
  unfold stepAxis; split
  · exact shapePrimary_position_ne h d s
  · simp [PerAxis.read_write, h]

/-- A logical step of one axis changes no other axis's accumulator or echoes. -/
theorem stepAxis_shaping_ne {a b : Axis} (h : a ≠ b) (d : Dir) (s : State) :
    (stepAxis a d s).shaping.delta.read b = s.shaping.delta.read b ∧
      (stepAxis a d s).shaping.queue.read b = s.shaping.queue.read b := by
  unfold stepAxis shapePrimary forceEcho
  split
  · simp only []
    split
    · split <;> simp [shapeApply_delta, PerAxis.read_write, h]
    · simp [shapeApply_delta, PerAxis.read_write, h]
  · simp

/-! ## STEP_EVENT, axis by axis (41_bresenham.md R132) -/

/-- The effect of one step event on an axis's `delta_error`. -/
def nextError (skip : Bool) (dividend divisor : Nat) (de : Int) : Int :=
  if skip then de else if 0 ≤ de + dividend then de + dividend - divisor else de + dividend

theorem stepEventAxis_error_same (s : State) (a : Axis) :
    (stepEventAxis s a).bres.deltaError.read a =
      nextError (skipsAxis s a) (s.bres.advanceDividend.read a) s.bres.advanceDivisor (s.bres.deltaError.read a) := by
  unfold stepEventAxis nextError
  split
  · rfl
  · simp only []
    split <;> simp

theorem stepEventAxis_ne {a b : Axis} (h : a ≠ b) (s : State) :
    (stepEventAxis s a).bres.deltaError.read b = s.bres.deltaError.read b ∧
      (stepEventAxis s a).bres.countPosition.read b = s.bres.countPosition.read b := by
  unfold stepEventAxis
  split
  · exact ⟨rfl, rfl⟩
  · simp only []
    split
    · refine ⟨?_, stepAxis_position_ne h _ s⟩
      simp only [PerAxis.read_write, h, if_false]
      rw [stepAxis_bres]
    · simp [PerAxis.read_write, h]

/-- STEP_EVENT on one axis's `delta_error`. -/
theorem stepEvent_deltaError (s : State) (a : Axis) :
    (stepEvent s).bres.deltaError.read a =
      if a.val < s.cfg.numAxes then
        nextError (skipsAxis s a) (s.bres.advanceDividend.read a) s.bres.advanceDivisor (s.bres.deltaError.read a)
      else s.bres.deltaError.read a := by
  have := foldl_axis a stepEventAxis (fun t => t.bres.deltaError.read a)
    (fun t => (skipsAxis t a, t.bres.advanceDividend.read a, t.bres.advanceDivisor))
    (fun c de => nextError c.1 c.2.1 c.2.2 de)
    (fun t b => by simp only [skipsAxis, stepEventAxis_cfg, stepEventAxis_la]; rw [stepEventAxis_bres])
    (fun t => stepEventAxis_error_same t a) (fun t b hb => (stepEventAxis_ne hb t).1) s.cfg.liveAxes_nodup s
  simpa [stepEvent] using this

/-- STEP_EVENT on the position of an axis without shaping. -/
theorem stepEvent_position (s : State) (a : Axis) (h : (s.cfg.inputShaping && s.cfg.shaped.read a) = false) :
    (stepEvent s).bres.countPosition.read a =
      if takesStep s a then wrapStep (s.bres.countPosition.read a) (s.bres.countDirection.read a)
      else s.bres.countPosition.read a := by
  have := foldl_axis a
    (fun t b => if (t.cfg.inputShaping && t.cfg.shaped.read a) = false then stepEventAxis t b else t)
    (fun t => (t.bres.deltaError.read a, t.bres.countPosition.read a))
    (fun t => ((t.cfg.inputShaping && t.cfg.shaped.read a), skipsAxis t a, t.bres.advanceDividend.read a,
      t.bres.advanceDivisor, t.bres.countDirection.read a))
    (fun c p => if c.1 then p else (nextError c.2.1 c.2.2.1 c.2.2.2.1 p.1,
      if !c.2.1 && decide (0 ≤ p.1 + (c.2.2.1 : Int)) then wrapStep p.2 c.2.2.2.2 else p.2))
    (fun t b => by
      split
      · simp only [skipsAxis, stepEventAxis_cfg, stepEventAxis_la]; rw [stepEventAxis_bres]
      · rfl)
    (fun t => by
      cases hs : (t.cfg.inputShaping && t.cfg.shaped.read a) with
      | true => simp
      | false =>
        simp only [if_true, Bool.false_eq_true, if_false]
        rw [Prod.mk.injEq]
        refine ⟨stepEventAxis_error_same t a, ?_⟩
        unfold stepEventAxis
        cases hk : skipsAxis t a with
        | true => simp
        | false =>
          simp only [Bool.false_eq_true, if_false, Bool.not_false, Bool.true_and, decide_eq_true_eq]
          split
          · simp [stepAxis, hs]
          · rfl)
    (fun t b hb => by
      split
      · rw [(stepEventAxis_ne hb t).1, (stepEventAxis_ne hb t).2]
      · rfl)
    s.cfg.liveAxes_nodup s
  have heq : ∀ (l : List Axis) (t : State), (t.cfg.inputShaping && t.cfg.shaped.read a) = false →
      l.foldl (fun t b => if (t.cfg.inputShaping && t.cfg.shaped.read a) = false then stepEventAxis t b else t) t =
        l.foldl stepEventAxis t := by
    intro l
    induction l with
    | nil => intro t _; rfl
    | cons b l ih => intro t ht; rw [List.foldl_cons, List.foldl_cons, if_pos ht, ih _ (by simpa using ht)]
  rw [heq _ _ h] at this
  have h2 := congrArg Prod.snd this
  simp only [] at h2
  rw [stepEvent, h2]
  unfold takesStep
  by_cases hm : a ∈ s.cfg.liveAxes
  · have hv : a.val < s.cfg.numAxes := by simpa using hm
    simp only [hm, if_true, h, Bool.false_eq_true, if_false, hv, decide_true, Bool.true_and]
  · have hv : ¬ a.val < s.cfg.numAxes := by simpa using hm
    simp [hm, hv]

end Sys2Proof.Machine
end

