-- ==== Sys2Proof/Laws/PulseTrace.lean ====
section
/-! SUPPORT. What an operation that only pulses one axis does to its pins, its position and the trace, as one predicate
`PulsedBy` that composes; and what a loop over axes does. -/

namespace Sys2Proof.Machine

/-! ## Trains of pulses -/

theorem pulseRecords_append (now : Nat) (a : Axis) (level : Bool) (ds es : List Dir) :
    pulseRecords now a level (ds ++ es) =
      pulseRecords now a level ds ++ pulseRecords now a (levelAfter level ds) es := by
  induction ds generalizing level with
  | nil => rfl
  | cons d ds ih => simp only [List.cons_append, pulseRecords, levelAfter, ih, List.append_assoc]

theorem levelAfter_append (level : Bool) (ds es : List Dir) :
    levelAfter level (ds ++ es) = levelAfter (levelAfter level ds) es := by
  induction ds generalizing level with
  | nil => rfl
  | cons d ds ih => exact ih _

/-! ## Reading a piece of trace -/

theorem stepsOf_append (a : Axis) (l m : List Record) : stepsOf a (l ++ m) = stepsOf a l ++ stepsOf a m := by
  induction l with
  | nil => rfl
  | cons r l ih =>
    simp only [List.cons_append, stepsOf]; split
    · split <;> simp [ih]
    · exact ih

/-- The net number of pulses is the sum of their directions. -/
theorem netSteps_eq (a : Axis) (l : List Record) : netSteps a l = ((stepsOf a l).map Dir.sign).sum := by
  induction l with
  | nil => rfl
  | cons r l ih =>
    simp only [netSteps, stepsOf]; split
    · split <;> simp [ih]
    · exact ih

/-- The records of a train of pulses show that train, on its own axis only. -/
theorem stepsOf_pulseRecords (a b : Axis) (now : Nat) (level : Bool) (ds : List Dir) :
    stepsOf b (pulseRecords now a level ds) = if a = b then ds else [] := by
  induction ds generalizing level with
  | nil => simp [pulseRecords, stepsOf]
  | cons d ds ih =>
    simp only [pulseRecords, stepsOf_append, stepsOf, ih]
    split <;> split <;> simp [stepsOf]

/-! ## One axis's pulses -/

/-- `t` is `s` after the pulses `ds` on axis `a`, as far as pins, positions, the trace and virtual time go. -/
structure PulsedBy (a : Axis) (ds : List Dir) (s t : State) : Prop where
  trace : t.trace = s.trace ++ pulseRecords s.timer.now a (s.pins.dirOut.read a) ds
  position : ∀ b, t.bres.countPosition.read b =
    if b = a then s.bres.countPosition.read a + BitVec.ofInt 32 (ds.map Dir.sign).sum else s.bres.countPosition.read b
  dirOut : ∀ b, t.pins.dirOut.read b = if b = a then levelAfter (s.pins.dirOut.read a) ds else s.pins.dirOut.read b
  stepOut : ∀ b, t.pins.stepOut.read b = if b = a ∧ ds ≠ [] then false else s.pins.stepOut.read b
  enableLines : t.pins.enableLines = s.pins.enableLines
  now : t.timer.now = s.timer.now

namespace PulsedBy

variable {a : Axis} {ds es : List Dir} {s t u : State}

/-- An operation that touches none of these parts pulses nothing. -/
theorem none (hp : t.pins = s.pins) (hc : t.bres.countPosition = s.bres.countPosition) (ht : t.trace = s.trace)
    (hn : t.timer.now = s.timer.now) : PulsedBy a [] s t where
  trace := by simp [ht, pulseRecords]
  position b := by rw [hc]; split <;> simp_all
  dirOut b := by rw [hp]; split <;> simp_all [levelAfter]
  stepOut b := by simp [hp]
  enableLines := by rw [hp]
  now := hn

/-- One pulse after another. -/
theorem trans (h : PulsedBy a ds s t) (k : PulsedBy a es t u) : PulsedBy a (ds ++ es) s u where
  trace := by rw [k.trace, h.trace, h.now, h.dirOut, if_pos rfl, pulseRecords_append, List.append_assoc]
  position b := by
    rw [k.position, h.position, h.position, if_pos rfl]
    split
    · rw [List.map_append, List.sum_append, BitVec.ofInt_add, BitVec.add_assoc]
    · rfl
  dirOut b := by
    rw [k.dirOut, h.dirOut, h.dirOut, if_pos rfl, levelAfter_append]
    split <;> simp [*]
  stepOut b := by
    rw [k.stepOut, h.stepOut]
    by_cases hb : b = a <;> by_cases h1 : ds = [] <;> by_cases h2 : es = [] <;> simp [hb, h1, h2]
  enableLines := by rw [k.enableLines, h.enableLines]
  now := by rw [k.now, h.now]

end PulsedBy

theorem physicalPulse_pulsed (a : Axis) (d : Dir) (s : State) : PulsedBy a [d] s (physicalPulse a d s) where
  trace := by
    rw [physicalPulse_trace]
    cases d <;> rfl
  position b := by
    simp only [physicalPulse_bres, PerAxis.read_write, wrapStep, List.map_cons, List.map_nil, List.sum_cons,
      List.sum_nil, Int.add_zero, eq_comm]
  dirOut b := by
    simp only [physicalPulse_pins, PerAxis.read_write, levelAfter, eq_comm (a := b)]
    cases d <;> rfl
  stepOut b := by
    simp only [physicalPulse_pins, PerAxis.read_write, ne_eq, List.cons_ne_nil, not_false_eq_true, and_true,
      eq_comm (a := b)]
    split <;> rfl
  enableLines := by simp
  now := by simp

/-- Shares are taken one after another. -/
theorem payOut_cons (δ x : Int) (xs : List Int) :
    payOut δ (x :: xs) = ((payOut (payOut δ [x]).1 xs).1, (payOut δ [x]).2 ++ (payOut (payOut δ [x]).1 xs).2) := by
  by_cases h1 : 64 ≤ δ + x
  · simp [payOut, h1]
  · by_cases h2 : δ + x < -64 <;> simp [payOut, h1, h2]

/-- SHAPE_APPLY pays out its share (45_aux_pulse.md R234). -/
theorem shapeApply_pulsed (a : Axis) (amt : Int) (s : State) :
    PulsedBy a (payOut (s.shaping.delta.read a) [amt]).2 s (shapeApply a amt s) := by
  have h0 : ∀ v, PulsedBy a [] s (setShapingDelta a v s) := fun v => .none rfl rfl rfl rfl
  unfold shapeApply payOut payOut
  simp only []
  split
  · exact ((h0 _).trans (physicalPulse_pulsed a .pos _)).trans (.none rfl rfl rfl rfl)
  · split
    · exact ((h0 _).trans (physicalPulse_pulsed a .neg _)).trans (.none rfl rfl rfl rfl)
    · exact h0 _

/-- The accumulator SHAPE_APPLY leaves is what remains. -/
theorem shapeApply_paid (a : Axis) (amt : Int) (s : State) :
    (shapeApply a amt s).shaping.delta.read a = (payOut (s.shaping.delta.read a) [amt]).1 := by
  rw [shapeApply_delta]
  simp only [PerAxis.read_write, if_true, payOut]
  split
  · rfl
  · split <;> rfl

theorem payOut_append (δ : Int) (xs ys : List Int) :
    payOut δ (xs ++ ys) = ((payOut (payOut δ xs).1 ys).1, (payOut δ xs).2 ++ (payOut (payOut δ xs).1 ys).2) := by
  induction xs generalizing δ with
  | nil => rfl
  | cons x xs ih => rw [List.cons_append, payOut_cons, ih, payOut_cons δ x xs]; simp [List.append_assoc]

/-- A forced echo pays out its share (45_aux_pulse.md R235). -/
theorem forceEcho_pulsed (a : Axis) (s : State) :
    let xs := ((s.shaping.queue.read a).take 1).map (fun q => q.dir.sign * (s.cfg.shapingFactor2 a : Int))
    PulsedBy a (payOut (s.shaping.delta.read a) xs).2 s (forceEcho a s) ∧
      (forceEcho a s).shaping.delta.read a = (payOut (s.shaping.delta.read a) xs).1 ∧
      (forceEcho a s).shaping.queue.read a = (s.shaping.queue.read a).tail := by
  unfold forceEcho
  split
  · next h => rw [h]; exact ⟨.none rfl rfl rfl rfl, rfl, rfl⟩
  · next e rest h =>
    rw [h]
    have h1 : PulsedBy a [] s (setShapingQueue a rest s) := .none rfl rfl rfl rfl
    have h2 := shapeApply_pulsed a (echoShare s.cfg a e.dir) (setShapingQueue a rest s)
    exact ⟨h1.trans h2, shapeApply_paid a _ _, by simp⟩

/-- SHAPE_PRIMARY pays out its shares and pushes one echo (45_aux_pulse.md R235). -/
theorem shapePrimary_pulsed (a : Axis) (s : State) :
    let t := shapePrimary a (s.bres.countDirection.read a) s
    PulsedBy a (payOut (s.shaping.delta.read a) (primaryShares s a)).2 s t ∧
      t.shaping.delta.read a = (payOut (s.shaping.delta.read a) (primaryShares s a)).1 ∧
      t.shaping.queue.read a =
        (if forcesEcho s a then (s.shaping.queue.read a).tail else s.shaping.queue.read a) ++
          [⟨s.bres.countDirection.read a, s.cfg.shapingDelay.read a⟩] := by
  have hn : queueNearlyFull a s = forcesEcho s a := rfl
  have last : ∀ (u : State) (x : Int) (q : List Echo),
      PulsedBy a (payOut (u.shaping.delta.read a) [x]).2 u (setShapingQueue a q (shapeApply a x u)) := fun u x q => by
    simpa using (shapeApply_pulsed a x u).trans (.none (t := setShapingQueue a q (shapeApply a x u)) rfl rfl rfl rfl)
  obtain ⟨f1, f2, f3⟩ := forceEcho_pulsed a s
  unfold shapePrimary primaryShares
  rw [hn, payOut_append]
  cases forcesEcho s a with
  | true =>
    simp only [if_true, ← f2]
    exact ⟨f1.trans (last _ _ _), shapeApply_paid a _ _, by simp [f3]⟩
  | false =>
    simp only [Bool.false_eq_true, if_false]
    exact ⟨last _ _ _, shapeApply_paid a _ _, by simp⟩

/-- The inner loop of SHAPING_ISR pays out the shares of the echoes that are due (45_aux_pulse.md R233). -/
theorem drainDue_pulsed (a : Axis) (s : State) :
    let t := drainDue a (s.shaping.queue.read a) s
    PulsedBy a (payOut (s.shaping.delta.read a) (dueShares a s)).2 s t ∧
      t.shaping.delta.read a = (payOut (s.shaping.delta.read a) (dueShares a s)).1 ∧
      t.shaping.queue.read a = (s.shaping.queue.read a).dropWhile (fun q => q.remaining == 0) := by
  suffices h : ∀ (q : List Echo) (s : State), s.shaping.queue.read a = q →
      PulsedBy a (payOut (s.shaping.delta.read a) (dueShares a s)).2 s (drainDue a q s) ∧
        (drainDue a q s).shaping.delta.read a = (payOut (s.shaping.delta.read a) (dueShares a s)).1 ∧
        (drainDue a q s).shaping.queue.read a = q.dropWhile (fun q => q.remaining == 0) from h _ s rfl
  intro q
  induction q with
  | nil => intro s hq; simp only [dueShares, hq]; exact ⟨.none rfl rfl rfl rfl, rfl, hq⟩
  | cons e rest ih =>
    intro s hq
    unfold drainDue
    split
    · next h0 =>
      let u := shapeApply a (echoShare s.cfg a e.dir) (setShapingQueue a rest s)
      obtain ⟨i1, i2, i3⟩ := ih u (by simp [u])
      have hu : u.shaping.delta.read a = (payOut (s.shaping.delta.read a) [echoShare s.cfg a e.dir]).1 :=
        shapeApply_paid a _ _
      have hd : dueShares a s = echoShare s.cfg a e.dir :: dueShares a u := by
        simp [dueShares, hq, h0, u, echoShare]
      have h1 : PulsedBy a (payOut (s.shaping.delta.read a) [echoShare s.cfg a e.dir]).2 s u :=
        have h1 : PulsedBy a [] s (setShapingQueue a rest s) := .none rfl rfl rfl rfl
        h1.trans (shapeApply_pulsed a (echoShare s.cfg a e.dir) (setShapingQueue a rest s))
      rw [hd, payOut_cons, ← hu]
      exact ⟨h1.trans i1, i2, by rw [i3]; simp [h0]⟩
    · next h0 =>
      simp only [dueShares, hq]
      simp only [List.takeWhile_cons, List.dropWhile_cons, beq_eq_false_iff_ne.2 h0, Bool.false_eq_true, if_false]
      exact ⟨.none rfl rfl rfl rfl, rfl, by simp⟩

/-- One axis of STEP_EVENT gives `eventPulses` (41_bresenham.md R132, R135). -/
theorem stepEventAxis_pulsed {s : State} {a : Axis} (ha : a.val < s.cfg.numAxes) :
    PulsedBy a (eventPulses s a) s (stepEventAxis s a) := by
  unfold stepEventAxis eventPulses takesStep
  cases skipsAxis s a with
  | true => simpa using PulsedBy.none rfl rfl rfl rfl
  | false =>
    simp only [ha, decide_true, Bool.not_false, Bool.true_and, Bool.and_true, Bool.false_eq_true, if_false,
      Bool.not_eq_true', decide_eq_false_iff_not]
    by_cases h0 : 0 ≤ s.bres.deltaError.read a + (s.bres.advanceDividend.read a : Int)
    · simp only [h0, not_true, if_false, if_true]
      have same : ∀ (u : State) (v : PerAxis Int), PulsedBy a [] u { u with bres.deltaError := v } :=
        fun u v => .none rfl rfl rfl rfl
      unfold stepAxis
      cases s.cfg.inputShaping && s.cfg.shaped.read a with
      | true => simpa using (shapePrimary_pulsed a s).1.trans (same _ _)
      | false => simpa using (physicalPulse_pulsed a (s.bres.countDirection.read a) s).trans (same _ _)
    · simp only [h0, not_false_eq_true, if_true, if_false]
      exact .none rfl rfl rfl rfl

/-- A loop over distinct axes, each of which gives its own pulses: their records stand in the loop's order. -/
theorem foldl_pulsed {f : State → Axis → State} {D : State → Axis → List Dir} {P : State → Axis → Prop}
    (hP : ∀ s a b, P s b → P (f s a) b) (h : ∀ s a, P s a → PulsedBy a (D s a) s (f s a))
    (hne : ∀ s a b, a ≠ b → D (f s a) b = D s b) {l : List Axis} (hl : l.Nodup) (s : State)
    (hs : ∀ a ∈ l, P s a) :
    (l.foldl f s).trace =
        s.trace ++ l.flatMap (fun a => pulseRecords s.timer.now a (s.pins.dirOut.read a) (D s a)) ∧
      (∀ b, (l.foldl f s).bres.countPosition.read b = if b ∈ l then
        s.bres.countPosition.read b + BitVec.ofInt 32 ((D s b).map Dir.sign).sum else s.bres.countPosition.read b) ∧
      (∀ b, (l.foldl f s).pins.dirOut.read b =
        if b ∈ l then levelAfter (s.pins.dirOut.read b) (D s b) else s.pins.dirOut.read b) ∧
      (∀ b, (l.foldl f s).pins.stepOut.read b =
        if b ∈ l ∧ D s b ≠ [] then false else s.pins.stepOut.read b) ∧
      (l.foldl f s).pins.enableLines = s.pins.enableLines := by
  induction l generalizing s with
  | nil => simp
  | cons a l ih =>
    have ha := h s a (hs a List.mem_cons_self)
    have hal : a ∉ l := (List.nodup_cons.1 hl).1
    obtain ⟨i1, i2, i3, i4, i5⟩ := ih hl.of_cons (f s a) (fun b hb => hP _ _ _ (hs b (List.mem_cons_of_mem _ hb)))
    have hb : ∀ b ∈ l, a ≠ b := fun b hb hab => hal (hab ▸ hb)
    rw [List.foldl_cons]
    refine ⟨?_, fun b => ?_, fun b => ?_, fun b => ?_, by rw [i5, ha.enableLines]⟩
    · rw [i1, ha.trace, List.flatMap_cons, List.append_assoc]
      congr 2
      refine List.flatMap_congr fun b hbl => ?_
      rw [ha.now, ha.dirOut, if_neg (Ne.symm (hb b hbl)), hne s a b (hb b hbl)]
    · rw [i2, ha.position]
      by_cases hba : b = a
      · subst hba; simp [hal]
      · simp [hba, hne s a b (Ne.symm hba)]
    · rw [i3, ha.dirOut]
      by_cases hba : b = a
      · subst hba; simp [hal]
      · simp [hba, hne s a b (Ne.symm hba)]
    · rw [i4, ha.stepOut]
      by_cases hba : b = a
      · subst hba; simp [hal]
      · simp [hba, hne s a b (Ne.symm hba)]

/-! ## Step events on the shaped axes (41_bresenham.md R132, 45_aux_pulse.md R235) -/

/-- A loop over other axes leaves alone the part `g` of State that only axis `b`'s step changes. -/
theorem foldl_axis_not_mem {β : Type} {f : State → Axis → State} {g : State → β} {b : Axis}
    (hne : ∀ s a, a ≠ b → g (f s a) = g s) {l : List Axis} (hb : b ∉ l) (s : State) : g (l.foldl f s) = g s := by
  induction l generalizing s with
  | nil => rfl
  | cons a l ih =>
    rw [List.mem_cons, not_or] at hb
    rw [List.foldl_cons, ih hb.2, hne s a (Ne.symm hb.1)]

/-- A loop over distinct axes does to that part what axis `b`'s own step does, where no other axis's step matters. -/
theorem foldl_axis_at {β : Type} {f : State → Axis → State} {g : State → β} {P : State → Prop} {b : Axis}
    (hP : ∀ s a, P s → P (f s a)) (hne : ∀ s a, a ≠ b → g (f s a) = g s)
    (hat : ∀ s a, P s → a ≠ b → g (f (f s a) b) = g (f s b)) {l : List Axis} (hl : l.Nodup) (hb : b ∈ l) (s : State)
    (hs : P s) : g (l.foldl f s) = g (f s b) := by
  induction l generalizing s with
  | nil => exact absurd hb List.not_mem_nil
  | cons a l ih =>
    rw [List.foldl_cons]
    by_cases hab : a = b
    · subst hab
      exact foldl_axis_not_mem hne (List.nodup_cons.1 hl).1 _
    · rw [ih hl.of_cons ((List.mem_cons.1 hb).resolve_left (Ne.symm hab)) _ (hP s a hs), hat s a hs hab]

/-- One axis of STEP_EVENT changes no other axis's accumulator or echoes. -/
theorem stepEventAxis_shaping_ne {a b : Axis} (h : a ≠ b) (s : State) :
    (stepEventAxis s a).shaping.delta.read b = s.shaping.delta.read b ∧
      (stepEventAxis s a).shaping.queue.read b = s.shaping.queue.read b := by
  unfold stepEventAxis
  split
  · exact ⟨rfl, rfl⟩
  · simp only []
    split
    · exact stepAxis_shaping_ne h _ s
    · exact ⟨rfl, rfl⟩

/-- Whether an axis steps depends on no other axis. -/
theorem takesStep_ne {a b : Axis} (h : a ≠ b) (s : State) : takesStep (stepEventAxis s a) b = takesStep s b := by
  unfold takesStep skipsAxis
  rw [(stepEventAxis_ne h s).1, stepEventAxis_bres]; simp

theorem primaryShares_ne {a b : Axis} (h : a ≠ b) (s : State) :
    primaryShares (stepEventAxis s a) b = primaryShares s b := by
  unfold primaryShares forcesEcho
  rw [(stepEventAxis_shaping_ne h s).2, stepEventAxis_bres]; simp

theorem eventPulses_ne {a b : Axis} (h : a ≠ b) (s : State) :
    eventPulses (stepEventAxis s a) b = eventPulses s b := by
  unfold eventPulses
  rw [takesStep_ne h, primaryShares_ne h, (stepEventAxis_shaping_ne h s).1, stepEventAxis_bres]; simp

/-- One axis of STEP_EVENT on its own accumulator and echoes. -/
theorem stepEventAxis_shaping_same {s : State} {a : Axis} (ha : a.val < s.cfg.numAxes) :
    (stepEventAxis s a).shaping.delta.read a =
      (if takesStep s a && (s.cfg.inputShaping && s.cfg.shaped.read a) then
        (payOut (s.shaping.delta.read a) (primaryShares s a)).1 else s.shaping.delta.read a) ∧
    (stepEventAxis s a).shaping.queue.read a =
      (if takesStep s a && (s.cfg.inputShaping && s.cfg.shaped.read a) then
        (if forcesEcho s a then (s.shaping.queue.read a).tail else s.shaping.queue.read a) ++
          [⟨s.bres.countDirection.read a, s.cfg.shapingDelay.read a⟩] else s.shaping.queue.read a) := by
  unfold stepEventAxis takesStep
  cases skipsAxis s a with
  | true => simp
  | false =>
    simp only [ha, decide_true, Bool.not_false, Bool.true_and, Bool.false_eq_true, if_false]
    by_cases h0 : 0 ≤ s.bres.deltaError.read a + (s.bres.advanceDividend.read a : Int)
    · simp only [h0, if_true, decide_true, Bool.true_and]
      unfold stepAxis
      cases s.cfg.inputShaping && s.cfg.shaped.read a with
      | true => simpa using (shapePrimary_pulsed a s).2
      | false => simp
    · simp only [h0, if_false, decide_false, Bool.false_and, Bool.false_eq_true, and_self]

/-- STEP_EVENT on one axis's accumulator and echoes. -/
theorem stepEvent_shaping (s : State) (a : Axis) :
    let shaped := takesStep s a && (s.cfg.inputShaping && s.cfg.shaped.read a)
    (stepEvent s).shaping.delta.read a =
      (if shaped then (payOut (s.shaping.delta.read a) (primaryShares s a)).1 else s.shaping.delta.read a) ∧
    (stepEvent s).shaping.queue.read a =
      (if shaped then (if forcesEcho s a then (s.shaping.queue.read a).tail else s.shaping.queue.read a) ++
        [⟨s.bres.countDirection.read a, s.cfg.shapingDelay.read a⟩] else s.shaping.queue.read a) := by
  have hne : ∀ (t : State) b, b ≠ a → ((stepEventAxis t b).shaping.delta.read a,
      (stepEventAxis t b).shaping.queue.read a) = (t.shaping.delta.read a, t.shaping.queue.read a) :=
    fun t b h => by rw [(stepEventAxis_shaping_ne h t).1, (stepEventAxis_shaping_ne h t).2]
  by_cases ha : a.val < s.cfg.numAxes
  · have := foldl_axis_at (f := stepEventAxis) (g := fun t => (t.shaping.delta.read a, t.shaping.queue.read a))
      (P := fun t => a.val < t.cfg.numAxes) (fun t b h => by simpa using h) hne
      (fun t b ht h => by
        obtain ⟨d, q⟩ := stepEventAxis_shaping_same (s := stepEventAxis t b) (a := a) (by simpa using ht)
        obtain ⟨d', q'⟩ := stepEventAxis_shaping_same ht
        have hf : forcesEcho (stepEventAxis t b) a = forcesEcho t a := by
          unfold forcesEcho; rw [(stepEventAxis_shaping_ne h t).2, stepEventAxis_cfg]
        have hb : (stepEventAxis t b).bres.countDirection = t.bres.countDirection := by rw [stepEventAxis_bres]
        rw [d, q, d', q', takesStep_ne h, primaryShares_ne h, hf, (stepEventAxis_shaping_ne h t).1,
          (stepEventAxis_shaping_ne h t).2, hb, stepEventAxis_cfg])
      s.cfg.liveAxes_nodup (by simpa using ha) s ha
    obtain ⟨h1, h2⟩ := Prod.mk.inj this
    obtain ⟨d, q⟩ := stepEventAxis_shaping_same ha
    exact ⟨h1.trans d, h2.trans q⟩
  · have := foldl_axis_not_mem (f := stepEventAxis) (g := fun t => (t.shaping.delta.read a, t.shaping.queue.read a))
      (l := s.cfg.liveAxes) hne (by simpa using ha) s
    have ht : takesStep s a = false := by simp [takesStep, ha]
    simpa [ht, stepEvent] using this

end Sys2Proof.Machine
end

