-- ==== Sys2Proof/Laws/Steps.lean ====
section
/-! SUPPORT. The induction over moves, packaged once: a property closed under the named updates is kept by every
step. A proof of an invariant is then one short proof for each update. -/

namespace Sys2Proof.Machine

/-- A property of states closed under the engine's work: every sub-operation of a TICK, and the countdowns' writes. -/
structure EngineKept (I : State → Prop) : Prop where
  nextMain : ∀ s n, I s → I { s with timer.nextMain := n }
  nextAdv : ∀ s n, I s → I { s with timer.nextAdv := n }
  nextBaby : ∀ s n, I s → I { s with timer.nextBaby := n }
  pulsePhase : ∀ s, I s → I (pulsePhase s)
  stepEvent : ∀ s, I s → I (stepEvent s)
  shapingIsr : ∀ s, I s → I (shapingIsr s)
  advanceIsr : ∀ s, I s → I (advanceIsr s)
  babystepIsr : ∀ s, I s → I (babystepIsr s)
  blockPhase : ∀ s, I s → I (blockPhase s).1
  program : ∀ s e, I s → I (programTimer e s)

/-- A property of states closed under every update a step is made of. `host` closes it under any change of the
host's registers: a property about those has its own proof (`step_next` and `runMove_next`, Laws/Moves.lean). -/
structure Kept (I : State → Prop) : Prop extends EngineKept I where
  env : ∀ s e, I s → I { s with env := e }
  host : ∀ s h, I s → I { s with host := h }
  pq : ∀ s q, I s → I { s with pq := q }
  abort : ∀ s, I s → I (requestAbort s)
  position : ∀ s v, I s → I { s with bres.countPosition := v }
  baby : ∀ s a (n : Int), n.natAbs ≤ s.cfg.babystepMax → I s → I { s with babyPending := s.babyPending.write a n }
  enable : ∀ s a on, I s → I (driveEnable a on s)
  reset : ∀ s, I s → I (resetMachine s)

variable {I : State → Prop}

theorem Kept.setResult (k : Kept I) (v : Word) {s : State} (h : I s) : I (setResult v s) := k.host _ _ h

theorem Kept.setReply (k : Kept I) (r : Reply) {s : State} (h : I s) : I (setReply r s) := k.env _ _ h

theorem Kept.raiseHostError (k : Kept I) (e : HostError) {s : State} (h : I s) : I (raiseHostError e s) := k.host _ _ h

theorem Kept.acceptCommand (k : Kept I) (w : Word) {s : State} (h : I s) : I (acceptCommand w s) := k.host _ _ h

theorem Kept.holdCommand (k : Kept I) {s : State} (h : I s) : I (holdCommand s) := k.host _ _ h

theorem Kept.releaseCommand (k : Kept I) {s : State} (h : I s) : I (releaseCommand s) := k.host _ _ h

/-- A sub-operation taken by itself keeps what the sub-operation keeps. -/
theorem engineStep_keeps {f : State → State} (hf : ∀ s, I s → I (f s)) {s : State} (h : I s) : I (engineStep f s) := by
  unfold engineStep
  split
  · exact h
  · exact hf s h

/-- A TICK keeps the property. -/
theorem EngineKept.tick (k : EngineKept I) {s : State} (h : I s) : I (tick s) := by
  have hadv : ∀ s, I s → I (tickAdvance s) := fun s h => by
    unfold tickAdvance
    split
    · exact k.nextAdv _ _ (k.advanceIsr s h)
    · exact h
  have hbaby : ∀ s, I s → I (tickBabystep s) := fun s h => by
    unfold tickBabystep
    split
    · exact k.nextBaby _ _ (k.babystepIsr s h)
    · exact h
  have hmid : ∀ u, I u → I (tickBabystep (tickAdvance (if u.cfg.inputShaping then Machine.shapingIsr u else u))) :=
    fun u hu => by
      split
      · exact hbaby _ (hadv _ (k.shapingIsr _ hu))
      · exact hbaby _ (hadv _ hu)
  have htasks : I (tickTasks s) := by
    unfold tickTasks
    cases hm : (s.timer.nextMain == 0) with
    | true => exact k.nextMain _ _ (k.blockPhase _ (hmid _ (k.pulsePhase _ h)))
    | false => exact hmid _ h
  unfold Machine.tick
  split
  · exact h
  · simp only []
    split
    · exact htasks
    · exact k.program _ _ htasks

/-- Every operation keeps the property. -/
theorem Kept.exec (k : Kept I) (i : Instr) {s t : State} (hs : I s) (h : exec i s = .next t) : I t := by
  have hperf : ∀ (i : Instr) (f : State → State), (∀ s, I s → I (f s)) → perform i s f = .next t → I t := by
    intro i f hf h
    rcases perform_cases i s f with ⟨e, -, he⟩ | ⟨-, he⟩
    · rw [he] at h; cases h; exact k.raiseHostError _ hs
    · rw [he] at h; cases h; exact hf s hs
  have hidle : ∀ (f : State → State), (∀ s, I s → I (f s)) → ∀ s, I s → I (whenIdle f s) := by
    intro f hf s hs
    unfold whenIdle
    split
    · exact hf s hs
    · exact k.holdCommand hs
  have haxis : ∀ (i : Instr) (a : Fin 16) (f : Axis → State → State), (∀ a s, I s → I (f a s)) →
      performAxis i a s f = .next t → I t := by
    intro i a f hf h
    refine hperf i _ ?_ h
    intro u hu
    cases axisOperand u.cfg a with
    | some b => exact hf b u hu
    | none => exact k.raiseHostError _ hu
  cases i with
  | nop => refine hperf .nop _ ?_ h; exact fun s h => k.setResult _ h
  | getPosition a =>
    refine haxis (.getPosition a) a _ ?_ h; exact fun a => hidle _ (fun s h => k.setResult _ h)
  | setPosition =>
    refine hperf .setPosition _ ?_ h; exact hidle _ (fun s h => k.setResult _ (k.position _ _ h))
  | setAxisPosition a =>
    refine haxis (.setAxisPosition a) a _ ?_ h; exact fun a => hidle _ (fun s h => k.setResult _ (k.position _ _ h))
  | isBlockBusy => refine hperf .isBlockBusy _ ?_ h; exact fun s h => k.setResult _ h
  | abort =>
    simp only [Machine.exec, execAbort] at h
    refine hperf .abort _ ?_ h; exact fun s h => k.setResult _ (k.abort _ h)
  | babystep a =>
    refine haxis (.babystep a) a _ ?_ h
    intro a s h
    unfold requestBabystep
    simp only []
    split
    · next hn => exact k.setResult _ (k.baby _ _ _ hn h)
    · exact k.setResult _ h
  | enable a =>
    simp only [Machine.exec, execEnable] at h
    refine haxis (.enable a) a _ ?_ h; exact fun a s h => k.setResult _ (k.enable _ _ _ h)
  | disable a =>
    simp only [Machine.exec, execDisable] at h
    refine haxis (.disable a) a _ ?_ h; exact fun a s h => k.setResult _ (k.enable _ _ _ h)
  | clearEndstops =>
    simp only [Machine.exec, execClearEndstops] at h
    refine hperf .clearEndstops _ ?_ h; exact fun s h => k.setResult _ (k.host _ _ h)
  | isIdle => refine hperf .isIdle _ ?_ h; exact fun s h => k.setResult _ h
  | clearDiag =>
    simp only [Machine.exec, execClearDiag] at h
    refine hperf .clearDiag _ ?_ h; exact fun s h => k.setResult _ (k.host _ _ h)
  | endstop a =>
    simp only [Machine.exec, execEndstop] at h
    split at h
    · cases h; exact k.abort _ (k.host _ _ hs)
    · cases h; exact hs
  | tick => simp only [Machine.exec, execTick] at h; cases h; exact k.tick hs
  | pulsePhase => simp only [Machine.exec, execPulsePhase] at h; cases h; exact engineStep_keeps k.pulsePhase hs
  | stepEvent => simp only [Machine.exec, execStepEvent] at h; cases h; exact engineStep_keeps k.stepEvent hs
  | blockPhase =>
    simp only [Machine.exec, execBlockPhase] at h; cases h
    exact engineStep_keeps (fun s h => k.setReply _ (k.blockPhase s h)) hs
  | shapingIsr => simp only [Machine.exec, execShapingIsr] at h; cases h; exact engineStep_keeps k.shapingIsr hs
  | advanceIsr => simp only [Machine.exec, execAdvanceIsr] at h; cases h; exact engineStep_keeps k.advanceIsr hs
  | babystepIsr => simp only [Machine.exec, execBabystepIsr] at h; cases h; exact engineStep_keeps k.babystepIsr hs
  | getCurrentBlock =>
    simp only [Machine.exec, execGetCurrentBlock] at h; cases h
    exact engineStep_keeps (fun s h => k.setReply _ h) hs
  | discardCurrentBlock =>
    simp only [Machine.exec, execDiscardCurrentBlock] at h; cases h
    exact engineStep_keeps (fun s h => k.pq _ _ h) hs

/-- Every step keeps the property. -/
theorem Kept.step (k : Kept I) {s t : State} (hs : I s) (h : step s = .next t) : I t := by
  obtain ⟨-, m, e, hm⟩ := step_next h
  have h0 : I { s with env := e } := k.env _ _ hs
  rcases runMove_next hm with ⟨r, rfl⟩ | ⟨e, rfl⟩ | ⟨w, i, -, -, -, rfl⟩ | ⟨w, i, -, -, -, hx⟩ | ⟨i, -, -, -, hx⟩ |
    ⟨i, v, rfl⟩ | rfl | ⟨i, -, hx⟩ | ⟨d, rfl⟩ | ⟨e, rfl⟩ | rfl
  · exact k.setReply _ h0
  · exact k.raiseHostError _ h0
  · exact k.holdCommand (k.acceptCommand _ h0)
  · exact k.exec i (k.acceptCommand _ h0) hx
  · exact k.exec i (k.releaseCommand h0) hx
  · exact k.host _ _ h0
  · exact h0
  · exact k.exec i h0 hx
  · unfold plannerAppend
    split
    · exact k.pq _ _ h0
    · exact h0
  · exact k.tick (k.env _ _ h0)
  · exact k.reset _ h0

/-! ## Properties of pins, positions and the trace -/

/-- A property of the pins, the positions, the trace and the virtual time alone, closed under a pulse, a DIR write,
a record of another kind and a position sync. -/
structure PulseKept (I : State → Prop) : Prop where
  same : ∀ {s t : State}, I s → t.pins = s.pins → t.bres.countPosition = s.bres.countPosition → t.trace = s.trace →
    t.timer.now = s.timer.now → I t
  pulse : ∀ s a d, I s → I (physicalPulse a d s)
  dir : ∀ s a l, I s → I (driveDir a l s)
  note : ∀ s e, (∀ a d, e ≠ .step a d) → (∀ a l, e ≠ .dir a l) → (∀ k v, e ≠ .syncOut k v) → I s → I (emit e s)
  sync : ∀ s d, I s → I (applySync d s)

namespace PulseKept

theorem foldl {α : Type} {f : State → α → State} (h : ∀ s a, I s → I (f s a)) (l : List α) {s : State} (hs : I s) :
    I (l.foldl f s) := by
  induction l generalizing s with
  | nil => exact hs
  | cons a l ih => exact ih (h s a hs)

variable (k : PulseKept I)
include k

theorem shapeApply (a : Axis) (n : Int) {s : State} (h : I s) : I (shapeApply a n s) := by
  have h0 : I (setShapingDelta a (s.shaping.delta.read a + n) s) := k.same h rfl rfl rfl rfl
  unfold Machine.shapeApply
  simp only []
  split
  · exact k.same (k.pulse _ a .pos h0) rfl rfl rfl rfl
  · split
    · exact k.same (k.pulse _ a .neg h0) rfl rfl rfl rfl
    · exact h0

theorem queue (a : Axis) (q : List Echo) {s : State} (h : I s) : I (setShapingQueue a q s) :=
  k.same h rfl rfl rfl rfl

theorem shapePrimary (a : Axis) (d : Dir) {s : State} (h : I s) : I (shapePrimary a d s) := by
  have hf : ∀ u, I u → I (forceEcho a u) := fun u hu => by
    unfold forceEcho
    split
    · exact hu
    · exact k.shapeApply _ _ (k.queue _ _ hu)
  unfold Machine.shapePrimary
  exact k.queue _ _ (k.shapeApply _ _ (by split; exacts [hf _ h, h]))

theorem stepAxis (a : Axis) (d : Dir) {s : State} (h : I s) : I (stepAxis a d s) := by
  unfold Machine.stepAxis
  split
  · exact k.shapePrimary a d h
  · exact k.pulse _ a d h

theorem stepEvent {s : State} (h : I s) : I (stepEvent s) := by
  refine PulseKept.foldl (fun s a h => ?_) _ h
  unfold stepEventAxis
  split
  · exact h
  · simp only []
    split
    · exact k.same (k.stepAxis a _ h) rfl rfl rfl rfl
    · exact k.same h rfl rfl rfl rfl

theorem runEvents (n : Nat) {s : State} (h : I s) : I (runEvents n s) := by
  induction n generalizing s with
  | zero => exact h
  | succ n ih => exact ih (k.same (k.stepEvent h) rfl rfl rfl rfl)

theorem shapingIsr {s : State} (h : I s) : I (shapingIsr s) := by
  have hd : ∀ (a : Axis) (q : List Echo) (s : State), I s → I (drainDue a q s) := by
    intro a q
    induction q with
    | nil => exact fun s h => h
    | cons e rest ih =>
      intro s h
      unfold drainDue
      split
      · exact ih _ (k.shapeApply _ _ (k.queue _ _ h))
      · exact h
  exact PulseKept.foldl (fun s a h => hd a _ s h) _ h

theorem discardBlock (b : BlockRec) {s : State} (h : I s) : I (discardBlock b s) := by
  have h1 : I (emit (.discard b.id) (plannerDiscard s)) :=
    k.note _ _ (by simp) (by simp) (by simp) (k.same h rfl rfl rfl rfl)
  unfold Machine.discardBlock
  simp only []
  split <;> exact k.same h1 rfl rfl rfl rfl

theorem pulsePhase {s : State} (h : I s) : I (pulsePhase s) := by
  unfold Machine.pulsePhase
  split
  · have h1 : I { s with seq.abortCurrentBlock := false } := k.same h rfl rfl rfl rfl
    have h2 : ∀ u, I u → I (emit (.positionResync (positions (shapingFlush u))) (shapingFlush u)) := fun u hu =>
      k.note _ _ (by simp) (by simp) (by simp) (k.same hu rfl rfl rfl rfl)
    unfold consumeAbort
    refine h2 _ ?_
    simp only []
    split
    · next b _ => exact k.discardBlock b (k.note _ (.blockAborted b.id) (by simp) (by simp) (by simp) h1)
    · exact h1
  · split
    · exact h
    · exact k.runEvents _ h

theorem advanceIsr {s : State} (h : I s) : I (advanceIsr s) := by
  unfold Machine.advanceIsr
  split
  · simp only []
    split
    · have h1 : I { s with la.deltaError := s.la.deltaError + s.la.dividend - s.bres.advanceDivisor } :=
        k.same h rfl rfl rfl rfl
      exact k.same (k.pulse _ s.cfg.eAxis (s.bres.countDirection.read s.cfg.eAxis) h1) rfl rfl rfl rfl
    · exact k.same h rfl rfl rfl rfl
  · exact h

theorem babystepIsr {s : State} (h : I s) : I (babystepIsr s) := by
  unfold Machine.babystepIsr
  split
  · exact h
  · exact k.dir _ _ _ (k.same (k.pulse _ _ _ h) rfl rfl rfl rfl)

theorem setDirections (bits : BitVec 8) {s : State} (h : I s) : I (setDirections bits s) := by
  unfold Machine.setDirections
  simp only []
  split
  · exact k.same h rfl rfl rfl rfl
  · have hd : ∀ u a, I u → I (setAxisDir bits s.bres.lastDirectionBits u a) := fun u a hu => by
      unfold setAxisDir
      split
      · exact hu
      · split
        · exact hu
        · exact k.dir _ _ _ hu
    have h1 : I { s with
        bres.countDirection := PerAxis.build (fun a =>
          if a.val < s.cfg.numAxes then Dir.ofBit (bits.getLsbD a.val) else s.bres.countDirection.read a) } :=
      k.same h rfl rfl rfl rfl
    exact k.same (PulseKept.foldl hd s.cfg.liveAxes h1) rfl rfl rfl rfl

theorem loadBlock (d : Descriptor) {s : State} (h : I s) : I (loadBlock d s).1 := by
  unfold Machine.loadBlock
  simp only []
  have h1 := k.setDirections (applyOversampling (oversamplingShift s.cfg d.block.nominalRate) d.block).directionBits
    (s := bresenhamInit (applyOversampling (oversamplingShift s.cfg d.block.nominalRate) d.block)
      { s with
        seq := { s.seq with
          current := some (applyOversampling (oversamplingShift s.cfg d.block.nominalRate) d.block)
          stepEventsCompleted := 0 }
        timer.oversampling := oversamplingShift s.cfg d.block.nominalRate }) (k.same h rfl rfl rfl rfl)
  split <;> exact k.same h1 (by simp) (by simp) (by simp) (by simp)

theorem loadFrom (q : List Descriptor) {s : State} (h : I s) : I (loadFrom q s).1 := by
  induction q generalizing s with
  | nil => exact h
  | cons d rest ih =>
    unfold Machine.loadFrom
    split
    · exact k.same h rfl rfl rfl rfl
    · split
      · exact k.same h rfl rfl rfl rfl
      · split
        · exact ih (k.note _ _ (by simp) (by simp) (by simp) (k.same (k.sync _ d h) rfl rfl rfl rfl))
        · exact k.loadBlock d h

theorem blockPhase {s : State} (h : I s) : I (blockPhase s).1 := by
  unfold Machine.blockPhase
  split
  · exact k.loadFrom _ h
  · next b _ =>
    split
    · exact k.loadFrom _ (k.discardBlock b (k.note _ (.blockDone b.id) (by simp) (by simp) (by simp) h))
    · exact k.same h (by simp) (by simp) (by simp) (by simp)

/-- The engine's work keeps the property, if the end of a TICK does. -/
theorem engine (program : ∀ s e, I s → I (programTimer e s)) : EngineKept I where
  nextMain _ _ h := k.same h rfl rfl rfl rfl
  nextAdv _ _ h := k.same h rfl rfl rfl rfl
  nextBaby _ _ h := k.same h rfl rfl rfl rfl
  pulsePhase _ h := k.pulsePhase h
  stepEvent _ h := k.stepEvent h
  shapingIsr _ h := k.shapingIsr h
  advanceIsr _ h := k.advanceIsr h
  babystepIsr _ h := k.babystepIsr h
  blockPhase _ h := k.blockPhase h
  program := program

/-- With the four updates that are no pulse's work, the property is kept by every step. -/
theorem kept (position : ∀ s v, I s → I { s with bres.countPosition := v })
    (enable : ∀ s a on, I s → I (driveEnable a on s)) (program : ∀ s e, I s → I (programTimer e s))
    (reset : ∀ s, I s → I (resetMachine s)) : Kept I where
  toEngineKept := k.engine program
  env _ _ h := k.same h rfl rfl rfl rfl
  host _ _ h := k.same h rfl rfl rfl rfl
  pq _ _ h := k.same h rfl rfl rfl rfl
  abort _ h := k.same h rfl rfl rfl rfl
  position := position
  baby _ _ _ _ h := k.same h rfl rfl rfl rfl
  enable := enable
  reset := reset

end PulseKept

end Sys2Proof.Machine
end

