-- ==== Sys2Proof/Tests/Slice0.lean ====
section
/-! SUPPORT. Tests: the spec's encodings, its worked examples one step at a time, and for every statement a concrete
state that meets its hypotheses. Expected values are the spec's own (30_encoding.md and 95_test_vectors.md, whose vector
each test names). -/

namespace Sys2Proof.Tests

open Sys2Proof Sys2Proof.Machine

/-! ## Helpers -/

/-- The next state, if the machine goes on. -/
def nextOf : Host.Outcome State Fault Refusal → Option State
  | .next t => some t
  | _ => none

/-- The machine goes on to a state with property `p`. -/
def nextIs (o : Host.Outcome State Fault Refusal) (p : State → Bool) : Bool := ((nextOf o).map p).getD false

/-- The machine stops with the fault `f`. -/
def faultIs (o : Host.Outcome State Fault Refusal) (f : Fault) : Bool :=
  match o with
  | .fault g => g == f
  | _ => false

/-- The machine stops with the refusal `r`. -/
def refusalIs (o : Host.Outcome State Fault Refusal) (r : Refusal) : Bool :=
  match o with
  | .refused g => g == r
  | _ => false

/-- The reset state under a configuration. -/
def fresh (c : Config) : State := State.resetWith c [] Env.initial

/-- The reset state with one move to come. -/
def coming (m : Move) (s : State := State.reset) : State := { s with env.schedule := [m] }

/-- A descriptor: id, flags, direction bits, N, accelerate_before, decelerate_start, the three rates, and steps X. -/
def descriptor (id flags bits n ab ds ir nr fr x : Word) : Descriptor :=
  ⟨#v[id, flags, bits, n, ab, ds, ir, nr, fr, 20762, 167, 167, 0, 0, 0, 0, x, 0, 0, 0, 0, 0, 0, 0, 255]⟩

/-- A motion block of `n` step events at 1000 steps/s with `x` steps on X. -/
def motion (id n x : Word) : Descriptor := descriptor id 0 0 n 0 n 1000 1000 1000 x

/-- The block of vector S2. -/
def ramp : Descriptor := descriptor 2 0 0 1000 200 800 100 1000 100 1000

/-- A state with the block of `d` loaded and `j` step events done. -/
def loaded (d : Descriptor) (j : Nat) (c : Config := Config.default) : State :=
  let s := bresenhamInit d.block (fresh c)
  { s with seq := { s.seq with current := some d.block, stepEventsCompleted := j }, pq := [d] }

/-- Babystepping on. -/
def babyConfig : Config := { babystepping := true }

/-- Input shaping on X, with the delay and factor of vector V7. -/
def shapeConfig : Config :=
  { inputShaping := true, shaped := #v[true, false, false, false, false, false, false, false]
    shapingDelay := PerAxis.all 500 }

/-- Linear advance on. -/
def advanceConfig : Config := { linAdvance := true }

/-! ## Well-formedness: what the check refuses (30_encoding.md R82) -/

theorem test_wellFormed_axis_exists : (Instr.getPosition 3).wellFormed Config.default = true := by decide

theorem test_wellFormed_refuses_axis_4_of_4 : (Instr.getPosition 4).wellFormed Config.default = false := by decide

theorem test_wellFormed_refuses_axis_8_of_8 : (Instr.endstop 8).wellFormed { numAxes := 8 } = false := by decide

theorem test_wellFormed_refuses_each_axis_operand :
    ([.getPosition 15, .setAxisPosition 15, .babystep 15, .enable 15, .disable 15, .endstop 15] : List Instr).all
      (fun i => !i.wellFormed Config.default) = true := by decide

/-! ## Decoding: words written out from 30_encoding.md R80 to R87 (RSV 31:12, AXIS 11:8, OPC 7:0) -/

theorem test_decode_nop : decodeTableWord 32 0b00000000000000000000_0000_00000001 = some .nop := by decide

theorem test_decode_getPosition :
    decodeTableWord 32 0b00000000000000000000_0010_00010000 = some (.getPosition 2) := by decide

theorem test_decode_setPosition :
    decodeTableWord 32 0b00000000000000000000_0000_00010001 = some .setPosition := by decide

theorem test_decode_setAxisPosition :
    decodeTableWord 32 0b00000000000000000000_0101_00010010 = some (.setAxisPosition 5) := by decide

theorem test_decode_isBlockBusy :
    decodeTableWord 32 0b00000000000000000000_0000_00010011 = some .isBlockBusy := by decide

theorem test_decode_abort : decodeTableWord 32 0b00000000000000000000_0000_00010101 = some .abort := by decide

theorem test_decode_babystep :
    decodeTableWord 32 0b00000000000000000000_0010_00010110 = some (.babystep 2) := by decide

theorem test_decode_enable :
    decodeTableWord 32 0b00000000000000000000_0001_00010111 = some (.enable 1) := by decide

theorem test_decode_disable :
    decodeTableWord 32 0b00000000000000000000_0111_00011000 = some (.disable 7) := by decide

theorem test_decode_clearEndstops :
    decodeTableWord 32 0b00000000000000000000_0000_00011001 = some .clearEndstops := by decide

theorem test_decode_isIdle : decodeTableWord 32 0b00000000000000000000_0000_00011010 = some .isIdle := by decide

theorem test_decode_clearDiag : decodeTableWord 32 0b00000000000000000000_0000_00011011 = some .clearDiag := by decide

theorem test_decode_endstop :
    decodeTableWord 32 0b00000000000000000000_0011_11000000 = some (.endstop 3) := by decide

theorem test_decode_tick : decodeTableWord 32 0b00000000000000000000_0000_10000000 = some .tick := by decide

theorem test_decode_pulsePhase : decodeTableWord 32 0b00000000000000000000_0000_10000001 = some .pulsePhase := by decide

theorem test_decode_stepEvent : decodeTableWord 32 0b00000000000000000000_0000_10000010 = some .stepEvent := by decide

theorem test_decode_blockPhase : decodeTableWord 32 0b00000000000000000000_0000_10000011 = some .blockPhase := by decide

theorem test_decode_shapingIsr : decodeTableWord 32 0b00000000000000000000_0000_10000100 = some .shapingIsr := by decide

theorem test_decode_advanceIsr : decodeTableWord 32 0b00000000000000000000_0000_10000101 = some .advanceIsr := by decide

theorem test_decode_babystepIsr :
    decodeTableWord 32 0b00000000000000000000_0000_10000110 = some .babystepIsr := by decide

theorem test_decode_getCurrentBlock :
    decodeTableWord 32 0b00000000000000000000_0000_11100000 = some .getCurrentBlock := by decide

theorem test_decode_discardCurrentBlock :
    decodeTableWord 32 0b00000000000000000000_0000_11100001 = some .discardCurrentBlock := by decide

/-- Reserved opcodes of each format (30_encoding.md R88). -/
theorem test_decode_refuses_reserved_opcodes :
    [0x00, 0x02, 0x14, 0x1C, 0x7F, 0x87, 0xBF, 0xC1, 0xDF, 0xE2, 0xFF].all
      (fun w => (decodeTableWord 32 w).isNone) = true := by decide

/-- A reserved bit set, and an AXIS field set where none is taken (30_encoding.md R80, R82, R88, R89). -/
theorem test_decode_refuses_reserved_fields :
    [0x101, 0x1001, 0x80000001, 0x1110, 0x180, 0x1080, 0x10C0, 0x1E0, 0x1E1].all
      (fun w => (decodeTableWord 32 w).isNone) = true := by decide

theorem test_decode_short_input : (decodeBytes [1, 0, 0]).toOption = none := by decide

theorem test_decode_leaves_the_rest :
    (decodeBytes [0x12, 0x03, 0, 0, 0xAA]).toOption = some (.setAxisPosition 3, [0xAA]) := by decide

/-! ## The next step runs the word (State.withFetchWord) -/

theorem test_fetch_command :
    nextIs (step (State.reset.withFetchWord 32 0x217)) (fun t => t.pins.enableLines == 4 && t.host.result == 4) =
      true := by decide

theorem test_fetch_synchronizing_command :
    nextIs (step ({ State.reset with host := { State.reset.host with arg := PerAxis.all 9 } }.withFetchWord 32 0x112))
      (fun t => t.bres.countPosition.read 1 == 9 && !t.host.cmdPending) = true := by decide

theorem test_fetch_endstop :
    nextIs (step (State.reset.withFetchWord 32 0x1C0)) (fun t => t.host.endstopHit == 2) = true := by decide

theorem test_fetch_tick : nextIs (step (State.reset.withFetchWord 32 0x80)) (fun _ => true) = true := by decide

theorem test_fetch_planner_word :
    nextIs (step (State.reset.withFetchWord 32 0xE0)) (fun t => t.env.reply == .block none) = true := by decide

/-! ## Commands (95_test_vectors.md V9, V12, V13, P1) -/

theorem test_nop_clears_result :
    nextIs (exec .nop (setResult 5 State.reset)) (fun t => t.host.result == 0) = true := by decide

/-- P1: Y stands at −50. -/
theorem test_getPosition_negative :
    nextIs (exec (.getPosition 1) (setCountPosition 1 (-50) State.reset)) (fun t => t.host.result == 0xFFFFFFCE) =
      true := by decide

theorem test_getPosition_waits :
    nextIs (exec (.getPosition 0) (loaded ramp 1)) (fun t => t.host.cmdPending && t.host.result == 0) = true := by
  decide

theorem test_setPosition_every_axis :
    nextIs (exec .setPosition { State.reset with host.arg := #v[1, 2, 3, 4, 5, 6, 7, 8] })
      (fun t => t.bres.countPosition == #v[1, 2, 3, 4, 0, 0, 0, 0]) = true := by decide

theorem test_setAxisPosition_one_axis :
    nextIs (exec (.setAxisPosition 2) { State.reset with host.arg := #v[7, 0, 0, 0, 0, 0, 0, 0] })
      (fun t => t.bres.countPosition == #v[0, 0, 7, 0, 0, 0, 0, 0]) = true := by decide

theorem test_isBlockBusy_yes :
    nextIs (exec .isBlockBusy { loaded (motion 1 10 10) 1 with host.arg := #v[1, 0, 0, 0, 0, 0, 0, 0] })
      (fun t => t.host.result == 1) = true := by decide

theorem test_isBlockBusy_no :
    nextIs (exec .isBlockBusy (setArg 0 2 (loaded (motion 1 10 10) 1))) (fun t => t.host.result == 0) = true := by
  decide

theorem test_abort_sets_status_bit_3 :
    nextIs (exec .abort State.reset) (fun t => readWindow 0x004 t == 0x108) = true := by decide

/-- V9: BABYSTEP_MAX = 2 and two pending, a third is dropped. -/
theorem test_babystep_bound :
    nextIs (exec (.babystep 0) { fresh { babyConfig with babystepMax := 2 } with
        babyPending := #v[2, 0, 0, 0, 0, 0, 0, 0] })
      (fun t => t.host.result == 0 && t.babyPending.read 0 == 2) = true := by decide

theorem test_babystep_negative :
    nextIs (exec (.babystep 2) (setArg 0 1 (fresh babyConfig)))
      (fun t => t.host.result == 1 && t.babyPending.read 2 == -1) = true := by decide

/-- V12: EN_MAP = [0, 0, 1, 2], ENABLE X. -/
theorem test_enable_shared_line :
    nextIs (exec (.enable 0) (fresh { enMap := #v[0, 0, 1, 2, 0, 0, 0, 0] }))
      (fun t => t.host.result == 1 && t.trace == [⟨0, .enable 0 true⟩]) = true := by decide

/-- V12: and then DISABLE Y, which shares the line. -/
theorem test_disable_shared_line :
    nextIs (exec (.disable 1) { fresh { enMap := #v[0, 0, 1, 2, 0, 0, 0, 0] } with pins.enableLines := 1 })
      (fun t => t.host.result == 0 && t.trace == [⟨0, .enable 0 false⟩]) = true := by decide

theorem test_clearEndstops_keeps_positions :
    nextIs (exec .clearEndstops { State.reset with host := { State.reset.host with
        endstopHit := 3, endstopPos := PerAxis.all 5 } })
      (fun t => t.host.endstopHit == 0 && t.host.endstopPos == PerAxis.all 5) = true := by decide

theorem test_isIdle_after_reset :
    nextIs (exec .isIdle State.reset) (fun t => t.host.result == 1) = true := by decide

theorem test_isIdle_with_echo_pending :
    nextIs (exec .isIdle { fresh shapeConfig with shaping.queue := #v[[⟨.pos, 1⟩], [], [], [], [], [], [], []] })
      (fun t => t.host.result == 0) = true := by decide

theorem test_clearDiag :
    nextIs (exec .clearDiag { State.reset with host := { State.reset.host with overrunCount := 9, lostStepRisk := true } })
      (fun t => t.host.overrunCount == 0 && !t.host.lostStepRisk) = true := by decide

/-- V12's error codes, in the rows' order. -/
theorem test_error_codes :
    [0x0, 0x7F, 0x80, 0x1001, 0x101, 0x410, 0x1].map
      (fun w => (nextOf (step (coming (.write 0 4 w)))).map (fun t => t.host.errCode)) =
      [some 1, some 1, some 1, some 2, some 3, some 3, some 0] := by decide

/-- V9: BABYSTEP with the feature absent, and with a bad argument. -/
theorem test_babystep_errors :
    nextIs (step (coming (.write 0 4 0x216))) (fun t => t.host.errCode == 5) = true ∧
    nextIs (step (coming (.write 0 4 0x216) (setArg 0 2 (fresh babyConfig)))) (fun t => t.host.errCode == 6) = true := by
  decide

/-- P1: a command while another is pending. -/
theorem test_command_overrun :
    nextIs (step (coming (.write 0 4 0x1) (holdCommand (acceptCommand 0x110 (loaded ramp 1)))))
      (fun t => t.host.errCode == 4 && t.host.pendingCmd == 0x110) = true := by decide

/-! ## The endstop port (V13) -/

theorem test_endstop_records :
    nextIs (step (coming (.endstopInput 0xC0) (setCountPosition 0 37 (loaded ramp 37))))
      (fun t => readWindow 0x060 t == 37 && readWindow 0x04C t == 1 && t.seq.abortCurrentBlock) = true := by decide

theorem test_endstop_malformed :
    [0x4C0, 0x10C0].all (fun w => nextOf (step (coming (.endstopInput w))) == some State.reset) = true := by decide

/-! ## The planner port -/

theorem test_getCurrentBlock_head :
    nextIs (exec .getCurrentBlock { State.reset with pq := [ramp, motion 1 2 2] })
      (fun t => t.env.reply == .block (some ramp) && t.pq.length == 2) = true := by decide

theorem test_getCurrentBlock_empty :
    nextIs (exec .getCurrentBlock State.reset) (fun t => t.env.reply == .block none) = true := by decide

theorem test_discardCurrentBlock_head :
    nextIs (exec .discardCurrentBlock { State.reset with pq := [ramp, motion 1 2 2] })
      (fun t => t.pq == [motion 1 2 2]) = true := by decide

/-- Distinct ids and N = max(steps per axis) are the planner's duties (47_host_interface.md R302). -/
theorem test_append_refuses_broken_duties :
    refusalIs (step (coming (.append (motion 2 5 5)) { State.reset with pq := [ramp] })) .plannerDutyBroken = true ∧
    refusalIs (step (coming (.append (motion 1 10 9)))) .plannerDutyBroken = true := by decide

/-- V10: a block VALID refuses is appended all the same, and faults when it is loaded. -/
theorem test_append_takes_invalid_block :
    nextIs (step (coming (.append (motion 7 10 11)))) (fun t => t.pq == [motion 7 10 11]) = true := by decide

/-! ## TICK and its parts -/

/-- S2: the load interval. -/
theorem test_tick_loads :
    nextIs (step (coming (.compareMatch (some 0)) { State.reset with pq := [ramp] }))
      (fun t => t.timer.nextIsrTicks == 20000 && t.timer.now == 20000 && t.seq.stepEventsCompleted == 0) = true := by
  decide

/-- V11: e = 1995 with an interval of 2000. -/
theorem test_tick_overrun :
    nextIs (step (coming (.compareMatch (some 1995)) (loaded (motion 1 4 4) 1)))
      (fun t => t.timer.nextIsrTicks == 2003 && t.timer.overrunShift == 1 && t.host.overrunCount == 1 &&
        t.timer.ticksNominal == none) = true := by decide

/-- V7: shift 2, four events in one phase. -/
theorem test_pulsePhase_multi_step :
    nextIs (exec .pulsePhase { loaded (motion 30 8 8) 0 with timer.stepsPerIsrShift := 2 })
      (fun t => t.seq.stepEventsCompleted == 4 && t.bres.countPosition.read 0 == 4) = true := by decide

/-- V13: the abort's records. -/
theorem test_pulsePhase_abort :
    nextIs (exec .pulsePhase (requestAbort (setCountPosition 0 37 (loaded ramp 37))))
      (fun t => t.trace == [⟨0, .blockAborted 2⟩, ⟨0, .discard 2⟩, ⟨0, .positionResync [37, 0, 0, 0]⟩] &&
        t.pq == [] && t.seq.current == none) = true := by decide

/-- V6: delta_error −100, dividend 100, divisor 200: a step, and −200. -/
theorem test_stepEvent_steps :
    nextIs (exec .stepEvent (loaded (motion 1 100 50) 0))
      (fun t => t.bres.deltaError.read 0 == -200 && t.bres.countPosition.read 0 == 1) = true := by decide

theorem test_stepEvent_does_not_step :
    nextIs (exec .stepEvent (loaded (motion 1 100 25) 0))
      (fun t => t.bres.deltaError.read 0 == -50 && t.trace == []) = true := by decide

/-- S2: j = 1, TRAP_ACCEL_RATE(20000) = 124, interval 16129. -/
theorem test_blockPhase_accelerates :
    nextIs (exec .blockPhase { loaded ramp 1 with timer.accelerationTime := 20000 })
      (fun t => t.env.reply == .interval 16129 && t.timer.accStepRate == 124) = true := by decide

/-- V10: an invalid block, steps X 11 > N 10. -/
theorem test_blockPhase_invalid_block :
    nextIs (exec .blockPhase { State.reset with pq := [motion 7 10 11] })
      (fun t => readWindow 0x004 t == 0x10 && readWindow 0x050 t == 2 && t.pq.length == 1) = true := by decide

/-- V10: a fan sync block. -/
theorem test_blockPhase_sync_block :
    nextIs (exec .blockPhase { State.reset with pq := [descriptor 9 0x11 0 0 0 0 0 0 0 0] })
      (fun t => t.trace == [⟨0, .syncOut .fan 255⟩, ⟨0, .discard 9⟩] && t.pq == []) = true := by decide

/-- V7: factor 64, the echo brings −64 to 0 with no pulse. -/
theorem test_shapingIsr_echo_without_pulse :
    nextIs (exec .shapingIsr { fresh shapeConfig with shaping := {
        delta := #v[-64, 0, 0, 0, 0, 0, 0, 0], queue := #v[[⟨.pos, 0⟩], [], [], [], [], [], [], []] } })
      (fun t => t.shaping.delta.read 0 == 0 && t.trace == [] && t.shaping.queue.read 0 == []) = true := by decide

theorem test_shapingIsr_leaves_what_is_not_due :
    nextIs (exec .shapingIsr { fresh shapeConfig with shaping := {
        delta := PerAxis.all 0, queue := #v[[⟨.pos, 0⟩, ⟨.pos, 1⟩], [], [], [], [], [], [], []] } })
      (fun t => t.shaping.delta.read 0 == -64 && t.bres.countPosition.read 0 == 1 &&
        t.shaping.queue.read 0 == [⟨.pos, 1⟩]) = true := by decide

/-- A shaped axis with echoes queued, two of them due, in the middle of a block, and a TICK to come. -/
def echoing : State :=
  coming (.compareMatch (some 0)) { loaded ramp 500 shapeConfig with shaping := {
    delta := #v[63, 0, 0, 0, 0, 0, 0, 0]
    queue := #v[[⟨.pos, 0⟩, ⟨.neg, 0⟩, ⟨.pos, 7⟩, ⟨.pos, 500⟩], [], [], [], [], [], [], []] } }

/-- A state with linear advance active: V8's single call. -/
def advancing : State :=
  { fresh advanceConfig with
    bres.advanceDivisor := 200
    la := { State.reset.la with active := true, dividend := 100, deltaError := -100 } }

/-- V8: the single call. -/
theorem test_advanceIsr_steps :
    nextIs (exec .advanceIsr advancing)
      (fun t => t.la.deltaError == -200 && t.la.advanceSteps == 1 && t.trace == [⟨0, .step 3 .pos⟩]) = true := by decide

/-- V9: two negative babysteps pending on Z. -/
theorem test_babystepIsr_restores_dir :
    nextIs (exec .babystepIsr { fresh babyConfig with babyPending := #v[0, 0, -2, 0, 0, 0, 0, 0] })
      (fun t => t.babyPending.read 2 == -1 && t.bres.countPosition.read 2 == -1 &&
        t.trace == [⟨0, .dir 2 true⟩, ⟨0, .step 2 .neg⟩, ⟨0, .dir 2 false⟩]) = true := by decide

/-! ## Arithmetic (V1 to V5) -/

theorem test_baseInterval :
    [0, 1, 1000, 2000000, 2000001].map (baseInterval Config.default) = [4294967295, 2000000, 2000, 1, 1] := by decide

theorem test_baseInterval_16_bits :
    [3, 29, 30, 31, 1000].map (baseInterval { timerBits := 16 }) = [65535, 65535, 65535, 64516, 2000] := by decide

theorem test_calcTimerInterval :
    [40000, 40001, 80002, 5120001, 10000000, 4294967295].map (fun r =>
      ((calcTimerInterval r State.reset).1.timer.stepsPerIsrShift, (calcTimerInterval r State.reset).2)) =
      [(0, 50), (1, 100), (2, 100), (7, 50), (7, 25), (7, 1)] := by decide

theorem test_oversamplingShift :
    [0, 100, 300, 499, 500, 999, 1000].map (oversamplingShift { adaptiveSmoothing := true }) = [3, 3, 2, 2, 1, 1, 0] := by
  decide

theorem test_trapAccelRate :
    [0, 808, 809, 726000, 10000000].map (trapAccelRate Config.default ramp.block) = [100, 100, 101, 998, 1000] := by
  decide

theorem test_trapDecelRate :
    [0, 808, 809, 2425, 800000, 1000000000].map (trapDecelRate Config.default ramp.block 1000) =
      [1000, 1000, 999, 997, 100, 100] := by decide

theorem test_bezEval :
    [0, 25000, 50000, 75000, 100000, 100500].map (fun t =>
      bezEval Config.default (bezCoeffs 100 1000 State.reset.bez) t 167) = [100, 192, 546, 903, 999, 1000] := by decide

theorem test_bezEval_falling :
    [4194304, 8388608, 12582912, 16777216].map (fun t =>
      bezEval Config.default (bezCoeffs 1000 100 State.reset.bez) t 1) = [906, 550, 193, 100] := by decide

/-- V10: the other invalid blocks. -/
theorem test_valid_refuses :
    ([descriptor 1 0x31 0 0 0 0 0 0 0 0, descriptor 1 0 0 10 3 2 1000 1000 1000 10, motion 1 0x40000000 1,
      descriptor 1 3 0 0 0 0 0 0 0 0, descriptor 1 0x100 0 10 0 10 1000 1000 1000 10] : List Descriptor).all
      (fun d => !valid Config.default d) = true := by decide

/-! ## The register window and the stops -/

theorem test_reset_registers :
    [0x000, 0x004, 0x00C, 0x038, 0x054, 0x0FC].map (fun off => readWindow off State.reset) = [0, 0x100, 0, 2000, 0, 0] := by
  decide

theorem test_outside_the_window :
    faultIs (step (coming (.read 256 4))) .outsideWindow = true ∧
    faultIs (step (coming (.write 0xFFC 4 0) (fresh { regBase := 0x1000 }))) .outsideWindow = true := by decide

theorem test_accesses_refused :
    refusalIs (step (coming (.read 2 4))) .accessNotAdmitted = true ∧
    refusalIs (step (coming (.write 0 2 1))) .accessNotAdmitted = true := by decide

theorem test_illegal_configuration_runs_nothing :
    refusalIs (step (fresh { numAxes := 3 })) .illegalConfiguration = true := by decide

theorem test_descriptor_bytes :
    Descriptor.ofBytes (ramp.toBytes) = some ramp ∧ ramp.toBytes.take 2 = [2, 0] ∧ ramp.toBytes.length = 100 := by decide

theorem test_line_setpos :
    (Line.setpos 2 7).map (Line.move Config.default) = [.write 0x10 4 7, .write 0 4 0x212] := by decide

/-! ## Witnesses: for every statement with hypotheses, a concrete state that meets them all

Where a statement has several clauses there is one conjunct for each, at a boundary of its range. -/

/-- The reset state is idle, and stays so whatever the schedule. -/
theorem idle_of_fresh (c : Config) (e : Env) : EngineIdle (State.resetWith c [] e) :=
  ⟨rfl, rfl, fun a _ => by fin_cases a <;> rfl⟩

/-- A state with a block loaded is not idle. -/
theorem not_idle_of_loaded (d : Descriptor) (j : Nat) (c : Config) : ¬EngineIdle (loaded d j c) :=
  fun h => Option.some_ne_none _ h.1

/-- Nine steps on X and none on the other axes, of a block of ten events. -/
theorem stepCount_broken : PlannerDutyBroken (motion 1 10 9) State.reset := .inr (by decide)

/-- An id that is in flight. -/
theorem id_broken : PlannerDutyBroken (motion 2 5 5) { State.reset with pq := [ramp] } :=
  .inl ⟨ramp, List.mem_singleton.2 rfl, rfl⟩

/-- X takes as many steps as the block has events, and nothing is in flight. -/
theorem ramp_keeps_duties : ¬PlannerDutyBroken ramp State.reset
  | .inl ⟨_, h, _⟩ => List.not_mem_nil h
  | .inr ⟨_, _, _, h⟩ => h 0 (by decide) rfl

theorem witness_EncodeOfDecode : decode 0x00000312 = .ok (.setAxisPosition 3) := by rfl

theorem witness_StepRunsPortWord :
    State.reset.cfg.legal = true ∧
    (decode 0x81 = .ok .pulsePhase ∧ Instr.pulsePhase.format = .evt ∧
      (coming (.engineWord 0x81)).env.schedule = [.engineWord 0x81]) ∧
    (decode 0xE1 = .ok .discardCurrentBlock ∧ Instr.discardCurrentBlock.format = .pln ∧
      (coming (.engineWord 0xE1)).env.schedule = [.engineWord 0xE1]) ∧
    (decode 0x3C0 = .ok (.endstop 3) ∧ (Instr.endstop 3).format = .ein ∧
      (coming (.endstopInput 0x3C0)).env.schedule = [.endstopInput 0x3C0]) ∧
    (coming (.compareMatch none)).env.schedule = [.compareMatch none] :=
  ⟨by decide, ⟨rfl, by decide, rfl⟩, ⟨rfl, by decide, rfl⟩, ⟨rfl, by decide, rfl⟩, rfl⟩

theorem witness_StepRunsCommandWord :
    State.reset.cfg.legal = true ∧
    (decode 0x317 = .ok (.enable 3) ∧ (Instr.enable 3).format = .cmd ∧
      operandError (.enable 3) (coming (.write 0 4 0x317)) = none ∧ (Instr.enable 3).synchronizing = false) ∧
    (decode 0x417 = .ok (.enable 4) ∧ operandError (.enable 4) (coming (.write 0 4 0x417)) ≠ none) ∧
    (decode 0x310 = .ok (.getPosition 3) ∧ (Instr.getPosition 3).format = .cmd ∧
      (coming .syncPerform (holdCommand (acceptCommand 0x310 State.reset))).host.cmdPending = true ∧
      (coming .syncPerform (holdCommand (acceptCommand 0x310 State.reset))).host.pendingCmd = 0x310 ∧
      EngineIdle (coming .syncPerform (holdCommand (acceptCommand 0x310 State.reset)))) :=
  ⟨by decide, ⟨rfl, by decide, by decide, rfl⟩, ⟨rfl, by decide⟩, rfl, by decide, rfl, rfl,
    idle_of_fresh Config.default Env.initial⟩

theorem witness_StepStopsOnlyWhereNamed :
    (fresh { numAxes := 9 }).cfg.legal = false ∧ State.reset.cfg.legal = true ∧ State.reset.env.schedule = [] ∧
    (coming (.read 256 4)).env.schedule = [.read 256 4] ∧ State.reset.cfg.regBase + 256 ≤ 256 ∧
    (fresh { regBase := 256 }).cfg.legal = true ∧ 255 < (fresh { regBase := 256 }).cfg.regBase ∧
    (coming (.write 252 2 0)).env.schedule = [.write 252 2 0] ∧
    (coming (.read 253 4)).env.schedule = [.read 253 4] ∧ (coming (.read 252 4)).env.schedule = [.read 252 4] ∧
    decode 0x87 ≠ .ok .tick ∧ (coming (.engineWord 0x87)).env.schedule = [.engineWord 0x87] ∧
    (coming (.append (motion 1 10 9))).env.schedule = [.append (motion 1 10 9)] ∧
    (State.reset.pq.length < State.reset.cfg.plannerCap ∧ PlannerDutyBroken (motion 1 10 9) State.reset) ∧
    ¬PlannerDutyBroken ramp State.reset ∧ (coming .reset).env.schedule = [.reset] := by
  refine ⟨by decide, by decide, rfl, rfl, by decide, by decide, by decide, rfl, rfl, rfl, ?_, rfl, rfl,
    ⟨by decide, stepCount_broken⟩, ramp_keeps_duties, rfl⟩
  exact nofun

theorem witness_IssueHandshake :
    State.reset.cfg.legal = true ∧ (coming (.write 0 4 0x310)).env.schedule = [.write 0 4 0x310] ∧
    (holdCommand State.reset).host.cmdPending = true ∧ State.reset.host.cmdPending = false ∧
    legality 0x410 State.reset = some .badAxis ∧
    (legality 0x310 State.reset = none ∧ (Instr.getPosition 3).synchronizing = true) ∧
    (legality 0x317 State.reset = none ∧ (Instr.enable 3).synchronizing = false) := by decide

/-- A state with GET_POSITION 3 pending and SYNC_PERFORM to come. -/
def pendingSync (s : State) : State := coming .syncPerform (holdCommand (acceptCommand 0x310 s))

theorem pendingSync_legal (s : State) (h : s.cfg = Config.default) : PendingCommandLegal (pendingSync s) := fun _ =>
  have hc : (pendingSync s).cfg = Config.default := h
  have hd : decode 0x310 = .ok (.getPosition 3) := by rfl
  ⟨.getPosition 3, hd, rfl, by rw [hc]; decide⟩

theorem witness_SyncPerformOnlyWhenIdle :
    State.reset.cfg.legal = true ∧
    (PendingCommandLegal (pendingSync State.reset) ∧ (pendingSync State.reset).host.cmdPending = true ∧
      EngineIdle (pendingSync State.reset) ∧ (pendingSync State.reset).env.schedule = [.syncPerform]) ∧
    (PendingCommandLegal (pendingSync (loaded ramp 1)) ∧ ¬EngineIdle (pendingSync (loaded ramp 1))) ∧
    (coming .syncPerform).host.cmdPending = false :=
  ⟨by decide, ⟨pendingSync_legal _ rfl, rfl, idle_of_fresh Config.default Env.initial, rfl⟩,
    ⟨pendingSync_legal _ rfl, fun h => Option.some_ne_none _ h.1⟩, rfl⟩

theorem witness_BadOperandsRaiseHostErrors :
    State.reset.cfg.numAxes ≤ (4 : Fin 16).val ∧ State.reset.cfg.numAxes ≤ (15 : Fin 16).val ∧
    ((3 : Fin 16).val < State.reset.cfg.numAxes ∧ State.reset.cfg.babystepping = false) ∧
    ((3 : Fin 16).val < babyConfig.numAxes ∧ babyConfig.babystepping = true ∧
      2 ≤ ((setArg 0 2 (fresh babyConfig)).host.arg.read 0).toNat) := by decide

theorem witness_PlainCommandResults :
    State.reset.seq.current = none ∧ (loaded ramp 1).seq.current = some ramp.block ∧ EngineIdle State.reset ∧
    ¬EngineIdle (loaded ramp 1) :=
  ⟨rfl, rfl, idle_of_fresh Config.default Env.initial, not_idle_of_loaded _ _ _⟩

theorem witness_PositionCommands :
    (3 : Axis).val < State.reset.cfg.numAxes ∧ EngineIdle State.reset ∧ ¬EngineIdle (loaded ramp 1) :=
  ⟨by decide, idle_of_fresh Config.default Env.initial, not_idle_of_loaded _ _ _⟩

theorem witness_EnableLines :
    (fresh { numAxes := 8 }).cfg.legal = true ∧ (7 : Axis).val < (fresh { numAxes := 8 }).cfg.numAxes := by decide

/-- 126 + 1 is the bound, 127 + 1 is past it, and −127 − 1 too. -/
theorem witness_BabystepRequest :
    (3 : Axis).val < babyConfig.numAxes ∧ babyConfig.babystepping = true ∧
    ((fresh babyConfig).host.arg.read 0 = 0 ∧ ((126 : Int) + 1).natAbs ≤ babyConfig.babystepMax ∧
      babyConfig.babystepMax < ((127 : Int) + 1).natAbs) ∧
    ((setArg 0 1 (fresh babyConfig)).host.arg.read 0 = 1 ∧ babyConfig.babystepMax < ((-127 : Int) + -1).natAbs) := by
  decide

theorem witness_EndstopRecordsAndAborts :
    (3 : Axis).val < State.reset.cfg.numAxes ∧ State.reset.cfg.numAxes ≤ (4 : Fin 16).val ∧
    State.reset.cfg.legal = true ∧ (coming (.endstopInput 0x10C0)).env.schedule = [.endstopInput 0x10C0] ∧
    ∀ f, decode 0x10C0 ≠ .ok (.endstop f) := by
  refine ⟨by decide, by decide, by decide, rfl, fun f => ?_⟩
  exact nofun

theorem witness_WindowAccesses :
    State.reset.cfg.legal = true ∧ ((0xFC : Nat) < 256 ∧ 0xFC % 4 = 0) ∧
    (coming (.read 0xFC 4)).env.schedule = [.read (State.reset.cfg.regBase + 0xFC) 4] ∧
    (coming (.write 0x2C 4 9)).env.schedule = [.write (State.reset.cfg.regBase + 0x2C) 4 9] ∧
    (0x2C = 0x010 + 4 * (7 : Axis).val ∧ 0x10 = 0x010 + 4 * (0 : Axis).val) ∧
    ((0x30 : Nat) ≠ 0 ∧ ¬(0x010 ≤ (0x30 : Nat) ∧ (0x30 : Nat) < 0x030)) ∧
    ((0x0C : Nat) ≠ 0 ∧ ¬(0x010 ≤ (0x0C : Nat) ∧ (0x0C : Nat) < 0x030)) := by decide

theorem witness_RegisterMap :
    State.reset.host.overrunCount < 2 ^ 32 ∧ State.reset.timer.nextIsrTicks < 2 ^ 32 ∧
    State.reset.seq.stepEventsCompleted < 2 ^ 32 ∧ (loaded ramp 1).seq.current = some ramp.block ∧
    State.reset.seq.current = none ∧
    ((0x5C : Nat) % 4 = 0 ∧ 0x054 ≤ (0x5C : Nat) ∧ (0x5C : Nat) < 0x060) ∧ ((0x80 : Nat) % 4 = 0 ∧ 0x080 ≤ 0x80) := by
  decide

theorem witness_PackedRegisterBits : State.reset.cfg.legal = true ∧ ShiftsInRange State.reset := by
  refine ⟨by decide, ?_⟩
  unfold ShiftsInRange
  decide

theorem witness_PlannerPort :
    State.reset.host.fault = false ∧ State.reset.pq = [] ∧ (loaded ramp 1).pq = [ramp] ∧
    State.reset.cfg.legal = true ∧ (coming (.append ramp)).env.schedule = [.append ramp] ∧
    (State.reset.pq.length < State.reset.cfg.plannerCap ∧ ¬PlannerDutyBroken ramp State.reset) ∧
    (PlannerDutyBroken (motion 1 10 9) State.reset ∧
      PlannerDutyBroken (motion 2 5 5) { State.reset with pq := [ramp] }) ∧
    (fresh { plannerCap := 1 }).cfg.legal = true ∧
    (loaded ramp 1 { plannerCap := 1 }).cfg.plannerCap ≤ (loaded ramp 1 { plannerCap := 1 }).pq.length :=
  ⟨rfl, rfl, rfl, by decide, rfl, ⟨by decide, ramp_keeps_duties⟩, ⟨stepCount_broken, id_broken⟩, by decide, by decide⟩

/-- The draw 0 fixed for the next TICK. -/
def drawn (s : State) : State := { s with env.elapsed := some 0 }

/-- Every feature on, a block loaded, and every sub-task due. -/
def allDue : State :=
  let c : Config := { shapeConfig with linAdvance := true, babystepping := true }
  drawn { loaded ramp 500 c with
    timer.nextAdv := some 0
    la := { State.reset.la with active := true, dividend := 100, deltaError := -100, interval := some 700 }
    shaping.queue := #v[[⟨.pos, 0⟩], [], [], [], [], [], [], []]
    babyPending := #v[0, 0, 1, 0, 0, 0, 0, 0] }

/-- The main task's interval is 2000, LA_CRUISE schedules 2000 and leaves the countdown 700 it finds, and the echo of the
step just taken, due in 500, is the least (40_isr_scheduler.md R112, R113; 45_aux_pulse.md R223, R226, R235). -/
theorem test_tick_runs_every_task :
    nextIs (exec .tick allDue) (fun t =>
      t.timer.nextIsrTicks == 500 && t.timer.nextAdv == some 200 && t.timer.nextMain == 1500 &&
      t.la.interval == some 2000 && t.timer.nextBaby == 1500 && t.babyPending.read 2 == 0 &&
      t.seq.stepEventsCompleted == 501) = true := by decide

theorem witness_TickProgramsTheTimer :
    (allDue.cfg.legal = true ∧ allDue.host.fault = false ∧ allDue.timer.nextMain = 0 ∧
      allDue.cfg.inputShaping = true ∧ allDue.cfg.linAdvance = true ∧ allDue.timer.nextAdv = some 0 ∧
      allDue.cfg.babystepping = true ∧ allDue.timer.nextBaby = 0 ∧ allDue.babyPending.read 2 ≠ 0) ∧
    State.reset.cfg.legal = true ∧ State.reset.host.fault = false ∧
    nextIs (exec .tick (drawn (loaded ramp 1))) (fun t => !t.host.fault) = true ∧
    nextIs (exec .tick { State.reset with pq := [motion 7 10 11] }) (fun t => t.host.fault) = true := by decide

theorem witness_TickWithoutMainTask :
    ({ State.reset with timer.nextMain := 1 } : State).host.fault = false ∧
    ({ State.reset with timer.nextMain := 1 } : State).timer.nextMain ≠ 0 := by decide

/-- 1992 + 8 is the interval: the largest draw that does not overrun. -/
theorem witness_IdleTick :
    let s : State := { State.reset with env.elapsed := some 1992 }
    s.host.fault = false ∧ EngineIdle s ∧ s.seq.abortCurrentBlock = false ∧ s.timer.nextMain = 0 ∧
    s.timer.nextAdv = none ∧ (∀ a : Axis, a.val < s.cfg.numAxes → s.babyPending.read a = 0) ∧
    1 ≤ s.cfg.idleInterval ∧ s.cfg.idleInterval ≤ s.cfg.maxInterval ∧
    tickElapsed s + s.cfg.minIsrMargin ≤ s.cfg.idleInterval :=
  ⟨rfl, idle_of_fresh Config.default _, rfl, rfl, rfl, by decide, by decide, by decide, by decide⟩

theorem witness_TickServesBabystep :
    let s : State := { fresh babyConfig with babyPending := #v[0, 0, 0, -1, 0, 0, 0, 0] }
    s.host.fault = false ∧ s.cfg.babystepping = true ∧ s.timer.nextBaby = 0 ∧ (3 : Axis).val < s.cfg.numAxes ∧
    s.babyPending.read 3 ≠ 0 ∧ (∀ b : Axis, b.val < (3 : Axis).val → s.babyPending.read b = 0) ∧
    nextIs (exec .tick (drawn s)) (fun t => !t.host.fault) = true ∧
    ({ s with timer.nextBaby := 1 } : State).timer.nextBaby ≠ 0 := by decide

theorem witness_OverrunAndCountdowns :
    1992 + State.reset.cfg.minIsrMargin ≤ 2000 ∧ 2000 < 1993 + State.reset.cfg.minIsrMargin := by decide

theorem witness_BaseIntervalRule :
    (29 : Nat) < ({ timerBits := 16 } : Config).minStepRate ∧ ({ timerBits := 16 } : Config).minStepRate ≤ 30 ∧
    ({ timerBits := 16 } : Config).legal = true ∧ ((30 : Nat) ≠ 0 ∧ (30 : Nat) ≤ 31) := by decide

theorem witness_IntervalRoundTrip :
    (1 : Nat) ≤ 1413 ∧ 1413 ≤ Config.default.maxInterval ∧ 1413 * (1413 + 1) ≤ Config.default.timerRate ∧
    Config.default.minStepRate ≤ rateOf Config.default 1413 := by decide

theorem witness_OversamplingRule :
    Config.default.adaptiveSmoothing = false ∧ ({ adaptiveSmoothing := true } : Config).adaptiveSmoothing = true ∧
    oversamplingShift { adaptiveSmoothing := true } 499 = 2 := by decide

theorem witness_TrapezoidRates :
    ramp.block.accelerationRate * 808 / 2 ^ Config.default.accelFrac < 1 ∧
    1 ≤ ramp.block.accelerationRate * 809 / 2 ^ Config.default.accelFrac ∧ (808 : Nat) ≤ 809 := by decide

theorem witness_BezierLaws :
    (2 ^ Config.default.bezFrac ≤ 100500 * 167 ∧ 100000 * 167 < 2 ^ Config.default.bezFrac) ∧
    (100000 * 167 ≤ 100500 * 167 ∧ (100 : Nat) ≤ 1000 ∧ (100 : Nat) < 1000) := by decide

theorem witness_PulsePhaseRunsEvents :
    State.reset.host.fault = false ∧ State.reset.seq.abortCurrentBlock = false ∧ State.reset.seq.current = none ∧
    (loaded ramp 999).host.fault = false ∧ (loaded ramp 999).seq.abortCurrentBlock = false ∧
    (loaded ramp 999).seq.current = some ramp.block ∧
    (loaded ramp 999).seq.stepEventsCompleted ≤ ramp.block.stepEventCount := by decide

theorem witness_PulsePhaseConsumesAbort :
    (requestAbort (loaded ramp 1 shapeConfig)).host.fault = false ∧
    (requestAbort (loaded ramp 1 shapeConfig)).seq.abortCurrentBlock = true ∧
    (shapeConfig.shaped.read 0 = true ∧ shapeConfig.shaped.read 1 = false) := by decide

/-- A shaped axis with nothing in its queue. -/
def roomy : State := loaded ramp 1 shapeConfig

/-- A shaped axis whose queue holds CAP − MARGIN echoes, so that its next step forces one out. -/
def crowded : State :=
  { loaded ramp 1 { shapeConfig with shapingQueueCap := 3, shapingForceMargin := 1 } with shaping := {
      delta := #v[63, 0, 0, 0, 0, 0, 0, 0], queue := #v[[⟨.pos, 7⟩, ⟨.neg, 500⟩], [], [], [], [], [], [], []] } }

/-- X shaped and not shaped, with room and without, and the axes that do not step: the one linear advance drives, one
beyond NUM_AXES, and one whose accumulator stays below 0. -/
theorem witness_StepEventByAxis :
    ((loaded ramp 1).host.fault = false ∧ takesStep (loaded ramp 1) 0 = true ∧
      eventPulses (loaded ramp 1) 0 = [.pos] ∧ takesStep (loaded ramp 1) 3 = false ∧
      takesStep (loaded ramp 1) 7 = false) ∧
    (roomy.host.fault = false ∧ roomy.cfg.inputShaping = true ∧ roomy.cfg.shaped.read 0 = true ∧
      takesStep roomy 0 = true ∧ forcesEcho roomy 0 = false ∧ primaryShares roomy 0 = [64] ∧
      eventPulses roomy 0 = [.pos]) ∧
    (crowded.host.fault = false ∧ takesStep crowded 0 = true ∧ forcesEcho crowded 0 = true ∧
      primaryShares crowded 0 = [64, 64] ∧ payOut (crowded.shaping.delta.read 0) [64, 64] = (63, [.pos])) ∧
    (advancing.host.fault = false ∧ advancing.cfg.linAdvance = true ∧ advancing.la.active = true ∧
      advancing.cfg.eAxis = 3 ∧ takesStep advancing 3 = false) := by decide

/-- R235 on the crowded queue: the head's share and FACTOR1's are applied, and the new echo stands at the tail. -/
theorem test_stepEvent_forces_echo :
    nextIs (exec .stepEvent crowded)
      (fun t => t.shaping.queue.read 0 == [⟨.neg, 500⟩, ⟨.pos, 500⟩] && t.shaping.delta.read 0 == 63 &&
        t.trace == [⟨0, .step 0 .pos⟩]) = true := by decide

theorem witness_BresenhamExactness :
    1 ≤ ramp.block.stepEventCount ∧ ramp.block.steps.read 0 ≤ ramp.block.stepEventCount ∧
    (0 : Axis).val < State.reset.cfg.numAxes ∧ skipsAxis State.reset 0 = false ∧
    (State.reset.cfg.inputShaping && State.reset.cfg.shaped.read 0) = false := by decide

theorem witness_PhysicalPulseRule : (State.reset.cfg.inputShaping && State.reset.cfg.shaped.read 0) = false := by decide

theorem witness_ShapeApplyRule :
    (-64 : Int) ≤ (fresh shapeConfig).shaping.delta.read 0 ∧ (fresh shapeConfig).shaping.delta.read 0 ≤ 63 ∧
    (-128 : Int) ≤ 128 ∧ (1 : Axis) ≠ 0 := by decide

theorem witness_ShapingIsrDrainsDue :
    echoing.host.fault = false ∧ dueShares 0 echoing = [64, -64] ∧
    payOut (echoing.shaping.delta.read 0) (dueShares 0 echoing) = (63, [.pos, .neg]) ∧
    (fresh shapeConfig).host.fault = false ∧ (fresh shapeConfig).cfg.shaped.read 0 = true ∧
    (fresh shapeConfig).cfg.shaped.read 7 = false := by decide

theorem witness_ShapingExactness :
    (fresh shapeConfig).cfg.legal = true ∧ (fresh shapeConfig).cfg.inputShaping = true ∧
    (fresh shapeConfig).cfg.shaped.read 0 = true ∧ 1 ≤ ramp.block.stepEventCount ∧
    ramp.block.steps.read 0 ≤ ramp.block.stepEventCount ∧
    ((fresh shapeConfig).shaping.queue.read 0 = [] ∧ -64 ≤ (fresh shapeConfig).shaping.delta.read 0 ∧
      (fresh shapeConfig).shaping.delta.read 0 ≤ 63 ∧ pendingShares 0 (fresh shapeConfig) = 128 * 0) := by decide

theorem witness_AdvanceIsrRule :
    State.reset.host.fault = false ∧ State.reset.la.active = false ∧ advancing.host.fault = false ∧
    advancing.la.active = true ∧ 0 ≤ advancing.la.deltaError + (advancing.la.dividend : Int) ∧
    ({ advancing with la.deltaError := -101 } : State).la.deltaError + (advancing.la.dividend : Int) < 0 := by decide

theorem witness_LinearAdvanceRules :
    (if (ramp.block.finalAdvSteps : Int) < advancing.la.advanceSteps.toInt then ramp.block.laAdvanceRate else 0) = 0 ∧
    (if (ramp.block.finalAdvSteps : Int) < advancing.la.advanceSteps.toInt then ramp.block.laAdvanceRate else 0) ≠ 1 := by
  decide

theorem witness_BabystepIsrRule :
    let s : State := { fresh babyConfig with babyPending := #v[0, 0, 0, -1, 0, 0, 0, 0] }
    s.host.fault = false ∧ (∀ a : Axis, a.val < s.cfg.numAxes → State.reset.babyPending.read a = 0) ∧
    (3 : Axis).val < s.cfg.numAxes ∧ s.babyPending.read 3 ≠ 0 ∧
    ∀ b : Axis, b.val < (3 : Axis).val → s.babyPending.read b = 0 := by decide

theorem witness_SetDirectionsRule :
    State.reset.cfg.legal = true ∧
    (∀ a : Axis, a.val < State.reset.cfg.numAxes →
      (0x10 : BitVec 8).getLsbD a.val = State.reset.bres.lastDirectionBits.getLsbD a.val) ∧
    ∃ a : Axis, a.val < State.reset.cfg.numAxes ∧
      (0x08 : BitVec 8).getLsbD a.val ≠ State.reset.bres.lastDirectionBits.getLsbD a.val :=
  ⟨by decide, by decide, 3, by decide⟩

theorem witness_ValidConditions :
    valid Config.default ramp = true ∧ valid advanceConfig ramp = true ∧
    valid Config.default (descriptor 3 0x01 0 0 0 0 0 0 0 500) = true := by decide

theorem witness_BlockPhaseWithoutMotion :
    State.reset.host.fault = false ∧ State.reset.seq.current = none ∧ State.reset.pq = [] ∧
    ((descriptor 1 2 0 0 0 0 0 0 0 0).words[1].getLsbD 1 = true ∧
      (descriptor 1 2 0 0 0 0 0 0 0 0).words[1].getLsbD 0 = false) ∧
    (¬((motion 7 10 11).words[1].getLsbD 1 = true ∧ (motion 7 10 11).words[1].getLsbD 0 = false) ∧
      valid Config.default (motion 7 10 11) = false) := by decide

theorem witness_BlockPhaseLoadsMotion :
    let s : State := { fresh advanceConfig with pq := [ramp] }
    s.host.fault = false ∧ s.seq.current = none ∧ s.pq = [ramp] ∧ ramp.words[1].getLsbD 1 = false ∧
    ramp.words[1].getLsbD 0 = false ∧ valid s.cfg ramp = true ∧ valid Config.default ramp = true := by decide

theorem witness_BlockPhaseAppliesSync :
    let d := descriptor 3 0x01 0 0 0 0 0 0 0 500
    let s : State := { State.reset with pq := [d] }
    s.host.fault = false ∧ s.seq.current = none ∧ s.pq = [d] ∧ d.words[1].getLsbD 0 = true ∧ valid s.cfg d = true := by decide

/-- The last accelerating event, the first and last cruising ones, the first decelerating one. -/
theorem witness_BlockPhaseIntervals :
    (loaded ramp 199).host.fault = false ∧ (loaded ramp 199).seq.current = some ramp.block ∧
    (199 < ramp.block.stepEventCount ∧ ((loaded ramp 199).cfg.linAdvance && (loaded ramp 199).la.active) = false) ∧
    (allDue.cfg.linAdvance && allDue.la.active) = true ∧
    199 < ramp.block.accelerateBefore ∧
    (ramp.block.accelerateBefore ≤ 200 ∧ 799 < ramp.block.decelerateStart) ∧
    ((loaded ramp 200).timer.ticksNominal = none ∧
      ({ loaded ramp 799 with timer.ticksNominal := some 2000 } : State).timer.ticksNominal = some 2000) ∧
    (ramp.block.accelerateBefore ≤ 800 ∧ ramp.block.decelerateStart ≤ 800 ∧ 800 < ramp.block.stepEventCount) := by decide

theorem witness_BlockPhaseCompletes :
    (loaded ramp 1000).host.fault = false ∧ (loaded ramp 1000).seq.current = some ramp.block ∧
    ramp.block.stepEventCount ≤ (loaded ramp 1000).seq.stepEventsCompleted := by decide

/-- A TICK in the middle of a block, the state every invariant's witness steps from. -/
def running : State := coming (.compareMatch (some 0)) (loaded ramp 500)

theorem witness_step_of_running : ∃ t, step running = .next t ∧ ∀ rest, running.env.schedule ≠ .reset :: rest :=
  ⟨_, rfl, fun _ => nofun⟩

theorem witness_StepKeepsStepOutputsLow : StepOutputsLow running := fun a => by fin_cases a <;> rfl

theorem witness_StepKeepsBlockInRange : EventsWithinBlock running ∧ BresenhamInRange running := by
  refine ⟨fun b hb => ?_, fun b hb => ?_⟩ <;>
    (have h : b = ramp.block := (Option.some.inj hb).symm; subst h)
  · decide
  · decide

/-- `echoing`, and with a queue as long as it may be. -/
theorem witness_StepKeepsShapingInvariants :
    (ShapingDeltaInRange echoing ∧ ShapingQueuesFit echoing ∧ ShapingQueuesOrdered echoing ∧
      echoing.cfg.shaped.read 0 = true ∧ echoing.shaping.queue.read 0 ≠ [] ∧
      ∃ t, step echoing = .next t ∧ t.shaping.queue.read 0 ≠ echoing.shaping.queue.read 0) ∧
    ShapingQueuesFit { fresh { shapeConfig with shapingQueueCap := 2 } with
      shaping.queue := #v[[⟨.pos, 0⟩, ⟨.neg, 0⟩], [], [], [], [], [], [], []] } := by
  refine ⟨⟨?_, ?_, ?_, rfl, by decide, _, rfl, by decide⟩, ?_⟩
  · unfold ShapingDeltaInRange; decide
  · unfold ShapingQueuesFit; decide
  · unfold ShapingQueuesOrdered; decide
  · unfold ShapingQueuesFit; decide

theorem witness_StepKeepsRanges : ShiftsInRange running ∧ BabystepsInRange running ∧ SaturatedCounters running := by
  refine ⟨?_, ?_, ?_⟩
  · unfold ShiftsInRange; decide
  · unfold BabystepsInRange; decide
  · unfold SaturatedCounters; decide

theorem witness_StepKeepsPendingAndFaultBlock :
    PendingCommandLegal (pendingSync (loaded ramp 1)) ∧
    FaultHoldsBlock (raiseFault .invalidBlock { State.reset with pq := [motion 7 10 11] }) :=
  ⟨pendingSync_legal _ rfl, fun _ => ⟨motion 7 10 11, [], rfl, .inr ⟨rfl, by decide⟩⟩⟩

theorem witness_ResetValues :
    (coming .reset (loaded ramp 1)).cfg.legal = true ∧ (coming .reset (loaded ramp 1)).env.schedule = [.reset] := by
  decide

theorem witness_StepFrame :
    PendingCommandLegal running ∧ (∃ t, step running = .next t) ∧ (∀ rest, running.env.schedule ≠ .reset :: rest) :=
  ⟨nofun, ⟨_, rfl⟩, fun _ => nofun⟩

theorem witness_FaultFreezesEngine :
    let s := raiseFault .invalidBlock { pendingSync State.reset with pq := [motion 7 10 11] }
    s.host.fault = true ∧ (∃ t, step s = .next t) ∧ (∀ rest, s.env.schedule ≠ .reset :: rest) ∧ FaultHoldsBlock s ∧
    s.host.cmdPending = true ∧ Instr.stepEvent.format = .evt ∧ Instr.getCurrentBlock.format = .pln :=
  ⟨rfl, ⟨_, rfl⟩, fun _ => nofun, fun _ => ⟨motion 7 10 11, [], rfl, .inr ⟨rfl, by decide⟩⟩, rfl, by decide,
    by decide⟩

theorem witness_NetStepsMovePosition :
    Instr.stepEvent.format = .evt ∧
    nextOf (exec .stepEvent (loaded ramp 1)) = some (stepEvent (loaded ramp 1)) ∧
    (stepEvent (loaded ramp 1)).trace = (loaded ramp 1).trace ++ [⟨0, .step 0 .pos⟩] ∧
    ∀ r ∈ ([⟨0, .step 0 .pos⟩] : List Record), ∀ v, r.event ≠ .syncOut .position v := by
  refine ⟨by decide, by decide, by decide, fun r hr v => ?_⟩
  rw [List.mem_singleton.1 hr]
  exact nofun

theorem witness_EngineFrameHolds :
    Instr.tick.format = .evt ∧ nextIs (exec .tick (drawn (loaded ramp 1))) (fun _ => true) = true := by decide

end Sys2Proof.Tests
end

section
/-! SUPPORT. More rules of the decoder and the moves: the format of a decoded word, and where each move stops. -/

namespace Sys2Proof

/-- A decoded operation's OPC is its word's. -/
theorem decode_opc {w : Word} {i : Instr} (h : decode w = .ok i) : i.opc = opcOf w := by
  rcases (decode_ok_cases h).2 with hx | ⟨-, hx, -⟩
  · exact (axisInstr_fields hx).1
  · exact (plainInstr_fields hx).1

/-- A decoded operation's format is its word's. -/
theorem decode_format {w : Word} {i : Instr} (h : decode w = .ok i) : i.format = formatOf w := by
  simp only [Instr.format, formatOf, opcOf_encode, decode_opc h]

@[simp] theorem Instr.format_enable (f : Fin 16) : (Instr.enable f).format = .cmd := by
  simp [Instr.format, formatOf, opcOf_encode, Instr.opc]

@[simp] theorem Instr.format_disable (f : Fin 16) : (Instr.disable f).format = .cmd := by
  simp [Instr.format, formatOf, opcOf_encode, Instr.opc]

@[simp] theorem Instr.format_tick : Instr.tick.format = .evt := by decide

namespace Machine

/-! ## Accesses to the window -/

/-- The register found at an offset is the one 20_memory.md R62 lists there. -/
theorem registerAt_offset {off : Nat} {r : Register} (h : registerAt off = some r) : r.offset = off := by
  unfold registerAt at h
  split at h <;> cases h <;> rfl

theorem inWindow_eq_false_iff (c : Config) (addr : Nat) :
    inWindow c addr = false ↔ addr < c.regBase ∨ c.regBase + 256 ≤ addr := by
  simp [inWindow, imp_iff_not_or]

theorem admitted_eq_false_iff (c : Config) (addr width : Nat) :
    admitted c addr width = false ↔ width ≠ 4 ∨ (addr - c.regBase) % 4 ≠ 0 := by
  simp [admitted, imp_iff_not_or]

section
variable {m : Move} {addr width : Nat} {v : Word} (hm : m = .read addr width ∨ m = .write addr width v) {s : State}
include hm

/-- A host access outside the window faults (20_memory.md R61). -/
theorem runMove_outside (h : addr < s.cfg.regBase ∨ s.cfg.regBase + 256 ≤ addr) :
    runMove m s = .fault .outsideWindow := by
  rw [← inWindow_eq_false_iff] at h
  rcases hm with rfl | rfl <;> simp [runMove, hostRead, hostWrite, h]

/-- A host access in the window, of another width than 4 bytes or not at a multiple of 4, is refused
(20_memory.md R64). -/
theorem runMove_notAdmitted (hlo : s.cfg.regBase ≤ addr) (hhi : addr < s.cfg.regBase + 256)
    (ha : width ≠ 4 ∨ (addr - s.cfg.regBase) % 4 ≠ 0) : runMove m s = .refused .accessNotAdmitted := by
  rw [← admitted_eq_false_iff] at ha
  rcases hm with rfl | rfl <;> simp [runMove, hostRead, hostWrite, inWindow, hlo, hhi, ha]

end

/-! ## What goes on -/

theorem issue_next (w : Word) (s : State) : ∃ t, issue w s = .next t := by
  rcases issue_cases w s with ⟨-, h⟩ | ⟨-, _, -, h⟩ | ⟨-, -, i, -, -, -, ⟨-, h⟩ | ⟨-, h⟩⟩
  · exact ⟨_, h⟩
  · exact ⟨_, h⟩
  · exact ⟨_, h⟩
  · rw [h]; exact exec_next i _

theorem writeWindow_next (off : Nat) (v : Word) (s : State) : ∃ t, writeWindow off v s = .next t := by
  unfold writeWindow
  split
  · exact issue_next v s
  · exact ⟨_, rfl⟩
  · exact ⟨_, rfl⟩

/-- A host access of four bytes at a multiple of 4 in the window goes on (20_memory.md R65). -/
theorem runMove_admitted {m : Move} {addr : Nat} {v : Word} {s : State} (hm : m = .read addr 4 ∨ m = .write addr 4 v)
    (hlo : s.cfg.regBase ≤ addr) (hhi : addr < s.cfg.regBase + 256) (ha : (addr - s.cfg.regBase) % 4 = 0) :
    ∃ t, runMove m s = .next t := by
  obtain ⟨off, rfl⟩ := Nat.exists_eq_add_of_le hlo
  rw [Nat.add_sub_cancel_left] at ha
  rcases hm with rfl | rfl
  · exact ⟨_, hostRead_window (by omega) ha s⟩
  · obtain ⟨t, ht⟩ := writeWindow_next off v s
    exact ⟨t, (hostWrite_window (by omega) ha v s).trans ht⟩

theorem syncPerform_next (s : State) : ∃ t, syncPerform s = .next t := by
  unfold syncPerform
  split
  · split
    · exact exec_next _ _
    · exact ⟨_, rfl⟩
  · exact ⟨_, rfl⟩

theorem compareMatch_next (e : Option Nat) (s : State) : ∃ t, compareMatch e s = .next t := exec_next .tick _

theorem idleMove_next (s : State) : ∃ t, idleMove s s = .next t := by
  unfold idleMove
  split
  · exact syncPerform_next s
  · exact compareMatch_next none s

/-- A word on the endstop port that decodes to its operation runs it (47_host_interface.md R295). -/
theorem endstopInput_of_decode {w : Word} {i : Instr} (hd : decode w = .ok i) (hf : i.format = .ein) (s : State) :
    endstopInput w s = exec i s := by
  simp [endstopInput, hd, hf]

theorem endstopInput_next (w : Word) (s : State) : ∃ t, endstopInput w s = .next t := by
  unfold endstopInput
  split
  · split
    · exact exec_next _ s
    · exact ⟨_, rfl⟩
  · exact ⟨_, rfl⟩

/-- An engine word that decodes to an EVT or PLN operation runs it. -/
theorem engineWord_of_decode {w : Word} {i : Instr} (hd : decode w = .ok i) (hf : i.format = .evt ∨ i.format = .pln)
    (s : State) : engineWord w s = exec i s := by
  simp [engineWord, hd, hf]

theorem engineWord_next {w : Word} {i : Instr} (hd : decode w = .ok i) (hf : i.format = .evt ∨ i.format = .pln)
    (s : State) : ∃ t, engineWord w s = .next t :=
  (engineWord_of_decode hd hf s).symm ▸ exec_next i s

/-- An engine word that names no EVT or PLN operation is refused. -/
theorem engineWord_refused {w : Word} (h : ∀ i, decode w = .ok i → ¬(i.format = .evt ∨ i.format = .pln)) (s : State) :
    engineWord w s = .refused .noSuchOperation := by
  unfold engineWord
  split
  · next i hd => rw [if_neg (h i hd)]
  · rfl

/-- With room, an append that breaks a duty of the planner is refused (93_implementation_defined.md I11). -/
theorem plannerMove_refused {d : Descriptor} {s : State} (hr : s.pq.length < s.cfg.plannerCap)
    (hb : PlannerDutyBroken d s) : plannerMove d s = .refused .plannerDutyBroken := by
  rw [← breaksPlannerDuty_iff] at hb
  simp [plannerMove, hr, hb]

theorem plannerMove_next {d : Descriptor} {s : State} (h : ¬(s.pq.length < s.cfg.plannerCap ∧ PlannerDutyBroken d s)) :
    ∃ t, plannerMove d s = .next t := by
  rw [← breaksPlannerDuty_iff] at h
  exact ⟨_, if_neg h⟩

/-- A step in an illegal configuration is refused (00_scope.md R8). -/
theorem step_illegal {s : State} (h : s.cfg.legal = false) : step s = .refused .illegalConfiguration := by
  simp [step, h]

/-- A step with nothing scheduled makes the model's default move (log entry 2). -/
theorem step_unscheduled {s : State} (hl : s.cfg.legal = true) (hs : s.env.schedule = []) : step s = idleMove s s := by
  simp only [step, hl, if_true, nextMove, hs]

/-- Settles O4: each clause is the schedule's oldest move run on the state without it. -/
theorem stepRunsPortWord : Obligations.StepRunsPortWord := by
  intro s w i rest hl hd
  refine ⟨fun hf hs => ?_, fun hf hs => ?_, fun e hs => ?_⟩ <;> rw [step_head hl hs]
  · exact engineWord_of_decode hd hf _
  · exact endstopInput_of_decode hd hf _
  · rfl

/-- Settles O6: the stops of each kind of move, and that the other moves go on. -/
theorem stepStopsOnlyWhereNamed : Obligations.StepStopsOnlyWhereNamed := by
  refine fun s => ⟨step_illegal, fun hl => ⟨fun hs => step_unscheduled hl hs ▸ idleMove_next s, fun m rest hs => ?_⟩⟩
  rw [step_head hl hs]
  refine ⟨fun addr width v hm => ⟨fun ho => ?_, fun hlo hhi => ⟨fun ha => ?_, ?_⟩⟩, ?_, ?_, ?_⟩
  · exact runMove_outside hm ho
  · exact runMove_notAdmitted hm hlo hhi ha
  · rintro rfl hoff
    exact runMove_admitted hm hlo hhi hoff
  · rintro w rfl
    exact ⟨fun i hd hf => engineWord_next hd hf _, fun h => engineWord_refused h _⟩
  · rintro d rfl
    exact ⟨fun ⟨hr, hb⟩ => plannerMove_refused hr hb, fun h => plannerMove_next h⟩
  · intro hread hwrite hword happend
    cases m with
    | read addr width => exact absurd rfl (hread addr width)
    | write addr width v => exact absurd rfl (hwrite addr width v)
    | engineWord w => exact absurd rfl (hword w)
    | append d => exact absurd rfl (happend d)
    | syncPerform => exact syncPerform_next _
    | endstopInput w => exact endstopInput_next w _
    | compareMatch e => exact compareMatch_next e _
    | reset => exact ⟨_, rfl⟩

end Machine
end Sys2Proof
end

section
/-! SUPPORT. What operations and moves do to the machine's outputs: the trace, virtual time, the compare register and
the enable lines (10_state.md R45, 46_direction_enable.md R265, 60_exceptions.md R326). -/

namespace Sys2Proof.Machine

/-! ## Work that leaves the outputs alone -/

/-- `t` has the timer, the pins and the trace of `s`. -/
structure SameOutputs (s t : State) : Prop where
  timer : t.timer = s.timer
  pins : t.pins = s.pins
  trace : t.trace = s.trace

theorem SameOutputs.refl (s : State) : SameOutputs s s := ⟨rfl, rfl, rfl⟩

/-- A command has a property its HostErrors and its body have. -/
theorem perform_keeps {P : State → Prop} {i : Instr} {k : State → State} {s t : State}
    (herr : ∀ e, P (raiseHostError e s)) (hk : P (k s)) (h : perform i s k = .next t) : P t := by
  rcases perform_cases i s k with ⟨e, -, he⟩ | ⟨-, he⟩
  · rw [he] at h; cases h; exact herr e
  · rw [he] at h; cases h; exact hk

theorem performAxis_keeps {P : State → Prop} {i : Instr} {f : Fin 16} {k : Axis → State → State} {s t : State}
    (herr : ∀ e, P (raiseHostError e s)) (hk : ∀ a, P (k a s)) (h : performAxis i f s k = .next t) : P t := by
  refine perform_keeps herr ?_ h
  cases axisOperand s.cfg f with
  | some a => exact hk a
  | none => exact herr .badAxis

theorem whenIdle_sameOutputs {k : State → State} {s : State} (hk : SameOutputs s (k s)) :
    SameOutputs s (whenIdle k s) := by
  unfold whenIdle
  split
  · exact hk
  · exact ⟨rfl, rfl, rfl⟩

theorem requestBabystep_sameOutputs (a : Axis) (s : State) : SameOutputs s (requestBabystep a s) := by
  unfold requestBabystep
  simp only []
  split <;> exact ⟨rfl, rfl, rfl⟩

theorem execEndstop_sameOutputs {f : Fin 16} {s t : State} (h : execEndstop f s = .next t) : SameOutputs s t := by
  unfold execEndstop at h
  split at h <;> cases h <;> exact ⟨rfl, rfl, rfl⟩

theorem engineStep_sameOutputs {k : State → State} {s : State} (hk : SameOutputs s (k s)) :
    SameOutputs s (engineStep k s) := by
  unfold engineStep
  split
  · exact .refl s
  · exact hk

/-! ## Work that only appends to the trace -/

/-- `t` has the enable lines of `s`, and the trace of `s` with records after it. -/
structure OnlyAppends (s t : State) : Prop where
  trace : s.trace <+: t.trace
  enableLines : t.pins.enableLines = s.pins.enableLines

theorem OnlyAppends.refl (s : State) : OnlyAppends s s := ⟨List.prefix_rfl, rfl⟩

theorem OnlyAppends.trans {s t u : State} (h : OnlyAppends s t) (k : OnlyAppends t u) : OnlyAppends s u :=
  ⟨h.trace.trans k.trace, k.enableLines.trans h.enableLines⟩

theorem emit_onlyAppends (e : Event) (s : State) : OnlyAppends s (emit e s) := ⟨List.prefix_append _ _, rfl⟩

theorem driveDir_onlyAppends (a : Axis) (l : Bool) (s : State) : OnlyAppends s (driveDir a l s) :=
  ⟨driveDir_trace a l s ▸ List.prefix_append _ _, by simp⟩

theorem applySync_onlyAppends (d : Descriptor) (s : State) : OnlyAppends s (applySync d s) := by
  refine ⟨?_, by simp⟩
  unfold applySync
  split
  · exact List.prefix_append _ _
  · exact List.prefix_append _ _
  · exact List.prefix_rfl

theorem overrunCheck_onlyAppends (interval e : Nat) (s : State) : OnlyAppends s (overrunCheck interval e s) := by
  refine ⟨?_, by simp⟩
  unfold overrunCheck
  simp only []
  repeat' split
  · exact List.prefix_append _ _
  · exact List.prefix_append _ _
  · exact List.prefix_rfl

theorem programTimer_onlyAppends (e : Nat) (s : State) : OnlyAppends s (programTimer e s) :=
  ⟨(overrunCheck_onlyAppends (selectInterval s) e s).trace, by simp⟩

/-- The engine's work only appends to the trace and leaves the enable lines alone. -/
theorem onlyAppends_pulseKept (s : State) : PulseKept (OnlyAppends s) where
  same h hpins _ htrace _ := h.trans ⟨htrace ▸ List.prefix_rfl, by rw [hpins]⟩
  pulse _ a d h := h.trans ⟨physicalPulse_trace a d _ ▸ List.prefix_append _ _, by simp⟩
  dir _ a l h := h.trans (driveDir_onlyAppends a l _)
  note _ e _ _ _ h := h.trans (emit_onlyAppends e _)
  sync _ d h := h.trans (applySync_onlyAppends d _)

theorem onlyAppends_engineKept (s : State) : EngineKept (OnlyAppends s) :=
  (onlyAppends_pulseKept s).engine fun _ e h => h.trans (programTimer_onlyAppends e _)

/-! ## The frame of an operation -/

/-- What operation `i` may do to the outputs: it only appends to the trace, only TICK moves virtual time and the compare
register, and only ENABLE and DISABLE write the enable lines. -/
structure OpFrame (i : Instr) (s t : State) : Prop where
  trace : s.trace <+: t.trace
  time : i ≠ .tick → t.timer.now = s.timer.now ∧ t.timer.nextIsrTicks = s.timer.nextIsrTicks
  enableLines : (∀ f, i ≠ .enable f ∧ i ≠ .disable f) → t.pins.enableLines = s.pins.enableLines

theorem SameOutputs.opFrame {s t : State} (h : SameOutputs s t) (i : Instr) : OpFrame i s t where
  trace := h.trace ▸ List.prefix_rfl
  time _ := by simp [h.timer]
  enableLines _ := by rw [h.pins]

/-- A frame may start before work that leaves the outputs alone. -/
theorem OpFrame.of_sameOutputs {i : Instr} {s u t : State} (h : SameOutputs s u) (k : OpFrame i u t) :
    OpFrame i s t where
  trace := h.trace ▸ k.trace
  time := h.timer ▸ k.time
  enableLines := h.pins ▸ k.enableLines

/-- A sub-operation that keeps the time has its frame when taken by itself. -/
theorem engineStep_opFrame {i : Instr} {k : State → State} (happ : ∀ s, OnlyAppends s (k s))
    (hnow : ∀ s, (k s).timer.now = s.timer.now) (hnext : ∀ s, (k s).timer.nextIsrTicks = s.timer.nextIsrTicks)
    (s : State) : OpFrame i s (engineStep k s) := by
  unfold engineStep
  split
  · exact (SameOutputs.refl s).opFrame i
  · exact ⟨(happ s).trace, fun _ => ⟨hnow s, hnext s⟩, fun _ => (happ s).enableLines⟩

/-- ENABLE and DISABLE append a record or nothing, and keep the timer. -/
theorem driveEnable_frame (a : Axis) (on : Bool) (s : State) :
    s.trace <+: (reportEnable (driveEnable a on s)).trace ∧ (reportEnable (driveEnable a on s)).timer = s.timer := by
  unfold reportEnable driveEnable
  simp only []
  split
  · exact ⟨List.prefix_rfl, rfl⟩
  · exact ⟨List.prefix_append _ _, rfl⟩

/-- Every operation has its frame (10_state.md R45, 46_direction_enable.md R265, 60_exceptions.md R326). -/
theorem exec_opFrame {i : Instr} {s t : State} (h : exec i s = .next t) : OpFrame i s t := by
  have herr : ∀ e, SameOutputs s (raiseHostError e s) := fun _ => ⟨rfl, rfl, rfl⟩
  have hlines : ∀ (a : Axis) (on : Bool) (i : Instr), (∃ f, i = .enable f ∨ i = .disable f) →
      OpFrame i s (reportEnable (driveEnable a on s)) := fun a on i hi =>
    { trace := (driveEnable_frame a on s).1
      time := fun _ => (driveEnable_frame a on s).2 ▸ ⟨rfl, rfl⟩
      enableLines := fun hn => by obtain ⟨f, hf⟩ := hi; exact absurd hf (not_or.2 (hn f)) }
  cases i with
  | nop | isBlockBusy | abort | clearEndstops | isIdle | clearDiag =>
    simp only [exec, execNop, execIsBlockBusy, execAbort, execClearEndstops, execIsIdle, execClearDiag] at h
    exact (perform_keeps herr ⟨rfl, rfl, rfl⟩ h).opFrame _
  | setPosition =>
    simp only [exec, execSetPosition] at h
    exact (perform_keeps herr (whenIdle_sameOutputs ⟨rfl, rfl, rfl⟩) h).opFrame _
  | getPosition f | setAxisPosition f =>
    simp only [exec, execGetPosition, execSetAxisPosition] at h
    exact (performAxis_keeps herr (fun _ => whenIdle_sameOutputs ⟨rfl, rfl, rfl⟩) h).opFrame _
  | babystep f =>
    simp only [exec, execBabystep] at h
    exact (performAxis_keeps herr (fun a => requestBabystep_sameOutputs a s) h).opFrame _
  | enable f =>
    simp only [exec, execEnable] at h
    exact performAxis_keeps (fun e => (herr e).opFrame _) (fun a => hlines a _ _ ⟨f, .inl rfl⟩) h
  | disable f =>
    simp only [exec, execDisable] at h
    exact performAxis_keeps (fun e => (herr e).opFrame _) (fun a => hlines a _ _ ⟨f, .inr rfl⟩) h
  | endstop f => exact (execEndstop_sameOutputs h).opFrame _
  | tick =>
    cases h
    have happ : OnlyAppends s (tick s) := (onlyAppends_engineKept s).tick (.refl s)
    exact ⟨happ.trace, fun hn => absurd rfl hn, fun _ => happ.enableLines⟩
  | pulsePhase =>
    cases h
    exact engineStep_opFrame (fun s => (onlyAppends_pulseKept s).pulsePhase (.refl s)) (by simp) (by simp) s
  | stepEvent =>
    cases h
    exact engineStep_opFrame (fun s => (onlyAppends_pulseKept s).stepEvent (.refl s)) (by simp) (by simp) s
  | blockPhase =>
    cases h
    refine engineStep_opFrame (fun s => ?_) (by simp) (by simp) s
    have happ : OnlyAppends s (blockPhase s).1 := (onlyAppends_pulseKept s).blockPhase (.refl s)
    exact ⟨happ.trace, happ.enableLines⟩
  | shapingIsr =>
    cases h
    exact engineStep_opFrame (fun s => (onlyAppends_pulseKept s).shapingIsr (.refl s)) (by simp) (by simp) s
  | advanceIsr =>
    cases h
    exact engineStep_opFrame (fun s => (onlyAppends_pulseKept s).advanceIsr (.refl s)) (by simp) (by simp) s
  | babystepIsr =>
    cases h
    exact engineStep_opFrame (fun s => (onlyAppends_pulseKept s).babystepIsr (.refl s)) (by simp) (by simp) s
  | getCurrentBlock | discardCurrentBlock =>
    cases h
    exact (engineStep_sameOutputs ⟨rfl, rfl, rfl⟩).opFrame _

/-! ## The operation a move runs -/

/-- Move `m` runs operation `i` in state `s`: a CMD write its command, SYNC_PERFORM the pending one, a word on the
endstop port or an engine word its operation, a compare match TICK. -/
inductive Move.Runs (s : State) : Move → Instr → Prop where
  | command {w : Word} {i : Instr} (hd : decode w = .ok i) (hf : i.format = .cmd) :
    Move.Runs s (.write s.cfg.regBase 4 w) i
  | pending {i : Instr} (hp : s.host.cmdPending = true) (hd : decode s.host.pendingCmd = .ok i) :
    Move.Runs s .syncPerform i
  | endstop {w : Word} {i : Instr} (hd : decode w = .ok i) (hf : i.format = .ein) : Move.Runs s (.endstopInput w) i
  | compare {e : Option Nat} : Move.Runs s (.compareMatch e) .tick
  | engine {w : Word} {i : Instr} (hd : decode w = .ok i) (hf : i.format = .evt ∨ i.format = .pln) :
    Move.Runs s (.engineWord w) i

/-- The word a CMD write issues leaves the outputs alone, or its command is run. -/
theorem issue_outputs {w : Word} {s t : State} (h : issue w s = .next t) :
    SameOutputs s t ∨
      ∃ i u, decode w = .ok i ∧ i.format = .cmd ∧ SameOutputs s u ∧ exec i u = .next t := by
  rcases issue_cases w s with ⟨-, hi⟩ | ⟨-, e, -, hi⟩ | ⟨-, -, i, hd, hf, -, ⟨-, hi⟩ | ⟨-, hi⟩⟩ <;> rw [hi] at h
  · cases h; exact .inl ⟨rfl, rfl, rfl⟩
  · cases h; exact .inl ⟨rfl, rfl, rfl⟩
  · cases h; exact .inl ⟨rfl, rfl, rfl⟩
  · exact .inr ⟨i, acceptCommand w s, hd, (decode_format hd).trans hf, ⟨rfl, rfl, rfl⟩, h⟩

/-- A host write that goes on is one of four bytes, at an offset of the window. -/
theorem runMove_write_next {addr width : Nat} {v : Word} {s t : State} (h : runMove (.write addr width v) s = .next t) :
    width = 4 ∧ ∃ off, addr = s.cfg.regBase + off ∧ writeWindow off v s = .next t := by
  have hin : ¬(addr < s.cfg.regBase ∨ s.cfg.regBase + 256 ≤ addr) := fun ho => by
    rw [runMove_outside (.inr rfl) ho] at h; cases h
  have had : ¬(width ≠ 4 ∨ (addr - s.cfg.regBase) % 4 ≠ 0) := fun ha => by
    rw [runMove_notAdmitted (.inr rfl) (by omega) (by omega) ha] at h; cases h
  obtain ⟨off, rfl⟩ : ∃ off, addr = s.cfg.regBase + off := ⟨addr - s.cfg.regBase, by omega⟩
  obtain rfl : width = 4 := by omega
  rw [runMove, hostWrite_window (by omega) (by omega)] at h
  exact ⟨rfl, off, rfl, h⟩

/-- A move that goes on is a reset, leaves the outputs alone, or runs one operation after work that does. -/
theorem runMove_outputs {m : Move} {s t : State} (h : runMove m s = .next t) :
    m = .reset ∨ SameOutputs s t ∨ ∃ i u, m.Runs s i ∧ SameOutputs s u ∧ exec i u = .next t := by
  refine or_iff_not_imp_left.2 fun hm => ?_
  cases m with
  | read addr width =>
    simp only [runMove, hostRead] at h
    split_ifs at h
    cases h
    exact .inl ⟨rfl, rfl, rfl⟩
  | write addr width v =>
    obtain ⟨rfl, off, rfl, hw⟩ := runMove_write_next h
    unfold writeWindow at hw
    split at hw
    · next hreg =>
      obtain rfl : 0 = off := registerAt_offset hreg
      exact (issue_outputs hw).imp_right fun ⟨i, u, hd, hf, hu, hx⟩ => ⟨i, u, .command hd hf, hu, hx⟩
    · cases hw; exact .inl ⟨rfl, rfl, rfl⟩
    · cases hw; exact .inl (.refl s)
  | syncPerform =>
    simp only [runMove, syncPerform] at h
    split at h
    · next hen =>
      have hp : s.host.cmdPending = true := (Bool.and_eq_true_iff.1 hen).1
      split at h
      · next i hd => exact .inr ⟨i, releaseCommand s, .pending hp hd, ⟨rfl, rfl, rfl⟩, h⟩
      · cases h; exact .inl (.refl s)
    · cases h; exact .inl (.refl s)
  | endstopInput w =>
    simp only [runMove, endstopInput] at h
    split at h
    · next i hd =>
      split at h
      · next hf => exact .inr ⟨i, s, .endstop hd hf, .refl s, h⟩
      · cases h; exact .inl (.refl s)
    · cases h; exact .inl (.refl s)
  | append d =>
    rcases plannerMove_cases d s with ⟨-, -, hp⟩ | ⟨-, -, hp⟩ | ⟨-, hp⟩ <;> rw [runMove, hp] at h <;> cases h
    · exact .inl ⟨rfl, rfl, rfl⟩
    · exact .inl (.refl s)
  | compareMatch e => exact .inr ⟨.tick, { s with env.elapsed := e }, .compare, ⟨rfl, rfl, rfl⟩, h⟩
  | engineWord w =>
    simp only [runMove, engineWord] at h
    split at h
    · next i hd =>
      split at h
      · next hf => exact .inr ⟨i, s, .engine hd hf, .refl s, h⟩
      · cases h
    · cases h
  | reset => exact absurd rfl hm

/-- Only a CMD write runs a command that is not synchronizing: SYNC_PERFORM runs a pending one, which is. -/
theorem Move.Runs.command_of_not_synchronizing {m : Move} {s : State} {i : Instr} (hs : PendingCommandLegal s)
    (h : m.Runs s i) (hf : i.format = .cmd) (hi : i.synchronizing = false) :
    ∃ w, m = .write s.cfg.regBase 4 w ∧ decode w = .ok i := by
  cases h with
  | command hd _ => exact ⟨_, rfl, hd⟩
  | pending hp hd =>
    obtain ⟨j, hj, hsync, -⟩ := hs hp
    cases hd.symm.trans hj
    rw [hi] at hsync
    cases hsync
  | endstop _ hf' => rw [hf] at hf'; cases hf'
  | compare => cases hf
  | engine _ hf' => rw [hf] at hf'; rcases hf' with hf' | hf' <;> cases hf'

/-- Only a compare match and a TICK word run TICK. -/
theorem Move.Runs.of_tick {m : Move} {s : State} (hs : PendingCommandLegal s) (h : m.Runs s .tick) :
    (∃ e, m = .compareMatch e) ∨ ∃ w, m = .engineWord w ∧ decode w = .ok .tick := by
  cases h with
  | command _ hf => rw [Instr.format_tick] at hf; cases hf
  | pending hp hd =>
    obtain ⟨j, hj, hsync, -⟩ := hs hp
    cases hd.symm.trans hj
    cases hsync
  | endstop _ hf => rw [Instr.format_tick] at hf; cases hf
  | compare => exact .inl ⟨_, rfl⟩
  | engine hd _ => exact .inr ⟨_, rfl, hd⟩

/-! ## The frame of a step -/

/-- The parameters are fixed: no update a step is made of changes them (00_scope.md R7). -/
theorem cfg_kept (c : Config) : Kept (fun s => s.cfg = c) where
  nextMain _ _ h := h
  nextAdv _ _ h := h
  nextBaby _ _ h := h
  pulsePhase s h := (pulsePhase_cfg s).trans h
  stepEvent s h := (stepEvent_cfg s).trans h
  shapingIsr s h := (shapingIsr_cfg s).trans h
  advanceIsr s h := (advanceIsr_cfg s).trans h
  babystepIsr s h := (babystepIsr_cfg s).trans h
  blockPhase s h := (blockPhase_cfg s).trans h
  program s e h := (programTimer_cfg e s).trans h
  env _ _ h := h
  host _ _ h := h
  pq _ _ h := h
  abort _ h := h
  position _ _ h := h
  baby _ _ _ _ h := h
  enable s a on h := by
    unfold driveEnable
    simp only []
    split <;> exact h
  reset _ h := h

/-- What move `m` other than reset may do to the outputs. -/
structure MoveFrame (m : Move) (s t : State) : Prop where
  trace : s.trace <+: t.trace
  time : t.timer.now ≠ s.timer.now ∨ t.timer.nextIsrTicks ≠ s.timer.nextIsrTicks →
    (∃ e, m = .compareMatch e) ∨ ∃ w, m = .engineWord w ∧ decode w = .ok .tick
  enableLines : t.pins.enableLines ≠ s.pins.enableLines →
    ∃ w f, m = .write s.cfg.regBase 4 w ∧ (decode w = .ok (.enable f) ∨ decode w = .ok (.disable f))

theorem SameOutputs.moveFrame {s t : State} (h : SameOutputs s t) (m : Move) : MoveFrame m s t where
  trace := h.trace ▸ List.prefix_rfl
  time hne := absurd hne (by simp [h.timer])
  enableLines hne := absurd (by rw [h.pins]) hne

/-- A move that runs an operation has the frame of the operation. -/
theorem OpFrame.moveFrame {m : Move} {i : Instr} {s t : State} (hs : PendingCommandLegal s) (hr : m.Runs s i)
    (h : OpFrame i s t) : MoveFrame m s t where
  trace := h.trace
  time hne := by
    by_cases hi : i = .tick
    · exact (hi ▸ hr).of_tick hs
    · obtain ⟨hnow, hnext⟩ := h.time hi
      exact absurd hne (by simp [hnow, hnext])
  enableLines hne := by
    by_contra hno
    refine hne (h.enableLines fun f => ⟨?_, ?_⟩) <;> rintro rfl
    · obtain ⟨w, hm, hd⟩ := hr.command_of_not_synchronizing hs (by simp) rfl
      exact hno ⟨w, f, hm, .inl hd⟩
    · obtain ⟨w, hm, hd⟩ := hr.command_of_not_synchronizing hs (by simp) rfl
      exact hno ⟨w, f, hm, .inr hd⟩

/-- Every move but reset has its frame. -/
theorem runMove_moveFrame {m : Move} {s t : State} (hs : PendingCommandLegal s) (hm : m ≠ .reset)
    (h : runMove m s = .next t) : MoveFrame m s t := by
  rcases runMove_outputs h with hr | hsame | ⟨i, u, hruns, hu, hx⟩
  · exact absurd hr hm
  · exact hsame.moveFrame m
  · exact (OpFrame.of_sameOutputs hu (exec_opFrame hx)).moveFrame hs hruns

/-- With nothing scheduled the step is SYNC_PERFORM or a compare match (log entry 2). -/
theorem idleMove_next_cases {s t : State} (h : idleMove s s = .next t) :
    runMove .syncPerform s = .next t ∨ runMove (.compareMatch none) s = .next t := by
  unfold idleMove at h
  split at h
  · exact .inl h
  · exact .inr h

/-- With nothing scheduled a step only appends to the trace and leaves the enable lines alone. -/
theorem idleMove_onlyAppends {s t : State} (hs : PendingCommandLegal s) (h : idleMove s s = .next t) :
    OnlyAppends s t := by
  rcases idleMove_next_cases h with h | h
  all_goals
    have hframe := runMove_moveFrame hs (by simp) h
    refine ⟨hframe.trace, ?_⟩
    by_contra hne
    obtain ⟨_, _, hm, -⟩ := hframe.enableLines hne
    cases hm

/-- Settles O57: the parameters are kept by every update, and the outputs have the frame of the schedule's oldest move,
or of the default move where nothing is scheduled. -/
theorem stepFrame : Obligations.StepFrame := by
  intro s t hs h hreset
  obtain ⟨hl, -⟩ := step_next h
  refine ⟨(cfg_kept s.cfg).step rfl h, ?_⟩
  cases hsch : s.env.schedule with
  | nil =>
    rw [step_unscheduled hl hsch] at h
    obtain ⟨⟨added, htrace⟩, hlines⟩ := idleMove_onlyAppends hs h
    exact ⟨⟨added, htrace.symm⟩, fun _ => .inl rfl, fun hne => absurd hlines hne⟩
  | cons m rest =>
    rw [step_head hl hsch] at h
    obtain ⟨⟨added, htrace⟩, htime, hlines⟩ :=
      runMove_moveFrame (s := { s with env.schedule := rest }) hs (fun hm => hreset rest (hm ▸ hsch)) h
    refine ⟨⟨added, htrace.symm⟩, fun hne => .inr ?_, fun hne => ?_⟩
    · rcases htime hne with ⟨e, rfl⟩ | ⟨w, rfl, hd⟩
      · exact .inl ⟨e, rest, rfl⟩
      · exact .inr ⟨w, rest, rfl, hd⟩
    · obtain ⟨w, f, rfl, hd⟩ := hlines hne
      exact ⟨w, rest, f, rfl, hd⟩

end Sys2Proof.Machine
end

section
/-! SUPPORT. The STEP outputs are low after every step (10_state.md R43). -/

namespace Sys2Proof.Machine

/-- ENABLE and DISABLE write the enable lines and the trace alone (46_direction_enable.md R266, R267). -/
theorem driveEnable_keeps {P : State → Prop} {a : Axis} {on : Bool} {s : State}
    (h : ∀ lines records, P { s with pins.enableLines := lines, trace := records }) : P (driveEnable a on s) := by
  unfold driveEnable
  simp only []
  split
  · exact h s.pins.enableLines s.trace
  · exact h _ _

/-- A pulse lowers the STEP output it raises, and nothing else writes one. -/
theorem stepOutputsLow_pulseKept : PulseKept StepOutputsLow where
  same h hpins _ _ _ := by simpa [StepOutputsLow, hpins] using h
  pulse s a d h b := by
    rw [(physicalPulse_pulsed a d s).stepOut]
    split
    · rfl
    · exact h b
  dir s a l h := by simpa [StepOutputsLow] using h
  note s e _ _ _ h := h
  sync s d h := by simpa [StepOutputsLow] using h

theorem stepOutputsLow_kept : Kept StepOutputsLow :=
  stepOutputsLow_pulseKept.kept (position := fun _ _ h => h)
    (enable := fun _ _ _ h => driveEnable_keeps fun _ _ => h)
    (program := fun s e h => by simpa [StepOutputsLow] using h)
    (reset := fun s _ a => PerAxis.read_all false a)

/-- Settles O50: every update a step is made of keeps the STEP outputs low. -/
theorem stepKeepsStepOutputsLow : Obligations.StepKeepsStepOutputsLow :=
  fun _ _ hs h => stepOutputsLow_kept.step hs h

end Sys2Proof.Machine
end

section
/-! SUPPORT. The loaded block: what BLOCK_PHASE can leave loaded, and that the step events and the Bresenham terms stay
in the block's range (10_state.md R23, 41_bresenham.md R131, R134). -/

namespace Sys2Proof.Machine

/-! ## What BLOCK_PHASE leaves loaded (44_block_sequencer.md R190, R194) -/

/-- The block LOAD makes current: the descriptor's, with its fields shifted (43_timer_interval.md R176). -/
def loadedBlock (c : Config) (d : Descriptor) : BlockRec :=
  applyOversampling (oversamplingShift c d.block.nominalRate) d.block

/-- LOAD makes its block current, with no step event run. -/
@[simp] theorem loadBlock_seq (d : Descriptor) (s : State) :
    (loadBlock d s).1.seq = { s.seq with current := some (loadedBlock s.cfg d), stepEventsCompleted := 0 } := by
  unfold loadBlock; simp only []; split <;> simp [loadedBlock]

/-- The loop of LOAD_NEXT loads no block, or loads a motion block VALID accepts. -/
theorem loadFrom_cases (q : List Descriptor) (s : State) :
    (loadFrom q s).1.seq = s.seq ∨
      ∃ d u, u.cfg = s.cfg ∧ valid s.cfg d = true ∧ d.isSync = false ∧ (loadFrom q s).1 = (loadBlock d u).1 := by
  induction q generalizing s with
  | nil => exact .inl rfl
  | cons d rest ih =>
    unfold loadFrom
    split
    · exact .inl rfl
    · split
      · exact .inl rfl
      · next hv =>
        split
        · simpa using ih (emit (.discard d.block.id) (plannerDiscard (applySync d s)))
        · next hsync => exact .inr ⟨d, s, rfl, by simpa using hv, by simpa using hsync, rfl⟩

theorem loadNext_cases (s : State) :
    (loadNext s).1.seq = s.seq ∨
      ∃ d u, u.cfg = s.cfg ∧ valid s.cfg d = true ∧ d.isSync = false ∧ (loadNext s).1 = (loadBlock d u).1 :=
  loadFrom_cases s.pq s

/-- BLOCK_PHASE leaves no block loaded, loads a motion block VALID accepts, or goes on with the loaded one. -/
theorem blockPhase_cases (s : State) :
    (blockPhase s).1.seq.current = none ∨
      (∃ d u, u.cfg = s.cfg ∧ valid s.cfg d = true ∧ d.isSync = false ∧ (blockPhase s).1 = (loadBlock d u).1) ∨
      ∃ b, (blockPhase s).1 = (phaseInterval b s).1 := by
  unfold blockPhase
  split
  · next hc => exact (loadNext_cases s).imp (fun h => by rw [h, hc]) .inl
  · next b _ =>
    split
    · refine (loadNext_cases (completeBlock b s)).imp (fun h => ?_) fun h => .inl ?_
      · rw [h, completeBlock_current]
      · simpa only [completeBlock_cfg] using h
    · exact .inr (.inr ⟨b, rfl⟩)

/-! ## The step events (41_bresenham.md R131) -/

theorem EventsWithinBlock.same {s t : State} (h : EventsWithinBlock s) (hseq : t.seq = s.seq) :
    EventsWithinBlock t := by
  unfold EventsWithinBlock; rwa [hseq]

theorem EventsWithinBlock.of_none {s : State} (h : s.seq.current = none) : EventsWithinBlock s :=
  fun _ hb => absurd (h.symm.trans hb) nofun

/-- PULSE_PHASE runs at most the events the block has left (41_bresenham.md R130). -/
theorem pulsePhase_eventsWithinBlock {s : State} (h : EventsWithinBlock s) : EventsWithinBlock (pulsePhase s) := by
  unfold pulsePhase
  split
  · exact .of_none (consumeAbort_current s)
  · split
    · exact h
    · next b hb =>
      intro b' hb'
      have hle := h b hb
      simp only [runEvents_seq, hb, Option.some.injEq] at hb' ⊢
      subst hb'
      omega

theorem blockPhase_eventsWithinBlock {s : State} (h : EventsWithinBlock s) : EventsWithinBlock (blockPhase s).1 := by
  rcases blockPhase_cases s with hnone | ⟨d, u, -, -, -, ht⟩ | ⟨b, ht⟩
  · exact .of_none hnone
  · rw [ht]
    intro b _
    simp
  · rw [ht]
    exact h.same (phaseInterval_seq b s)

theorem eventsWithinBlock_kept : Kept EventsWithinBlock where
  nextMain _ _ h := h
  nextAdv _ _ h := h
  nextBaby _ _ h := h
  pulsePhase _ h := pulsePhase_eventsWithinBlock h
  stepEvent s h := h.same (stepEvent_seq s)
  shapingIsr s h := h.same (shapingIsr_seq s)
  advanceIsr s h := h.same (advanceIsr_seq s)
  babystepIsr s h := h.same (babystepIsr_seq s)
  blockPhase _ h := blockPhase_eventsWithinBlock h
  program s e h := h.same (programTimer_seq e s)
  env _ _ h := h
  host _ _ h := h
  pq _ _ h := h
  abort _ h := h
  position _ _ h := h
  baby _ _ _ _ h := h
  enable _ _ _ h := driveEnable_keeps fun _ _ => h
  reset _ _ := .of_none rfl

/-! ## The Bresenham terms (41_bresenham.md R134) -/

/-- One axis's dividend and `delta_error` are in the range of a block of `N` step events. -/
def TermsInRange (N dividend : Nat) (error : Int) : Prop :=
  dividend ≤ 2 * N ∧ -(2 * (N : Int)) ≤ error ∧ error ≤ 0 ∧ (0 < N → error < 0)

/-- A step event keeps an axis in range: the error rises by at most 2N, and 2N is taken off once it is not negative. -/
theorem TermsInRange.nextError {N dividend : Nat} {error : Int} (h : TermsInRange N dividend error) (skip : Bool) :
    TermsInRange N dividend (nextError skip dividend (2 * N) error) := by
  obtain ⟨hdiv, hlo, hhi, hneg⟩ := h
  unfold Machine.nextError
  split
  · exact ⟨hdiv, hlo, hhi, hneg⟩
  · split
    · exact ⟨hdiv, by omega, by omega, fun hN => by have := hneg hN; omega⟩
    · exact ⟨hdiv, by omega, by omega, fun _ => by omega⟩

/-- BRESENHAM_INIT starts an axis of at most `N` steps in range. -/
theorem TermsInRange.init {N steps : Nat} (h : steps ≤ N) : TermsInRange N (2 * steps) (-(N : Int)) :=
  ⟨by omega, by omega, by omega, fun _ => by omega⟩

theorem bresenhamInRange_iff (s : State) : BresenhamInRange s ↔ ∀ b, s.seq.current = some b →
    s.bres.advanceDivisor = 2 * b.stepEventCount ∧ ∀ a : Axis, a.val < s.cfg.numAxes →
      TermsInRange b.stepEventCount (s.bres.advanceDividend.read a) (s.bres.deltaError.read a) := Iff.rfl

theorem BresenhamInRange.of_none {s : State} (h : s.seq.current = none) : BresenhamInRange s :=
  fun _ hb => absurd (h.symm.trans hb) nofun

/-- The range is a matter of the loaded block, the number of axes and the three terms. -/
theorem BresenhamInRange.same {s t : State} (h : BresenhamInRange s) (hcur : t.seq.current = s.seq.current)
    (hcfg : t.cfg = s.cfg) (hdivisor : t.bres.advanceDivisor = s.bres.advanceDivisor)
    (hdividend : t.bres.advanceDividend = s.bres.advanceDividend) (herror : t.bres.deltaError = s.bres.deltaError) :
    BresenhamInRange t := by
  unfold BresenhamInRange; rwa [hcur, hcfg, hdivisor, hdividend, herror]

/-- Work that writes positions, and nothing else of the Bresenham state, keeps the range. -/
theorem BresenhamInRange.of_positions {s t : State} (h : BresenhamInRange s) (hcur : t.seq = s.seq)
    (hcfg : t.cfg = s.cfg) (hbres : t.bres = { s.bres with countPosition := t.bres.countPosition }) :
    BresenhamInRange t :=
  h.same (by rw [hcur]) hcfg (by rw [hbres]) (by rw [hbres]) (by rw [hbres])

theorem stepEvent_bresenhamInRange {s : State} (h : BresenhamInRange s) : BresenhamInRange (stepEvent s) := by
  intro b hb
  rw [stepEvent_seq] at hb
  obtain ⟨hdivisor, hterms⟩ := (bresenhamInRange_iff s).1 h b hb
  refine ⟨by rw [stepEvent_bres, hdivisor], fun a ha => ?_⟩
  rw [stepEvent_cfg] at ha
  rw [stepEvent_deltaError, if_pos ha, hdivisor, stepEvent_bres]
  exact (hterms a ha).nextError _

theorem runEvents_bresenhamInRange (n : Nat) {s : State} (h : BresenhamInRange s) :
    BresenhamInRange (runEvents n s) := by
  induction n generalizing s with
  | zero => exact h
  | succ n ih => exact ih ((stepEvent_bresenhamInRange h).same rfl rfl rfl rfl rfl)

theorem pulsePhase_bresenhamInRange {s : State} (h : BresenhamInRange s) : BresenhamInRange (pulsePhase s) := by
  unfold pulsePhase
  split
  · exact .of_none (consumeAbort_current s)
  · split
    · exact h
    · exact runEvents_bresenhamInRange _ h

/-- Condition 4 of VALID: no axis of a motion block takes more steps than the block has events
(44_block_sequencer.md R198). -/
theorem valid_steps_le {c : Config} {d : Descriptor} (hv : valid c d = true) (hs : d.isSync = false) {a : Axis}
    (ha : a.val < c.numAxes) : d.block.steps.read a ≤ d.block.stepEventCount := by
  simp only [valid, hs, Bool.false_or, Bool.and_eq_true, validSteps, List.all_eq_true, decide_eq_true_eq,
    Config.mem_liveAxes] at hv
  obtain ⟨⟨-, ⟨hsteps, -⟩, -⟩, -⟩ := hv
  exact hsteps a ha

/-- Shifting a block's event count does not lower it, and its steps are not shifted. -/
theorem loadedBlock_steps_le {c : Config} {d : Descriptor} (hv : valid c d = true) (hs : d.isSync = false) {a : Axis}
    (ha : a.val < c.numAxes) : (loadedBlock c d).steps.read a ≤ (loadedBlock c d).stepEventCount :=
  (valid_steps_le hv hs ha).trans (by
    rw [loadedBlock, applyOversampling, Nat.shiftLeft_eq]
    exact Nat.le_mul_of_pos_right _ (Nat.two_pow_pos _))

/-- LOAD's Bresenham terms are those of BRESENHAM_INIT (41_bresenham.md R133). -/
theorem loadBlock_terms (d : Descriptor) (s : State) :
    (loadBlock d s).1.bres.advanceDivisor = 2 * (loadedBlock s.cfg d).stepEventCount ∧
      ∀ a : Axis, a.val < s.cfg.numAxes →
        (loadBlock d s).1.bres.advanceDividend.read a = 2 * (loadedBlock s.cfg d).steps.read a ∧
        (loadBlock d s).1.bres.deltaError.read a = -((loadedBlock s.cfg d).stepEventCount : Int) := by
  unfold loadBlock
  simp only []
  split <;> exact ⟨by simp [bresenhamInit, loadedBlock], fun a ha => by simp [bresenhamInit, loadedBlock, ha]⟩

theorem blockPhase_bresenhamInRange {s : State} (h : BresenhamInRange s) : BresenhamInRange (blockPhase s).1 := by
  rcases blockPhase_cases s with hnone | ⟨d, u, hcfg, hv, hsync, ht⟩ | ⟨b, ht⟩
  · exact .of_none hnone
  · rw [ht]
    rw [← hcfg] at hv
    obtain ⟨hdivisor, hterms⟩ := loadBlock_terms d u
    intro b hb
    obtain rfl : loadedBlock u.cfg d = b := by simpa using hb
    refine ⟨hdivisor, fun a ha => ?_⟩
    rw [loadBlock_cfg] at ha
    obtain ⟨hdividend, herror⟩ := hterms a ha
    rw [hdividend, herror]
    exact TermsInRange.init (loadedBlock_steps_le hv hsync ha)
  · rw [ht]
    exact h.same (by simp) (by simp) (by simp) (by simp) (by simp)

theorem bresenhamInRange_kept : Kept BresenhamInRange where
  nextMain _ _ h := h
  nextAdv _ _ h := h
  nextBaby _ _ h := h
  pulsePhase _ h := pulsePhase_bresenhamInRange h
  stepEvent _ h := stepEvent_bresenhamInRange h
  shapingIsr s h := h.of_positions (shapingIsr_seq s) (shapingIsr_cfg s) (shapingIsr_bres s)
  advanceIsr s h := h.of_positions (advanceIsr_seq s) (advanceIsr_cfg s) (advanceIsr_bres s)
  babystepIsr s h := h.of_positions (babystepIsr_seq s) (babystepIsr_cfg s) (babystepIsr_bres s)
  blockPhase _ h := blockPhase_bresenhamInRange h
  program s e h := h.same (by simp) (by simp) (by simp) (by simp) (by simp)
  env _ _ h := h
  host _ _ h := h
  pq _ _ h := h
  abort _ h := h
  position _ _ h := h
  baby _ _ _ _ h := h
  enable _ _ _ h := driveEnable_keeps fun _ _ => h
  reset _ _ := .of_none rfl

/-- Settles O51: both ranges are kept by every update a step is made of. -/
theorem stepKeepsBlockInRange : Obligations.StepKeepsBlockInRange :=
  fun _ _ h => ⟨fun hs => eventsWithinBlock_kept.step hs h, fun hs => bresenhamInRange_kept.step hs h⟩

end Sys2Proof.Machine
end

section
/-! SUPPORT. The shifts, the phase times and the pending babysteps stay in range (10_state.md R32, R33, R35 to R37,
R42). -/

namespace Sys2Proof

/-! ## The interval calculator's bounds (43_timer_interval.md) -/

theorem Config.legal_maxInterval_lt {c : Config} (h : c.legal = true) : c.maxInterval < 2 ^ 32 := by
  have hpow : 2 ^ c.timerBits ≤ 2 ^ 32 := Nat.pow_le_pow_right (by decide) (Config.legal_timerBits_bounds h).2
  simp only [Config.maxInterval]
  omega

namespace Machine

theorem multiStepShift_le (limit r fuel k : Nat) : multiStepShift limit r fuel k ≤ fuel + k := by
  induction fuel generalizing k with
  | zero => exact Nat.le_add_left _ _
  | succ fuel ih =>
    unfold multiStepShift
    split
    · have := ih (k + 1)
      omega
    · omega

/-- The shift is at most its ceiling, if the overrun shift is (43_timer_interval.md R172). -/
theorem isrShift_le {c : Config} {overrunShift : Nat} (h : overrunShift ≤ c.maxMultistepShift) (r : Nat) :
    isrShift c overrunShift r ≤ c.maxMultistepShift :=
  max_le (multiStepShift_le _ r _ 0) h

theorem oversampleSearch_le (floorRate fuel o r : Nat) : oversampleSearch floorRate fuel o r ≤ fuel + o := by
  induction fuel generalizing o r with
  | zero => exact Nat.le_add_left _ _
  | succ fuel ih =>
    unfold oversampleSearch
    split
    · have := ih (o + 1) (r <<< 1)
      omega
    · omega

/-- The oversampling shift is at most its ceiling (43_timer_interval.md R176). -/
theorem oversamplingShift_le (c : Config) (r : Nat) : oversamplingShift c r ≤ c.maxOversampling := by
  unfold oversamplingShift
  split
  · exact oversampleSearch_le _ _ 0 r
  · exact Nat.zero_le _

/-- An interval fits 32 bits (43_timer_interval.md R170). -/
theorem baseInterval_lt {c : Config} (h : c.legal = true) (r : Nat) : baseInterval c r < 2 ^ 32 := by
  have hmax := Config.legal_maxInterval_lt h
  unfold baseInterval
  split
  · exact hmax
  · omega

theorem sat32_lt (v : Nat) : sat32 v < 2 ^ 32 := by
  unfold sat32
  omega

/-! ## Work that keeps the timers in range -/

/-- The phase times fit 32 bits (10_state.md R32). -/
def PhaseTimesFit (s : State) : Prop := s.timer.accelerationTime < 2 ^ 32 ∧ s.timer.decelerationTime < 2 ^ 32

/-- `t` has the parameters of `s`, and its shifts and phase times are in range if those of `s` are. -/
structure TimersKept (s t : State) : Prop where
  cfg : t.cfg = s.cfg
  shifts : ShiftsInRange s → ShiftsInRange t
  phaseTimes : s.cfg.legal = true → PhaseTimesFit s → PhaseTimesFit t

/-- The shifts and phase times of a timer: what is left when the countdowns, the rates and the cruise cache's interval
are left out. -/
def Timer.ranged (x : Timer) : Nat × Nat × Nat × Nat × Nat × Nat :=
  (x.stepsPerIsrShift, x.nominalShift, x.overrunShift, x.oversampling, x.accelerationTime, x.decelerationTime)

namespace TimersKept

variable {s t u : State}

theorem trans (h : TimersKept s t) (k : TimersKept t u) : TimersKept s u where
  cfg := k.cfg.trans h.cfg
  shifts hs := k.shifts (h.shifts hs)
  phaseTimes hl hs := k.phaseTimes (h.cfg ▸ hl) (h.phaseTimes hl hs)

/-- Work that writes no shift and no phase time keeps them. -/
theorem of_ranged (hcfg : t.cfg = s.cfg) (h : t.timer.ranged = s.timer.ranged) : TimersKept s t := by
  simp only [Timer.ranged, Prod.mk.injEq] at h
  obtain ⟨hsteps, hnominal, hoverrun, hoversampling, haccel, hdecel⟩ := h
  exact {
    cfg := hcfg
    shifts := by unfold ShiftsInRange; rw [hcfg, hsteps, hnominal, hoverrun, hoversampling]; exact id
    phaseTimes := fun _ => by unfold PhaseTimesFit; rw [haccel, hdecel]; exact id }

theorem refl (s : State) : TimersKept s s := of_ranged rfl rfl

theorem of_timer (hcfg : t.cfg = s.cfg) (h : t.timer = s.timer) : TimersKept s t := of_ranged hcfg (by rw [h])

end TimersKept

/-! ## The engine's work on the timers -/

theorem laDecel_timersKept (b : BlockRec) (rate : Nat) (s : State) : TimersKept s (laDecel b rate s) := by
  refine .of_ranged (by simp) ?_
  unfold laDecel
  simp only []
  generalize (if s.la.advanceSteps.toInt > b.finalAdvSteps then b.laAdvanceRate else 0) = laRate
  split
  · rfl
  · generalize (if decide (laRate > rate) = true then laRate - rate else rate - laRate) = diff
    split <;> rfl

theorem laLoad_timersKept (b : BlockRec) (s : State) : TimersKept s (laLoad b s) := by
  refine .of_ranged (by simp) ?_
  unfold laLoad
  split <;> rfl

theorem discardBlock_timersKept (b : BlockRec) (s : State) : TimersKept s (discardBlock b s) := by
  refine .of_ranged (by simp) ?_
  unfold discardBlock
  simp only []
  split <;> rfl

theorem consumeAbort_timersKept (s : State) : TimersKept s (consumeAbort s) := by
  have hstart : TimersKept s { s with seq.abortCurrentBlock := false } := .of_timer rfl rfl
  have hend : ∀ u, TimersKept u (emit (.positionResync (positions (shapingFlush u))) (shapingFlush u)) :=
    fun _ => .of_timer rfl rfl
  unfold consumeAbort
  simp only []
  split
  · next b _ =>
    have hnote : TimersKept s (emit (.blockAborted b.id) { s with seq.abortCurrentBlock := false }) :=
      .of_timer rfl rfl
    exact (hnote.trans (discardBlock_timersKept b _)).trans (hend _)
  · exact hstart.trans (hend _)

theorem pulsePhase_timersKept (s : State) : TimersKept s (pulsePhase s) := by
  unfold pulsePhase
  split
  · exact consumeAbort_timersKept s
  · split
    · exact .refl s
    · exact .of_timer (by simp) (by simp)

/-! ### BLOCK_PHASE (44_block_sequencer.md R190 to R199) -/

/-- CALC_TIMER_INTERVAL writes a shift in range (43_timer_interval.md R172). -/
theorem calcTimerInterval_timersKept (r : Nat) (s : State) : TimersKept s (calcTimerInterval r s).1 where
  cfg := rfl
  shifts := fun ⟨_, hnominal, hoverrun, hoversampling⟩ => ⟨isrShift_le hoverrun r, hnominal, hoverrun, hoversampling⟩
  phaseTimes _ h := h

/-- The shifts and phase times of a fresh block (44_block_sequencer.md R199). -/
theorem loadBlock_ranged (d : Descriptor) (s : State) :
    ∃ overrunShift r, (overrunShift = 0 ∨ overrunShift = s.timer.overrunShift) ∧
      (loadBlock d s).1.timer.ranged =
        (isrShift s.cfg overrunShift r, 0, overrunShift, oversamplingShift s.cfg d.block.nominalRate,
          baseInterval s.cfg (r >>> isrShift s.cfg overrunShift r), 0) := by
  refine ⟨if s.cfg.overrunDeescalate = .atBlockLoad then 0 else s.timer.overrunShift,
    (loadedBlock s.cfg d).initialRate, by split <;> simp, ?_⟩
  unfold loadBlock
  simp only []
  split
  · unfold laLoad
    split <;> simp [Timer.ranged, calcTimerInterval, loadTimers, loadedBlock, laAccel, laSet]
  · simp [Timer.ranged, calcTimerInterval, loadTimers, loadedBlock]

theorem loadBlock_timersKept (d : Descriptor) (s : State) : TimersKept s (loadBlock d s).1 := by
  obtain ⟨overrunShift, r, hov, h⟩ := loadBlock_ranged d s
  simp only [Timer.ranged, Prod.mk.injEq] at h
  obtain ⟨hsteps, hnominal, hoverrun, hoversampling, haccel, hdecel⟩ := h
  refine ⟨loadBlock_cfg d s, fun ⟨_, _, hs, _⟩ => ?_, fun hl _ => ?_⟩
  · have hle : overrunShift ≤ s.cfg.maxMultistepShift := by omega
    unfold ShiftsInRange
    rw [loadBlock_cfg, hsteps, hnominal, hoverrun, hoversampling]
    exact ⟨isrShift_le hle r, Nat.zero_le _, hle, oversamplingShift_le _ _⟩
  · unfold PhaseTimesFit
    rw [haccel, hdecel]
    exact ⟨baseInterval_lt hl _, by decide⟩

theorem loadFrom_timersKept (q : List Descriptor) (s : State) : TimersKept s (loadFrom q s).1 := by
  induction q generalizing s with
  | nil => exact .refl s
  | cons d rest ih =>
    unfold loadFrom
    split
    · exact .of_timer rfl rfl
    · split
      · exact .of_timer rfl rfl
      · split
        · exact .trans (.of_timer (by simp) (by simp)) (ih _)
        · exact loadBlock_timersKept d s

theorem accelInterval_timersKept (b : BlockRec) (s : State) : TimersKept s (accelInterval b s).1 := by
  have hrate : TimersKept s { s with timer.accStepRate := accelRate b s } := .of_ranged rfl rfl
  have htime : ∀ (u : State) n, TimersKept u { u with timer.accelerationTime := sat32 n } := fun _ n =>
    { cfg := rfl, shifts := id, phaseTimes := fun _ ⟨_, hdecel⟩ => ⟨sat32_lt n, hdecel⟩ }
  have h := hrate.trans (calcTimerInterval_timersKept (accelRate b s) _)
  unfold accelInterval
  simp only []
  split
  · exact (h.trans (htime _ _)).trans (.of_ranged rfl rfl)
  · exact h.trans (htime _ _)

/-- The cached shift is one CALC_TIMER_INTERVAL wrote (44_block_sequencer.md R192). -/
theorem fillCruise_timersKept (b : BlockRec) (s : State) : TimersKept s (fillCruise b s) := by
  have hcache : ∀ (u : State) iv, TimersKept u { u with timer := { u.timer with
      ticksNominal := some iv, nominalShift := u.timer.stepsPerIsrShift } } := fun _ _ =>
    { cfg := rfl
      shifts := fun ⟨hsteps, _, hoverrun, hoversampling⟩ => ⟨hsteps, hsteps, hoverrun, hoversampling⟩
      phaseTimes := fun _ h => h }
  have h := calcTimerInterval_timersKept b.nominalRate s
  unfold fillCruise
  simp only []
  split
  · exact (h.trans (hcache _ (calcTimerInterval b.nominalRate s).2)).trans (.of_ranged rfl rfl)
  · exact h.trans (hcache _ _)

theorem cruiseInterval_timersKept (b : BlockRec) (s : State) : TimersKept s (cruiseInterval b s).1 := by
  have hshift : ∀ u : State, TimersKept u { u with timer.stepsPerIsrShift := u.timer.nominalShift } := fun _ =>
    { cfg := rfl
      shifts := fun ⟨_, hnominal, hoverrun, hoversampling⟩ => ⟨hnominal, hnominal, hoverrun, hoversampling⟩
      phaseTimes := fun _ h => h }
  unfold cruiseInterval
  simp only []
  split
  · exact (fillCruise_timersKept b s).trans (hshift _)
  · exact hshift s

theorem decelInterval_timersKept (b : BlockRec) (s : State) : TimersKept s (decelInterval b s).1 := by
  have hrate : TimersKept s (decelRate b s).1 := .of_timer (by simp) (by simp)
  have htime : ∀ (u : State) n, TimersKept u { u with timer.decelerationTime := sat32 n } := fun _ n =>
    { cfg := rfl, shifts := id, phaseTimes := fun _ ⟨haccel, _⟩ => ⟨haccel, sat32_lt n⟩ }
  have h := hrate.trans (calcTimerInterval_timersKept (decelRate b s).2 _)
  unfold decelInterval
  simp only []
  split
  · exact (h.trans (htime _ _)).trans (laDecel_timersKept b _ _)
  · exact h.trans (htime _ _)

theorem phaseInterval_timersKept (b : BlockRec) (s : State) : TimersKept s (phaseInterval b s).1 := by
  unfold phaseInterval
  split
  · exact accelInterval_timersKept b s
  · split
    · exact cruiseInterval_timersKept b s
    · exact decelInterval_timersKept b s

theorem blockPhase_timersKept (s : State) : TimersKept s (blockPhase s).1 := by
  unfold blockPhase
  split
  · exact loadFrom_timersKept _ s
  · next b _ =>
    split
    · have hdone : TimersKept s (emit (.blockDone b.id) s) := .of_timer rfl rfl
      exact (hdone.trans (discardBlock_timersKept b _)).trans (loadFrom_timersKept _ _)
    · exact phaseInterval_timersKept b s

/-! ### The end of a TICK (40_isr_scheduler.md R114) -/

/-- The overrun shift rises only below its ceiling. -/
theorem overrunCheck_timersKept (interval e : Nat) (s : State) : TimersKept s (overrunCheck interval e s) := by
  unfold overrunCheck
  split
  · simp only []
    split
    · next hlt =>
      exact {
        cfg := rfl
        shifts := fun ⟨hsteps, hnominal, _, hoversampling⟩ => ⟨hsteps, hnominal, hlt, hoversampling⟩
        phaseTimes := fun _ h => h }
    · exact .of_timer rfl rfl
  · exact .refl s

theorem programTimer_timersKept (e : Nat) (s : State) : TimersKept s (programTimer e s) :=
  (overrunCheck_timersKept (selectInterval s) e s).trans (.of_ranged rfl rfl)

/-- Reset clears the shifts and the phase times (70_reset_and_hazards.md R341). -/
theorem resetMachine_timersKept (s : State) : TimersKept s (resetMachine s) where
  cfg := rfl
  shifts _ := ⟨Nat.zero_le _, Nat.zero_le _, Nat.zero_le _, Nat.zero_le _⟩
  phaseTimes _ _ := ⟨Nat.two_pow_pos 32, Nat.two_pow_pos 32⟩

/-- Every update a step is made of keeps the timers in range. -/
theorem timersKept_kept (s : State) : Kept (TimersKept s) where
  nextMain _ _ h := h.trans (.of_ranged rfl rfl)
  nextAdv _ _ h := h.trans (.of_ranged rfl rfl)
  nextBaby _ _ h := h.trans (.of_ranged rfl rfl)
  pulsePhase _ h := h.trans (pulsePhase_timersKept _)
  stepEvent _ h := h.trans (.of_timer (by simp) (by simp))
  shapingIsr _ h := h.trans (.of_timer (by simp) (by simp))
  advanceIsr _ h := h.trans (.of_timer (by simp) (by simp))
  babystepIsr _ h := h.trans (.of_timer (by simp) (by simp))
  blockPhase _ h := h.trans (blockPhase_timersKept _)
  program _ e h := h.trans (programTimer_timersKept e _)
  env _ _ h := h.trans (.of_timer rfl rfl)
  host _ _ h := h.trans (.of_timer rfl rfl)
  pq _ _ h := h.trans (.of_timer rfl rfl)
  abort _ h := h.trans (.of_timer rfl rfl)
  position _ _ h := h.trans (.of_timer rfl rfl)
  baby _ _ _ _ h := h.trans (.of_timer rfl rfl)
  enable _ _ _ h := driveEnable_keeps fun _ _ => h.trans (.of_timer rfl rfl)
  reset _ h := h.trans (resetMachine_timersKept _)

/-! ## Babysteps (10_state.md R42) -/

theorem BabystepsInRange.same {s t : State} (h : BabystepsInRange s) (hcfg : t.cfg = s.cfg)
    (hbaby : t.babyPending = s.babyPending) : BabystepsInRange t := by
  unfold BabystepsInRange
  rwa [hcfg, hbaby]

/-- A count within the bound may replace an axis's pending count. -/
theorem BabystepsInRange.write {s : State} (h : BabystepsInRange s) (a : Axis) {n : Int}
    (hn : n.natAbs ≤ s.cfg.babystepMax) : BabystepsInRange { s with babyPending := s.babyPending.write a n } := by
  intro b
  rw [PerAxis.read_write]
  split
  · exact hn
  · exact h b

/-- A served babystep brings the pending count nearer to 0 (45_aux_pulse.md R242). -/
theorem natAbs_sub_babyDir_le {n : Int} (h : n ≠ 0) : (n - (babyDir n).sign).natAbs ≤ n.natAbs := by
  unfold babyDir
  split <;> simp only [Dir.sign] <;> omega

theorem babystepIsr_babystepsInRange {s : State} (h : BabystepsInRange s) : BabystepsInRange (babystepIsr s) := by
  unfold babystepIsr
  split
  · exact h
  · next a ha =>
    have hne : s.babyPending.read a ≠ 0 := by
      have hpending := List.find?_some ha
      simpa using hpending
    have hpulse : BabystepsInRange (physicalPulse a (babyDir (s.babyPending.read a)) s) :=
      h.same (physicalPulse_cfg ..) (physicalPulse_babyPending ..)
    have hserved := hpulse.write a (n := s.babyPending.read a - (babyDir (s.babyPending.read a)).sign)
      (by rw [physicalPulse_cfg]; exact (natAbs_sub_babyDir_le hne).trans (h a))
    exact hserved.same (driveDir_cfg ..) (driveDir_babyPending ..)

theorem babystepsInRange_kept : Kept BabystepsInRange where
  nextMain _ _ h := h
  nextAdv _ _ h := h
  nextBaby _ _ h := h
  pulsePhase s h := h.same (pulsePhase_cfg s) (pulsePhase_babyPending s)
  stepEvent s h := h.same (stepEvent_cfg s) (stepEvent_babyPending s)
  shapingIsr s h := h.same (shapingIsr_cfg s) (shapingIsr_babyPending s)
  advanceIsr s h := h.same (advanceIsr_cfg s) (advanceIsr_babyPending s)
  babystepIsr _ h := babystepIsr_babystepsInRange h
  blockPhase s h := h.same (blockPhase_cfg s) (blockPhase_babyPending s)
  program s e h := h.same (programTimer_cfg e s) (programTimer_babyPending e s)
  env _ _ h := h
  host _ _ h := h
  pq _ _ h := h
  abort _ h := h
  position _ _ h := h
  baby _ a _ hn h := h.write a hn
  enable _ _ _ h := driveEnable_keeps fun _ _ => h
  reset _ _ a := (congrArg Int.natAbs (PerAxis.read_all 0 a)).trans_le (Nat.zero_le _)

end Machine
end Sys2Proof
end

section
/-! SUPPORT. What host commands and endstop words leave of the engine; from it, that the overrun count stays in range
(10_state.md R44) and what a fault freezes (10_state.md R47, 60_exceptions.md R314). -/

namespace Sys2Proof

/-! ## Operations by format (30_encoding.md R80) -/

/-- An operation is the host's or the endstop source's, or the engine's. -/
theorem Instr.format_host_or_engine (i : Instr) :
    (i.format = .cmd ∨ i.format = .ein) ∨ i.format = .evt ∨ i.format = .pln := by
  cases i.format <;> simp

/-- Only commands synchronize (30_encoding.md R84). -/
theorem Instr.synchronizing_of_not_cmd {i : Instr} (h : i.format ≠ .cmd) : i.synchronizing = false := by
  cases i with
  | getPosition f | setAxisPosition f => simp [Instr.format, formatOf, opcOf_encode, Instr.opc] at h
  | setPosition => exact absurd (by decide) h
  | _ => rfl

namespace Machine

/-! ## Engine operations -/

/-- Every engine operation keeps what the engine's work keeps, if a reply and a discarded block keep it too. -/
theorem EngineKept.exec {I : State → Prop} (k : EngineKept I) (reply : ∀ s r, I s → I (setReply r s))
    (discard : ∀ s, I s → I (plannerDiscard s)) {i : Instr} (hf : i.format = .evt ∨ i.format = .pln) {s t : State}
    (hs : I s) (h : exec i s = .next t) : I t := by
  cases i with
  | tick => cases h; exact k.tick hs
  | pulsePhase => cases h; exact engineStep_keeps k.pulsePhase hs
  | stepEvent => cases h; exact engineStep_keeps k.stepEvent hs
  | blockPhase => cases h; exact engineStep_keeps (fun s h => reply _ _ (k.blockPhase s h)) hs
  | shapingIsr => cases h; exact engineStep_keeps k.shapingIsr hs
  | advanceIsr => cases h; exact engineStep_keeps k.advanceIsr hs
  | babystepIsr => cases h; exact engineStep_keeps k.babystepIsr hs
  | getCurrentBlock => cases h; exact engineStep_keeps (fun s h => reply s _ h) hs
  | discardCurrentBlock => cases h; exact engineStep_keeps discard hs
  | _ => simp [Instr.format, formatOf, opcOf_encode, Instr.opc] at hf

/-- While `fault` = 1 an engine operation changes nothing (10_state.md R47). -/
theorem exec_of_fault {i : Instr} {s : State} (hfault : s.host.fault = true) (hf : i.format = .evt ∨ i.format = .pln) :
    exec i s = .next s := by
  cases i with
  | tick => simp [exec, execTick, tick, hfault]
  | pulsePhase | stepEvent | blockPhase | shapingIsr | advanceIsr | babystepIsr | getCurrentBlock
    | discardCurrentBlock =>
    simp [exec, execPulsePhase, execStepEvent, execBlockPhase, execShapingIsr, execAdvanceIsr, execBabystepIsr,
      execGetCurrentBlock, execDiscardCurrentBlock, engineStep, hfault]
  | _ => simp [Instr.format, formatOf, opcOf_encode, Instr.opc] at hf

/-! ## The frame of a host command -/

/-- The engine's own state, that the host and the endstop source never write: the loaded block and its events, the
timers, the S-curve, linear advance, shaping, the Bresenham accumulators and the fault. -/
def enginePart (s : State) :
    Option BlockRec × Nat × Timer × Bezier × LinearAdvance × Shaping × PerAxis Int × Bool × BitVec 8 :=
  (s.seq.current, s.seq.stepEventsCompleted, s.timer, s.bez, s.la, s.shaping, s.bres.deltaError, s.host.fault,
    s.host.faultCode)

/-- What only a synchronizing command writes: the positions and the command handshake. -/
def synchronizedPart (s : State) : Bresenham × Bool × Word := (s.bres, s.host.cmdPending, s.host.pendingCmd)

/-- What the host's or the endstop source's operation `i` may do to the engine: it leaves the engine's state alone, it
clears the overrun count or leaves it, and it writes positions and the handshake only if it synchronizes. -/
structure HostFrame (i : Instr) (s t : State) : Prop where
  engine : enginePart t = enginePart s
  overrunCount : t.host.overrunCount ≤ s.host.overrunCount
  synchronized : i.synchronizing = false → synchronizedPart t = synchronizedPart s

theorem HostFrame.refl (i : Instr) (s : State) : HostFrame i s s := ⟨rfl, le_rfl, fun _ => rfl⟩

/-- A synchronizing command's body runs or is held (47_host_interface.md R277). -/
theorem whenIdle_hostFrame {i : Instr} (hi : i.synchronizing = true) {k : State → State} {s : State}
    (hengine : enginePart (k s) = enginePart s) (hcount : (k s).host.overrunCount = s.host.overrunCount) :
    HostFrame i s (whenIdle k s) := by
  have hsync : ∀ t, i.synchronizing = false → synchronizedPart t = synchronizedPart s := fun _ h => by simp [hi] at h
  unfold whenIdle
  split
  · exact ⟨hengine, hcount.le, hsync _⟩
  · exact ⟨rfl, le_rfl, hsync _⟩

theorem requestBabystep_hostFrame (i : Instr) (a : Axis) (s : State) : HostFrame i s (requestBabystep a s) := by
  unfold requestBabystep
  simp only []
  split <;> exact ⟨rfl, le_rfl, fun _ => rfl⟩

theorem driveEnable_hostFrame (i : Instr) (a : Axis) (on : Bool) (s : State) :
    HostFrame i s (reportEnable (driveEnable a on s)) :=
  driveEnable_keeps (P := fun t => HostFrame i s (reportEnable t)) fun _ _ => ⟨rfl, le_rfl, fun _ => rfl⟩

/-- Every command and the endstop word have their frame (47_host_interface.md R279 to R288, R295). -/
theorem exec_hostFrame {i : Instr} {s t : State} (hf : i.format = .cmd ∨ i.format = .ein)
    (h : exec i s = .next t) : HostFrame i s t := by
  have herr : ∀ e, HostFrame i s (raiseHostError e s) := fun _ => ⟨rfl, le_rfl, fun _ => rfl⟩
  cases i with
  | nop | isBlockBusy | abort | clearEndstops | isIdle =>
    simp only [exec, execNop, execIsBlockBusy, execAbort, execClearEndstops, execIsIdle] at h
    exact perform_keeps herr ⟨rfl, le_rfl, fun _ => rfl⟩ h
  | clearDiag =>
    simp only [exec, execClearDiag] at h
    exact perform_keeps herr ⟨rfl, Nat.zero_le _, fun _ => rfl⟩ h
  | setPosition =>
    simp only [exec, execSetPosition] at h
    exact perform_keeps herr (whenIdle_hostFrame rfl rfl rfl) h
  | getPosition f | setAxisPosition f =>
    simp only [exec, execGetPosition, execSetAxisPosition] at h
    exact performAxis_keeps herr (fun _ => whenIdle_hostFrame rfl rfl rfl) h
  | babystep f =>
    simp only [exec, execBabystep] at h
    exact performAxis_keeps herr (fun a => requestBabystep_hostFrame _ a s) h
  | enable f | disable f =>
    simp only [exec, execEnable, execDisable] at h
    exact performAxis_keeps herr (fun a => driveEnable_hostFrame _ a _ s) h
  | endstop f =>
    simp only [exec, execEndstop] at h
    split at h <;> cases h <;> exact ⟨rfl, le_rfl, fun _ => rfl⟩
  | _ => simp [Instr.format, formatOf, opcOf_encode, Instr.opc] at hf

/-! ## The overrun count (10_state.md R44) -/

@[simp] theorem loadFrom_overrunCount (q : List Descriptor) (s : State) :
    (loadFrom q s).1.host.overrunCount = s.host.overrunCount := by
  induction q generalizing s with
  | nil => rfl
  | cons d rest ih =>
    unfold loadFrom
    split
    · rfl
    · split
      · rfl
      · split
        · rw [ih]; simp
        · simp

@[simp] theorem blockPhase_overrunCount (s : State) :
    (blockPhase s).1.host.overrunCount = s.host.overrunCount := by
  unfold blockPhase
  split
  · simp [loadNext]
  · split <;> simp [loadNext]

/-- The overrun count saturates (40_isr_scheduler.md R114). -/
theorem overrunCheck_overrunCount_lt {s : State} (h : s.host.overrunCount < 2 ^ 32) (interval e : Nat) :
    (overrunCheck interval e s).host.overrunCount < 2 ^ 32 := by
  unfold overrunCheck
  split
  · simp only []
    split <;> exact sat32_lt _
  · exact h

/-- The engine's work keeps the overrun count inside 32 bits. -/
theorem overrunCount_engineKept : EngineKept (fun s => s.host.overrunCount < 2 ^ 32) where
  nextMain _ _ h := h
  nextAdv _ _ h := h
  nextBaby _ _ h := h
  pulsePhase s h := by rwa [pulsePhase_host]
  stepEvent s h := by rwa [stepEvent_host]
  shapingIsr s h := by rwa [shapingIsr_host]
  advanceIsr s h := by rwa [advanceIsr_host]
  babystepIsr s h := by rwa [babystepIsr_host]
  blockPhase s h := by rwa [blockPhase_overrunCount]
  program s e h := overrunCheck_overrunCount_lt h (selectInterval s) e

theorem exec_overrunCount_lt {i : Instr} {s t : State} (hs : s.host.overrunCount < 2 ^ 32)
    (h : exec i s = .next t) : t.host.overrunCount < 2 ^ 32 := by
  rcases Instr.format_host_or_engine i with hf | hf
  · exact (exec_hostFrame hf h).overrunCount.trans_lt hs
  · exact overrunCount_engineKept.exec (fun _ _ h => h) (fun _ h => h) hf hs h

/-- Every step keeps the overrun count inside 32 bits. -/
theorem step_overrunCount_lt {s t : State} (hs : s.host.overrunCount < 2 ^ 32) (h : step s = .next t) :
    t.host.overrunCount < 2 ^ 32 := by
  obtain ⟨-, m, e, hm⟩ := step_next h
  rcases runMove_next hm with ⟨r, rfl⟩ | ⟨e, rfl⟩ | ⟨w, i, -, -, -, rfl⟩ | ⟨w, i, -, -, -, hx⟩ | ⟨i, -, -, -, hx⟩ |
    ⟨i, v, rfl⟩ | rfl | ⟨i, -, hx⟩ | ⟨d, rfl⟩ | ⟨e, rfl⟩ | rfl
  · exact hs
  · exact hs
  · exact hs
  · exact exec_overrunCount_lt (s := acceptCommand w { s with env := e }) hs hx
  · exact exec_overrunCount_lt (s := releaseCommand { s with env := e }) hs hx
  · exact hs
  · exact hs
  · exact exec_overrunCount_lt (s := { s with env := e }) hs hx
  · unfold plannerAppend
    split <;> exact hs
  · exact overrunCount_engineKept.tick hs
  · exact Nat.two_pow_pos 32

/-- Settles O53: the timers and the babysteps are kept in range by every update a step is made of; the phase times need
that an interval fits 32 bits, which a legal configuration guarantees. -/
theorem stepKeepsRanges : Obligations.StepKeepsRanges := by
  intro s t h
  obtain ⟨hlegal, -⟩ := step_next h
  have htimers : TimersKept s t := (timersKept_kept s).step (.refl s) h
  refine ⟨htimers.shifts, fun hs => babystepsInRange_kept.step hs h, fun ⟨haccel, hdecel, hcount⟩ => ?_⟩
  obtain ⟨haccel', hdecel'⟩ := htimers.phaseTimes hlegal ⟨haccel, hdecel⟩
  exact ⟨haccel', hdecel', step_overrunCount_lt hcount h⟩

/-! ## What a fault freezes (10_state.md R47) -/

/-- Under a fault every operation has the frame of a host command. -/
theorem exec_hostFrame_of_fault {i : Instr} {s t : State} (hfault : s.host.fault = true) (h : exec i s = .next t) :
    HostFrame i s t := by
  rcases Instr.format_host_or_engine i with hf | hf
  · exact exec_hostFrame hf h
  · rw [exec_of_fault hfault hf] at h
    cases h
    exact .refl i s

/-- What a move other than reset leaves alone under a fault: the engine's state, and where the engine is not idle the
Bresenham state and a pending command. -/
structure FrozenFrame (s t : State) : Prop where
  engine : enginePart t = enginePart s
  bres : idle s = false → t.bres = s.bres
  pending : idle s = false → s.host.cmdPending = true →
    t.host.cmdPending = true ∧ t.host.pendingCmd = s.host.pendingCmd

theorem FrozenFrame.of_parts {s t : State} (hengine : enginePart t = enginePart s)
    (hsync : synchronizedPart t = synchronizedPart s) : FrozenFrame s t := by
  simp only [synchronizedPart, Prod.mk.injEq] at hsync
  obtain ⟨hbres, hpending, hcmd⟩ := hsync
  exact ⟨hengine, fun _ => hbres, fun _ hp => ⟨hpending.trans hp, hcmd⟩⟩

/-- ISSUE under a fault: a pending command stays, and a command run at once is no synchronizing one
(47_host_interface.md R275). -/
theorem issue_frozen {w : Word} {s t : State} (hfault : s.host.fault = true) (h : issue w s = .next t) :
    FrozenFrame s t := by
  rcases issue_cases w s with ⟨-, hi⟩ | ⟨-, e, -, hi⟩ | ⟨hp, -, i, -, -, -, hi⟩
  · rw [hi] at h; cases h; exact .of_parts rfl rfl
  · rw [hi] at h; cases h; exact .of_parts rfl rfl
  · have hnone : s.host.cmdPending ≠ true := by simp [hp]
    rcases hi with ⟨-, hi⟩ | ⟨hsync, hi⟩ <;> rw [hi] at h
    · cases h
      exact ⟨rfl, fun _ => rfl, fun _ hp' => absurd hp' hnone⟩
    · have hframe := exec_hostFrame_of_fault (s := acceptCommand w s) hfault h
      have hbres : t.bres = s.bres := congrArg Prod.fst (hframe.synchronized hsync)
      exact ⟨hframe.engine, fun _ => hbres, fun _ hp' => absurd hp' hnone⟩

/-- SYNC_PERFORM under a fault writes positions at most, and only where the engine is idle (47_host_interface.md
R277). -/
theorem syncPerform_frozen {s t : State} (hfault : s.host.fault = true) (h : syncPerform s = .next t) :
    FrozenFrame s t := by
  unfold syncPerform at h
  split at h
  · next hen =>
    have hidle : idle s ≠ false := fun hn => by simp [syncEnabled, hn] at hen
    split at h
    · next i _ =>
      have hframe := exec_hostFrame_of_fault (s := releaseCommand s) hfault h
      exact ⟨hframe.engine, fun hn => absurd hn hidle, fun hn => absurd hn hidle⟩
    · cases h; exact .of_parts rfl rfl
  · cases h; exact .of_parts rfl rfl

/-- Every move but reset has the frozen frame under a fault. -/
theorem runMove_frozen {m : Move} {s t : State} (hfault : s.host.fault = true) (hm : m ≠ .reset)
    (h : runMove m s = .next t) : FrozenFrame s t := by
  have hexec : ∀ i, i.format ≠ .cmd → exec i s = .next t → FrozenFrame s t := fun i hf hx =>
    have hframe := exec_hostFrame_of_fault hfault hx
    .of_parts hframe.engine (hframe.synchronized (Instr.synchronizing_of_not_cmd hf))
  cases m with
  | read addr width =>
    simp only [runMove, hostRead] at h
    split_ifs at h
    cases h
    exact .of_parts rfl rfl
  | write addr width v =>
    obtain ⟨-, off, -, hw⟩ := runMove_write_next h
    unfold writeWindow at hw
    split at hw
    · exact issue_frozen hfault hw
    · cases hw; exact .of_parts rfl rfl
    · cases hw; exact .of_parts rfl rfl
  | syncPerform => exact syncPerform_frozen hfault h
  | endstopInput w =>
    simp only [runMove, endstopInput] at h
    split at h
    · next i _ =>
      split at h
      · next hf => exact hexec i (by simp [hf]) h
      · cases h; exact .of_parts rfl rfl
    · cases h; exact .of_parts rfl rfl
  | append d =>
    rcases plannerMove_cases d s with ⟨-, -, hp⟩ | ⟨-, -, hp⟩ | ⟨-, hp⟩ <;> rw [runMove, hp] at h <;> cases h
    · exact .of_parts rfl rfl
    · exact .of_parts rfl rfl
  | compareMatch e =>
    rw [runMove, compareMatch, exec_of_fault (s := { s with env.elapsed := e }) hfault (.inl Instr.format_tick)] at h
    cases h
    exact .of_parts rfl rfl
  | engineWord w =>
    simp only [runMove, engineWord] at h
    split at h
    · next i _ =>
      split at h
      · next hf => exact hexec i (by rcases hf with hf | hf <;> simp [hf]) h
      · cases h
    · cases h
  | reset => exact absurd rfl hm

/-- A step whose schedule does not begin with reset runs another move. -/
theorem step_next_of_not_reset {s t : State} (h : step s = .next t) (hreset : ∀ rest, s.env.schedule ≠ .reset :: rest) :
    ∃ m e, m ≠ .reset ∧ runMove m { s with env := e } = .next t := by
  obtain ⟨hlegal, -⟩ := step_next h
  cases hsch : s.env.schedule with
  | nil =>
    rw [step_unscheduled hlegal hsch] at h
    rcases idleMove_next_cases h with h | h
    · exact ⟨.syncPerform, s.env, nofun, h⟩
    · exact ⟨.compareMatch none, s.env, nofun, h⟩
  | cons m rest =>
    rw [step_head hlegal hsch] at h
    exact ⟨m, _, fun hm => hreset rest (hm ▸ hsch), h⟩

/-- The refused block at the head of the queue keeps the engine from being idle (60_exceptions.md R314). -/
theorem FaultHoldsBlock.not_idle {s : State} (h : FaultHoldsBlock s) (hfault : s.host.fault = true) :
    idle s = false := by
  obtain ⟨d, rest, hpq, -⟩ := h hfault
  simp [idle, hpq]

/-- Settles O58: engine operations do nothing under a fault, and every move but reset has the frozen frame. -/
theorem faultFreezesEngine : Obligations.FaultFreezesEngine := by
  refine ⟨fun s i => exec_of_fault, fun s t hfault h hreset => ?_⟩
  obtain ⟨m, e, hm, hmove⟩ := step_next_of_not_reset h hreset
  obtain ⟨hengine, hbres, hpending⟩ := runMove_frozen (s := { s with env := e }) hfault hm hmove
  simp only [enginePart, Prod.mk.injEq] at hengine
  obtain ⟨hcurrent, hevents, htimer, hbez, hla, hshaping, herror, hfault', hcode⟩ := hengine
  refine ⟨hfault'.trans hfault, hcode, hcurrent, hevents, htimer, hbez, hla, hshaping, herror, fun hholds => ?_⟩
  have hidle : idle s = false := hholds.not_idle hfault
  exact ⟨hbres hidle, hpending hidle⟩

end Machine
end Sys2Proof
end

section
/-! SUPPORT. The register window: what stands at each offset, what an access does, and the packed registers bit by bit
(20_memory.md R61 to R65). -/

namespace Sys2Proof.Machine

/-! ## Offsets (20_memory.md R61, R62) -/

/-- Each register is found at its own offset. -/
@[simp] theorem registerAt_register_offset (r : Register) : registerAt r.offset = some r := by
  cases r with
  | arg i => fin_cases i <;> rfl
  | endstopPos a => fin_cases a <;> rfl
  | _ => rfl

/-- The offsets 0x54 to 0x5F and those from 0x80 on are reserved. -/
theorem Register.offset_not_reserved (r : Register) :
    ¬(0x054 ≤ r.offset ∧ r.offset < 0x060 ∨ 0x080 ≤ r.offset) := by
  cases r <;> simp only [Register.offset] <;> omega

@[simp] theorem readWindow_register_offset (r : Register) (s : State) : readWindow r.offset s = r.value s := by
  simp [readWindow]

theorem readWindow_reserved {off : Nat} (h : 0x054 ≤ off ∧ off < 0x060 ∨ 0x080 ≤ off) (s : State) :
    readWindow off s = 0 := by
  unfold readWindow
  split
  · next r hr =>
    exact absurd (registerAt_offset hr ▸ h) r.offset_not_reserved
  · rfl

theorem windowByte_toNat {off k : Nat} (h4 : off % 4 = 0) (hk : k < 4) (s : State) :
    (windowByte (off + k) s).toNat = (readWindow off s).toNat / 256 ^ k % 256 := by
  have hoff : (off + k) / 4 * 4 = off := by omega
  have hbyte : (off + k) % 4 = k := by omega
  have hpow : 2 ^ (8 * k) = 256 ^ k := pow_mul 2 8 k
  rw [windowByte, hoff, hbyte, BitVec.extractLsb'_toNat, Nat.shiftRight_eq_div_pow, hpow]

theorem currentIdWord_some {s : State} {b : BlockRec} (h : s.seq.current = some b) : currentIdWord s = b.id := by
  simp only [currentIdWord, h]

theorem currentIdWord_none {s : State} (h : s.seq.current = none) : currentIdWord s = 0 := by
  simp only [currentIdWord, h]

/-! ## Writes (20_memory.md R65) -/

theorem writeWindow_arg (i : Axis) (v : Word) (s : State) :
    writeWindow (0x010 + 4 * i.val) v s = .next (setArg i v s) := by
  have hreg : registerAt (0x010 + 4 * i.val) = some (.arg i) := registerAt_register_offset (.arg i)
  simp only [writeWindow, hreg]

/-- "A write to any other offset is ignored." -/
theorem writeWindow_ignored {off : Nat} (hcmd : off ≠ 0) (harg : ¬(0x010 ≤ off ∧ off < 0x030)) (v : Word)
    (s : State) : writeWindow off v s = .next s := by
  unfold writeWindow
  split
  · next hr => exact absurd (registerAt_offset hr).symm hcmd
  · next i hr =>
    have hoff : 0x010 + 4 * i.val = off := registerAt_offset hr
    omega
  · rfl

/-- Settles O16: an admitted access is the window's read or write on the state without the move. -/
theorem windowAccesses : Obligations.WindowAccesses := by
  intro s off v rest hl hlt h4
  refine ⟨fun hs => ?_, fun hs => ?_⟩
  · rw [step_head hl hs]
    exact hostRead_window hlt h4 _
  · have hwrite : step s = writeWindow off v { s with env.schedule := rest } :=
      (step_head hl hs).trans (hostWrite_window hlt h4 v { s with env.schedule := rest })
    rw [hwrite]
    refine ⟨?_, fun hcmd harg => writeWindow_ignored hcmd harg v _⟩
    rintro i rfl
    exact writeWindow_arg i v _

/-- Settles O17: each register is read at its offset, and a reserved offset holds none. -/
theorem registerMap : Obligations.RegisterMap := by
  intro s
  have hid : readWindow 0x040 s = currentIdWord s := readWindow_register_offset .currentBlockId s
  refine ⟨readWindow_register_offset .cmd s, readWindow_register_offset .result s,
    BitVec.toNat_setWidth_of_le (by decide), fun i => readWindow_register_offset (.arg i) s,
    Nat.mod_eq_of_lt, Nat.mod_eq_of_lt, Nat.mod_eq_of_lt, fun b hb => ?_, fun hb => ?_,
    BitVec.toNat_setWidth_of_le (by decide), fun a => readWindow_register_offset (.endstopPos a) s,
    fun off _ h => readWindow_reserved h s, fun off k h4 hk => windowByte_toNat h4 hk s⟩
  · rw [hid, currentIdWord_some hb]
  · rw [hid, currentIdWord_none hb]

/-! ## The packed registers (20_memory.md R62) -/

/-- A number that fits the register has there the bits it has by itself. -/
theorem getLsbD_ofNat_of_lt {n : Nat} (h : n < 2 ^ 32) (k : Nat) : (BitVec.ofNat 32 n).getLsbD k = n.testBit k := by
  rw [← BitVec.testBit_toNat, BitVec.toNat_ofNat, Nat.mod_eq_of_lt h]

/-! ### STATUS -/

theorem shapingPending_iff (s : State) : shapingPending s = true ↔
    ∃ a, s.cfg.shaped.read a = true ∧ (s.shaping.queue.read a ≠ [] ∨ s.shaping.delta.read a ≠ 0) := by
  simp [shapingPending]

theorem babyDue_iff (s : State) :
    babyDue s = true ↔ ∃ a : Axis, a.val < s.cfg.numAxes ∧ s.babyPending.read a ≠ 0 := by
  simp [babyDue]

theorem getLsbD_statusWord (s : State) (k : Nat) : (statusWord s).getLsbD k =
    [s.host.cmdPending, s.host.err, s.seq.current.isSome, s.seq.abortCurrentBlock, s.host.fault,
      s.host.lostStepRisk, shapingPending s, babyDue s, idle s].getD k false := by
  rw [statusWord, getLsbD_ofNat_of_lt ((packBits_lt _).trans (by simp)), testBit_packBits]

/-! ### ENGINE_INFO -/

/-- Shifts in range fit the fields of ENGINE_INFO. -/
theorem engineInfoWord_toNat {s : State} (hl : s.cfg.legal = true) (h : ShiftsInRange s) :
    (engineInfoWord s).toNat =
      s.timer.stepsPerIsrShift + 2 ^ 3 * s.timer.overrunShift + 2 ^ 6 * s.timer.oversampling := by
  obtain ⟨hsteps, -, hoverrun, hoversampling⟩ := h
  have hshift := Config.legal_shift_le hl
  have hmax := Config.legal_oversampling_le hl
  rw [engineInfoWord, BitVec.toNat_ofNat]
  omega

/-! ### The registers with one bit per axis -/

theorem axisBitsNum_lt (c : Config) (f : Axis → Bool) : axisBitsNum c f < 2 ^ 8 := packBits_lt _

theorem testBit_axisBitsNum (c : Config) (f : Axis → Bool) (a : Axis) :
    (axisBitsNum c f).testBit a.val = (decide (a.val < c.numAxes) && f a) := by
  rw [axisBitsNum, testBit_packBits]
  fin_cases a <;> rfl

theorem testBit_axisBitsNum_of_ge (c : Config) (f : Axis → Bool) {k : Nat} (hk : 8 ≤ k) :
    (axisBitsNum c f).testBit k = false :=
  (testBit_packBits _ k).trans (List.getD_eq_default _ _ hk)

theorem getLsbD_endstopHitWord (s : State) (k : Nat) : (endstopHitWord s).getLsbD k =
    (axisBitsNum s.cfg fun a => s.host.endstopHit.getLsbD a.val).testBit k :=
  getLsbD_ofNat_of_lt ((axisBitsNum_lt _ _).trans (by decide)) k

/-- DIR_STATE holds the levels of `dir_out` below bit 8 and those of `last_direction_bits` from bit 8 on. -/
theorem getLsbD_dirStateWord (s : State) (k : Nat) : (dirStateWord s).getLsbD k =
    if k < 8 then (axisBitsNum s.cfg fun a => s.pins.dirOut.read a).testBit k
    else (axisBitsNum s.cfg fun a => s.bres.lastDirectionBits.getLsbD a.val).testBit (k - 8) := by
  have hout := axisBitsNum_lt s.cfg fun a => s.pins.dirOut.read a
  have hlast := axisBitsNum_lt s.cfg fun a => s.bres.lastDirectionBits.getLsbD a.val
  rw [dirStateWord, getLsbD_ofNat_of_lt (by omega), Nat.add_comm, ← Nat.testBit_two_pow_mul_add _ hout]

theorem getLsbD_dirStateWord_dirOut (s : State) (a : Axis) :
    (dirStateWord s).getLsbD a.val = (decide (a.val < s.cfg.numAxes) && s.pins.dirOut.read a) := by
  rw [getLsbD_dirStateWord, if_pos a.isLt, testBit_axisBitsNum]

theorem getLsbD_dirStateWord_lastDirection (s : State) (a : Axis) :
    (dirStateWord s).getLsbD (8 + a.val) =
      (decide (a.val < s.cfg.numAxes) && s.bres.lastDirectionBits.getLsbD a.val) := by
  rw [getLsbD_dirStateWord, if_neg (by omega), Nat.add_sub_cancel_left, testBit_axisBitsNum]

theorem getLsbD_dirStateWord_of_ge (s : State) {k : Nat} (hk : 16 ≤ k) : (dirStateWord s).getLsbD k = false := by
  rw [getLsbD_dirStateWord, if_neg (by omega), testBit_axisBitsNum_of_ge _ _ (by omega)]

/-! ### ENABLE_STATE -/

theorem getLsbD_enableWord (s : State) (k : Nat) :
    (enableWord s).getLsbD k = (decide (k < s.cfg.numEnableLines) && s.pins.enableLines.getLsbD k) := by
  have hfits : s.pins.enableLines.toNat % 2 ^ s.cfg.numEnableLines < 2 ^ 32 :=
    (Nat.mod_le _ _).trans_lt s.pins.enableLines.isLt
  rw [enableWord, getLsbD_ofNat_of_lt hfits, Nat.testBit_mod_two_pow, BitVec.testBit_toNat]

/-- Settles O18: each packed register is read at its offset, and its bits are those of its word. -/
theorem packedRegisterBits : Obligations.PackedRegisterBits := by
  intro s hl bit
  have hstatus (k : Nat) : bit 0x004 k = _ := getLsbD_statusWord s k
  refine ⟨⟨hstatus 0, hstatus 1, hstatus 2, hstatus 3, hstatus 4, hstatus 5, ?_, ?_, ?_, fun k hk => ?_⟩,
    engineInfoWord_toNat hl, getLsbD_dirStateWord_dirOut s, getLsbD_dirStateWord_lastDirection s,
    fun k => getLsbD_dirStateWord_of_ge s, getLsbD_enableWord s,
    fun a => (getLsbD_endstopHitWord s a.val).trans (testBit_axisBitsNum _ _ a),
    fun k hk => (getLsbD_endstopHitWord s k).trans (testBit_axisBitsNum_of_ge _ _ hk)⟩
  · rw [hstatus 6]; exact shapingPending_iff s
  · rw [hstatus 7]; exact babyDue_iff s
  · rw [hstatus 8]; exact idle_iff_engineIdle s
  · rw [hstatus k]; exact List.getD_eq_default _ _ hk

end Sys2Proof.Machine
end

section
/-! SUPPORT. Decoder and encoder are inverse to each other: the fields of an encoded word, and both round trips
(30_encoding.md R80 to R88, R92). -/

namespace Sys2Proof

/-! ## The fields of an encoded word (30_encoding.md R80, R82) -/

theorem Instr.opc_lt (i : Instr) : i.opc < 256 := by cases i <;> simp [Instr.opc]

theorem Instr.axisBits_of_some {i : Instr} {a : Fin 16} (h : i.axisField = some a) : i.axisBits = a.val := by
  simp [Instr.axisBits, h]

theorem Instr.axisBits_of_none {i : Instr} (h : i.axisField = none) : i.axisBits = 0 := by
  simp [Instr.axisBits, h]

theorem Instr.axisBits_lt (i : Instr) : i.axisBits < 16 := by
  cases h : i.axisField with
  | none => simp [Instr.axisBits_of_none h]
  | some a => simp [Instr.axisBits_of_some h]

/-- The fields fit the word, so the encoder truncates nothing. -/
theorem encode_toNat (i : Instr) : (encode i).toNat = i.axisBits * 256 + i.opc := by
  have hopc := i.opc_lt
  have haxis := i.axisBits_lt
  rw [encode, BitVec.toNat_ofNat, Nat.mod_eq_of_lt (by omega)]

theorem axisOf_encode (i : Instr) : (axisOf (encode i)).val = i.axisBits := by
  have hopc := i.opc_lt
  have haxis := i.axisBits_lt
  simp only [axisOf, encode_toNat]
  omega

theorem rsvOf_encode (i : Instr) : rsvOf (encode i) = 0 := by
  have hopc := i.opc_lt
  have haxis := i.axisBits_lt
  simp only [rsvOf, encode_toNat]
  omega

/-! ## The opcode tables (30_encoding.md R84 to R87) -/

/-- An operation with an axis field stands in the table of those operations at its OPC. -/
theorem axisInstr_opc {i : Instr} {a : Fin 16} (h : i.axisField = some a) : axisInstr i.opc a = some i := by
  cases i <;> cases h <;> rfl

/-- An operation without an axis field stands in the other table, and its OPC is none of the first one's. -/
theorem plainInstr_opc {i : Instr} (h : i.axisField = none) (a : Fin 16) :
    axisInstr i.opc a = none ∧ plainInstr i.opc = some i := by
  cases i <;> cases h <;> exact ⟨rfl, rfl⟩

/-! ## The round trips -/

theorem decode_encode (i : Instr) : decode (encode i) = .ok i := by
  cases h : i.axisField with
  | some a =>
    have ha : axisOf (encode i) = a := Fin.ext ((axisOf_encode i).trans (Instr.axisBits_of_some h))
    exact decode_axis (by rw [opcOf_encode, ha, axisInstr_opc h]) (rsvOf_encode i)
  | none =>
    obtain ⟨haxis, hplain⟩ := plainInstr_opc h (axisOf (encode i))
    exact decode_plain (by rw [opcOf_encode, haxis]) (by rw [opcOf_encode, hplain]) (rsvOf_encode i)
      ((axisOf_encode i).trans (Instr.axisBits_of_none h))

/-- The decoder reads a word from its four bytes and leaves what follows them (20_memory.md R63). -/
theorem decodeBytes_bytesOfWord {w : Word} {i : Instr} (h : decode w = .ok i) (rest : List Byte) :
    decodeBytes (bytesOfWord w ++ rest) = .ok (i, rest) := by
  simp only [bytesOfWord, List.cons_append, List.nil_append, decodeBytes, wordOfBytes_bytesOfWord, h]

/-- Settles O1: the encoded word's fields are the operation's, and the table of its kind has it at its OPC. -/
theorem decodeOfEncode : Obligations.DecodeOfEncode :=
  fun i rest => decodeBytes_bytesOfWord (decode_encode i) rest

/-- A decoded operation's axis bits are its word's AXIS field: 0 where it takes no axis (30_encoding.md R82). -/
theorem decode_axisBits {w : Word} {i : Instr} (h : decode w = .ok i) : i.axisBits = (axisOf w).val := by
  rcases (decode_ok_cases h).2 with hx | ⟨-, hx, ha⟩
  · exact Instr.axisBits_of_some (axisInstr_fields hx).2
  · rw [ha, Instr.axisBits_of_none (plainInstr_fields hx).2]

/-- Settles O2: a word that decodes has RSV = 0, and its OPC and AXIS are those of the operation. -/
theorem encodeOfDecode : Obligations.EncodeOfDecode := by
  intro w i h
  have hrsv : w.toNat / 4096 = 0 := (decode_ok_cases h).1
  have hopc : i.opc = w.toNat % 256 := decode_opc h
  have haxis : i.axisBits = w.toNat / 256 % 16 := decode_axisBits h
  refine BitVec.eq_of_toNat_eq ?_
  rw [encode_toNat]
  omega

/-- Settles O3: each word is run through the decoder. -/
theorem tableWordsDecode : Obligations.TableWordsDecode := by
  unfold Obligations.TableWordsDecode
  decide

end Sys2Proof
end

section
/-! SUPPORT. LOAD: what it leaves in each group of the state; from it, how BLOCK_PHASE loads a motion block
(44_block_sequencer.md R194, R199). -/

namespace Sys2Proof.Machine

/-! ## SET_DIRECTIONS on states that agree (46_direction_enable.md R260, R261) -/

/-- Two states agree in all that driving a DIR pin reads and writes. -/
structure SameDirState (s t : State) : Prop where
  cfg : s.cfg = t.cfg
  pins : s.pins = t.pins
  trace : s.trace = t.trace
  now : s.timer.now = t.timer.now

theorem SameDirState.setAxisDir {s t : State} (h : SameDirState s t) (bits last : BitVec 8) (a : Axis) :
    SameDirState (setAxisDir bits last s a) (setAxisDir bits last t a) := by
  obtain ⟨hcfg, hpins, htrace, hnow⟩ := h
  unfold Machine.setAxisDir
  rw [hcfg]
  split
  · exact ⟨hcfg, hpins, htrace, hnow⟩
  · split
    · exact ⟨hcfg, hpins, htrace, hnow⟩
    · exact ⟨by simp [hcfg], by simp [hpins], by simp [driveDir_trace, hpins, htrace, hnow], by simp [hnow]⟩

theorem setDirections_countDirection (bits : BitVec 8) (s : State) :
    (setDirections bits s).bres.countDirection = PerAxis.build (fun a =>
      if a.val < s.cfg.numAxes then Dir.ofBit (bits.getLsbD a.val) else s.bres.countDirection.read a) := by
  unfold setDirections
  simp only []
  split
  · rfl
  · exact foldl_keeps _ (fun u => u.bres.countDirection) (fun u a => by simp) _ _

theorem setDirections_lastDirectionBits (bits : BitVec 8) (s : State) :
    (setDirections bits s).bres.lastDirectionBits =
      if liveBits s.cfg bits = liveBits s.cfg s.bres.lastDirectionBits then s.bres.lastDirectionBits
      else liveBits s.cfg bits := by
  unfold setDirections
  simp only []
  split <;> rfl

theorem SameDirState.foldl_setAxisDir {s t : State} (h : SameDirState s t) (bits : BitVec 8) {last last' : BitVec 8}
    {axes axes' : List Axis} (hlast : last = last') (haxes : axes = axes') :
    SameDirState (axes.foldl (Machine.setAxisDir bits last) s) (axes'.foldl (Machine.setAxisDir bits last') t) := by
  subst hlast haxes
  exact List.foldl_rel h fun a _ _ _ huv => huv.setAxisDir bits last a

/-- Of the rest of the state, only the last direction bits decide what SET_DIRECTIONS does to pins and trace. -/
theorem SameDirState.setDirections {s t : State} (h : SameDirState s t)
    (hlast : s.bres.lastDirectionBits = t.bres.lastDirectionBits) (bits : BitVec 8) :
    SameDirState (setDirections bits s) (setDirections bits t) := by
  have hstart (p q : PerAxis Dir) :
      SameDirState { s with bres.countDirection := p } { t with bres.countDirection := q } :=
    ⟨h.cfg, h.pins, h.trace, h.now⟩
  have hsame : liveBits s.cfg bits = liveBits s.cfg s.bres.lastDirectionBits ↔
      liveBits t.cfg bits = liveBits t.cfg t.bres.lastDirectionBits := by rw [h.cfg, hlast]
  unfold Machine.setDirections
  by_cases hs : liveBits s.cfg bits = liveBits s.cfg s.bres.lastDirectionBits
  · simp only [if_pos hs, if_pos (hsame.1 hs)]
    exact hstart _ _
  · simp only [if_neg hs, if_neg (hs ∘ hsame.2)]
    obtain ⟨hcfg, hpins, htrace, hnow⟩ := (hstart _ _).foldl_setAxisDir bits hlast (congrArg Config.liveAxes h.cfg)
    exact ⟨hcfg, hpins, htrace, hnow⟩

/-! ## LA_LOAD (45_aux_pulse.md R222) -/

theorem laLoad_timer (b : BlockRec) (s : State) :
    (laLoad b s).timer = { s.timer with nextAdv := (laLoad b s).la.interval } := by
  unfold laLoad
  split
  · rfl
  · simp [laAccel, laSet]

theorem laLoad_la_of_rate_zero {b : BlockRec} (h : b.laAdvanceRate = 0) (s : State) :
    (laLoad b s).la = { s.la with active := false, eReversed := false, interval := none } := by
  simp [laLoad, h]

theorem laLoad_la_of_rate_ne_zero {b : BlockRec} (h : b.laAdvanceRate ≠ 0) (s : State) :
    (laLoad b s).la = { s.la with
      active := true, eReversed := false, deltaError := -(b.stepEventCount : Int)
      dividend := s.bres.advanceDividend.read s.cfg.eAxis * 2 ^ b.laScaling
      interval := some (baseInterval s.cfg ((b.initialRate +
        if s.la.advanceSteps.toInt < (b.maxAdvSteps : Int) then b.laAdvanceRate else 0) / 2 ^ b.laScaling)) } := by
  simp [laLoad, h, laAccel, laSet, laInterval, Nat.shiftLeft_eq, Nat.shiftRight_eq_div_pow]

/-! ## LOAD (44_block_sequencer.md R199) -/

/-- The state LOAD calls SET_DIRECTIONS on: the block is current and the Bresenham terms are set. -/
def beforeDirections (d : Descriptor) (s : State) : State :=
  bresenhamInit (loadedBlock s.cfg d) { s with
    seq := { s.seq with current := some (loadedBlock s.cfg d), stepEventsCompleted := 0 }
    timer.oversampling := oversamplingShift s.cfg d.block.nominalRate }

/-- The state LOAD ends in, but for LA_LOAD. -/
def beforeAdvance (d : Descriptor) (s : State) : State :=
  let b := loadedBlock s.cfg d
  let t := loadTimers b (setDirections b.directionBits (beforeDirections d s))
  { (calcTimerInterval b.initialRate t).1 with timer.accelerationTime := (loadBlock d s).2 }

theorem loadBlock_fst (d : Descriptor) (s : State) : (loadBlock d s).1 =
    if s.cfg.linAdvance then laLoad (loadedBlock s.cfg d) (beforeAdvance d s) else beforeAdvance d s := rfl

/-- `overrun_shift` as LOAD leaves it (43_timer_interval.md R173). -/
def loadOverrunShift (s : State) : Nat :=
  if s.cfg.overrunDeescalate = .atBlockLoad then 0 else s.timer.overrunShift

theorem beforeAdvance_timer (d : Descriptor) (s : State) : (beforeAdvance d s).timer = { s.timer with
    overrunShift := loadOverrunShift s
    stepsPerIsrShift := isrShift s.cfg (loadOverrunShift s) (loadedBlock s.cfg d).initialRate
    oversampling := oversamplingShift s.cfg d.block.nominalRate
    ticksNominal := none, nominalShift := 0, decelerationTime := 0
    accStepRate := (loadedBlock s.cfg d).initialRate, accelerationTime := (loadBlock d s).2 } := by
  simp [beforeAdvance, beforeDirections, calcTimerInterval, loadTimers, loadOverrunShift]

theorem beforeAdvance_cfg (d : Descriptor) (s : State) : (beforeAdvance d s).cfg = s.cfg := by
  simp [beforeAdvance, beforeDirections]

theorem beforeAdvance_la (d : Descriptor) (s : State) : (beforeAdvance d s).la = s.la := by
  simp [beforeAdvance, beforeDirections]

/-- The schedule of a fresh block; only linear advance makes LOAD write `next_adv`. -/
theorem loadBlock_timer (d : Descriptor) (s : State) : (loadBlock d s).1.timer = { s.timer with
    nextAdv := if s.cfg.linAdvance then (loadBlock d s).1.la.interval else s.timer.nextAdv
    overrunShift := loadOverrunShift s
    stepsPerIsrShift := isrShift s.cfg (loadOverrunShift s) (loadedBlock s.cfg d).initialRate
    oversampling := oversamplingShift s.cfg d.block.nominalRate
    ticksNominal := none, nominalShift := 0, decelerationTime := 0
    accStepRate := (loadedBlock s.cfg d).initialRate, accelerationTime := (loadBlock d s).2 } := by
  rw [loadBlock_fst]
  split
  · rw [laLoad_timer, beforeAdvance_timer]
  · rw [beforeAdvance_timer]

/-- The first interval is that of the initial rate, with the shift LOAD leaves. -/
theorem loadBlock_interval (d : Descriptor) (s : State) : (loadBlock d s).2 =
    baseInterval s.cfg ((loadedBlock s.cfg d).initialRate / 2 ^ (loadBlock d s).1.timer.stepsPerIsrShift) := by
  rw [loadBlock_timer]
  simp [loadBlock, calcTimerInterval, loadTimers, loadedBlock, loadOverrunShift, Nat.shiftRight_eq_div_pow]

/-- With S-curves, BEZ_COEFFS from the initial to the nominal rate (42_velocity_profile.md R154). -/
theorem loadBlock_bez (d : Descriptor) (s : State) : (loadBlock d s).1.bez =
    if s.cfg.scurve then
      { bezCoeffs (loadedBlock s.cfg d).initialRate (loadedBlock s.cfg d).nominalRate s.bez with secondHalf := false }
    else { s.bez with secondHalf := false } := by
  have hbez : (beforeAdvance d s).bez = (loadBlock d s).1.bez := by
    rw [loadBlock_fst]; split <;> simp
  simp [← hbez, beforeAdvance, beforeDirections, loadTimers]

/-- LA_LOAD does not touch the Bresenham state, and before it only BRESENHAM_INIT and SET_DIRECTIONS do. -/
theorem loadBlock_bres (d : Descriptor) (s : State) : (loadBlock d s).1.bres =
    (setDirections (loadedBlock s.cfg d).directionBits (beforeDirections d s)).bres := by
  rw [loadBlock_fst]; split <;> simp [beforeAdvance]

/-- The directions, pins and trace of LOAD are those of SET_DIRECTIONS on the state it starts from
(46_direction_enable.md R261). -/
theorem loadBlock_directions (d : Descriptor) (s : State) :
    let t := setDirections (loadedBlock s.cfg d).directionBits s
    (loadBlock d s).1.bres.countDirection = t.bres.countDirection ∧
      (loadBlock d s).1.bres.lastDirectionBits = t.bres.lastDirectionBits ∧
      (loadBlock d s).1.pins = t.pins ∧ (loadBlock d s).1.trace = t.trace := by
  have hsame : SameDirState (beforeDirections d s) s := ⟨rfl, rfl, rfl, rfl⟩
  obtain ⟨-, hpins, htrace, -⟩ := hsame.setDirections rfl (loadedBlock s.cfg d).directionBits
  refine ⟨?_, ?_, ?_, ?_⟩
  · rw [loadBlock_bres, setDirections_countDirection, setDirections_countDirection]; rfl
  · rw [loadBlock_bres, setDirections_lastDirectionBits, setDirections_lastDirectionBits]; rfl
  · rw [← hpins, loadBlock_fst]; split <;> simp [beforeAdvance]
  · rw [← htrace, loadBlock_fst]; split <;> simp [beforeAdvance]

/-- Without linear advance LOAD does not call LA_LOAD. -/
theorem loadBlock_la_of_not_linAdvance {s : State} (h : s.cfg.linAdvance = false) (d : Descriptor) :
    (loadBlock d s).1.la = s.la := by
  simp [loadBlock_fst, h, beforeAdvance_la]

/-- A block with `la_advance_rate` = 0 turns linear advance off (45_aux_pulse.md R222). -/
theorem loadBlock_la_of_rate_zero {d : Descriptor} {s : State} (h : s.cfg.linAdvance = true)
    (hrate : (loadedBlock s.cfg d).laAdvanceRate = 0) :
    (loadBlock d s).1.la = { s.la with active := false, eReversed := false, interval := none } := by
  simp [loadBlock_fst, h, laLoad_la_of_rate_zero hrate, beforeAdvance_la]

/-- Any other block turns it on, with LA_ACCEL's interval at the initial rate (45_aux_pulse.md R222, R225). -/
theorem loadBlock_la_of_rate_ne_zero {d : Descriptor} {s : State} (h : s.cfg.linAdvance = true)
    (hrate : (loadedBlock s.cfg d).laAdvanceRate ≠ 0) :
    let b := loadedBlock s.cfg d
    (loadBlock d s).1.la = { s.la with
      active := true, eReversed := false, deltaError := -(b.stepEventCount : Int)
      dividend := (loadBlock d s).1.bres.advanceDividend.read s.cfg.eAxis * 2 ^ b.laScaling
      interval := some (baseInterval s.cfg ((b.initialRate +
        if s.la.advanceSteps.toInt < (b.maxAdvSteps : Int) then b.laAdvanceRate else 0) / 2 ^ b.laScaling)) } := by
  simp [loadBlock_fst, h, laLoad_la_of_rate_ne_zero hrate, beforeAdvance_la, beforeAdvance_cfg]

/-! ## BLOCK_PHASE loads a motion block (44_block_sequencer.md R190, R194) -/

/-- LOAD_NEXT loads a valid motion block at the head at once. -/
theorem blockPhase_of_motion {s : State} {d : Descriptor} {rest : List Descriptor} (hcur : s.seq.current = none)
    (hpq : s.pq = d :: rest) (hpage : d.isPage = false) (hsync : d.isSync = false) (hv : valid s.cfg d = true) :
    blockPhase s = loadBlock d s := by
  simp [blockPhase, loadNext, loadFrom, hcur, hpq, hpage, hsync, hv]

theorem exec_blockPhase {s : State} (h : s.host.fault = false) :
    exec .blockPhase s = .next (setReply (.interval (blockPhase s).2) (blockPhase s).1) := by
  simp [exec, execBlockPhase, engineStep, h]

/-- Settles O46: BLOCK_PHASE is LOAD of the head's block, and LOAD gives each group of the state its value. -/
theorem blockPhaseLoadsMotion : Obligations.BlockPhaseLoadsMotion := by
  intro s d rest hfault hcur hpq hpage hsync hv w o b
  have hexec := exec_blockPhase hfault
  rw [blockPhase_of_motion hcur hpq hpage hsync hv] at hexec
  have hb : b = loadedBlock s.cfg d := by
    simp only [loadedBlock, applyOversampling, Nat.shiftLeft_eq]
    rfl
  clear_value b
  subst hb
  obtain ⟨hdivisor, hterms⟩ := loadBlock_terms d s
  obtain ⟨hdir, hlast, hpins, htrace⟩ := loadBlock_directions d s
  refine ⟨_, _, hexec, by simp, loadBlock_seq d s, loadBlock_interval d s, ?_⟩
  simp only [setReply_timer, loadBlock_timer, true_and]
  refine ⟨rfl, rfl, loadBlock_bez d s, hdivisor, hterms, hdir, hlast, loadBlock_countPosition d s, hpins, htrace,
    fun h => ?_, fun h hrate => ?_, fun h hrate => ?_,
    loadBlock_cfg d s, loadBlock_shaping d s, loadBlock_babyPending d s, loadBlock_host d s, loadBlock_pq d s⟩
  · exact ⟨loadBlock_la_of_not_linAdvance h d, if_neg (by simp [h])⟩
  · exact ⟨loadBlock_la_of_rate_zero h hrate, by rw [if_pos h, loadBlock_la_of_rate_zero h hrate]⟩
  · exact ⟨loadBlock_la_of_rate_ne_zero h hrate, if_pos h⟩

end Sys2Proof.Machine
end

section
/-! SUPPORT. The three parts of a TICK's end: SELECT_INTERVAL, OVERRUN_CHECK and ADVANCE_COUNTDOWNS
(40_isr_scheduler.md R113 to R115). -/

namespace Sys2Proof.Machine

/-! ## SELECT_INTERVAL (40_isr_scheduler.md R113) -/

/-- `min` over countdowns that may be INF is below each of them. -/
theorem foldl_minInf_le (l : List (Option Nat)) (n : Nat) :
    l.foldl minInf n ≤ n ∧ ∀ m, some m ∈ l → l.foldl minInf n ≤ m := by
  induction l generalizing n with
  | nil => simp
  | cons x l ih =>
    obtain ⟨hstart, hrest⟩ := ih (minInf n x)
    cases x with
    | none => exact ⟨hstart, by simpa using hrest⟩
    | some k =>
      have hk : minInf n (some k) ≤ n ∧ minInf n (some k) ≤ k := ⟨Nat.min_le_left .., Nat.min_le_right ..⟩
      refine ⟨hstart.trans hk.1, fun m hm => ?_⟩
      rcases List.mem_cons.1 hm with h | h
      · cases h; exact hstart.trans hk.2
      · exact hrest m h

/-- It is the value it starts from, or one of the finite countdowns. -/
theorem foldl_minInf_mem (l : List (Option Nat)) (n : Nat) : l.foldl minInf n = n ∨ some (l.foldl minInf n) ∈ l := by
  induction l generalizing n with
  | nil => exact .inl rfl
  | cons x l ih =>
    rcases ih (minInf n x) with h | h
    · cases x with
      | none => exact .inl h
      | some k =>
        rw [List.foldl_cons, h]
        rcases Nat.le_total n k with hle | hle
        · exact .inl (Nat.min_eq_left hle)
        · exact .inr (by simp [minInf, Nat.min_eq_right hle])
    · exact .inr (List.mem_cons_of_mem x h)

/-- The countdowns SELECT_INTERVAL compares `next_main` with, `none` being INF. -/
def auxCountdowns (s : State) : List (Option Nat) :=
  s.timer.nextAdv :: (if s.cfg.babystepping && babyDue s then some s.timer.nextBaby else none) ::
    s.cfg.shapedAxes.map (fun a => (s.shaping.queue.read a).head?.map Echo.remaining)

theorem selectInterval_eq (s : State) :
    selectInterval s = max 1 ((auxCountdowns s).foldl minInf s.timer.nextMain) := rfl

theorem selectInterval_pos (s : State) : 1 ≤ selectInterval s := Nat.le_max_left ..

/-- The finite ones: `next_adv`, `next_baby` with a babystep pending, and the heads of the shaping queues. -/
theorem mem_auxCountdowns (s : State) (x : Nat) : some x ∈ auxCountdowns s ↔
    s.timer.nextAdv = some x ∨
    (s.cfg.babystepping = true ∧ (∃ a : Axis, a.val < s.cfg.numAxes ∧ s.babyPending.read a ≠ 0) ∧
      x = s.timer.nextBaby) ∨
    ∃ a q rest, s.cfg.shaped.read a = true ∧ s.shaping.queue.read a = q :: rest ∧ x = q.remaining := by
  have hbaby : some x = (if s.cfg.babystepping && babyDue s then some s.timer.nextBaby else none) ↔
      s.cfg.babystepping = true ∧ (∃ a : Axis, a.val < s.cfg.numAxes ∧ s.babyPending.read a ≠ 0) ∧
        x = s.timer.nextBaby := by
    rw [← babyDue_iff, Option.some_eq_ite_none_right, Bool.and_eq_true, and_assoc, Option.some_inj, eq_comm (a := x)]
  have hhead (a : Axis) : (s.shaping.queue.read a).head?.map Echo.remaining = some x ↔
      ∃ q rest, s.shaping.queue.read a = q :: rest ∧ x = q.remaining := by
    cases s.shaping.queue.read a <;> simp [eq_comm]
  simp only [auxCountdowns, List.mem_cons, List.mem_map, Config.mem_shapedAxes, hbaby, hhead,
    eq_comm (a := some x) (b := s.timer.nextAdv), exists_and_left]

/-- Settles O24: the minimum is below every pending countdown and is one of them. -/
theorem selectIntervalIsLeast : Obligations.SelectIntervalIsLeast := by
  intro s pending
  obtain ⟨hmain, haux⟩ := foldl_minInf_le (auxCountdowns s) s.timer.nextMain
  refine ⟨_, ?_, fun x hx => ?_, selectInterval_eq s⟩
  · exact (foldl_minInf_mem _ _).imp id (mem_auxCountdowns s _).1
  · rcases hx with rfl | hx
    · exact hmain
    · exact haux x ((mem_auxCountdowns s x).2 hx)

/-! ## OVERRUN_CHECK (40_isr_scheduler.md R114) -/

theorem checkedInterval_of_fits {c : Config} {interval e : Nat} (h : e + c.minIsrMargin ≤ interval) :
    checkedInterval c interval e = min interval c.maxInterval := by
  simp [checkedInterval, Nat.not_lt.2 h]

theorem checkedInterval_of_overrun {c : Config} {interval e : Nat} (h : interval < e + c.minIsrMargin) :
    checkedInterval c interval e = min (e + c.minIsrMargin) c.maxInterval := by
  simp [checkedInterval, h]

theorem overrunCheck_of_fits {s : State} {interval e : Nat} (h : e + s.cfg.minIsrMargin ≤ interval) :
    overrunCheck interval e s = s := by
  simp [overrunCheck, Nat.not_lt.2 h]

/-- An overrun is recorded and counted, and raises the overrun shift or, at its ceiling, the lost-step risk. -/
theorem overrunCheck_of_overrun {s : State} {interval e : Nat} (h : interval < e + s.cfg.minIsrMargin) :
    overrunCheck interval e s = { s with
      trace := s.trace ++ [⟨s.timer.now, .overrun e interval⟩]
      host := { s.host with
        overrunCount := min (s.host.overrunCount + 1) (2 ^ 32 - 1)
        lostStepRisk := s.host.lostStepRisk || decide (s.cfg.maxMultistepShift ≤ s.timer.overrunShift) }
      timer :=
        if s.timer.overrunShift < s.cfg.maxMultistepShift then
          { s.timer with overrunShift := s.timer.overrunShift + 1, ticksNominal := none }
        else s.timer } := by
  by_cases hshift : s.timer.overrunShift < s.cfg.maxMultistepShift
  · simp [overrunCheck, emit, sat32, h, hshift, Nat.not_le.2 hshift]
  · simp [overrunCheck, emit, sat32, h, hshift, Nat.not_lt.1 hshift]

/-- Whatever the draw, OVERRUN_CHECK writes no countdown, and of the host's registers only the diagnostics. -/
theorem overrunCheck_leaves (interval e : Nat) (s : State) :
    (overrunCheck interval e s).timer.nextMain = s.timer.nextMain ∧
      (overrunCheck interval e s).timer.nextBaby = s.timer.nextBaby ∧
      (overrunCheck interval e s).host.fault = s.host.fault := by
  rcases Nat.lt_or_ge interval (e + s.cfg.minIsrMargin) with h | h
  · rw [overrunCheck_of_overrun h]
    simp only []
    split <;> simp
  · simp [overrunCheck_of_fits h]

/-- The interval a TICK programs is one the timer can hold, and at least 1 (40_isr_scheduler.md R112, R116). -/
theorem checkedInterval_bounds {c : Config} (h : c.legal = true) {interval : Nat} (hpos : 1 ≤ interval) (e : Nat) :
    1 ≤ checkedInterval c interval e ∧ checkedInterval c interval e ≤ c.maxInterval := by
  have hmax := Config.legal_maxInterval_pos h
  unfold checkedInterval
  split <;> omega

/-! ## ADVANCE_COUNTDOWNS (40_isr_scheduler.md R115) -/

/-- Natural subtraction is the integer difference stopped at 0. -/
theorem toNat_max_sub_zero (m n : Nat) : (max ((m : Int) - n) 0).toNat = m - n := by omega

/-- Settles O25: each branch of OVERRUN_CHECK has its lemma, and each countdown is lowered by natural subtraction. -/
theorem overrunAndCountdowns : Obligations.OverrunAndCountdowns := by
  intro s interval e
  refine ⟨fun h => ⟨overrunCheck_of_fits h, checkedInterval_of_fits h⟩,
    fun h => ⟨checkedInterval_of_overrun h, overrunCheck_of_overrun h⟩, (advanceCountdowns interval s).shaping.queue, ?_⟩
  simp only [toNat_max_sub_zero]
  exact ⟨rfl, fun a => PerAxis.read_build _ a⟩

end Sys2Proof.Machine
end

section
/-! SUPPORT. TICK as the composition of its sub-tasks and the timer's programming (40_isr_scheduler.md R112,
60_exceptions.md R314, R315, R320). -/

namespace Sys2Proof.Machine

/-! ## The sub-operations in a state with no fault -/

theorem engineStep_of_no_fault {k : State → State} {s : State} (h : s.host.fault = false) : engineStep k s = k s := by
  simp [engineStep, h]

theorem exec_pulsePhase {s : State} (h : s.host.fault = false) : exec .pulsePhase s = .next (pulsePhase s) :=
  congrArg _ (engineStep_of_no_fault h)

theorem exec_shapingIsr {s : State} (h : s.host.fault = false) : exec .shapingIsr s = .next (shapingIsr s) :=
  congrArg _ (engineStep_of_no_fault h)

theorem exec_advanceIsr {s : State} (h : s.host.fault = false) : exec .advanceIsr s = .next (advanceIsr s) :=
  congrArg _ (engineStep_of_no_fault h)

theorem exec_babystepIsr {s : State} (h : s.host.fault = false) : exec .babystepIsr s = .next (babystepIsr s) :=
  congrArg _ (engineStep_of_no_fault h)

/-! ## The sub-tasks of a TICK, each where it is due -/

/-- The pulse part of a TICK. -/
def tickPulse (s : State) : State := if s.timer.nextMain = 0 then pulsePhase s else s

/-- The shaping part of a TICK. -/
def tickShaping (s : State) : State := if s.cfg.inputShaping = true then shapingIsr s else s

/-- The sub-tasks before BLOCK_PHASE. -/
def tickBeforeBlock (s : State) : State := tickBabystep (tickAdvance (tickShaping (tickPulse s)))

theorem tickTasks_eq (s : State) :
    tickTasks s = if s.timer.nextMain = 0 then tickBlock (tickBeforeBlock s) else tickBeforeBlock s := by
  by_cases h : s.timer.nextMain = 0 <;> simp [tickTasks, tickBeforeBlock, tickPulse, tickShaping, h]

theorem tick_of_no_fault {s : State} (h : s.host.fault = false) : tick s =
    if (tickTasks s).host.fault = true then tickTasks s else programTimer (tickElapsed s) (tickTasks s) := by
  simp [tick, h]

@[simp] theorem tickPulse_cfg (s : State) : (tickPulse s).cfg = s.cfg := by unfold tickPulse; split <;> simp
@[simp] theorem tickPulse_host (s : State) : (tickPulse s).host = s.host := by unfold tickPulse; split <;> simp
@[simp] theorem tickPulse_env (s : State) : (tickPulse s).env = s.env := by unfold tickPulse; split <;> simp
@[simp] theorem tickPulse_babyPending (s : State) : (tickPulse s).babyPending = s.babyPending := by
  unfold tickPulse; split <;> simp

@[simp] theorem tickShaping_cfg (s : State) : (tickShaping s).cfg = s.cfg := by unfold tickShaping; split <;> simp
@[simp] theorem tickShaping_seq (s : State) : (tickShaping s).seq = s.seq := by unfold tickShaping; split <;> simp
@[simp] theorem tickShaping_timer (s : State) : (tickShaping s).timer = s.timer := by
  unfold tickShaping; split <;> simp
@[simp] theorem tickShaping_bez (s : State) : (tickShaping s).bez = s.bez := by unfold tickShaping; split <;> simp
@[simp] theorem tickShaping_babyPending (s : State) : (tickShaping s).babyPending = s.babyPending := by
  unfold tickShaping; split <;> simp
@[simp] theorem tickShaping_host (s : State) : (tickShaping s).host = s.host := by unfold tickShaping; split <;> simp
@[simp] theorem tickShaping_pq (s : State) : (tickShaping s).pq = s.pq := by unfold tickShaping; split <;> simp
@[simp] theorem tickShaping_env (s : State) : (tickShaping s).env = s.env := by unfold tickShaping; split <;> simp

@[simp] theorem tickBeforeBlock_cfg (s : State) : (tickBeforeBlock s).cfg = s.cfg := by simp [tickBeforeBlock]
@[simp] theorem tickBeforeBlock_host (s : State) : (tickBeforeBlock s).host = s.host := by simp [tickBeforeBlock]
@[simp] theorem tickBeforeBlock_env (s : State) : (tickBeforeBlock s).env = s.env := by simp [tickBeforeBlock]

theorem tickPulse_exec {s : State} (h : s.host.fault = false) :
    if s.timer.nextMain = 0 then exec .pulsePhase s = .next (tickPulse s) else tickPulse s = s := by
  unfold tickPulse
  split
  · exact exec_pulsePhase h
  · rfl

theorem tickShaping_exec {s : State} (h : s.host.fault = false) :
    if s.cfg.inputShaping = true then exec .shapingIsr s = .next (tickShaping s) else tickShaping s = s := by
  unfold tickShaping
  split
  · exact exec_shapingIsr h
  · rfl

theorem tickAdvance_eq (s : State) : tickAdvance s =
    if s.cfg.linAdvance = true ∧ s.timer.nextAdv = some 0 then
      { advanceIsr s with timer.nextAdv := (advanceIsr s).la.interval }
    else s :=
  if_congr (by simp) rfl rfl

theorem tickAdvance_exec {s : State} (h : s.host.fault = false) :
    if s.cfg.linAdvance = true ∧ s.timer.nextAdv = some 0 then
      ∃ u, exec .advanceIsr s = .next u ∧ tickAdvance s = { u with timer.nextAdv := u.la.interval }
    else tickAdvance s = s := by
  rw [tickAdvance_eq]
  split
  · exact ⟨_, exec_advanceIsr h, rfl⟩
  · rfl

/-- The babystep part is due when the quiet period is over and a babystep is pending. -/
theorem tickBabystep_due_iff (s : State) : (s.cfg.babystepping && s.timer.nextBaby == 0 && babyDue s) = true ↔
    s.cfg.babystepping = true ∧ s.timer.nextBaby = 0 ∧
      ∃ a : Axis, a.val < s.cfg.numAxes ∧ s.babyPending.read a ≠ 0 := by
  rw [← babyDue_iff, Bool.and_eq_true, Bool.and_eq_true, beq_iff_eq, and_assoc]

theorem tickBabystep_eq (s : State) : tickBabystep s =
    if s.cfg.babystepping = true ∧ s.timer.nextBaby = 0 ∧
        ∃ a : Axis, a.val < s.cfg.numAxes ∧ s.babyPending.read a ≠ 0 then
      { babystepIsr s with timer.nextBaby := s.cfg.babystepQuiet }
    else s :=
  if_congr (tickBabystep_due_iff s) rfl rfl

theorem tickBabystep_exec {s : State} (h : s.host.fault = false) :
    if s.cfg.babystepping = true ∧ s.timer.nextBaby = 0 ∧
        ∃ a : Axis, a.val < s.cfg.numAxes ∧ s.babyPending.read a ≠ 0 then
      ∃ u, exec .babystepIsr s = .next u ∧ tickBabystep s = { u with timer.nextBaby := s.cfg.babystepQuiet }
    else tickBabystep s = s := by
  rw [tickBabystep_eq]
  split
  · exact ⟨_, exec_babystepIsr h, rfl⟩
  · rfl

/-- BLOCK_PHASE inside a TICK is the operation without its reply (log entry 9), its interval being `next_main`. -/
theorem tickBlock_exec {s : State} (h : s.host.fault = false) :
    ∃ u iv, exec .blockPhase s = .next u ∧ u.env.reply = .interval iv ∧
      tickBlock s = { u with timer.nextMain := iv, env := s.env } := by
  refine ⟨_, _, exec_blockPhase h, rfl, ?_⟩
  rw [← blockPhase_env s]
  rfl

/-! ## A TICK that ends in a fault (60_exceptions.md R314, R315) -/

/-- What a refused block leaves: no interval, no block loaded, and the block at the head of the queue. -/
structure Refused (r : State × Nat) : Prop where
  interval : r.2 = 0
  current : r.1.seq.current = none
  holds : FaultHoldsBlock r.1
  code : r.1.host.faultCode = 1 ∨ r.1.host.faultCode = 2

/-- LOAD_NEXT raises a fault only where it refuses a block. -/
theorem loadFrom_refused {q : List Descriptor} {s : State} (hpq : s.pq = q) (hcur : s.seq.current = none)
    (hno : s.host.fault = false) (h : (loadFrom q s).1.host.fault = true) : Refused (loadFrom q s) := by
  induction q generalizing s with
  | nil => simp [loadFrom, hno] at h
  | cons d rest ih =>
    unfold loadFrom at h ⊢
    split at h
    · next hpage =>
      obtain ⟨hp, hs⟩ : d.isPage = true ∧ d.isSync = false := by simpa using hpage
      rw [if_pos hpage]
      exact ⟨rfl, hcur, fun _ => ⟨d, rest, hpq, .inl ⟨rfl, hp, hs⟩⟩, .inl rfl⟩
    · next hpage =>
      rw [if_neg hpage]
      split at h
      · next hv =>
        rw [if_pos hv]
        exact ⟨rfl, hcur, fun _ => ⟨d, rest, hpq, .inr ⟨rfl, by simpa using hv⟩⟩, .inr rfl⟩
      · next hv =>
        rw [if_neg hv]
        split at h
        · next hsync =>
          rw [if_pos hsync]
          exact ih (by simp [hpq]) (by simpa using hcur) (by simpa using hno) h
        · simp [hno] at h

theorem blockPhase_refused {s : State} (hno : s.host.fault = false) (h : (blockPhase s).1.host.fault = true) :
    Refused (blockPhase s) := by
  unfold blockPhase at h ⊢
  split
  · next hcur =>
    simp only [hcur] at h
    exact loadFrom_refused rfl hcur hno h
  · next b hcur =>
    simp only [hcur] at h
    split at h
    · next hdone =>
      rw [if_pos hdone]
      exact loadFrom_refused rfl (completeBlock_current b s) (by simpa using hno) h
    · simp [hno] at h

/-- Only the main task can raise a fault in a TICK. -/
theorem tickTasks_fault {s : State} (hno : s.host.fault = false) (h : (tickTasks s).host.fault = true) :
    s.timer.nextMain = 0 ∧ (tickTasks s).timer.nextMain = 0 ∧ (tickTasks s).seq.current = none ∧
      FaultHoldsBlock (tickTasks s) ∧
      ((tickTasks s).host.faultCode = 1 ∨ (tickTasks s).host.faultCode = 2) := by
  rw [tickTasks_eq] at h ⊢
  split at h
  · next hmain =>
    rw [if_pos hmain]
    obtain ⟨hinterval, hcurrent, hholds, hcode⟩ :=
      blockPhase_refused (s := tickBeforeBlock s) (by simpa using hno) h
    exact ⟨hmain, hinterval, hcurrent, hholds, hcode⟩
  · simp [hno] at h

/-! ## The end of a TICK (40_isr_scheduler.md R112, R116) -/

@[simp] theorem programTimer_fault (e : Nat) (s : State) : (programTimer e s).host.fault = s.host.fault :=
  (overrunCheck_leaves _ e s).2.2

theorem programTimer_nextIsrTicks (e : Nat) (s : State) :
    (programTimer e s).timer.nextIsrTicks = checkedInterval s.cfg (selectInterval s) e := rfl

theorem programTimer_now (e : Nat) (s : State) :
    (programTimer e s).timer.now = s.timer.now + (programTimer e s).timer.nextIsrTicks := by
  simp [programTimer]

theorem programTimer_nextMain (e : Nat) (s : State) :
    (programTimer e s).timer.nextMain = s.timer.nextMain - (programTimer e s).timer.nextIsrTicks := by
  rw [← (overrunCheck_leaves (selectInterval s) e s).1]
  rfl

theorem programTimer_nextBaby (e : Nat) (s : State) :
    (programTimer e s).timer.nextBaby = s.timer.nextBaby - (programTimer e s).timer.nextIsrTicks := by
  rw [← (overrunCheck_leaves (selectInterval s) e s).2.1]
  rfl

/-- The timer is programmed after the sub-tasks of a TICK, with the parameters, the time and the draw it started with. -/
theorem programTimer_tickTasks (s : State) :
    let picked := selectInterval (tickTasks s)
    let interval := checkedInterval s.cfg picked (tickElapsed s)
    let u := advanceCountdowns interval (overrunCheck picked (tickElapsed s) (tickTasks s))
    programTimer (tickElapsed s) (tickTasks s) = { u with
      timer := { u.timer with nextIsrTicks := interval, now := s.timer.now + interval }
      env := { s.env with elapsed := none, drawCount := s.env.drawCount + 1 } } := by
  simp [programTimer]

/-- A TICK without a fault programs an interval the timer can hold, and virtual time moves by it. -/
theorem tick_programs {s : State} (hlegal : s.cfg.legal = true) (hno : s.host.fault = false)
    (h : (tick s).host.fault = false) :
    1 ≤ (tick s).timer.nextIsrTicks ∧ (tick s).timer.nextIsrTicks ≤ s.cfg.maxInterval ∧
      (tick s).timer.now = s.timer.now + (tick s).timer.nextIsrTicks := by
  rw [tick_of_no_fault hno] at h ⊢
  split at h
  · next hfault => simp [hfault] at h
  · next hfault =>
    rw [if_neg hfault]
    obtain ⟨hpos, hle⟩ := checkedInterval_bounds hlegal (selectInterval_pos (tickTasks s)) (tickElapsed s)
    rw [programTimer_now, programTimer_nextIsrTicks, tickTasks_cfg, tickTasks_now]
    exact ⟨hpos, hle, rfl⟩

/-- A TICK that ends in a fault programs nothing and leaves the refused block at the head of the queue. -/
theorem tick_faults {s : State} (hno : s.host.fault = false) (h : (tick s).host.fault = true) :
    s.timer.nextMain = 0 ∧ (tick s).timer.nextMain = 0 ∧
      (tick s).timer.nextIsrTicks = s.timer.nextIsrTicks ∧ (tick s).timer.now = s.timer.now ∧
      (tick s).seq.current = none ∧ FaultHoldsBlock (tick s) ∧
      ((tick s).host.faultCode = 1 ∨ (tick s).host.faultCode = 2) := by
  rw [tick_of_no_fault hno] at h ⊢
  split at h
  · next hfault =>
    rw [if_pos hfault]
    obtain ⟨hmain, hnext, hcurrent, hholds, hcode⟩ := tickTasks_fault hno hfault
    exact ⟨hmain, hnext, tickTasks_nextIsrTicks s, tickTasks_now s, hcurrent, hholds, hcode⟩
  · next hfault => rw [programTimer_fault] at h; exact absurd h hfault

/-- Settles O20: the states between the sub-tasks are those of `tickTasks`, and each end of a TICK has its lemma. -/
theorem tickProgramsTheTimer : Obligations.TickProgramsTheTimer := by
  intro s hlegal hno
  have hpulse := tickPulse_exec hno
  have hshaping := tickShaping_exec (s := tickPulse s) (by simpa using hno)
  have hadvance := tickAdvance_exec (s := tickShaping (tickPulse s)) (by simpa using hno)
  have hbaby := tickBabystep_exec (s := tickAdvance (tickShaping (tickPulse s))) (by simpa using hno)
  simp only [tickPulse_cfg, tickShaping_cfg, tickAdvance_cfg] at hshaping hadvance hbaby
  refine ⟨_, _, _, tickBeforeBlock s, tickTasks s, tick s, rfl, hpulse, hshaping, hadvance, hbaby, ?_, ?_, ?_,
    tick_programs hlegal hno, tick_faults hno⟩
  · rw [tickTasks_eq]
    split
    · rw [← tickBeforeBlock_env s]
      exact tickBlock_exec (by simpa using hno)
    · rfl
  · intro hfault
    rw [tick_of_no_fault hno, if_pos hfault]
  · intro hfault
    rw [tick_of_no_fault hno, if_neg (by simp [hfault])]
    exact programTimer_tickTasks s

/-! ## A TICK without the main task (40_isr_scheduler.md R112) -/

/-- The sub-tasks before BLOCK_PHASE leave `t` with the block sequencer, the Bresenham terms, the S-curve and the main
countdown of `s`. -/
structure SameMainTask (s t : State) : Prop where
  seq : t.seq = s.seq
  pq : t.pq = s.pq
  bres : t.bres = { s.bres with countPosition := t.bres.countPosition }
  bez : t.bez = s.bez
  nextMain : t.timer.nextMain = s.timer.nextMain

theorem SameMainTask.refl (s : State) : SameMainTask s s := ⟨rfl, rfl, rfl, rfl, rfl⟩

theorem SameMainTask.trans {s t u : State} (h : SameMainTask s t) (k : SameMainTask t u) : SameMainTask s u :=
  ⟨k.seq.trans h.seq, k.pq.trans h.pq, by rw [k.bres, h.bres], k.bez.trans h.bez, k.nextMain.trans h.nextMain⟩

theorem tickShaping_sameMainTask (s : State) : SameMainTask s (tickShaping s) := by
  refine ⟨by simp, by simp, ?_, by simp, by simp⟩
  unfold tickShaping
  split
  · exact shapingIsr_bres s
  · rfl

theorem tickAdvance_sameMainTask (s : State) : SameMainTask s (tickAdvance s) := by
  unfold tickAdvance
  split
  · exact ⟨advanceIsr_seq s, advanceIsr_pq s, advanceIsr_bres s, advanceIsr_bez s, by simp⟩
  · exact .refl s

theorem tickBabystep_sameMainTask (s : State) : SameMainTask s (tickBabystep s) := by
  unfold tickBabystep
  split
  · exact ⟨babystepIsr_seq s, babystepIsr_pq s, babystepIsr_bres s, babystepIsr_bez s, by simp⟩
  · exact .refl s

theorem tickTasks_sameMainTask {s : State} (h : s.timer.nextMain ≠ 0) : SameMainTask s (tickTasks s) := by
  rw [tickTasks_eq, if_neg h, tickBeforeBlock, tickPulse, if_neg h]
  exact ((tickShaping_sameMainTask s).trans (tickAdvance_sameMainTask _)).trans (tickBabystep_sameMainTask _)

/-- Settles O21: without the main task no sub-task raises a fault or touches what the main task owns, and the end of the
TICK writes only `next_main` of it. -/
theorem tickWithoutMainTask : Obligations.TickWithoutMainTask := by
  intro s hno hmain
  obtain ⟨hseq, hpq, hbres, hbez, hnext⟩ := tickTasks_sameMainTask hmain
  have hfault : (tickTasks s).host.fault = false :=
    Bool.eq_false_iff.2 fun h => hmain (tickTasks_fault hno h).1
  have htick : tick s = programTimer (tickElapsed s) (tickTasks s) := by
    rw [tick_of_no_fault hno, if_neg (by simp [hfault])]
  refine ⟨tick s, rfl, ?_⟩
  rw [htick, programTimer_fault, programTimer_seq, programTimer_pq, programTimer_bres, programTimer_bez,
    programTimer_nextMain, hnext, hbres]
  exact ⟨hfault, hseq, hpq, rfl, rfl, rfl, hbez, rfl⟩

/-! ## An idle TICK (40_isr_scheduler.md R117) -/

theorem pulsePhase_of_idle {s : State} (hcur : s.seq.current = none) (habort : s.seq.abortCurrentBlock = false) :
    pulsePhase s = s := by
  simp [pulsePhase, hcur, habort]

/-- With no echo pending SHAPING_ISR has nothing to apply (45_aux_pulse.md R233). -/
theorem shapingIsr_of_no_echo {s : State} (h : ∀ a, s.cfg.shaped.read a = true → s.shaping.queue.read a = []) :
    shapingIsr s = s := by
  have hfold : ∀ l : List Axis, (∀ a ∈ l, s.shaping.queue.read a = []) →
      l.foldl (fun t a => drainDue a (t.shaping.queue.read a) t) s = s := by
    intro l
    induction l with
    | nil => exact fun _ => rfl
    | cons a l ih =>
      intro hl
      obtain ⟨ha, hl⟩ := List.forall_mem_cons.1 hl
      rw [List.foldl_cons, ha]
      exact ih hl
  exact hfold _ fun a ha => h a ((Config.mem_shapedAxes _ a).1 ha)

/-- With no echo pending ADVANCE_COUNTDOWNS writes the timer alone (40_isr_scheduler.md R115). -/
theorem advanceCountdowns_of_no_echo {s : State}
    (h : ∀ a, s.cfg.shaped.read a = true → s.shaping.queue.read a = []) (interval : Nat) :
    advanceCountdowns interval s = { s with timer := { s.timer with
      nextMain := s.timer.nextMain - interval
      nextAdv := s.timer.nextAdv.map (fun n => n - interval)
      nextBaby := s.timer.nextBaby - interval } } := by
  have hqueue : PerAxis.build (fun a => if s.cfg.shaped.read a then (s.shaping.queue.read a).map (Echo.advance interval)
      else s.shaping.queue.read a) = s.shaping.queue := by
    apply PerAxis.ext_read
    intro a
    by_cases ha : s.cfg.shaped.read a = true
    · simp [ha, h a ha]
    · simp [ha]
  rw [advanceCountdowns, hqueue]

/-- With no auxiliary countdown pending the interval is the main countdown (40_isr_scheduler.md R113). -/
theorem selectInterval_of_main_only {s : State} (hadv : s.timer.nextAdv = none)
    (hbaby : ∀ a : Axis, a.val < s.cfg.numAxes → s.babyPending.read a = 0)
    (hecho : ∀ a, s.cfg.shaped.read a = true → s.shaping.queue.read a = []) :
    selectInterval s = max 1 s.timer.nextMain := by
  rw [selectInterval_eq]
  rcases foldl_minInf_mem (auxCountdowns s) s.timer.nextMain with h | h
  · rw [h]
  · rcases (mem_auxCountdowns s _).1 h with h | ⟨-, ⟨a, ha, hne⟩, -⟩ | ⟨a, q, rest, ha, hq, -⟩
    · simp [hadv] at h
    · exact absurd (hbaby a ha) hne
    · simp [hecho a ha] at hq

/-- With no auxiliary countdown pending and no overrun the whole main countdown is programmed. -/
theorem programTimer_of_main_only {s : State} {e : Nat} (hadv : s.timer.nextAdv = none)
    (hbaby : ∀ a : Axis, a.val < s.cfg.numAxes → s.babyPending.read a = 0)
    (hecho : ∀ a, s.cfg.shaped.read a = true → s.shaping.queue.read a = []) (hpos : 1 ≤ s.timer.nextMain)
    (hmax : s.timer.nextMain ≤ s.cfg.maxInterval) (hfits : e + s.cfg.minIsrMargin ≤ s.timer.nextMain) :
    programTimer e s = { s with
      timer := { s.timer with
        nextIsrTicks := s.timer.nextMain, nextMain := 0, now := s.timer.now + s.timer.nextMain
        nextBaby := s.timer.nextBaby - s.timer.nextMain }
      env := { s.env with elapsed := none, drawCount := s.env.drawCount + 1 } } := by
  have hpicked : selectInterval s = s.timer.nextMain :=
    (selectInterval_of_main_only hadv hbaby hecho).trans (Nat.max_eq_right hpos)
  have hinterval : checkedInterval s.cfg s.timer.nextMain e = s.timer.nextMain :=
    (checkedInterval_of_fits hfits).trans (Nat.min_eq_left hmax)
  rw [programTimer, hpicked, hinterval, overrunCheck_of_fits hfits, advanceCountdowns_of_no_echo hecho]
  simp [hadv]

/-- The sub-tasks of an idle TICK do nothing but set the main countdown to IDLE_INTERVAL (44_block_sequencer.md R195). -/
theorem tickTasks_of_idle {s : State} (hidle : EngineIdle s) (habort : s.seq.abortCurrentBlock = false)
    (hmain : s.timer.nextMain = 0) (hadv : s.timer.nextAdv = none)
    (hbaby : ∀ a : Axis, a.val < s.cfg.numAxes → s.babyPending.read a = 0) :
    tickTasks s = { s with timer.nextMain := s.cfg.idleInterval } := by
  obtain ⟨hcur, hpq, hecho⟩ := hidle
  have hpulse : tickPulse s = s := by simp [tickPulse, pulsePhase_of_idle hcur habort]
  have hshaping : tickShaping s = s := by simp [tickShaping, shapingIsr_of_no_echo hecho]
  have hadvance : tickAdvance s = s := by simp [tickAdvance_eq, hadv]
  have hbabystep : tickBabystep s = s := by
    rw [tickBabystep_eq, if_neg]
    exact fun ⟨_, _, a, ha, hne⟩ => hne (hbaby a ha)
  rw [tickTasks_eq, if_pos hmain, tickBeforeBlock, hpulse, hshaping, hadvance, hbabystep]
  simp [tickBlock, blockPhase, hcur, loadNext, hpq, loadFrom]

/-- Settles O22: the sub-tasks set `next_main` to IDLE_INTERVAL, and the whole of it is programmed. -/
theorem idleTick : Obligations.IdleTick := by
  intro s hno hidle habort hmain hadv hbaby hpos hmax hfits
  have ⟨_, _, hecho⟩ := hidle
  have htick : tick s = programTimer (tickElapsed s) { s with timer.nextMain := s.cfg.idleInterval } := by
    rw [tick_of_no_fault hno, tickTasks_of_idle hidle habort hmain hadv hbaby, if_neg (by simp [hno])]
  have hprogram := programTimer_of_main_only (s := { s with timer.nextMain := s.cfg.idleInterval })
    hadv hbaby hecho hpos hmax hfits
  refine congrArg Host.Outcome.next ((htick.trans hprogram).trans ?_)
  simp [hmain]

end Sys2Proof.Machine
end

section
/-! SUPPORT. The quiet period: only the babystep part of a TICK and the end of a TICK write `next_baby`, and only the
former serves a babystep (40_isr_scheduler.md R112, 45_aux_pulse.md R242, R243). -/

namespace Sys2Proof.Machine

/-! ## The main task leaves `next_baby` alone -/

@[simp] theorem discardBlock_nextBaby (b : BlockRec) (s : State) :
    (discardBlock b s).timer.nextBaby = s.timer.nextBaby := by
  unfold discardBlock; simp only []; split <;> simp

@[simp] theorem consumeAbort_nextBaby (s : State) : (consumeAbort s).timer.nextBaby = s.timer.nextBaby := by
  unfold consumeAbort; simp only []; split <;> simp

@[simp] theorem pulsePhase_nextBaby (s : State) : (pulsePhase s).timer.nextBaby = s.timer.nextBaby := by
  unfold pulsePhase
  split
  · simp
  · split <;> simp

@[simp] theorem laDecel_nextBaby (b : BlockRec) (rate : Nat) (s : State) :
    (laDecel b rate s).timer.nextBaby = s.timer.nextBaby := by
  unfold laDecel
  simp only []
  generalize (if s.la.advanceSteps.toInt > b.finalAdvSteps then b.laAdvanceRate else 0) = laRate
  split
  · rfl
  · generalize (if decide (laRate > rate) = true then laRate - rate else rate - laRate) = diff
    split <;> rfl

@[simp] theorem accelInterval_nextBaby (b : BlockRec) (s : State) :
    (accelInterval b s).1.timer.nextBaby = s.timer.nextBaby := by
  unfold accelInterval; simp only []; split <;> rfl

@[simp] theorem fillCruise_nextBaby (b : BlockRec) (s : State) :
    (fillCruise b s).timer.nextBaby = s.timer.nextBaby := by
  unfold fillCruise; simp only []; split <;> rfl

@[simp] theorem cruiseInterval_nextBaby (b : BlockRec) (s : State) :
    (cruiseInterval b s).1.timer.nextBaby = s.timer.nextBaby := by
  unfold cruiseInterval; simp only []; split <;> simp

@[simp] theorem decelInterval_nextBaby (b : BlockRec) (s : State) :
    (decelInterval b s).1.timer.nextBaby = s.timer.nextBaby := by
  unfold decelInterval; simp only []; split <;> simp [calcTimerInterval]

@[simp] theorem phaseInterval_nextBaby (b : BlockRec) (s : State) :
    (phaseInterval b s).1.timer.nextBaby = s.timer.nextBaby := by
  unfold phaseInterval
  split
  · simp
  · split <;> simp

@[simp] theorem loadFrom_nextBaby (q : List Descriptor) (s : State) :
    (loadFrom q s).1.timer.nextBaby = s.timer.nextBaby := by
  induction q generalizing s with
  | nil => rfl
  | cons d rest ih =>
    unfold loadFrom
    split
    · rfl
    · split
      · rfl
      · split
        · simp [ih]
        · simp [loadBlock_timer]

@[simp] theorem blockPhase_nextBaby (s : State) : (blockPhase s).1.timer.nextBaby = s.timer.nextBaby := by
  unfold blockPhase
  split
  · simp [loadNext]
  · split <;> simp [loadNext, completeBlock]

/-! ## The babystep part of a TICK -/

@[simp] theorem tickPulse_nextBaby (s : State) : (tickPulse s).timer.nextBaby = s.timer.nextBaby := by
  unfold tickPulse; split <;> simp

@[simp] theorem tickAdvance_nextBaby (s : State) : (tickAdvance s).timer.nextBaby = s.timer.nextBaby := by
  unfold tickAdvance; split <;> simp

@[simp] theorem tickBlock_nextBaby (s : State) : (tickBlock s).timer.nextBaby = s.timer.nextBaby := by
  simp [tickBlock]

/-- The axes of the machine stand in ascending order. -/
theorem liveAxes_pairwise_lt (c : Config) : c.liveAxes.Pairwise (· < ·) :=
  List.Pairwise.filter _ (by decide : allAxes.Pairwise (· < ·))

/-- The pending axis below which none is pending is the one BABYSTEP_ISR serves (45_aux_pulse.md R242). -/
theorem babyAxis_eq {s : State} {a : Axis} (hlive : a.val < s.cfg.numAxes) (hpending : s.babyPending.read a ≠ 0)
    (hleast : ∀ b : Axis, b.val < a.val → s.babyPending.read b = 0) : babyAxis s = some a := by
  obtain ⟨before, after, hsplit⟩ := List.append_of_mem ((Config.mem_liveAxes s.cfg a).2 hlive)
  have hsorted := hsplit ▸ liveAxes_pairwise_lt s.cfg
  have hbefore : ∀ b ∈ before, b < a := fun b hb =>
    (List.pairwise_append.1 hsorted).2.2 b hb a (List.mem_cons_self ..)
  exact List.find?_eq_some_iff_append.2
    ⟨by simpa using hpending, before, after, hsplit, fun b hb => by simp [hleast b (hbefore b hb)]⟩

/-- BABYSTEP_ISR counts the pending steps of its axis one nearer to 0. -/
theorem babystepIsr_babyPending {s : State} {a : Axis} (h : babyAxis s = some a) :
    (babystepIsr s).babyPending = s.babyPending.write a
      (s.babyPending.read a - (if s.babyPending.read a < 0 then -1 else 1)) := by
  have hsign : (babyDir (s.babyPending.read a)).sign = if s.babyPending.read a < 0 then -1 else 1 := by
    unfold babyDir; split <;> rfl
  simp [babystepIsr, h, hsign]

theorem tickBabystep_of_due {s : State} {a : Axis} (hon : s.cfg.babystepping = true) (hquiet : s.timer.nextBaby = 0)
    (hlive : a.val < s.cfg.numAxes) (hpending : s.babyPending.read a ≠ 0) :
    tickBabystep s = { babystepIsr s with timer.nextBaby := s.cfg.babystepQuiet } := by
  rw [tickBabystep_eq, if_pos ⟨hon, hquiet, a, hlive, hpending⟩]

theorem tickBabystep_of_quiet {s : State} (h : s.timer.nextBaby ≠ 0) : tickBabystep s = s := by
  rw [tickBabystep_eq, if_neg fun hdue => h hdue.2.1]

/-- Of a whole TICK only the babystep part writes the pending babysteps. -/
theorem tick_babyPending {s : State} (hno : s.host.fault = false) :
    (tick s).babyPending = (tickBeforeBlock s).babyPending := by
  rw [tick_of_no_fault hno, tickTasks_eq]
  repeat' split
  all_goals simp

/-- A TICK that programs the timer counts the interval off `next_baby`, as the babystep part left it. -/
theorem tick_nextBaby {s : State} (hno : s.host.fault = false) (h : (tick s).host.fault = false) :
    (tick s).timer.nextBaby = (tickBeforeBlock s).timer.nextBaby - (tick s).timer.nextIsrTicks := by
  have hbaby : (tickTasks s).timer.nextBaby = (tickBeforeBlock s).timer.nextBaby := by
    rw [tickTasks_eq]
    split <;> simp
  rw [tick_of_no_fault hno] at h ⊢
  split at h
  · next hfault => simp [hfault] at h
  · next hfault => rw [if_neg hfault, programTimer_nextBaby, hbaby]

/-- Settles O23: the sub-tasks before the babystep part leave the quiet period and the pending babysteps alone, and
those after it leave its babysteps. -/
theorem tickServesBabystep : Obligations.TickServesBabystep := by
  intro s hno hon
  refine ⟨tick s, rfl, fun hquiet => ?_, fun a hquiet hlive hpending hleast => ?_⟩
  · rw [tick_babyPending hno, tickBeforeBlock, tickBabystep_of_quiet (by simpa using hquiet)]
    simp
  · have hdue := tickBabystep_of_due (s := tickAdvance (tickShaping (tickPulse s))) (a := a)
      (by simpa using hon) (by simpa using hquiet) (by simpa using hlive) (by simpa using hpending)
    have haxis : babyAxis (tickAdvance (tickShaping (tickPulse s))) = some a :=
      babyAxis_eq (by simpa using hlive) (by simpa using hpending) (by simpa using hleast)
    refine ⟨?_, fun hfault => ?_⟩
    · rw [tick_babyPending hno, tickBeforeBlock, hdue]
      simp [babystepIsr_babyPending haxis]
    · rw [tick_nextBaby hno hfault, tickBeforeBlock, hdue]
      simp

end Sys2Proof.Machine
end

section
/-! SUPPORT. PHYSICAL_PULSE, and positions as the sum of the STEP records (41_bresenham.md R135, R136, 10_state.md
R26). -/

namespace Sys2Proof.Machine

/-! ## One pulse (41_bresenham.md R136) -/

/-- A pulse writes its axis's pins, positions and the trace, and nothing else. -/
theorem physicalPulse_frame (a : Axis) (d : Dir) (s : State) : physicalPulse a d s = { s with
    pins := { s.pins with dirOut := (physicalPulse a d s).pins.dirOut, stepOut := (physicalPulse a d s).pins.stepOut }
    bres.countPosition := (physicalPulse a d s).bres.countPosition
    trace := (physicalPulse a d s).trace } := by
  unfold physicalPulse driveDir
  split <;> rfl

/-- STEP_AXIS gives an axis without shaping one pulse (41_bresenham.md R135). -/
theorem stepAxis_of_unshaped {s : State} {a : Axis} (h : (s.cfg.inputShaping && s.cfg.shaped.read a) = false)
    (d : Dir) : stepAxis a d s = physicalPulse a d s := by
  simp [stepAxis, h]

/-- Settles O36: a pulse is the train of one pulse, and writes nothing but what a train does. -/
theorem physicalPulseRule : Obligations.PhysicalPulseRule := by
  intro s a d
  obtain ⟨htrace, hposition, hdir, hstep, -, -⟩ := physicalPulse_pulsed a d s
  refine ⟨_, rfl, ?_, hdir, fun b => ?_, fun b => ?_, physicalPulse_frame a d s, fun h => stepAxis_of_unshaped h d⟩
  · simpa [pulseRecords] using htrace
  · simpa using hstep b
  · simpa using hposition b

/-! ## Positions and STEP records (10_state.md R26) -/

theorem netSteps_append (a : Axis) (l m : List Record) : netSteps a (l ++ m) = netSteps a l + netSteps a m := by
  simp [netSteps_eq, stepsOf_append]

theorem netSteps_pulseRecords (a b : Axis) (now : Nat) (level : Bool) (ds : List Dir) :
    netSteps b (pulseRecords now a level ds) = if a = b then (ds.map Dir.sign).sum else 0 := by
  rw [netSteps_eq, stepsOf_pulseRecords]
  split <;> rfl

/-- `t` has the trace of `s` with records after it, and where none of these is a position sync, the positions of `s`
moved by their net steps. -/
def MovedByRecords (s t : State) : Prop :=
  ∃ added, t.trace = s.trace ++ added ∧
    ((∀ r ∈ added, ∀ v, r.event ≠ .syncOut .position v) →
      ∀ a, t.bres.countPosition.read a = s.bres.countPosition.read a + BitVec.ofInt 32 (netSteps a added))

namespace MovedByRecords

variable {s t u : State}

theorem of_same (htrace : t.trace = s.trace) (hposition : t.bres.countPosition = s.bres.countPosition) :
    MovedByRecords s t :=
  ⟨[], by simp [htrace], fun _ a => by simp [hposition, netSteps]⟩

theorem trans (h : MovedByRecords s t) (k : MovedByRecords t u) : MovedByRecords s u := by
  obtain ⟨l, hl, hs⟩ := h
  obtain ⟨m, hm, ht⟩ := k
  refine ⟨l ++ m, by rw [hm, hl, List.append_assoc], fun hno a => ?_⟩
  rw [ht (fun r hr => hno r (List.mem_append_right l hr)), hs (fun r hr => hno r (List.mem_append_left m hr)),
    netSteps_append, BitVec.ofInt_add, BitVec.add_assoc]

/-- A record of another kind than STEP moves nothing. -/
theorem of_note {e : Event} (he : ∀ a d, e ≠ .step a d) : MovedByRecords s (emit e s) := by
  refine ⟨[⟨s.timer.now, e⟩], rfl, fun _ a => ?_⟩
  have : netSteps a [⟨s.timer.now, e⟩] = 0 := by
    cases e with
    | step b d => exact absurd rfl (he b d)
    | _ => rfl
  simp [this]

theorem of_pulsed {a : Axis} {ds : List Dir} (h : PulsedBy a ds s t) : MovedByRecords s t := by
  refine ⟨_, h.trace, fun _ b => ?_⟩
  rw [h.position, netSteps_pulseRecords]
  by_cases hb : b = a
  · simp [hb]
  · simp [hb, Ne.symm hb]

theorem of_driveDir (a : Axis) (l : Bool) (s : State) : MovedByRecords s (driveDir a l s) := by
  unfold driveDir
  split
  · exact of_same rfl rfl
  · exact (of_same rfl rfl).trans (of_note nofun)

/-- A sync block records a position sync where it writes the positions (44_block_sequencer.md R196). -/
theorem of_applySync (d : Descriptor) (s : State) : MovedByRecords s (applySync d s) := by
  unfold applySync
  split
  · exact ⟨[⟨s.timer.now, .syncOut .position 0⟩], rfl, fun hno => absurd rfl (hno _ (List.mem_singleton_self _) 0)⟩
  · exact of_note nofun
  · exact of_same rfl rfl

/-- The end of a TICK records no more than an overrun (40_isr_scheduler.md R114). -/
theorem of_programTimer (e : Nat) (s : State) : MovedByRecords s (programTimer e s) := by
  by_cases hfit : e + s.cfg.minIsrMargin ≤ selectInterval s
  · refine of_same ?_ (by simp)
    simp [programTimer, overrunCheck_of_fits hfit]
  · refine (of_note (e := .overrun e (selectInterval s)) nofun).trans (of_same ?_ (by simp))
    simp [programTimer, overrunCheck_of_overrun (Nat.not_le.1 hfit)]

end MovedByRecords

/-- The engine moves positions by the records it appends. -/
theorem movedByRecords_pulseKept (s : State) : PulseKept (MovedByRecords s) where
  same h _ hposition htrace _ := h.trans (.of_same htrace hposition)
  pulse u a d h := h.trans (.of_pulsed (physicalPulse_pulsed a d u))
  dir u a l h := h.trans (.of_driveDir a l u)
  note _ _ he _ _ h := h.trans (.of_note he)
  sync u d h := h.trans (.of_applySync d u)

theorem movedByRecords_engineKept (s : State) : EngineKept (MovedByRecords s) :=
  (movedByRecords_pulseKept s).engine fun u e h => h.trans (.of_programTimer e u)

/-- Settles O59: the records an operation appends are unique, and the engine's work moves the positions by them. -/
theorem netStepsMovePosition : Obligations.NetStepsMovePosition := by
  intro s t i added hf hexec htrace hno
  obtain ⟨added', htrace', hmoved⟩ := (movedByRecords_engineKept s).exec
    (fun _ _ h => h.trans (.of_same rfl rfl)) (fun _ h => h.trans (.of_same rfl rfl)) (.inl hf)
    (MovedByRecords.of_same rfl rfl) hexec
  obtain rfl : added' = added := List.append_cancel_left (htrace'.symm.trans htrace)
  exact hmoved hno

end Sys2Proof.Machine
end

section
/-! SUPPORT. PULSE_PHASE: the step events it runs, and the abort it consumes (41_bresenham.md R130, R131). -/

namespace Sys2Proof.Machine

/-! ## Step events (41_bresenham.md R130, R131) -/

theorem pulsePhase_of_no_block {s : State} (habort : s.seq.abortCurrentBlock = false) (hcur : s.seq.current = none) :
    pulsePhase s = s := by
  simp [pulsePhase, habort, hcur]

theorem pulsePhase_of_block {s : State} {b : BlockRec} (habort : s.seq.abortCurrentBlock = false)
    (hcur : s.seq.current = some b) : pulsePhase s =
      runEvents (min (2 ^ s.timer.stepsPerIsrShift) (b.stepEventCount - s.seq.stepEventsCompleted)) s := by
  simp [pulsePhase, habort, hcur]

theorem runEvents_enableLines (n : Nat) (s : State) : (runEvents n s).pins.enableLines = s.pins.enableLines :=
  ((onlyAppends_pulseKept s).runEvents n (.refl s)).enableLines

/-- Settles O32: the events that run are counted, and each leaves the rest of the state alone. -/
theorem pulsePhaseRunsEvents : Obligations.PulsePhaseRunsEvents := by
  intro s hfault habort
  refine ⟨fun hcur => ?_, fun b hcur => ?_⟩
  · rw [exec_pulsePhase hfault, pulsePhase_of_no_block habort hcur]
  · intro n
    refine ⟨_, exec_pulsePhase hfault, pulsePhase_of_block habort hcur, ?_⟩
    rw [pulsePhase_of_block habort hcur, runEvents_seq, runEvents_bres]
    simp only [runEvents_timer, runEvents_bez, runEvents_la, runEvents_babyPending, runEvents_host, runEvents_pq,
      runEvents_env, runEvents_enableLines, and_true]
    exact ⟨rfl, fun hle => by omega⟩

/-! ## The abort (41_bresenham.md R130) -/

/-- SHAPING_FLUSH empties the shaped axes and leaves the others alone (45_aux_pulse.md R238). -/
theorem shapingFlush_read (s : State) (a : Axis) :
    (shapingFlush s).shaping.queue.read a = (if s.cfg.shaped.read a then [] else s.shaping.queue.read a) ∧
      (shapingFlush s).shaping.delta.read a = (if s.cfg.shaped.read a then 0 else s.shaping.delta.read a) := by
  simp [shapingFlush]

/-- DISCARD releases the loaded block and the head of the queue, and stops linear advance (44_block_sequencer.md
R203). -/
theorem discardBlock_eq (b : BlockRec) (s : State) : discardBlock b s = { s with
    seq.current := none
    pq := s.pq.tail
    trace := s.trace ++ [⟨s.timer.now, .discard b.id⟩]
    la := if s.cfg.linAdvance then { s.la with active := false } else s.la
    timer := if s.cfg.linAdvance then { s.timer with nextAdv := none } else s.timer } := by
  unfold discardBlock
  cases hla : s.cfg.linAdvance <;> simp [emit, plannerDiscard]

/-- With no block loaded an abort flushes shaping and reports the positions. -/
theorem consumeAbort_of_no_block {s : State} (hcur : s.seq.current = none) : consumeAbort s = { s with
    seq := { s.seq with current := none, abortCurrentBlock := false }
    shaping := (shapingFlush s).shaping
    trace := s.trace ++ [⟨s.timer.now, .positionResync (positions s)⟩] } := by
  simp [consumeAbort, hcur, emit, shapingFlush, positions]

/-- With a block loaded it is recorded as aborted and discarded first. -/
theorem consumeAbort_of_block {s : State} {b : BlockRec} (hcur : s.seq.current = some b) : consumeAbort s = { s with
    seq := { s.seq with current := none, abortCurrentBlock := false }
    pq := s.pq.tail
    shaping := (shapingFlush s).shaping
    trace := s.trace ++ [⟨s.timer.now, .blockAborted b.id⟩, ⟨s.timer.now, .discard b.id⟩] ++
      [⟨s.timer.now, .positionResync (positions s)⟩]
    la := if s.cfg.linAdvance then { s.la with active := false } else s.la
    timer := if s.cfg.linAdvance then { s.timer with nextAdv := none } else s.timer } := by
  cases hla : s.cfg.linAdvance <;>
    simp [consumeAbort, hcur, discardBlock_eq, emit, shapingFlush, positions, hla]

/-- Settles O33: an abort is consumed with a block loaded or without, and each way names the whole next state. -/
theorem pulsePhaseConsumesAbort : Obligations.PulsePhaseConsumesAbort := by
  intro s hfault habort
  have hexec : exec .pulsePhase s = .next (consumeAbort s) := by simp [exec_pulsePhase hfault, pulsePhase, habort]
  have hshaped : ∀ a, s.cfg.shaped.read a = true →
      (shapingFlush s).shaping.queue.read a = [] ∧ (shapingFlush s).shaping.delta.read a = 0 :=
    fun a ha => by simp [shapingFlush_read, ha]
  have hplain : ∀ a, s.cfg.shaped.read a = false →
      (shapingFlush s).shaping.queue.read a = s.shaping.queue.read a ∧
        (shapingFlush s).shaping.delta.read a = s.shaping.delta.read a :=
    fun a ha => by simp [shapingFlush_read, ha]
  refine ⟨_, hexec, ?_⟩
  cases hcur : s.seq.current with
  | none =>
    rw [consumeAbort_of_no_block hcur]
    exact ⟨rfl, rfl, hshaped, hplain, by simp [positions, Config.liveAxes], by simp, by simp, rfl, rfl, rfl, rfl, rfl,
      rfl, rfl⟩
  | some b =>
    rw [consumeAbort_of_block hcur]
    exact ⟨rfl, rfl, hshaped, hplain, by simp [positions, Config.liveAxes], by simp, by simp, rfl, rfl, rfl, rfl, rfl,
      rfl, rfl⟩

end Sys2Proof.Machine
end

section
/-! SUPPORT. STEP_EVENT, axis by axis (41_bresenham.md R132). -/

namespace Sys2Proof.Machine

/-! ## Which axes step -/

theorem skipsAxis_iff (s : State) (a : Axis) :
    skipsAxis s a = true ↔ s.cfg.linAdvance = true ∧ s.la.active = true ∧ a = s.cfg.eAxis := by
  simp [skipsAxis, and_assoc]

theorem takesStep_iff (s : State) (a : Axis) : takesStep s a = true ↔
    (a.val < s.cfg.numAxes ∧ skipsAxis s a = false) ∧
      0 ≤ s.bres.deltaError.read a + (s.bres.advanceDividend.read a : Int) := by
  simp [takesStep]

theorem eventPulses_of_no_step {s : State} {a : Axis} (h : takesStep s a = false) : eventPulses s a = [] := by
  simp [eventPulses, h]

theorem eventPulses_of_unshaped {s : State} {a : Axis} (h : takesStep s a = true)
    (hplain : (s.cfg.inputShaping && s.cfg.shaped.read a) = false) :
    eventPulses s a = [s.bres.countDirection.read a] := by
  simp [eventPulses, h, hplain]

theorem eventPulses_of_shaped {s : State} {a : Axis} (h : takesStep s a = true)
    (hshaped : (s.cfg.inputShaping && s.cfg.shaped.read a) = true) :
    eventPulses s a = (payOut (s.shaping.delta.read a) (primaryShares s a)).2 := by
  simp [eventPulses, h, hshaped]

/-- An axis the machine does not have takes no step. -/
theorem eventPulses_of_not_live {s : State} {a : Axis} (h : ¬a.val < s.cfg.numAxes) : eventPulses s a = [] :=
  eventPulses_of_no_step (by simp [takesStep, h])

/-! ## The pulses of an event -/

/-- Axes of which `g` makes nothing may be left out of the list. -/
theorem flatMap_filter_of_nil {α β : Type} {p : α → Bool} {g : α → List β} (h : ∀ x, p x = false → g x = [])
    (l : List α) : (l.filter p).flatMap g = l.flatMap g := by
  induction l with
  | nil => rfl
  | cons x l ih =>
    cases hp : p x with
    | true => rw [List.filter_cons_of_pos hp, List.flatMap_cons, List.flatMap_cons, ih]
    | false => rw [List.filter_cons_of_neg (by simp [hp]), List.flatMap_cons, h x hp, List.nil_append, ih]

/-- What the pulses of a step event do to the trace, the positions and the pins (41_bresenham.md R135, R136). -/
theorem stepEvent_pulses (s : State) :
    (stepEvent s).trace = s.trace ++
      allAxes.flatMap (fun a => pulseRecords s.timer.now a (s.pins.dirOut.read a) (eventPulses s a)) ∧
    (∀ a, (stepEvent s).bres.countPosition.read a =
      s.bres.countPosition.read a + BitVec.ofInt 32 ((eventPulses s a).map Dir.sign).sum) ∧
    (∀ a, (stepEvent s).pins.dirOut.read a = levelAfter (s.pins.dirOut.read a) (eventPulses s a)) ∧
    (∀ a, (stepEvent s).pins.stepOut.read a = if eventPulses s a = [] then s.pins.stepOut.read a else false) ∧
    (stepEvent s).pins.enableLines = s.pins.enableLines := by
  obtain ⟨htrace, hposition, hdir, hstep, hlines⟩ :=
    foldl_pulsed (f := stepEventAxis) (D := eventPulses) (P := fun u a => a.val < u.cfg.numAxes)
      (fun u a b h => by simpa using h) (fun _ _ => stepEventAxis_pulsed) (fun u a b h => eventPulses_ne h u)
      s.cfg.liveAxes_nodup s (fun a => (s.cfg.mem_liveAxes a).1)
  have hnil : ∀ a, a ∉ s.cfg.liveAxes → eventPulses s a = [] := fun a ha =>
    eventPulses_of_not_live (mt (s.cfg.mem_liveAxes a).2 ha)
  refine ⟨htrace.trans ?_, fun a => (hposition a).trans ?_, fun a => (hdir a).trans ?_, fun a => (hstep a).trans ?_,
    hlines⟩
  · rw [Config.liveAxes, flatMap_filter_of_nil fun a ha => ?_]
    rw [eventPulses_of_not_live (by simpa using ha)]
    rfl
  · split
    · rfl
    · next ha => simp [hnil a ha]
  · split
    · rfl
    · next ha => rw [hnil a ha]; rfl
  · by_cases ha : a ∈ s.cfg.liveAxes
    · by_cases hno : eventPulses s a = [] <;> simp [ha, hno]
    · simp [ha, hnil a ha]

theorem exec_stepEvent {s : State} (h : s.host.fault = false) : exec .stepEvent s = .next (stepEvent s) := by
  simp [exec, execStepEvent, engineStep_of_no_fault h]

/-- Settles O34: each axis's step decision, accumulator, shares and pulses have their lemma, and the loop over the axes
leaves the rest of the state alone. -/
theorem stepEventByAxis : Obligations.StepEventByAxis := by
  intro s hfault
  obtain ⟨htrace, hposition, hdir, hstep, hlines⟩ := stepEvent_pulses s
  refine ⟨stepEvent s, exec_stepEvent hfault, fun a => ?_, htrace, ?_⟩
  · intro de driven shaped queue
    have hdriven : driven ↔ a.val < s.cfg.numAxes ∧ skipsAxis s a = false := by
      rw [← Bool.not_eq_true, skipsAxis_iff]
    have hshaped : shaped ↔ (s.cfg.inputShaping && s.cfg.shaped.read a) = true := by
      rw [Bool.and_eq_true]
    obtain ⟨hdelta, hqueue⟩ := stepEvent_shaping s a
    refine ⟨by rw [hdriven, takesStep_iff], fun h => ?_, fun h => ?_, fun h hs => ?_, fun h hs => ?_,
      eventPulses_of_no_step, fun h => ?_, hposition a, hdir a, hstep a⟩
    · obtain ⟨hlive, hskip⟩ := hdriven.1 h
      simp [stepEvent_deltaError, hlive, hskip, nextError, de]
    · rw [hdriven, not_and, Bool.not_eq_false] at h
      rw [stepEvent_deltaError]
      split
      · next hlive => simp [nextError, h hlive]
      · rfl
    · exact eventPulses_of_unshaped h (by simpa using mt hshaped.2 hs)
    · rw [hdelta, hqueue, h, hshaped.1 hs, eventPulses_of_shaped h (hshaped.1 hs)]
      exact ⟨rfl, rfl⟩
    · rw [hshaped, ← Bool.and_eq_true, Bool.not_eq_true] at h
      rw [hdelta, hqueue, h]
      exact ⟨rfl, rfl⟩
  · rw [stepEvent_bres]
    simp [hlines]

end Sys2Proof.Machine
end

section
/-! SUPPORT. Bresenham exactness: the accumulator and the steps of an axis after `j` events of a block (41_bresenham.md
R137, R138). -/

namespace Sys2Proof.Machine

/-! ## The count of steps (41_bresenham.md R138) -/

theorem stepsAfter_eq_iff {N : Nat} (hN : 1 ≤ N) (S j k : Nat) :
    stepsAfter S N j = k ↔ 2 * N * k ≤ 2 * S * j + N ∧ 2 * S * j + N < 2 * N * k + 2 * N := by
  rw [stepsAfter, Nat.div_eq_iff (by omega), Nat.mul_comm k]
  omega

theorem stepsAfter_zero {N : Nat} (hN : 1 ≤ N) (S : Nat) : stepsAfter S N 0 = 0 :=
  (stepsAfter_eq_iff hN S 0 0).2 (by omega)

theorem stepsAfter_self {N : Nat} (hN : 1 ≤ N) (S : Nat) : stepsAfter S N N = S := by
  have hcomm : 2 * S * N = 2 * N * S := by ring
  exact (stepsAfter_eq_iff hN S N S).2 (by omega)

/-- The accumulator after `j` events (41_bresenham.md R138). -/
def errorAfter (S N j : Nat) : Int := -(N : Int) + 2 * S * j - 2 * N * stepsAfter S N j

/-- Where the dividend brings the accumulator to 0 the count grows by 1, and else it stays. -/
theorem stepsAfter_succ {S N : Nat} (hN : 1 ≤ N) (hS : S ≤ N) (j : Nat) : stepsAfter S N (j + 1) =
    stepsAfter S N j + if 0 ≤ errorAfter S N j + 2 * (S : Int) then 1 else 0 := by
  obtain ⟨hlo, hhi⟩ := (stepsAfter_eq_iff hN S j _).1 rfl
  rw [stepsAfter_eq_iff hN, Nat.mul_add, Nat.mul_add, errorAfter]
  zify at hlo hhi ⊢
  split <;> omega

/-- The count grows exactly where the accumulator steps. -/
theorem stepsAfter_lt_succ_iff {S N : Nat} (hN : 1 ≤ N) (hS : S ≤ N) (j : Nat) :
    stepsAfter S N j < stepsAfter S N (j + 1) ↔ 0 ≤ errorAfter S N j + 2 * (S : Int) := by
  rw [stepsAfter_succ hN hS]
  split <;> simp [*]

/-- One step event takes the accumulator from one event to the next (41_bresenham.md R132). -/
theorem nextError_errorAfter {S N : Nat} (hN : 1 ≤ N) (hS : S ≤ N) (j : Nat) :
    nextError false (2 * S) (2 * N) (errorAfter S N j) = errorAfter S N (j + 1) := by
  have hsucc := stepsAfter_succ hN hS j
  rw [nextError, if_neg Bool.false_ne_true, Nat.cast_mul, Nat.cast_two]
  split
  · next h => rw [if_pos h] at hsucc; rw [errorAfter, errorAfter, hsucc]; push_cast; ring
  · next h => rw [if_neg h] at hsucc; rw [errorAfter, errorAfter, hsucc]; push_cast; ring

/-! ## The events of a block (41_bresenham.md R130, R133) -/

/-- The last event of `n + 1` runs on the state the others leave. -/
theorem runEvents_succ (n : Nat) (s : State) : runEvents (n + 1) s =
    let t := stepEvent (runEvents n s)
    { t with seq.stepEventsCompleted := t.seq.stepEventsCompleted + 1 } := by
  induction n generalizing s with
  | zero => rfl
  | succ n ih => exact ih _

theorem runEvents_error_succ (n : Nat) (s : State) :
    (runEvents (n + 1) s).bres.deltaError = (stepEvent (runEvents n s)).bres.deltaError := by rw [runEvents_succ]

theorem runEvents_position_succ (n : Nat) (s : State) :
    (runEvents (n + 1) s).bres.countPosition = (stepEvent (runEvents n s)).bres.countPosition := by
  rw [runEvents_succ]

section

variable {s : State} {b : BlockRec} {a : Axis} (hN : 1 ≤ b.stepEventCount) (hS : b.steps.read a ≤ b.stepEventCount)
  (ha : a.val < s.cfg.numAxes) (hskip : skipsAxis s a = false)

/-- No event of a block writes what decides its axis's steps, but for the accumulator. -/
theorem runEvents_init_terms (ha : a.val < s.cfg.numAxes) (j : Nat) :
    let t := runEvents j (bresenhamInit b s)
    t.cfg = s.cfg ∧ skipsAxis t a = skipsAxis s a ∧ t.bres.countDirection = s.bres.countDirection ∧
      t.bres.advanceDividend.read a = 2 * b.steps.read a ∧ t.bres.advanceDivisor = 2 * b.stepEventCount := by
  simp only []
  rw [runEvents_bres]
  simp [skipsAxis, bresenhamInit, ha]

include hN hS ha hskip

/-- The accumulator after `j` events of a block. -/
theorem runEvents_init_error (j : Nat) : (runEvents j (bresenhamInit b s)).bres.deltaError.read a =
    errorAfter (b.steps.read a) b.stepEventCount j := by
  induction j with
  | zero => simp [runEvents, bresenhamInit, ha, errorAfter, stepsAfter_zero hN]
  | succ j ih =>
    obtain ⟨hcfg, hskip', -, hdividend, hdivisor⟩ := runEvents_init_terms (b := b) ha j
    rw [runEvents_error_succ, stepEvent_deltaError, hcfg, if_pos ha, hskip', hskip, hdividend, hdivisor, ih,
      nextError_errorAfter hN hS]

/-- The axis steps at the next event where the dividend brings its accumulator to 0. -/
theorem takesStep_runEvents_init (j : Nat) : takesStep (runEvents j (bresenhamInit b s)) a =
    decide (0 ≤ errorAfter (b.steps.read a) b.stepEventCount j + 2 * (b.steps.read a : Int)) := by
  obtain ⟨hcfg, hskip', -, hdividend, -⟩ := runEvents_init_terms (b := b) ha j
  rw [takesStep, hcfg, hskip', hskip, hdividend, runEvents_init_error hN hS ha hskip]
  simp [ha]

/-- An axis without shaping moves by one at each of its steps. -/
theorem runEvents_init_position (hplain : (s.cfg.inputShaping && s.cfg.shaped.read a) = false) (j : Nat) :
    (runEvents j (bresenhamInit b s)).bres.countPosition.read a = s.bres.countPosition.read a + BitVec.ofInt 32
      ((s.bres.countDirection.read a).sign * (stepsAfter (b.steps.read a) b.stepEventCount j : Int)) := by
  induction j with
  | zero => simp [runEvents, stepsAfter_zero hN]
  | succ j ih =>
    obtain ⟨hcfg, -, hdir, -, -⟩ := runEvents_init_terms (b := b) ha j
    rw [runEvents_position_succ, stepEvent_position _ _ (by rw [hcfg]; exact hplain),
      takesStep_runEvents_init hN hS ha hskip, hdir, ih, stepsAfter_succ hN hS]
    by_cases hstep : 0 ≤ errorAfter (b.steps.read a) b.stepEventCount j + 2 * (b.steps.read a : Int)
    · simp [hstep, wrapStep, mul_add, BitVec.ofInt_add, BitVec.add_assoc]
    · simp [hstep]

end

/-- Settles O35: by induction on the events, with the accumulator's closed form as the invariant. -/
theorem bresenhamExactness : Obligations.BresenhamExactness := by
  intro s b a j hN hS ha hskip N S t
  refine ⟨runEvents_init_error hN hS ha hskip j, ?_, fun hplain => runEvents_init_position hN hS ha hskip hplain j,
    stepsAfter_zero hN S, stepsAfter_self hN S⟩
  exact (takesStep_runEvents_init hN hS ha hskip j).trans (decide_eq_decide.2 (stepsAfter_lt_succ_iff hN hS j).symm)

end Sys2Proof.Machine
end

section
/-! SUPPORT. The velocity profile: the trapezoid's rates in closed form, and the S-curve's reference and draws between
their endpoints and monotone (42_velocity_profile.md R150, R153 to R157). -/

namespace Sys2Proof.Machine

/-! ## The trapezoid (42_velocity_profile.md R150, R153) -/

theorem trapAccelRate_eq (c : Config) (b : BlockRec) (t : Nat) :
    trapAccelRate c b t = min (b.initialRate + b.accelerationRate * t / 2 ^ c.accelFrac) b.nominalRate := by
  rw [trapAccelRate, Nat.shiftRight_eq_div_pow]

/-- The guard of R153 is the truncated subtraction: where the decrement takes it all, `final_rate` is the maximum. -/
theorem trapDecelRate_eq (c : Config) (b : BlockRec) (acc t : Nat) :
    trapDecelRate c b acc t = max (acc - b.accelerationRate * t / 2 ^ c.accelFrac) b.finalRate := by
  rw [trapDecelRate, Nat.shiftRight_eq_div_pow]
  split <;> omega

/-- The change of rate since the phase began grows with the phase time. -/
theorem rateChange_mono (c : Config) (b : BlockRec) {t t' : Nat} (h : t ≤ t') :
    b.accelerationRate * t / 2 ^ c.accelFrac ≤ b.accelerationRate * t' / 2 ^ c.accelFrac := by
  gcongr

/-- Settles O30: both rates in closed form, monotone because the change of rate is. -/
theorem trapezoidRates : Obligations.TrapezoidRates := by
  intro c b acc t
  refine ⟨trapAccelRate_eq c b t, fun _ => trapDecelRate_eq c b acc t, fun h => ?_, fun t' h => ?_⟩
  · rw [trapDecelRate_eq]
    omega
  · have hchange := rateChange_mono c b h
    rw [trapAccelRate_eq, trapAccelRate_eq, trapDecelRate_eq, trapDecelRate_eq]
    omega

/-! ## The curve (42_velocity_profile.md R154) -/

/-- The quintic of R154 without its endpoints, scaled by `D⁵`: 0 at time 0 and `D⁵` at time `D`. -/
def smoothstep (D t : Int) : Int := 10 * t ^ 3 * D ^ 2 - 15 * t ^ 4 * D + 6 * t ^ 5

@[simp] theorem smoothstep_zero (D : Int) : smoothstep D 0 = 0 := by simp [smoothstep]

@[simp] theorem smoothstep_self (D : Int) : smoothstep D D = D ^ 5 := by rw [smoothstep]; ring

/-- With `h` the time between two moments and `k` the time left, the curve's growth has no negative term. -/
theorem smoothstep_add_sub (s h k : Int) : smoothstep (s + h + k) (s + h) - smoothstep (s + h + k) s =
    10 * s ^ 2 * h * (3 * k ^ 2 + 3 * k * h + h ^ 2) + 5 * s * h ^ 2 * (6 * k ^ 2 + 4 * k * h + h ^ 2) +
      h ^ 3 * (10 * k ^ 2 + 5 * k * h + h ^ 2) := by
  rw [smoothstep, smoothstep]; ring

theorem smoothstep_mono {D s t : Int} (hs : 0 ≤ s) (hst : s ≤ t) (htD : t ≤ D) : smoothstep D s ≤ smoothstep D t := by
  obtain ⟨h, hh, rfl⟩ := exists_nonneg_add_of_le hst
  obtain ⟨k, hk, rfl⟩ := exists_nonneg_add_of_le htD
  rw [← sub_nonneg, smoothstep_add_sub]
  positivity

/-! ## The reference (42_velocity_profile.md R156) -/

section

variable (c : Config) (v0 v1 : Nat) (z : Bezier)

@[simp] theorem bezCoeffs_v1 : (bezCoeffs v0 v1 z).v1 = v1 := rfl

theorem bezOne_cast_pow_pos (n : Nat) : (0 : Int) < (bezOne c : Int) ^ n := by
  simp [bezOne]

theorem bezRef_bezCoeffs (τ : Nat) : bezRef c (bezCoeffs v0 v1 z) τ =
    (v0 * (bezOne c : Int) ^ 5 + ((v1 : Int) - v0) * smoothstep (bezOne c) τ) / (bezOne c : Int) ^ 5 := by
  simp only [bezRef, bezCoeffs, smoothstep]
  congr 1
  ring

theorem bezRef_zero : bezRef c (bezCoeffs v0 v1 z) 0 = v0 := by
  rw [bezRef_bezCoeffs, Nat.cast_zero, smoothstep_zero, mul_zero, add_zero,
    Int.mul_ediv_cancel _ (bezOne_cast_pow_pos c 5).ne']

theorem bezRef_bezOne : bezRef c (bezCoeffs v0 v1 z) (bezOne c) = v1 := by
  rw [bezRef_bezCoeffs, smoothstep_self, ← add_mul, add_sub_cancel,
    Int.mul_ediv_cancel _ (bezOne_cast_pow_pos c 5).ne']

variable {c v0 v1} {s t : Nat}

theorem bezRef_mono (hv : v0 ≤ v1) (hst : s ≤ t) (ht : t ≤ bezOne c) :
    bezRef c (bezCoeffs v0 v1 z) s ≤ bezRef c (bezCoeffs v0 v1 z) t := by
  have hcurve : smoothstep (bezOne c) s ≤ smoothstep (bezOne c) t := smoothstep_mono (by omega) (by omega) (by omega)
  rw [bezRef_bezCoeffs, bezRef_bezCoeffs]
  exact Int.ediv_le_ediv (bezOne_cast_pow_pos c 5)
    (add_le_add_right (mul_le_mul_of_nonneg_left hcurve (by omega)) _)

theorem bezRef_anti (hv : v1 ≤ v0) (hst : s ≤ t) (ht : t ≤ bezOne c) :
    bezRef c (bezCoeffs v0 v1 z) t ≤ bezRef c (bezCoeffs v0 v1 z) s := by
  have hcurve : smoothstep (bezOne c) s ≤ smoothstep (bezOne c) t := smoothstep_mono (by omega) (by omega) (by omega)
  rw [bezRef_bezCoeffs, bezRef_bezCoeffs]
  exact Int.ediv_le_ediv (bezOne_cast_pow_pos c 5)
    (add_le_add_right (mul_le_mul_of_nonpos_left hcurve (by omega)) _)

/-- The reference is monotone between its values at the ends of the phase. -/
theorem bezRef_between (ht : t ≤ bezOne c) : (min v0 v1 : Nat) ≤ bezRef c (bezCoeffs v0 v1 z) t ∧
    bezRef c (bezCoeffs v0 v1 z) t ≤ (max v0 v1 : Nat) := by
  have hzero := bezRef_zero c v0 v1 z
  have hone := bezRef_bezOne c v0 v1 z
  rcases le_total v0 v1 with hv | hv
  · have hlo := bezRef_mono z hv (Nat.zero_le t) ht
    have hhi := bezRef_mono z hv ht le_rfl
    omega
  · have hhi := bezRef_anti z hv (Nat.zero_le t) ht
    have hlo := bezRef_anti z hv ht le_rfl
    omega

/-! ## The draws (42_velocity_profile.md R157) -/

/-- The set R157 draws from: within BEZIER_TOL of the reference, and between the endpoints. -/
structure BezDrawn (c : Config) (z : Bezier) (τ : Nat) (x : Int) : Prop where
  min_le : (min z.v0 z.v1 : Nat) ≤ x
  le_max : x ≤ (max z.v0 z.v1 : Nat)
  ref_le : bezRef c z τ ≤ x + c.bezierTol
  le_ref : x ≤ bezRef c z τ + c.bezierTol

theorem bezDrawn_bezRef (ht : t ≤ bezOne c) : BezDrawn c (bezCoeffs v0 v1 z) t (bezRef c (bezCoeffs v0 v1 z) t) := by
  obtain ⟨hmin, hmax⟩ := bezRef_between (v0 := v0) (v1 := v1) z ht
  exact ⟨hmin, hmax, by omega, by omega⟩

theorem bezDrawn_bezAdmit (ht : t ≤ bezOne c) (x : Int) :
    BezDrawn c (bezCoeffs v0 v1 z) t (bezAdmit c (bezCoeffs v0 v1 z) t x) := by
  obtain ⟨hlo, hhi, -, -⟩ := bezDrawn_bezRef (v0 := v0) (v1 := v1) z ht
  constructor <;> rw [bezAdmit] <;> omega

/-- A running maximum stays in the set while the reference rises. -/
theorem BezDrawn.max {z : Bezier} {x y : Int} (hx : BezDrawn c z s x) (hy : BezDrawn c z t y)
    (href : bezRef c z s ≤ bezRef c z t) : BezDrawn c z t (max x y) := by
  obtain ⟨-, hxmax, -, hxref⟩ := hx
  obtain ⟨hmin, hmax, hlo, hhi⟩ := hy
  constructor <;> omega

/-- A running minimum stays in the set while the reference falls. -/
theorem BezDrawn.min {z : Bezier} {x y : Int} (hx : BezDrawn c z s x) (hy : BezDrawn c z t y)
    (href : bezRef c z t ≤ bezRef c z s) : BezDrawn c z t (min x y) := by
  obtain ⟨hxmin, -, hxref, -⟩ := hx
  obtain ⟨hmin, hmax, hlo, hhi⟩ := hy
  constructor <;> omega

/-- `V0` is in the set at time 0. -/
theorem bezDrawn_zero (c : Config) (v0 v1 : Nat) (z : Bezier) : BezDrawn c (bezCoeffs v0 v1 z) 0 v0 := by
  simpa only [bezRef_zero] using bezDrawn_bezRef (v0 := v0) (v1 := v1) z (Nat.zero_le (bezOne c))

theorem bezDrawn_bezRise (hv : v0 ≤ v1) :
    ∀ {t : Nat}, t ≤ bezOne c → BezDrawn c (bezCoeffs v0 v1 z) t (bezRise c (bezCoeffs v0 v1 z) t)
  | 0, _ => bezDrawn_zero c v0 v1 z
  | t + 1, ht => (bezDrawn_bezRise hv (Nat.le_of_succ_le ht)).max (bezDrawn_bezAdmit z ht _)
      (bezRef_mono z hv t.le_succ ht)

theorem bezDrawn_bezFall (hv : v1 ≤ v0) :
    ∀ {t : Nat}, t ≤ bezOne c → BezDrawn c (bezCoeffs v0 v1 z) t (bezFall c (bezCoeffs v0 v1 z) t)
  | 0, _ => bezDrawn_zero c v0 v1 z
  | t + 1, ht => (bezDrawn_bezFall hv (Nat.le_of_succ_le ht)).min (bezDrawn_bezAdmit z ht _)
      (bezRef_anti z hv t.le_succ ht)

theorem bezRise_monotone (c : Config) (z : Bezier) : Monotone (bezRise c z) :=
  monotone_nat_of_le_succ fun _ => le_max_left _ _

theorem bezFall_antitone (c : Config) (z : Bezier) : Antitone (bezFall c z) :=
  antitone_nat_of_succ_le fun _ => min_le_left _ _

/-! ## The draw of the evaluator -/

/-- What BEZ_EVAL draws before the endpoint (42_velocity_profile.md R157). -/
def bezDraw (c : Config) (z : Bezier) (τ : Nat) : Int :=
  if c.bezierTol = 0 then bezRef c z τ else if z.v0 ≤ z.v1 then bezRise c z τ else bezFall c z τ

theorem bezDraw_zero (c : Config) (v0 v1 : Nat) (z : Bezier) : bezDraw c (bezCoeffs v0 v1 z) 0 = v0 := by
  rw [bezDraw]
  split_ifs
  · exact bezRef_zero c v0 v1 z
  · rfl
  · rfl

theorem bezDraw_of_le (hv : v0 ≤ v1) : bezDraw c (bezCoeffs v0 v1 z) t =
    if c.bezierTol = 0 then bezRef c (bezCoeffs v0 v1 z) t else bezRise c (bezCoeffs v0 v1 z) t := by
  rw [bezDraw, if_pos (show (bezCoeffs v0 v1 z).v0 ≤ (bezCoeffs v0 v1 z).v1 from hv)]

theorem bezDraw_of_lt (hv : v1 < v0) : bezDraw c (bezCoeffs v0 v1 z) t =
    if c.bezierTol = 0 then bezRef c (bezCoeffs v0 v1 z) t else bezFall c (bezCoeffs v0 v1 z) t := by
  rw [bezDraw, if_neg (show ¬ (bezCoeffs v0 v1 z).v0 ≤ (bezCoeffs v0 v1 z).v1 from hv.not_ge)]

theorem bezDrawn_bezDraw (ht : t ≤ bezOne c) :
    BezDrawn c (bezCoeffs v0 v1 z) t (bezDraw c (bezCoeffs v0 v1 z) t) := by
  rcases le_or_gt v0 v1 with hv | hv
  · rw [bezDraw_of_le z hv]
    split
    · exact bezDrawn_bezRef z ht
    · exact bezDrawn_bezRise z hv ht
  · rw [bezDraw_of_lt z hv]
    split
    · exact bezDrawn_bezRef z ht
    · exact bezDrawn_bezFall z hv.le ht

theorem bezDraw_mono (hv : v0 ≤ v1) (hst : s ≤ t) (ht : t ≤ bezOne c) :
    bezDraw c (bezCoeffs v0 v1 z) s ≤ bezDraw c (bezCoeffs v0 v1 z) t := by
  rw [bezDraw_of_le z hv, bezDraw_of_le z hv]
  split
  · exact bezRef_mono z hv hst ht
  · exact bezRise_monotone _ _ hst

theorem bezDraw_anti (hv : v1 < v0) (hst : s ≤ t) (ht : t ≤ bezOne c) :
    bezDraw c (bezCoeffs v0 v1 z) t ≤ bezDraw c (bezCoeffs v0 v1 z) s := by
  rw [bezDraw_of_lt z hv, bezDraw_of_lt z hv]
  split
  · exact bezRef_anti z hv.le hst ht
  · exact bezFall_antitone _ _ hst

end

/-! ## The evaluator (42_velocity_profile.md R157) -/

theorem bezEval_of_le {c : Config} {z : Bezier} {elapsed inverse : Nat} (h : bezOne c ≤ elapsed * inverse) :
    bezEval c z elapsed inverse = z.v1 := if_pos h

theorem bezEval_of_lt {c : Config} {z : Bezier} {elapsed inverse : Nat} (h : elapsed * inverse < bezOne c) :
    bezEval c z elapsed inverse = (bezDraw c z (elapsed * inverse)).toNat := by
  rw [bezEval, if_neg h.not_ge, bezDraw]
  split_ifs <;> rfl

/-- The draw is not negative, so the evaluator returns it unchanged. -/
theorem bezEval_cast_of_lt {c : Config} {v0 v1 elapsed inverse : Nat} {z : Bezier}
    (h : elapsed * inverse < bezOne c) : (bezEval c (bezCoeffs v0 v1 z) elapsed inverse : Int) =
      bezDraw c (bezCoeffs v0 v1 z) (elapsed * inverse) := by
  have hmin := (bezDrawn_bezDraw (v0 := v0) (v1 := v1) z h.le).min_le
  rw [bezEval_of_lt h, Int.toNat_of_nonneg (by omega)]

@[simp] theorem bezRise_secondHalf (c : Config) (z : Bezier) (b : Bool) (τ : Nat) :
    bezRise c { z with secondHalf := b } τ = bezRise c z τ := by
  induction τ with
  | zero => rfl
  | succ τ ih => rw [bezRise, bezRise, ih]; rfl

@[simp] theorem bezFall_secondHalf (c : Config) (z : Bezier) (b : Bool) (τ : Nat) :
    bezFall c { z with secondHalf := b } τ = bezFall c z τ := by
  induction τ with
  | zero => rfl
  | succ τ ih => rw [bezFall, bezFall, ih]; rfl

/-- The evaluator does not look at `bezier_2nd_half`. -/
@[simp] theorem bezEval_secondHalf (c : Config) (z : Bezier) (b : Bool) (elapsed inverse : Nat) :
    bezEval c { z with secondHalf := b } elapsed inverse = bezEval c z elapsed inverse := by
  simp only [bezEval, bezRise_secondHalf, bezFall_secondHalf]
  rfl

/-- Law 1 of R157: the value is a function of the phase time and the endpoints alone. -/
theorem bezEval_congr (c : Config) (v0 v1 : Nat) (z z' : Bezier) {elapsed inverse elapsed' inverse' : Nat}
    (h : elapsed' * inverse' = elapsed * inverse) :
    bezEval c (bezCoeffs v0 v1 z') elapsed' inverse' = bezEval c (bezCoeffs v0 v1 z) elapsed inverse := by
  rw [show bezCoeffs v0 v1 z' = { bezCoeffs v0 v1 z with secondHalf := z'.secondHalf } from rfl, bezEval_secondHalf]
  rw [bezEval, bezEval, h]

/-- Law 3 of R157. -/
theorem bezEval_zero (c : Config) (v0 v1 : Nat) (z : Bezier) (inverse : Nat) :
    bezEval c (bezCoeffs v0 v1 z) 0 inverse = v0 := by
  have hpos : 0 * inverse < bezOne c := by simp [bezOne]
  rw [bezEval_of_lt hpos, zero_mul, bezDraw_zero, Int.toNat_natCast]

theorem bezEval_between (c : Config) (v0 v1 : Nat) (z : Bezier) (elapsed inverse : Nat) :
    min v0 v1 ≤ bezEval c (bezCoeffs v0 v1 z) elapsed inverse ∧
      bezEval c (bezCoeffs v0 v1 z) elapsed inverse ≤ max v0 v1 := by
  rcases le_or_gt (bezOne c) (elapsed * inverse) with h | h
  · rw [bezEval_of_le h, bezCoeffs_v1]
    omega
  · obtain ⟨hmin, hmax, -, -⟩ := bezDrawn_bezDraw (v0 := v0) (v1 := v1) z h.le
    rw [← bezEval_cast_of_lt h] at hmin hmax
    exact ⟨Int.ofNat_le.1 hmin, Int.ofNat_le.1 hmax⟩

/-- Before the endpoint the value is within BEZIER_TOL of the reference. -/
theorem bezEval_near_bezRef {c : Config} {v0 v1 elapsed inverse : Nat} {z : Bezier}
    (h : elapsed * inverse < bezOne c) : ((bezEval c (bezCoeffs v0 v1 z) elapsed inverse : Int) -
      bezRef c (bezCoeffs v0 v1 z) (elapsed * inverse)).natAbs ≤ c.bezierTol := by
  obtain ⟨-, -, hlo, hhi⟩ := bezDrawn_bezDraw (v0 := v0) (v1 := v1) z h.le
  rw [bezEval_cast_of_lt h]
  omega

section

variable {c : Config} {v0 v1 elapsed inverse elapsed' inverse' : Nat} (z : Bezier)
  (hτ : elapsed * inverse ≤ elapsed' * inverse')
include hτ

/-- Law 2 of R157, also where the later phase time is past the endpoint. -/
theorem bezEval_mono (hv : v0 ≤ v1) :
    bezEval c (bezCoeffs v0 v1 z) elapsed inverse ≤ bezEval c (bezCoeffs v0 v1 z) elapsed' inverse' := by
  rcases le_or_gt (bezOne c) (elapsed' * inverse') with h | h
  · rw [bezEval_of_le h, bezCoeffs_v1]
    exact (bezEval_between c v0 v1 z elapsed inverse).2.trans_eq (max_eq_right hv)
  · zify
    rw [bezEval_cast_of_lt h, bezEval_cast_of_lt (hτ.trans_lt h)]
    exact bezDraw_mono z hv hτ h.le

/-- Law 2 of R157 for a phase that slows down. -/
theorem bezEval_anti (hv : v1 < v0) :
    bezEval c (bezCoeffs v0 v1 z) elapsed' inverse' ≤ bezEval c (bezCoeffs v0 v1 z) elapsed inverse := by
  rcases le_or_gt (bezOne c) (elapsed' * inverse') with h | h
  · rw [bezEval_of_le h, bezCoeffs_v1]
    exact (min_eq_right hv.le).symm.trans_le (bezEval_between c v0 v1 z elapsed inverse).1
  · zify
    rw [bezEval_cast_of_lt h, bezEval_cast_of_lt (hτ.trans_lt h)]
    exact bezDraw_anti z hv hτ h.le

end

/-- Settles O31: the reference is monotone between the endpoints, so each running draw stays in the set of R157. -/
theorem bezierLaws : Obligations.BezierLaws := by
  intro c v0 v1 z0 elapsed inverse z τ v
  refine ⟨bezEval_of_le, fun h => ?_, bezEval_zero c v0 v1 z0 inverse,
    fun z1 _ _ hτ => bezEval_congr c v0 v1 z0 z1 hτ, fun _ _ hτ => ⟨bezEval_mono z0 hτ, bezEval_anti z0 hτ⟩⟩
  obtain ⟨hv0, hv1⟩ := bezEval_between c v0 v1 z0 elapsed inverse
  obtain ⟨hmin, hmax⟩ := bezRef_between (v0 := v0) (v1 := v1) z0 (le_of_lt h)
  refine ⟨hv0, hv1, ?_, hmin, hmax, bezEval_near_bezRef h⟩
  rw [bezRef_bezCoeffs, smoothstep, bezOne, Nat.cast_pow, Nat.cast_two]
  congr 1
  ring

end Sys2Proof.Machine
end

section
/-! SUPPORT. The interval calculator: BASE_INTERVAL, the round trip to a rate, the multi-step search and oversampling
(43_timer_interval.md R170, R172, R175, R176). -/

namespace Sys2Proof.Machine

/-! ## BASE_INTERVAL (43_timer_interval.md R170) -/

theorem baseInterval_of_stopped {c : Config} {r : Nat} (h : r = 0 ∨ r < c.minStepRate) :
    baseInterval c r = c.maxInterval := if_pos h

theorem baseInterval_of_moving {c : Config} {r : Nat} (h0 : r ≠ 0) (hfloor : c.minStepRate ≤ r) :
    baseInterval c r = max 1 (min (c.timerRate / r) c.maxInterval) := if_neg (by omega)

theorem baseInterval_bounds {c : Config} (h : c.legal = true) (r : Nat) :
    1 ≤ baseInterval c r ∧ baseInterval c r ≤ c.maxInterval := by
  have hmax := Config.legal_maxInterval_pos h
  unfold baseInterval
  split <;> omega

/-- A stopped rate has the longest interval; above the floor the quotient falls as the rate grows. -/
theorem baseInterval_antitone {c : Config} (h : c.legal = true) : Antitone (baseInterval c) := by
  intro r r' hle
  by_cases hstop : r = 0 ∨ r < c.minStepRate
  · rw [baseInterval_of_stopped hstop]
    exact (baseInterval_bounds h r').2
  · have hdiv : c.timerRate / r' ≤ c.timerRate / r := Nat.div_le_div_left hle (by omega)
    rw [baseInterval_of_moving (r := r) (by omega) (by omega),
      baseInterval_of_moving (r := r') (by omega) (by omega)]
    omega

/-- Settles O26, by the two branches of BASE_INTERVAL. -/
theorem baseIntervalRule : Obligations.BaseIntervalRule := fun _ r =>
  ⟨baseInterval_of_stopped, baseInterval_of_moving, fun h =>
    ⟨(baseInterval_bounds h r).1, (baseInterval_bounds h r).2, fun _ hle => baseInterval_antitone h hle⟩⟩

/-! ## From an interval to a rate and back (43_timer_interval.md R175) -/

/-- With `x (x + 1) ≤ t` the rate is above `x`, so the remainder of `t / x` is below the rate and is lost again. -/
theorem div_div_eq_of_mul_succ_le {t x : Nat} (hx : 1 ≤ x) (h : x * (x + 1) ≤ t) : t / (t / x) = x := by
  have hrate : x + 1 ≤ t / x := (Nat.le_div_iff_mul_le hx).2 (by rwa [mul_comm])
  have hmod : t % x < x := Nat.mod_lt t hx
  have hdecomp : x * (t / x) + t % x = t := Nat.div_add_mod t x
  refine Nat.div_eq_of_lt_le (by omega) ?_
  rw [Nat.succ_mul]
  omega

/-- In the supported range the round trip is exact. -/
theorem baseInterval_rateOf {c : Config} {x : Nat} (hx : 1 ≤ x) (hmax : x ≤ c.maxInterval)
    (hrange : x * (x + 1) ≤ c.timerRate) (hfloor : c.minStepRate ≤ rateOf c x) :
    baseInterval c (rateOf c x) = x := by
  have hpos : rateOf c x ≠ 0 := by
    have : x ≤ c.timerRate := (Nat.le_mul_of_pos_right x x.succ_pos).trans hrange
    exact (Nat.div_pos this hx).ne'
  rw [baseInterval_of_moving hpos hfloor, rateOf, div_div_eq_of_mul_succ_le hx hrange]
  omega

/-- Settles O28: in the supported range the interval comes back exactly. -/
theorem intervalRoundTrip : Obligations.IntervalRoundTrip := by
  refine ⟨fun c x hx hmax hrange hfloor => ?_, by decide, by decide⟩
  rw [baseInterval_rateOf hx hmax hrange hfloor]
  omega

/-! ## The two searches (43_timer_interval.md R172, R176) -/

/-- A search upward from `start` ends at `k`: `p` holds nowhere before it, and `k` is the ceiling `last` or `p` holds
there. -/
structure FirstOrLast (p : Nat → Prop) (start last k : Nat) : Prop where
  not_before : ∀ j, start ≤ j → j < k → ¬ p j
  stops : k = last ∨ p k

namespace FirstOrLast

variable {p : Nat → Prop} {start last k : Nat}

theorem self (h : start = last ∨ p start) : FirstOrLast p start last start :=
  ⟨fun _ hge hlt => absurd hlt hge.not_gt, h⟩

theorem of_succ (hstart : ¬ p start) (h : FirstOrLast p (start + 1) last k) : FirstOrLast p start last k := by
  refine ⟨fun j hge hlt => ?_, h.stops⟩
  rcases hge.eq_or_lt with rfl | hgt
  · exact hstart
  · exact h.not_before j hgt hlt

end FirstOrLast

/-- The search of R172 stops at the first shift that brings the rate under the limit. -/
theorem multiStepShift_firstOrLast (limit r fuel k : Nat) :
    FirstOrLast (fun j => r / 2 ^ j ≤ limit) k (k + fuel) (multiStepShift limit r fuel k) := by
  induction fuel generalizing k with
  | zero => exact .self (.inl rfl)
  | succ fuel ih =>
    rw [multiStepShift, Nat.shiftRight_eq_div_pow]
    split
    case isTrue h => exact .of_succ h.not_ge (Nat.add_right_comm k 1 fuel ▸ ih (k + 1))
    case isFalse h => exact .self (.inr (not_lt.1 h))

/-- The search of R176, entered with the rate already doubled `o` times, stops at the first shift that brings the rate
to the floor. -/
theorem oversampleSearch_firstOrLast (floorRate r fuel o : Nat) :
    FirstOrLast (fun j => floorRate ≤ r * 2 ^ j) o (o + fuel) (oversampleSearch floorRate fuel o (r * 2 ^ o)) := by
  induction fuel generalizing o with
  | zero => exact .self (.inl rfl)
  | succ fuel ih =>
    have hdouble : (r * 2 ^ o) <<< 1 = r * 2 ^ (o + 1) := by rw [Nat.shiftLeft_eq, pow_one, mul_assoc, pow_succ]
    rw [oversampleSearch, hdouble]
    split
    case isTrue h => exact .of_succ h.not_ge (Nat.add_right_comm o 1 fuel ▸ ih (o + 1))
    case isFalse h => exact .self (.inr (not_lt.1 h))

/-! ## CALC_TIMER_INTERVAL (43_timer_interval.md R172) -/

/-- Settles O27: the shift is the one where the multi-step search stops. -/
theorem calcTimerIntervalLeastShift : Obligations.CalcTimerIntervalLeastShift := by
  intro s r
  obtain ⟨hbefore, hstops⟩ := multiStepShift_firstOrLast s.cfg.maxStepIsrRate r s.cfg.maxMultistepShift 0
  rw [zero_add] at hstops
  refine ⟨multiStepShift s.cfg.maxStepIsrRate r s.cfg.maxMultistepShift 0, multiStepShift_le _ r _ 0,
    fun j hj => not_le.1 (hbefore j j.zero_le hj), hstops, ?_⟩
  rw [calcTimerInterval, isrShift, Nat.shiftRight_eq_div_pow]

/-! ## Oversampling (43_timer_interval.md R176) -/

theorem oversamplingShift_of_not_adaptive {c : Config} (h : c.adaptiveSmoothing = false) (r : Nat) :
    oversamplingShift c r = 0 := by
  rw [oversamplingShift, h]
  rfl

theorem oversamplingShift_firstOrLast {c : Config} (h : c.adaptiveSmoothing = true) (r : Nat) :
    FirstOrLast (fun j => c.smoothMinIsrRate ≤ r * 2 ^ j) 0 c.maxOversampling (oversamplingShift c r) := by
  rw [oversamplingShift, if_pos h]
  simpa using oversampleSearch_firstOrLast c.smoothMinIsrRate r c.maxOversampling 0

/-- Settles O29: the shift is the one where the doubling search stops, and shifting by `o` multiplies by `2 ^ o`. -/
theorem oversamplingRule : Obligations.OversamplingRule := by
  refine ⟨fun c r h => oversamplingShift_of_not_adaptive h r, fun c r h => ?_, fun o b => ?_⟩
  · obtain ⟨hbefore, hstops⟩ := oversamplingShift_firstOrLast h r
    exact ⟨oversamplingShift_le c r, fun j hj => not_le.1 (hbefore j j.zero_le hj), hstops⟩
  · simp only [applyOversampling, Nat.shiftLeft_eq]

end Sys2Proof.Machine
end

section
/-! SUPPORT. The block sequencer around LOAD: VALID's conditions, LOAD_NEXT on the head of the queue, and BLOCK_PHASE
with a block loaded (44_block_sequencer.md R190 to R203). -/

namespace Sys2Proof.Machine

/-! ## VALID, condition by condition (44_block_sequencer.md R198) -/

theorem validFlags_iff (d : Descriptor) : validFlags d = true ↔
    d.words[1].toNat / 256 = 0 ∧ d.words[1].toNat / 4 % 4 = 0 ∧ ¬(d.isSync = true ∧ d.isPage = true) := by
  cases h : d.isSync <;> simp [validFlags, Descriptor.flags, h, and_assoc]

theorem validKind_iff (d : Descriptor) : validKind d = true ↔
    (d.isSync = true → d.kindBits ≤ 2) ∧ (d.isSync = false → d.kindBits = 0) := by
  cases h : d.isSync <;> simp [validKind, h]

theorem validReserved_iff (d : Descriptor) : validReserved d = true ↔ d.num 2 / 256 = 0 ∧ d.num 13 / 256 = 0 := by
  simp [validReserved]

theorem validSteps_iff (c : Config) (d : Descriptor) : validSteps c d.block = true ↔
    ∀ a : Axis, a.val < c.numAxes → (d.axisWord a).toNat ≤ d.num 3 := by
  simp [validSteps, Descriptor.block]

theorem validPhases_iff (d : Descriptor) : validPhases d.block = true ↔ d.num 4 ≤ d.num 5 ∧ d.num 5 ≤ d.num 3 := by
  simp only [validPhases, Bool.and_eq_true, decide_eq_true_eq]; rfl

/-- Conditions 6 and 7, the shift written as the multiplication it is. -/
theorem validShifted_iff (o : Nat) (d : Descriptor) : validShifted (applyOversampling o d.block) = true ↔
    d.num 3 * 2 ^ o ≤ 2 ^ 30 - 1 ∧ ∀ k ∈ ([3, 4, 5, 6, 7, 8, 9, 12] : List (Fin 25)), d.num k * 2 ^ o < 2 ^ 32 := by
  simp [validShifted, applyOversampling, Descriptor.block, Nat.shiftLeft_eq, and_assoc]

theorem validAdvance_iff (c : Config) (o : Nat) (d : Descriptor) : validAdvance c o d.block = true ↔
    (c.linAdvance = true → d.num 12 ≠ 0 → d.num 13 % 256 ≤ 31 ∧
      2 * (d.axisWord c.eAxis).toNat * 2 ^ (d.num 13 % 256) ≤ 2 * (d.num 3 * 2 ^ o)) := by
  have hsteps : d.block.steps.read c.eAxis = (d.axisWord c.eAxis).toNat := PerAxis.read_build _ _
  simp only [validAdvance, Bool.or_eq_true, Bool.not_eq_true', ← Bool.not_eq_true, beq_iff_eq, Bool.and_eq_true,
    decide_eq_true_eq, hsteps, Nat.shiftLeft_eq, or_iff_not_imp_left, Classical.not_imp, and_imp, not_not]
  rfl

/-- VALID is the conjunction of its conditions; those on a motion block are asked where SYNC is 0. -/
theorem valid_iff (c : Config) (d : Descriptor) : valid c d = true ↔
    validFlags d = true ∧ validKind d = true ∧ validReserved d = true ∧
      (d.isSync = false → validSteps c d.block = true ∧ validPhases d.block = true ∧
        validShifted (applyOversampling (oversamplingShift c d.block.nominalRate) d.block) = true) ∧
      validAdvance c (oversamplingShift c d.block.nominalRate) d.block = true := by
  cases h : d.isSync <;> simp [valid, h, and_assoc]

/-- Settles O44, condition by condition. -/
theorem validConditions : Obligations.ValidConditions := by
  intro c d w sync page kind N o
  rw [valid_iff, validFlags_iff, validKind_iff, validReserved_iff, validSteps_iff, validPhases_iff, validShifted_iff,
    validAdvance_iff, and_assoc (a := d.isSync = true → d.kindBits ≤ 2)]
  rfl

/-- The kind of a valid sync block is one of the three R90 names. -/
theorem kindBits_le_of_valid {c : Config} {d : Descriptor} (hv : valid c d = true) (hs : d.isSync = true) :
    d.kindBits ≤ 2 := by
  obtain ⟨-, hkind, -⟩ := (valid_iff c d).1 hv
  exact ((validKind_iff d).1 hkind).1 hs

/-! ## LOAD_NEXT on the head of the queue (44_block_sequencer.md R194) -/

theorem blockPhase_of_no_block {s : State} (hcur : s.seq.current = none) : blockPhase s = loadFrom s.pq s := by
  simp [blockPhase, loadNext, hcur]

section
variable {s : State} {d : Descriptor} {rest : List Descriptor} (hcur : s.seq.current = none)
include hcur

theorem blockPhase_of_empty (hpq : s.pq = []) : blockPhase s = (s, s.cfg.idleInterval) := by
  rw [blockPhase_of_no_block hcur, hpq, loadFrom]

theorem blockPhase_of_page (hpq : s.pq = d :: rest) (hpage : d.isPage = true) (hsync : d.isSync = false) :
    blockPhase s = (raiseFault .pageBlock s, 0) := by
  rw [blockPhase_of_no_block hcur, hpq, loadFrom, if_pos (by simp [hpage, hsync])]

theorem blockPhase_of_invalid (hpq : s.pq = d :: rest) (hpage : ¬(d.isPage = true ∧ d.isSync = false))
    (hv : valid s.cfg d = false) : blockPhase s = (raiseFault .invalidBlock s, 0) := by
  rw [blockPhase_of_no_block hcur, hpq, loadFrom, if_neg (by simpa using hpage), if_pos (by simp [hv])]

/-- A valid sync block is applied and discarded, and the loop goes on with the rest of the queue. -/
theorem blockPhase_of_sync (hpq : s.pq = d :: rest) (hsync : d.isSync = true) (hv : valid s.cfg d = true) :
    blockPhase s = blockPhase (emit (.discard d.block.id) (plannerDiscard (applySync d s))) := by
  rw [blockPhase_of_no_block hcur, hpq, loadFrom, if_neg (by simp [hsync]), if_neg (by simp [hv]), if_pos hsync,
    blockPhase_of_no_block (by simpa using hcur)]
  simp [hpq]

end

/-- Settles O45: LOAD_NEXT ends at once at an empty queue, a page block and an invalid block. -/
theorem blockPhaseWithoutMotion : Obligations.BlockPhaseWithoutMotion := by
  intro s hfault hcur
  rw [exec_blockPhase hfault]
  refine ⟨fun hpq => ?_, fun d rest hpq => ⟨fun hpage hsync => ?_, fun hpage hv => ?_⟩⟩
  · rw [blockPhase_of_empty hcur hpq]; rfl
  · rw [blockPhase_of_page hcur hpq hpage hsync]; rfl
  · rw [blockPhase_of_invalid hcur hpq hpage hv]; rfl

/-! ## Going on with another state (44_block_sequencer.md R193, R194) -/

/-- Where BLOCK_PHASE goes on as from another state, the operation does. -/
theorem exec_blockPhase_congr {s t : State} (hs : s.host.fault = false) (ht : t.host.fault = false)
    (h : blockPhase s = blockPhase t) : exec .blockPhase s = exec .blockPhase t := by
  rw [exec_blockPhase hs, exec_blockPhase ht, h]

/-- The event APPLY_SYNC records, by SYNC_KIND (44_block_sequencer.md R196). -/
def syncEvent (d : Descriptor) : Event :=
  if d.kindBits = 0 then .syncOut .position 0
  else if d.kindBits = 1 then .syncOut .fan d.words[24] else .syncOut .laserPower d.words[24]

/-- APPLY_SYNC changes the positions and records its event. -/
theorem applySync_eq {d : Descriptor} (hkind : d.kindBits ≤ 2) (s : State) : applySync d s = { s with
    bres.countPosition := (applySync d s).bres.countPosition
    trace := s.trace ++ [⟨s.timer.now, syncEvent d⟩] } := by
  obtain h | h | h : d.kindBits = 0 ∨ d.kindBits = 1 ∨ d.kindBits = 2 := by omega
  all_goals simp only [applySync, syncEvent, h]; rfl

/-- A position sync writes the existing axes; the other kinds write no position. -/
theorem applySync_position_read {d : Descriptor} (hkind : d.kindBits ≤ 2) (s : State) (a : Axis) :
    (applySync d s).bres.countPosition.read a =
      if d.kindBits = 0 ∧ a.val < s.cfg.numAxes then d.axisWord a else s.bres.countPosition.read a := by
  obtain h | h | h : d.kindBits = 0 ∨ d.kindBits = 1 ∨ d.kindBits = 2 := by omega
  all_goals simp [applySync, h, SyncKind.ofCode, emit, Descriptor.block]

/-- Settles O47: the state LOAD_NEXT's loop goes on from, its positions being those APPLY_SYNC leaves. -/
theorem blockPhaseAppliesSync : Obligations.BlockPhaseAppliesSync := by
  intro s d rest hfault hcur hpq hsync hv kind
  have hkind := kindBits_le_of_valid hv hsync
  refine ⟨(applySync d s).bres.countPosition, applySync_position_read hkind s, exec_blockPhase_congr hfault hfault ?_⟩
  rw [blockPhase_of_sync hcur hpq hsync hv, applySync_eq hkind]
  simp only [emit, plannerDiscard, hpq, List.tail_cons, List.append_assoc, List.singleton_append]
  rfl

/-- COMPLETE records the end of the block and discards it (44_block_sequencer.md R193, R203). -/
theorem completeBlock_eq (b : BlockRec) (s : State) : completeBlock b s = { s with
    seq.current := none
    pq := s.pq.tail
    la := if s.cfg.linAdvance then { s.la with active := false } else s.la
    timer := if s.cfg.linAdvance then { s.timer with nextAdv := none } else s.timer
    trace := s.trace ++ [⟨s.timer.now, .blockDone b.id⟩, ⟨s.timer.now, .discard b.id⟩] } := by
  simp [completeBlock, discardBlock_eq, emit]

/-- With its events all run, the block is completed and LOAD_NEXT runs as with no block loaded. -/
theorem blockPhase_of_complete {s : State} {b : BlockRec} (hcur : s.seq.current = some b)
    (hdone : b.stepEventCount ≤ s.seq.stepEventsCompleted) : blockPhase s = blockPhase (completeBlock b s) := by
  rw [blockPhase_of_no_block (completeBlock_current b s), blockPhase]
  simp [hcur, hdone, loadNext]

/-- Settles O49: COMPLETE, and then BLOCK_PHASE with no block loaded. -/
theorem blockPhaseCompletes : Obligations.BlockPhaseCompletes := by
  intro s b hfault hcur hdone
  refine exec_blockPhase_congr hfault hfault ?_
  rw [blockPhase_of_complete hcur hdone, completeBlock_eq]

/-! ## PHASE_INTERVAL's branches (44_block_sequencer.md R192) -/

theorem blockPhase_of_running {s : State} {b : BlockRec} (hcur : s.seq.current = some b)
    (hrun : s.seq.stepEventsCompleted < b.stepEventCount) : blockPhase s = phaseInterval b s := by
  simp [blockPhase, hcur, hrun]

/-- The interval CALC_TIMER_INTERVAL gives a rate (43_timer_interval.md R172). -/
def rateInterval (s : State) (r : Nat) : Nat := baseInterval s.cfg (r / 2 ^ isrShift s.cfg s.timer.overrunShift r)

theorem calcTimerInterval_eq (r : Nat) (s : State) : calcTimerInterval r s =
    ({ s with timer.stepsPerIsrShift := isrShift s.cfg s.timer.overrunShift r }, rateInterval s r) := by
  simp only [calcTimerInterval, rateInterval, Nat.shiftRight_eq_div_pow]

/-- What the ACCELERATING branch leaves at rate `r`, before LA_ACCEL. -/
def accelerated (r : Nat) (s : State) : State := { s with timer := { s.timer with
  accStepRate := r
  stepsPerIsrShift := isrShift s.cfg s.timer.overrunShift r
  accelerationTime := min (s.timer.accelerationTime + rateInterval s r) (2 ^ 32 - 1) } }

/-- What the CRUISING branch leaves at rate `r` when it fills its cache, before LA_CRUISE. -/
def cruising (r : Nat) (s : State) : State := { s with timer := { s.timer with
  ticksNominal := some (rateInterval s r)
  nominalShift := isrShift s.cfg s.timer.overrunShift r
  stepsPerIsrShift := isrShift s.cfg s.timer.overrunShift r } }

/-- What the DECELERATING branch leaves at rate `r`, before LA_DECEL. -/
def decelerated (r : Nat) (s : State) : State := { s with timer := { s.timer with
  stepsPerIsrShift := isrShift s.cfg s.timer.overrunShift r
  decelerationTime := min (s.timer.decelerationTime + rateInterval s r) (2 ^ 32 - 1) } }

section
variable (b : BlockRec) (s : State)

theorem accelInterval_eq : accelInterval b s =
    (if laRuns s then laAccel b (accelRate b s) (accelerated (accelRate b s) s) else accelerated (accelRate b s) s,
      rateInterval s (accelRate b s)) := by
  rw [accelInterval, calcTimerInterval_eq]; rfl

theorem cruiseInterval_of_cached {iv : Nat} (h : s.timer.ticksNominal = some iv) :
    cruiseInterval b s = ({ s with timer.stepsPerIsrShift := s.timer.nominalShift }, iv) := by
  simp [cruiseInterval, h]

theorem fillCruise_eq : fillCruise b s =
    if laRuns s then laCruise b (cruising b.nominalRate s) else cruising b.nominalRate s := by
  rw [fillCruise, calcTimerInterval_eq]; rfl

/-- The shift read back from the cache just filled is the one already in use. -/
theorem cruiseInterval_of_invalid (h : s.timer.ticksNominal = none) : cruiseInterval b s =
    (if laRuns s then laCruise b (cruising b.nominalRate s) else cruising b.nominalRate s,
      rateInterval s b.nominalRate) := by
  rw [cruiseInterval, if_pos h, fillCruise_eq]
  cases laRuns s <;> rfl

/-- SCURVE_DECEL_RATE changes the S-curve state on its first entry only (42_velocity_profile.md R159). -/
theorem decelRate_eq : decelRate b s =
    ({ s with bez := if s.cfg.scurve && !s.bez.secondHalf
          then { bezCoeffs b.nominalRate b.finalRate s.bez with secondHalf := true } else s.bez },
      if s.cfg.scurve then
        if s.bez.secondHalf then bezEval s.cfg s.bez s.timer.decelerationTime b.decelTimeInverse else b.nominalRate
      else trapDecelRate s.cfg b s.timer.accStepRate s.timer.decelerationTime) := by
  cases hs : s.cfg.scurve <;> cases hh : s.bez.secondHalf <;> simp [decelRate, scurveDecelRate, hs, hh]

theorem decelInterval_eq {u : State} {r : Nat} (h : decelRate b s = (u, r)) : decelInterval b s =
    (if laRuns u then laDecel b r (decelerated r u) else decelerated r u, rateInterval u r) := by
  simp only [decelInterval, h, calcTimerInterval_eq]; rfl

end

/-- Settles O48: PHASE_INTERVAL chooses the branch, and each branch's state and interval are those of its rule. -/
theorem blockPhaseIntervals : Obligations.BlockPhaseIntervals := by
  intro s b hfault hcur hrun advancing shift ticks
  rw [exec_blockPhase hfault, blockPhase_of_running hcur hrun, phaseInterval]
  refine ⟨fun haccel => ?_, fun haccel hdecel => ⟨fun iv hcache => ?_, fun hcache => ?_⟩, fun haccel hdecel => ?_⟩
  · rw [if_pos haccel, accelInterval_eq]; rfl
  · rw [if_neg (not_lt.2 haccel), if_pos hdecel, cruiseInterval_of_cached b s hcache]; rfl
  · rw [if_neg (not_lt.2 haccel), if_pos hdecel, cruiseInterval_of_invalid b s hcache]; rfl
  · rw [if_neg (not_lt.2 haccel), if_neg (not_lt.2 hdecel), decelInterval_eq b s (decelRate_eq b s)]; rfl

end Sys2Proof.Machine
end

section
/-! SUPPORT. Shares and pulses: what SHAPE_APPLY and SHAPING_ISR do (45_aux_pulse.md R233, R234, R236, R239). -/

namespace Sys2Proof.Machine

/-! ## Shares paid out in pulses (45_aux_pulse.md R234) -/

/-- No share is lost: what remains, with 128 for each net pulse, is what there was (45_aux_pulse.md R239). -/
theorem payOut_ledger (δ : Int) (xs : List Int) :
    (payOut δ xs).1 + 128 * ((payOut δ xs).2.map Dir.sign).sum = δ + xs.sum := by
  induction xs generalizing δ with
  | nil => simp [payOut]
  | cons x xs ih =>
    rw [payOut, List.sum_cons]
    split
    · have := ih (δ + x - 128)
      simp only [List.map_cons, List.sum_cons, Dir.sign]
      omega
    · split
      · have := ih (δ + x + 128)
        simp only [List.map_cons, List.sum_cons, Dir.sign]
        omega
      · have := ih (δ + x)
        omega

/-- Shares of at most one step leave the accumulator in range (45_aux_pulse.md R236). -/
theorem payOut_range {δ : Int} (hδ : -64 ≤ δ ∧ δ ≤ 63) {xs : List Int} (hxs : ∀ x ∈ xs, -128 ≤ x ∧ x ≤ 128) :
    -64 ≤ (payOut δ xs).1 ∧ (payOut δ xs).1 ≤ 63 := by
  induction xs generalizing δ with
  | nil => exact hδ
  | cons x xs ih =>
    have hx := hxs x List.mem_cons_self
    have hrest := fun y hy => hxs y (List.mem_cons_of_mem x hy)
    rw [payOut]
    split
    · exact ih (by omega) hrest
    · split
      · exact ih (by omega) hrest
      · exact ih (by omega) hrest

/-! ## SHAPE_APPLY (45_aux_pulse.md R234, R236) -/

/-- SHAPE_APPLY writes its axis's accumulator, pins, position and the trace, and nothing else. -/
theorem shapeApply_frame (a : Axis) (amt : Int) (s : State) : shapeApply a amt s = { s with
    shaping.delta := (shapeApply a amt s).shaping.delta
    bres.countPosition := (shapeApply a amt s).bres.countPosition
    pins := { s.pins with
      dirOut := (shapeApply a amt s).pins.dirOut, stepOut := (shapeApply a amt s).pins.stepOut }
    trace := (shapeApply a amt s).trace } := by
  unfold shapeApply
  simp only []
  split
  · rw [physicalPulse_frame]; rfl
  · split
    · rw [physicalPulse_frame]; rfl
    · rfl

/-- Each pulse of a train has at most two records, DIR and STEP (41_bresenham.md R136). -/
theorem pulseRecords_length_le (now : Nat) (a : Axis) (level : Bool) (ds : List Dir) :
    (pulseRecords now a level ds).length ≤ 2 * ds.length := by
  induction ds generalizing level with
  | nil => exact le_rfl
  | cons d ds ih =>
    have := ih (d == Dir.neg)
    rw [pulseRecords, List.length_append, List.length_cons, List.length_cons]
    split
    · rw [List.length_nil]; omega
    · rw [List.length_singleton]; omega

/-- Settles O37: the pulse, the accumulator and the records are those of one share paid out, and the rest is the frame
of SHAPE_APPLY. -/
theorem shapeApplyRule : Obligations.ShapeApplyRule := by
  intro s a amt hlo hhi hamt hamt' v pulses ds t
  have ⟨hpay, hone, hnone⟩ : payOut (s.shaping.delta.read a) [amt] = (v - 128 * pulses, ds) ∧ ds.length ≤ 1 ∧
      (pulses = 0 → ds = []) := by
    by_cases h1 : 64 ≤ v
    · simp [payOut, v, pulses, ds, h1]
    · by_cases h2 : v < -64 <;> simp [payOut, v, pulses, ds, h1, h2]
  have hsum : (ds.map Dir.sign).sum = pulses := by
    have := payOut_ledger (s.shaping.delta.read a) [amt]
    simp only [hpay, List.sum_singleton] at this
    omega
  have hrange := payOut_range ⟨hlo, hhi⟩ (xs := [amt]) (by simpa using ⟨hamt, hamt'⟩)
  have hdelta := shapeApply_paid a amt s
  obtain ⟨htrace, hposition, hdir, hstep, -, -⟩ := shapeApply_pulsed a amt s
  rw [hpay] at hrange hdelta htrace hposition hdir hstep
  rw [hsum] at hposition
  have hlength : (pulseRecords s.timer.now a (s.pins.dirOut.read a) ds).length ≤ 2 :=
    (pulseRecords_length_le ..).trans (by omega)
  refine ⟨hdelta, hdelta ▸ hrange.1, hdelta ▸ hrange.2, by simpa using hposition a,
    ⟨_, htrace, ?_, hlength, fun h => by rw [hnone h]; rfl, rfl⟩, by simpa using hdir a, ?_, fun b hb => ?_,
    shapeApply_frame a amt s⟩
  · rw [netSteps_pulseRecords, if_pos rfl, hsum]
  · rw [hstep a]
    by_cases h : ds = [] <;> simp [h]
  · rw [hposition b, hdir b, hstep b, shapeApply_delta, PerAxis.read_write_ne _ _ (Ne.symm hb)]
    simp [hb]

/-! ## SHAPING_ISR, axis by axis (45_aux_pulse.md R233) -/

/-- The accumulator and the echoes of axis `a`. -/
def axisShaping (a : Axis) (s : State) : Int × List Echo := (s.shaping.delta.read a, s.shaping.queue.read a)

/-- Draining one axis's queue changes no other axis's accumulator or echoes. -/
theorem drainDue_axisShaping_ne {a b : Axis} (h : a ≠ b) (q : List Echo) (s : State) :
    axisShaping b (drainDue a q s) = axisShaping b s := by
  induction q generalizing s with
  | nil => rfl
  | cons e rest ih =>
    unfold drainDue
    split
    · rw [ih, axisShaping, axisShaping, shapeApply_delta, shapeApply_queue]
      simp [PerAxis.read_write, h]
    · rfl

/-- An accumulator and a queue after the queue's due echoes are paid out (45_aux_pulse.md R233). -/
def drained (c : Config) (a : Axis) (p : Int × List Echo) : Int × List Echo :=
  ((payOut p.1 ((p.2.takeWhile fun q => q.remaining == 0).map fun q => q.dir.sign * c.shapingFactor2 a)).1,
    p.2.dropWhile fun q => q.remaining == 0)

theorem drained_axisShaping (a : Axis) (s : State) : drained s.cfg a (axisShaping a s) =
    ((payOut (s.shaping.delta.read a) (dueShares a s)).1,
      (s.shaping.queue.read a).dropWhile fun q => q.remaining == 0) := rfl

theorem drainDue_axisShaping_same (a : Axis) (s : State) :
    axisShaping a (drainDue a (s.shaping.queue.read a) s) = drained s.cfg a (axisShaping a s) := by
  obtain ⟨-, hdelta, hqueue⟩ := drainDue_pulsed a s
  exact Prod.ext hdelta hqueue

/-- SHAPING_ISR drains the shaped axes, and no other. -/
theorem shapingIsr_axisShaping (s : State) (a : Axis) : axisShaping a (shapingIsr s) =
    if s.cfg.shaped.read a = true then drained s.cfg a (axisShaping a s) else axisShaping a s := by
  have hloop := foldl_axis a (fun t b => drainDue b (t.shaping.queue.read b) t) (axisShaping a) State.cfg
    (fun c => drained c a) (fun t b => drainDue_cfg b _ t) (drainDue_axisShaping_same a)
    (fun t b h => drainDue_axisShaping_ne h _ t) s.cfg.shapedAxes_nodup s
  rw [shapingIsr, hloop]
  simp only [Config.mem_shapedAxes]

/-- SHAPING_ISR on a shaped axis's accumulator and echoes. -/
theorem shapingIsr_shaped {s : State} {a : Axis} (ha : s.cfg.shaped.read a = true) :
    (shapingIsr s).shaping.delta.read a = (payOut (s.shaping.delta.read a) (dueShares a s)).1 ∧
      (shapingIsr s).shaping.queue.read a =
        (s.shaping.queue.read a).dropWhile (fun q => q.remaining == 0) :=
  Prod.mk.inj ((shapingIsr_axisShaping s a).trans ((if_pos ha).trans (drained_axisShaping a s)))

/-- SHAPING_ISR leaves the accumulator and the echoes of an unshaped axis alone. -/
theorem shapingIsr_unshaped {s : State} {a : Axis} (ha : s.cfg.shaped.read a = false) :
    (shapingIsr s).shaping.delta.read a = s.shaping.delta.read a ∧
      (shapingIsr s).shaping.queue.read a = s.shaping.queue.read a :=
  Prod.mk.inj ((shapingIsr_axisShaping s a).trans (if_neg (by simp [ha])))

/-- The pulses the due shares of axis `a` pay for. -/
def duePulses (s : State) (a : Axis) : List Dir := (payOut (s.shaping.delta.read a) (dueShares a s)).2

/-- They depend on its own accumulator and echoes. -/
theorem duePulses_congr {a : Axis} {s t : State} (hcfg : t.cfg = s.cfg) (h : axisShaping a t = axisShaping a s) :
    duePulses t a = duePulses s a := by
  obtain ⟨hdelta, hqueue⟩ := Prod.mk.inj h
  rw [duePulses, duePulses, dueShares, dueShares, hcfg, hdelta, hqueue]

/-- What the pulses of SHAPING_ISR do to the trace, the positions and the pins (41_bresenham.md R136). -/
theorem shapingIsr_pulses (s : State) :
    (shapingIsr s).trace = s.trace ++
      s.cfg.shapedAxes.flatMap (fun a => pulseRecords s.timer.now a (s.pins.dirOut.read a) (duePulses s a)) ∧
    (∀ a, (shapingIsr s).bres.countPosition.read a = if a ∈ s.cfg.shapedAxes then
      s.bres.countPosition.read a + BitVec.ofInt 32 ((duePulses s a).map Dir.sign).sum
      else s.bres.countPosition.read a) ∧
    (∀ a, (shapingIsr s).pins.dirOut.read a = if a ∈ s.cfg.shapedAxes then
      levelAfter (s.pins.dirOut.read a) (duePulses s a) else s.pins.dirOut.read a) ∧
    (∀ a, (shapingIsr s).pins.stepOut.read a =
      if a ∈ s.cfg.shapedAxes ∧ duePulses s a ≠ [] then false else s.pins.stepOut.read a) ∧
    (shapingIsr s).pins.enableLines = s.pins.enableLines :=
  foldl_pulsed (f := fun t a => drainDue a (t.shaping.queue.read a) t) (D := duePulses) (P := fun _ _ => True)
    (fun _ _ _ _ => trivial) (fun u a _ => (drainDue_pulsed a u).1)
    (fun u _ _ h => duePulses_congr (drainDue_cfg ..) (drainDue_axisShaping_ne h _ u))
    s.cfg.shapedAxes_nodup s fun _ _ => trivial

/-- The records of trains of pulses on distinct axes show, for each axis, its own train. -/
theorem stepsOf_flatMap_pulseRecords (b : Axis) (now : Nat) (level : Axis → Bool) (D : Axis → List Dir)
    {l : List Axis} (hl : l.Nodup) :
    stepsOf b (l.flatMap fun a => pulseRecords now a (level a) (D a)) = if b ∈ l then D b else [] := by
  induction l with
  | nil => rfl
  | cons a l ih =>
    rw [List.flatMap_cons, stepsOf_append, stepsOf_pulseRecords, ih hl.of_cons]
    by_cases hab : a = b
    · subst hab
      simp [(List.nodup_cons.1 hl).1]
    · simp [hab, Ne.symm hab]

/-- SHAPING_ISR loses no share: the due ones go through the accumulator, and the others stay queued (45_aux_pulse.md
R239). -/
theorem shapingIsr_ledger {s : State} {a : Axis} (ha : s.cfg.shaped.read a = true) :
    pendingShares a (shapingIsr s) + 128 * ((duePulses s a).map Dir.sign).sum = pendingShares a s := by
  obtain ⟨hdelta, hqueue⟩ := shapingIsr_shaped ha
  have hpaid := payOut_ledger (s.shaping.delta.read a) (dueShares a s)
  have hsplit := congrArg (fun q => (q.map fun e => echoShare s.cfg a e.dir).sum)
    (List.takeWhile_append_dropWhile (p := fun e : Echo => e.remaining == 0) (l := s.shaping.queue.read a))
  have hdue : ((s.shaping.queue.read a).takeWhile (fun e : Echo => e.remaining == 0)).map
      (fun e => echoShare s.cfg a e.dir) = dueShares a s := rfl
  rw [List.map_append, List.sum_append, hdue] at hsplit
  rw [pendingShares, pendingShares, hdelta, hqueue, shapingIsr_cfg, ← hsplit, duePulses]
  omega

/-- Settles O38: each axis's shares, echoes, pins and position have their lemma, and the loop over the shaped axes
leaves the rest of the state alone. -/
theorem shapingIsrDrainsDue : Obligations.ShapingIsrDrainsDue := by
  intro s hfault
  obtain ⟨htrace, hposition, hdir, hstep, hlines⟩ := shapingIsr_pulses s
  refine ⟨_, _, exec_shapingIsr hfault, htrace, fun a ha => ?_, fun a ha => ?_, rfl, hlines, ?_⟩
  · have hmem := (s.cfg.mem_shapedAxes a).2 ha
    have hsteps : stepsOf a (s.cfg.shapedAxes.flatMap fun b =>
        pulseRecords s.timer.now b (s.pins.dirOut.read b) (duePulses s b)) = duePulses s a := by
      rw [stepsOf_flatMap_pulseRecords _ _ _ _ s.cfg.shapedAxes_nodup, if_pos hmem]
    obtain ⟨hdelta, hqueue⟩ := shapingIsr_shaped ha
    rw [netSteps_eq, hsteps, hdelta]
    refine ⟨hqueue, rfl, by rw [hdir, if_pos hmem], ?_, shapingIsr_ledger ha, by rw [hposition, if_pos hmem]⟩
    rw [hstep]
    by_cases hno : duePulses s a = [] <;> simp [ha, hno]
  · obtain ⟨hdelta, hqueue⟩ := shapingIsr_unshaped ha
    rw [hposition, hdir, hstep, hdelta, hqueue]
    simp [ha]
  · rw [shapingIsr_bres]
    simp

end Sys2Proof.Machine
end

section
/-! SUPPORT. Shaping exactness: the shares of a shaped axis over the step events of a block (45_aux_pulse.md R235,
R239). -/

namespace Sys2Proof

/-- An echo pays what the step's first share left of 128 (45_aux_pulse.md R231). -/
theorem Config.legal_factors_sum {c : Config} (h : c.legal = true) {a : Axis} (ha : c.shaped.read a = true) :
    c.shapingFactor1.read a + c.shapingFactor2 a = 128 := by
  obtain ⟨-, -, -, -, hle⟩ := Config.legal_shaped h ha
  rw [Config.shapingFactor2]
  omega

namespace Machine

/-- The shares a step pays at once, and the echoes it leaves queued, add up to the queued ones and the step's own first
share. -/
theorem primaryShares_ledger (s : State) (a : Axis) :
    (primaryShares s a).sum +
        ((if forcesEcho s a then (s.shaping.queue.read a).tail else s.shaping.queue.read a).map
          fun q => echoShare s.cfg a q.dir).sum =
      (s.bres.countDirection.read a).sign * (s.cfg.shapingFactor1.read a : Int) +
        ((s.shaping.queue.read a).map fun q => echoShare s.cfg a q.dir).sum := by
  unfold primaryShares
  cases forcesEcho s a with
  | false => simp
  | true =>
    cases s.shaping.queue.read a with
    | nil => simp
    | cons e rest =>
      simp [echoShare]
      ring

/-- A step event gives a shaped axis 128 shares where it steps, and else none. -/
theorem stepEvent_ledger {s : State} {a : Axis} (hlegal : s.cfg.legal = true) (hon : s.cfg.inputShaping = true)
    (ha : s.cfg.shaped.read a = true) :
    pendingShares a (stepEvent s) + 128 * ((eventPulses s a).map Dir.sign).sum = pendingShares a s +
      if takesStep s a then 128 * (s.bres.countDirection.read a).sign else 0 := by
  obtain ⟨hdelta, hqueue⟩ := stepEvent_shaping s a
  have hshaped : (s.cfg.inputShaping && s.cfg.shaped.read a) = true := by simp [hon, ha]
  rw [pendingShares, pendingShares, hdelta, hqueue, stepEvent_cfg, hshaped]
  cases hstep : takesStep s a with
  | false => simp [eventPulses_of_no_step hstep]
  | true =>
    have hpaid := payOut_ledger (s.shaping.delta.read a) (primaryShares s a)
    have hshares := primaryShares_ledger s a
    have hwhole : (s.bres.countDirection.read a).sign * (s.cfg.shapingFactor1.read a : Int) +
        echoShare s.cfg a (s.bres.countDirection.read a) = 128 * (s.bres.countDirection.read a).sign := by
      rw [echoShare, ← mul_add, ← Nat.cast_add, Config.legal_factors_sum hlegal ha, mul_comm]
      rfl
    rw [eventPulses_of_shaped hstep hshaped]
    simp only [Bool.and_self, if_true, List.map_append, List.sum_append, List.map_cons, List.map_nil,
      List.sum_singleton]
    linarith

/-- The records of a step event show, for each axis, its own pulses. -/
theorem stepsOf_stepEvent_records (s : State) (a : Axis) :
    stepsOf a (allAxes.flatMap fun b => pulseRecords s.timer.now b (s.pins.dirOut.read b) (eventPulses s b)) =
      eventPulses s a := by
  rw [stepsOf_flatMap_pulseRecords _ _ _ _ allAxes_nodup, if_pos (mem_allAxes a)]

section

variable {s : State} {b : BlockRec} {a : Axis} (hlegal : s.cfg.legal = true) (hon : s.cfg.inputShaping = true)
  (ha : s.cfg.shaped.read a = true) (hN : 1 ≤ b.stepEventCount) (hS : b.steps.read a ≤ b.stepEventCount)
include hlegal hon ha hN hS

/-- After `j` events of a block the shares of a shaped axis, pending or paid out, have grown by 128 for each of its
steps. -/
theorem runEvents_init_ledger (j : Nat) :
    ∃ added, (runEvents j (bresenhamInit b s)).trace = s.trace ++ added ∧
      pendingShares a (runEvents j (bresenhamInit b s)) + 128 * netSteps a added = pendingShares a s +
        128 * ((s.bres.countDirection.read a).sign * (stepsAfter (b.steps.read a) b.stepEventCount j : Int)) := by
  obtain ⟨hlive, he, -⟩ := Config.legal_shaped hlegal ha
  have hskip : skipsAxis s a = false := by simp [skipsAxis, he]
  induction j with
  | zero => exact ⟨[], by simp [runEvents], by simp [runEvents, pendingShares, netSteps, stepsAfter_zero hN]⟩
  | succ j ih =>
    obtain ⟨added, htrace, hledger⟩ := ih
    obtain ⟨hcfg, -, hdir, -, -⟩ := runEvents_init_terms (b := b) hlive j
    have hevent := stepEvent_ledger (s := runEvents j (bresenhamInit b s)) (by rwa [hcfg]) (by rwa [hcfg])
      (by rwa [hcfg])
    rw [takesStep_runEvents_init hN hS hlive hskip, hdir] at hevent
    have hrecords := (stepEvent_pulses (runEvents j (bresenhamInit b s))).1
    rw [htrace, List.append_assoc] at hrecords
    rw [runEvents_succ, stepsAfter_succ hN hS]
    refine ⟨_, hrecords, ?_⟩
    rw [netSteps_append, netSteps_eq a (List.flatMap _ _), stepsOf_stepEvent_records]
    change pendingShares a (stepEvent (runEvents j (bresenhamInit b s))) + _ = _
    simp only [decide_eq_true_eq] at hevent
    split at hevent
    · next hstep =>
      rw [if_pos hstep]
      push_cast
      linarith
    · next hstep =>
      rw [if_neg hstep]
      push_cast
      linarith

end

/-- Settles O39: the ledger by induction on the events; with no echo pending the accumulator alone is owed, and its
range holds no whole step but 0. -/
theorem shapingExactness : Obligations.ShapingExactness := by
  refine ⟨fun s b a j hlegal hon ha hN hS => runEvents_init_ledger hlegal hon ha hN hS j,
    fun s a owed hempty hlo hhi howed => ?_⟩
  have hdelta : pendingShares a s = s.shaping.delta.read a := by simp [pendingShares, hempty]
  omega

end Machine
end Sys2Proof
end

section
/-! SUPPORT. The accumulators stay in range, and the echo queues within their capacity and in order (45_aux_pulse.md
R236, R237, R240). -/

namespace Sys2Proof.Machine

/-! ## One shaped axis -/

/-- One axis's accumulator `p.1` is in range, and its echoes `p.2` are within capacity, ordered, and none later than
its SHAPING_DELAY. -/
structure AxisInRange (c : Config) (a : Axis) (p : Int × List Echo) : Prop where
  delta : -64 ≤ p.1 ∧ p.1 ≤ 63
  fits : p.2.length ≤ c.shapingQueueCap - c.shapingForceMargin
  ordered : p.2.Pairwise fun e f => e.remaining ≤ f.remaining
  delayed : ∀ e ∈ p.2, e.remaining ≤ c.shapingDelay.read a

namespace AxisInRange

variable {c : Config} {a : Axis} {p : Int × List Echo}

/-- An emptied queue with no share accumulated is in range. -/
theorem flushed (c : Config) (a : Axis) : AxisInRange c a (0, []) where
  delta := by decide
  fits := Nat.zero_le _
  ordered := .nil
  delayed := nofun

/-- Echoes may leave the queue, and shares of at most one step be paid out. -/
theorem pay (h : AxisInRange c a p) {xs : List Int} (hxs : ∀ x ∈ xs, -128 ≤ x ∧ x ≤ 128) {q : List Echo}
    (hq : q.Sublist p.2) : AxisInRange c a ((payOut p.1 xs).1, q) where
  delta := payOut_range h.delta hxs
  fits := hq.length_le.trans h.fits
  ordered := h.ordered.sublist hq
  delayed e he := h.delayed e (hq.subset he)

/-- Where there is room, an echo of the whole delay may be pushed: none is later than it (45_aux_pulse.md R237). -/
theorem push (h : AxisInRange c a p) (hroom : p.2.length < c.shapingQueueCap - c.shapingForceMargin) (d : Dir) :
    AxisInRange c a (p.1, p.2 ++ [⟨d, c.shapingDelay.read a⟩]) where
  delta := h.delta
  fits := by rw [List.length_append]; exact hroom
  ordered := List.pairwise_append.2 ⟨h.ordered, List.pairwise_singleton .., fun e he f hf => by
    rw [List.mem_singleton.1 hf]; exact h.delayed e he⟩
  delayed e he := (List.mem_append.1 he).elim (h.delayed e) fun hf => by rw [List.mem_singleton.1 hf]

/-- The countdowns move forward together, and their order stays (40_isr_scheduler.md R115). -/
theorem advance (h : AxisInRange c a p) (interval : Nat) : AxisInRange c a (p.1, p.2.map (Echo.advance interval)) where
  delta := h.delta
  fits := by rw [List.length_map]; exact h.fits
  ordered := h.ordered.map _ fun _ _ hle => Nat.sub_le_sub_right hle interval
  delayed := List.forall_mem_map.2 fun e he => (Nat.sub_le ..).trans (h.delayed e he)

end AxisInRange

/-! ## The shares of a step (45_aux_pulse.md R231, R233, R235) -/

theorem sign_mul_bounds (d : Dir) {n : Nat} (h : n ≤ 128) : -128 ≤ d.sign * (n : Int) ∧ d.sign * (n : Int) ≤ 128 := by
  rcases d.sign_bound with hd | hd <;> rw [hd] <;> omega

theorem echoShare_bounds (c : Config) (a : Axis) (d : Dir) : -128 ≤ echoShare c a d ∧ echoShare c a d ≤ 128 :=
  sign_mul_bounds d (Nat.sub_le ..)

theorem dueShares_bounds (s : State) (a : Axis) : ∀ x ∈ dueShares a s, -128 ≤ x ∧ x ≤ 128 :=
  List.forall_mem_map.2 fun _ _ => echoShare_bounds s.cfg a _

theorem primaryShares_bounds {s : State} {a : Axis} (hlegal : s.cfg.legal = true) (ha : s.cfg.shaped.read a = true) :
    ∀ x ∈ primaryShares s a, -128 ≤ x ∧ x ≤ 128 := by
  obtain ⟨-, -, -, -, hfactor⟩ := Config.legal_shaped hlegal ha
  refine List.forall_mem_append.2 ⟨?_, List.forall_mem_singleton.2 (sign_mul_bounds _ hfactor)⟩
  split
  · exact List.forall_mem_map.2 fun _ _ => echoShare_bounds s.cfg a _
  · exact nofun

/-! ## All shaped axes -/

/-- Under a legal configuration, every shaped axis is in range. -/
def ShapingInRange (s : State) : Prop :=
  s.cfg.legal = true ∧ ∀ a, s.cfg.shaped.read a = true → AxisInRange s.cfg a (axisShaping a s)

theorem shapingInRange_iff (s : State) : ShapingInRange s ↔
    s.cfg.legal = true ∧ ShapingDeltaInRange s ∧ ShapingQueuesFit s ∧ ShapingQueuesOrdered s :=
  and_congr_right fun _ =>
    ⟨fun h => ⟨fun a ha => (h a ha).delta, fun a ha => (h a ha).fits, fun a ha => ⟨(h a ha).ordered, (h a ha).delayed⟩⟩,
      fun ⟨hdelta, hfits, hordered⟩ a ha => ⟨hdelta a ha, hfits a ha, (hordered a ha).1, (hordered a ha).2⟩⟩

/-- What keeps the parameters, and each shaped axis in range, keeps the range. -/
theorem ShapingInRange.of_axes {s t : State} (h : ShapingInRange s) (hcfg : t.cfg = s.cfg)
    (haxes : ∀ a, s.cfg.shaped.read a = true → AxisInRange s.cfg a (axisShaping a s) →
      AxisInRange s.cfg a (axisShaping a t)) : ShapingInRange t := by
  obtain ⟨hlegal, hrange⟩ := h
  unfold ShapingInRange
  rw [hcfg]
  exact ⟨hlegal, fun a ha => haxes a ha (hrange a ha)⟩

/-- Work that leaves shaping alone keeps the range. -/
theorem ShapingInRange.same {s t : State} (h : ShapingInRange s) (hcfg : t.cfg = s.cfg)
    (hshaping : t.shaping = s.shaping) : ShapingInRange t :=
  h.of_axes hcfg fun a _ ha => by rwa [axisShaping, hshaping]

/-- A flush puts the shaped axes in range, whatever they held (45_aux_pulse.md R238). -/
theorem ShapingInRange.flush {s t : State} (h : ShapingInRange s) (hcfg : t.cfg = s.cfg)
    (hflush : ∀ a, s.cfg.shaped.read a = true → axisShaping a t = (0, [])) : ShapingInRange t :=
  h.of_axes hcfg fun a ha _ => by rw [hflush a ha]; exact .flushed _ a

/-- SHAPE_PRIMARY forces an echo out before it pushes one, so the queue stays within its capacity (45_aux_pulse.md R235,
R240). -/
theorem axisInRange_primary {s : State} {a : Axis} (hlegal : s.cfg.legal = true) (ha : s.cfg.shaped.read a = true)
    (h : AxisInRange s.cfg a (axisShaping a s)) (d : Dir) :
    AxisInRange s.cfg a ((payOut (s.shaping.delta.read a) (primaryShares s a)).1,
      (if forcesEcho s a then (s.shaping.queue.read a).tail else s.shaping.queue.read a) ++
        [⟨d, s.cfg.shapingDelay.read a⟩]) := by
  have hmargin := Config.legal_margin_lt hlegal
  have hfits := h.fits
  have hshares := primaryShares_bounds hlegal ha
  cases hforce : forcesEcho s a with
  | true => exact (h.pay hshares (List.tail_sublist _)).push (by rw [List.length_tail]; omega) d
  | false => exact (h.pay hshares (List.Sublist.refl _)).push (Nat.lt_of_not_le (of_decide_eq_false hforce)) d

theorem stepEvent_shapingInRange {s : State} (h : ShapingInRange s) : ShapingInRange (stepEvent s) := by
  have hlegal := h.1
  refine h.of_axes (stepEvent_cfg s) fun a ha hrange => ?_
  obtain ⟨hdelta, hqueue⟩ := stepEvent_shaping s a
  rw [axisShaping, hdelta, hqueue]
  split
  · exact axisInRange_primary hlegal ha hrange _
  · exact hrange

theorem runEvents_shapingInRange (n : Nat) {s : State} (h : ShapingInRange s) : ShapingInRange (runEvents n s) := by
  induction n generalizing s with
  | zero => exact h
  | succ n ih => exact ih ((stepEvent_shapingInRange h).same rfl rfl)

theorem consumeAbort_shaping (s : State) : (consumeAbort s).shaping = (shapingFlush s).shaping := by
  cases hcur : s.seq.current with
  | none => rw [consumeAbort_of_no_block hcur]
  | some b => rw [consumeAbort_of_block hcur]

theorem pulsePhase_shapingInRange {s : State} (h : ShapingInRange s) : ShapingInRange (pulsePhase s) := by
  unfold pulsePhase
  split
  · refine h.flush (consumeAbort_cfg s) fun a ha => ?_
    rw [axisShaping, consumeAbort_shaping, (shapingFlush_read s a).1, (shapingFlush_read s a).2, if_pos ha, if_pos ha]
  · split
    · exact h
    · exact runEvents_shapingInRange _ h

theorem shapingIsr_shapingInRange {s : State} (h : ShapingInRange s) : ShapingInRange (shapingIsr s) := by
  refine h.of_axes (shapingIsr_cfg s) fun a ha hrange => ?_
  obtain ⟨hdelta, hqueue⟩ := shapingIsr_shaped ha
  rw [axisShaping, hdelta, hqueue]
  exact hrange.pay (dueShares_bounds s a) (List.dropWhile_sublist _)

theorem programTimer_shapingInRange (e : Nat) {s : State} (h : ShapingInRange s) :
    ShapingInRange (programTimer e s) := by
  refine h.of_axes (programTimer_cfg e s) fun a ha hrange => ?_
  have hshaping : axisShaping a (programTimer e s) = (s.shaping.delta.read a,
      (s.shaping.queue.read a).map (Echo.advance (checkedInterval s.cfg (selectInterval s) e))) := by
    simp [axisShaping, programTimer, advanceCountdowns, ha]
  rw [hshaping]
  exact hrange.advance _

theorem shapingInRange_kept : Kept ShapingInRange where
  nextMain _ _ h := h
  nextAdv _ _ h := h
  nextBaby _ _ h := h
  pulsePhase _ h := pulsePhase_shapingInRange h
  stepEvent _ h := stepEvent_shapingInRange h
  shapingIsr _ h := shapingIsr_shapingInRange h
  advanceIsr s h := h.same (advanceIsr_cfg s) (advanceIsr_shaping s)
  babystepIsr s h := h.same (babystepIsr_cfg s) (babystepIsr_shaping s)
  blockPhase s h := h.same (blockPhase_cfg s) (blockPhase_shaping s)
  program _ e h := programTimer_shapingInRange e h
  env _ _ h := h
  host _ _ h := h
  pq _ _ h := h
  abort _ h := h
  position _ _ h := h
  baby _ _ _ _ h := h
  enable _ _ _ h := driveEnable_keeps fun _ _ => h
  reset _ h := h.flush rfl fun a _ => Prod.ext (PerAxis.read_all 0 a) (PerAxis.read_all [] a)

/-- Settles O52: under the legal configuration a step needs, the three together are kept by every update it is made
of. -/
theorem stepKeepsShapingInvariants : Obligations.StepKeepsShapingInvariants := by
  intro s t hdelta hfits hordered hstep
  obtain ⟨hlegal, -⟩ := step_next hstep
  have hrange := shapingInRange_kept.step ((shapingInRange_iff s).2 ⟨hlegal, hdelta, hfits, hordered⟩) hstep
  exact ((shapingInRange_iff t).1 hrange).2

end Sys2Proof.Machine
end

section
/-! SUPPORT. Linear advance and babystepping: one decision of ADVANCE_ISR, the scheduling rules, and one pulse of
BABYSTEP_ISR (45_aux_pulse.md R223 to R227, R242). -/

namespace Sys2Proof.Machine

/-! ## ADVANCE_ISR (45_aux_pulse.md R224) -/

/-- DIR is high in the negative direction (46_direction_enable.md R260). -/
theorem dirLevel_eq (d : Dir) : d.level = (d == Dir.neg) := by cases d <;> rfl

theorem advanceIsr_of_inactive {s : State} (h : s.la.active = false) : advanceIsr s = s := by
  simp [advanceIsr, h]

theorem advanceIsr_of_negative {s : State} (h : s.la.active = true) (hneg : s.la.deltaError + s.la.dividend < 0) :
    advanceIsr s = { s with la.deltaError := s.la.deltaError + s.la.dividend } := by
  simp [advanceIsr, h, not_le.2 hneg]

/-- A decision to step pulses E and counts the step. -/
theorem advanceIsr_of_step {s : State} (h : s.la.active = true) (hstep : 0 ≤ s.la.deltaError + s.la.dividend) :
    advanceIsr s = { physicalPulse s.cfg.eAxis (s.bres.countDirection.read s.cfg.eAxis) s with
      la := { s.la with
        deltaError := s.la.deltaError + s.la.dividend - s.bres.advanceDivisor
        advanceSteps := wrapStep s.la.advanceSteps (s.bres.countDirection.read s.cfg.eAxis) } } := by
  simp only [advanceIsr, h, hstep, if_true]
  unfold physicalPulse driveDir
  split <;> rfl

/-- Settles O40: the three outcomes of the decision, the step being one pulse of E. -/
theorem advanceIsrRule : Obligations.AdvanceIsrRule := by
  intro s hfault e d de
  rw [exec_advanceIsr hfault]
  refine ⟨fun h => by rw [advanceIsr_of_inactive h], fun h hneg => by rw [advanceIsr_of_negative h hneg],
    fun h hstep => ⟨_, rfl, ?_⟩⟩
  obtain ⟨-, -, -, hout, -, -⟩ := physicalPulse_pulsed e d s
  rw [advanceIsr_of_step h hstep]
  refine ⟨rfl, by simp [wrapStep, e, d], by simp [dirLevel_eq, e, d], fun b => by simpa using hout b, ?_, ?_⟩
  · simp [physicalPulse_trace, dirLevel_eq, e, d]
  · simp

/-! ## The scheduling rules (45_aux_pulse.md R223, R225 to R227) -/

/-- Turning round flips E's direction alone. -/
theorem laReverse_countDirection_read (reverse : Bool) (s : State) (a : Axis) :
    (laReverse reverse s).bres.countDirection.read a =
      if a = s.cfg.eAxis then (s.bres.countDirection.read a).flip else s.bres.countDirection.read a := by
  rw [laReverse, PerAxis.read_write]
  by_cases ha : a = s.cfg.eAxis
  · rw [ha]
  · rw [if_neg ha, if_neg (Ne.symm ha)]

/-- Turning round flips E's last direction bit alone. -/
theorem laReverse_lastDirectionBits_bit (reverse : Bool) (s : State) (k : Nat) :
    (laReverse reverse s).bres.lastDirectionBits.getLsbD k =
      if k = s.cfg.eAxis.val then !s.bres.lastDirectionBits.getLsbD k else s.bres.lastDirectionBits.getLsbD k := by
  rw [laReverse, getLsbD_setBit]
  by_cases hk : k = s.cfg.eAxis.val <;> simp [hk]

/-- The rate at which LA_DECEL still gives advance back (45_aux_pulse.md R227). -/
def laDecelRate (b : BlockRec) (s : State) : Nat :=
  if (b.finalAdvSteps : Int) < s.la.advanceSteps.toInt then b.laAdvanceRate else 0

theorem laDecel_of_equal {b : BlockRec} {rate : Nat} {s : State} (h : laDecelRate b s = rate) :
    laDecel b rate s = { s with la.interval := none } :=
  if_pos h

/-- The interval LA_DECEL schedules: that of the difference of the two rates (45_aux_pulse.md R227). -/
def laDecelInterval (b : BlockRec) (rate : Nat) (s : State) : Nat :=
  baseInterval s.cfg (((laDecelRate b s : Int) - rate).natAbs / 2 ^ b.laScaling)

/-- Where the rates differ the interval of their difference is scheduled, and E turns round where the reversal
changes. -/
theorem laDecel_of_ne {b : BlockRec} {rate : Nat} {s : State} (h : laDecelRate b s ≠ rate) : laDecel b rate s =
    if decide (rate < laDecelRate b s) = s.la.eReversed then laSet (laDecelInterval b rate s) s
    else laReverse (decide (rate < laDecelRate b s)) (laSet (laDecelInterval b rate s) s) := by
  have hdiff : (if decide (rate < laDecelRate b s) = true then laDecelRate b s - rate else rate - laDecelRate b s) =
      ((laDecelRate b s : Int) - rate).natAbs := by
    simp only [decide_eq_true_eq]
    split <;> omega
  rw [laDecelInterval, ← hdiff, ← Nat.shiftRight_eq_div_pow]
  exact if_neg h

/-- Settles O41: each rule is its schedule, and LA_DECEL's reversal turns E's direction and its last direction bit. -/
theorem linearAdvanceRules : Obligations.LinearAdvanceRules := by
  intro s b rate iv
  refine ⟨?_, by rw [← Nat.shiftRight_eq_div_pow]; rfl, by rw [← Nat.shiftRight_eq_div_pow]; rfl, ?_⟩
  · unfold laSet
    cases s.timer.nextAdv <;> rfl
  · intro lr
    have hlr : laDecelRate b s = lr := rfl
    refine ⟨laDecel_of_equal, fun hne => ⟨_, laDecel_of_ne hne, ?_⟩⟩
    rw [hlr]
    by_cases hsame : decide (rate < lr) = s.la.eReversed
    · rw [if_pos hsame, hsame]
      refine ⟨rfl, ?_, fun a => by simp, fun k _ => by simp, rfl⟩
      unfold laSet
      cases s.timer.nextAdv <;> rfl
    · rw [if_neg hsame]
      refine ⟨rfl, ?_, fun a => (laReverse_countDirection_read _ _ a).trans ?_,
        fun k _ => (laReverse_lastDirectionBits_bit _ _ k).trans ?_, rfl⟩
      · unfold laSet laReverse
        cases s.timer.nextAdv <;> rfl
      · exact if_congr (and_iff_left hsame).symm rfl rfl
      · exact if_congr (and_iff_left hsame).symm rfl rfl

/-! ## BABYSTEP_ISR (45_aux_pulse.md R242) -/

theorem babystepIsr_of_none_pending {s : State} (h : ∀ a : Axis, a.val < s.cfg.numAxes → s.babyPending.read a = 0) :
    babystepIsr s = s := by
  have hnone : babyAxis s = none := List.find?_eq_none.2 fun a ha => by simp [h a ((s.cfg.mem_liveAxes a).1 ha)]
  rw [babystepIsr, hnone]

/-- BABYSTEP_ISR pulses its axis in the sign of the pending count and drives DIR back. -/
theorem babystepIsr_of_pending {s : State} {a : Axis} (h : babyAxis s = some a) : babystepIsr s =
    driveDir a (s.pins.dirOut.read a) { physicalPulse a (babyDir (s.babyPending.read a)) s with
      babyPending := s.babyPending.write a (s.babyPending.read a - (babyDir (s.babyPending.read a)).sign) } := by
  simp [babystepIsr, h]

/-- Settles O42: the pulse is that of its axis, and the restored level costs a record exactly where the pulse changed
it. -/
theorem babystepIsrRule : Obligations.BabystepIsrRule := by
  intro s hfault
  rw [exec_babystepIsr hfault]
  refine ⟨fun h => by rw [babystepIsr_of_none_pending h], fun a hlive hpending hleast => ?_⟩
  intro d turn
  obtain ⟨-, -, -, hout, -, -⟩ := physicalPulse_pulsed a d s
  refine ⟨_, rfl, ?_⟩
  have hd : babyDir (s.babyPending.read a) = d := rfl
  rw [babystepIsr_of_pending (babyAxis_eq hlive hpending hleast), hd]
  refine ⟨by simp, by simp [wrapStep], ?_, fun b => ?_, by simp, ?_, ?_⟩
  · refine PerAxis.ext_read fun b => ?_
    by_cases hb : a = b <;> simp [PerAxis.read_write, hb]
  · simpa using hout b
  · rw [driveDir_trace, physicalPulse_trace]
    by_cases hturn : s.pins.dirOut.read a = (d == Dir.neg)
    · simp [turn, hturn, dirLevel_eq]
    · simp [turn, hturn, dirLevel_eq, Ne.symm hturn]
  · simp

end Sys2Proof.Machine
end

section
/-! SUPPORT. ENABLE and DISABLE: the line of an existing axis, its record and the word reported
(46_direction_enable.md R266, R267). -/

namespace Sys2Proof.Machine

/-! ## Commands on an existing axis (30_encoding.md R82) -/

/-- The AXIS field of an existing axis names it. -/
theorem axisOperand_fieldOf {c : Config} {a : Axis} (ha : a.val < c.numAxes) : axisOperand c (fieldOf a) = some a :=
  dif_pos ⟨ha, a.isLt⟩

/-- A command on an existing axis, none of whose operands raises an error, runs its body on that axis. -/
theorem performAxis_fieldOf {i : Instr} {a : Axis} {s : State} (hok : operandError i s = none)
    (ha : a.val < s.cfg.numAxes) (k : Axis → State → State) : performAxis i (fieldOf a) s k = .next (k a s) := by
  simp [performAxis, perform, hok, axisOperand_fieldOf ha]

/-- ENABLE and DISABLE of an existing axis drive its line and report the lines. -/
theorem exec_enable_or_disable {s : State} {a : Axis} (ha : a.val < s.cfg.numAxes) (on : Bool) :
    exec (if on then .enable (fieldOf a) else .disable (fieldOf a)) s = .next (reportEnable (driveEnable a on s)) := by
  have hfield : (fieldOf a).val < s.cfg.numAxes := ha
  cases on with
  | true =>
    have hok : operandError (.enable (fieldOf a)) s = none := by
      simp [operandError, Instr.wellFormed, Instr.axisField, hfield]
    exact performAxis_fieldOf hok ha fun a t => reportEnable (driveEnable a true t)
  | false =>
    have hok : operandError (.disable (fieldOf a)) s = none := by
      simp [operandError, Instr.wellFormed, Instr.axisField, hfield]
    exact performAxis_fieldOf hok ha fun a t => reportEnable (driveEnable a false t)

/-! ## The line of an axis -/

/-- The axis's line takes the level, and no other line changes. -/
theorem driveEnable_line {a : Axis} {s : State} (hline : s.cfg.enMap.read a < 32) (on : Bool) (k : Nat) :
    (driveEnable a on s).pins.enableLines.getLsbD k =
      if k = s.cfg.enMap.read a then on else s.pins.enableLines.getLsbD k := by
  unfold driveEnable
  simp only []
  split
  · next hsame =>
    split
    · next hk => rw [hk, hsame]
    · rfl
  · simp [getLsbD_setBit, hline]

/-- A change of the line's level leaves a record, and only a change. -/
theorem driveEnable_trace (a : Axis) (on : Bool) (s : State) :
    (driveEnable a on s).trace = s.trace ++
      (if s.pins.enableLines.getLsbD (s.cfg.enMap.read a) = on then []
        else [⟨s.timer.now, .enable (s.cfg.enMap.read a) on⟩]) := by
  unfold driveEnable
  simp only []
  split <;> simp

theorem driveEnable_eq (a : Axis) (on : Bool) (s : State) :
    driveEnable a on s =
      { s with pins.enableLines := (driveEnable a on s).pins.enableLines, trace := (driveEnable a on s).trace } :=
  driveEnable_keeps (P := fun t => t = { s with pins.enableLines := t.pins.enableLines, trace := t.trace })
    fun _ _ => rfl

/-- Settles O13: the command drives the axis's line, which exists and fits the register, and reports the lines. -/
theorem enableLines : Obligations.EnableLines := by
  intro s a on hlegal ha line
  obtain ⟨hmap, hwidth⟩ := Config.legal_enMap hlegal ha
  refine ⟨_, exec_enable_or_disable ha on, fun k _ => driveEnable_line (hmap.trans_le hwidth) on k, fun k => ?_,
    driveEnable_trace a on s, ?_⟩
  · have hcfg : (driveEnable a on s).cfg = s.cfg := by rw [driveEnable_eq]
    rw [← hcfg]
    exact getLsbD_enableWord (driveEnable a on s) k
  · exact congrArg (setResult (enableWord (driveEnable a on s))) (driveEnable_eq a on s)

end Sys2Proof.Machine
end

section
/-! SUPPORT. SET_DIRECTIONS: the axes whose DIR pin it drives, their records, and the bits it keeps
(46_direction_enable.md R260, R261). -/

namespace Sys2Proof.Machine

/-! ## The live bits -/

theorem getLsbD_liveBits (c : Config) (bits : BitVec 8) (k : Nat) :
    (liveBits c bits).getLsbD k = (decide (k < c.numAxes) && bits.getLsbD k) := by
  rw [liveBits, BitVec.getLsbD_and, BitVec.getLsbD_ofNat, Nat.testBit_two_pow_sub_one]
  by_cases hk : k < 8
  · simp only [hk, decide_true, Bool.true_and, Bool.and_comm]
  · simp only [BitVec.getLsbD_of_ge bits k (Nat.le_of_not_lt hk), Bool.false_and, Bool.and_false]

/-- The live bits of two words agree exactly if the words do on every existing axis. -/
theorem liveBits_eq_iff (c : Config) (bits last : BitVec 8) : liveBits c bits = liveBits c last ↔
    ∀ a : Axis, a.val < c.numAxes → bits.getLsbD a.val = last.getLsbD a.val := by
  refine ⟨fun h a ha => ?_, fun h => BitVec.eq_of_getLsbD_eq fun k hk => ?_⟩
  · have hbit := congrArg (fun v => v.getLsbD a.val) h
    simpa only [getLsbD_liveBits, ha, decide_true, Bool.true_and] using hbit
  · rw [getLsbD_liveBits, getLsbD_liveBits]
    by_cases hlive : k < c.numAxes
    · rw [h ⟨k, hk⟩ hlive]
    · simp [hlive]

/-! ## The loop over the pins -/

/-- SET_DIRECTIONS drives the DIR pin of axis `a`: its bit changed and it is not shaped. -/
def drivesPin (c : Config) (bits last : BitVec 8) (a : Axis) : Bool :=
  (bits.getLsbD a.val != last.getLsbD a.val) && !(c.inputShaping && c.shaped.read a)

theorem setAxisDir_of_drivesPin {bits last : BitVec 8} {s : State} {a : Axis}
    (h : drivesPin s.cfg bits last a = true) : setAxisDir bits last s a = driveDir a (bits.getLsbD a.val) s := by
  simp only [drivesPin, Bool.and_eq_true, bne_iff_ne, Bool.not_eq_true'] at h
  obtain ⟨hne, hplain⟩ := h
  rw [setAxisDir, if_neg hne, if_neg (by simp [hplain])]

theorem setAxisDir_of_not_drivesPin {bits last : BitVec 8} {s : State} {a : Axis}
    (h : drivesPin s.cfg bits last a = false) : setAxisDir bits last s a = s := by
  unfold setAxisDir
  split
  · rfl
  · next hne =>
    simp only [drivesPin, bne_iff_ne.2 hne, Bool.true_and, Bool.not_eq_false'] at h
    rw [if_pos h]

theorem setAxisDir_dirOut (bits last : BitVec 8) (s : State) (a b : Axis) :
    (setAxisDir bits last s a).pins.dirOut.read b =
      if a = b ∧ drivesPin s.cfg bits last a = true then bits.getLsbD a.val else s.pins.dirOut.read b := by
  cases h : drivesPin s.cfg bits last a with
  | true => simp [setAxisDir_of_drivesPin h, PerAxis.read_write]
  | false => simp [setAxisDir_of_not_drivesPin h]

/-- The records of SET_DIRECTIONS's loop over `axes`: one for each pin it drives to another level. -/
def dirRecords (bits last : BitVec 8) (s : State) (axes : List Axis) : List Record :=
  (axes.filter fun a => drivesPin s.cfg bits last a && (s.pins.dirOut.read a != bits.getLsbD a.val)).map
    fun a => ⟨s.timer.now, .dir a (bits.getLsbD a.val)⟩

theorem setAxisDir_trace (bits last : BitVec 8) (s : State) (a : Axis) :
    (setAxisDir bits last s a).trace = s.trace ++ dirRecords bits last s [a] := by
  cases h : drivesPin s.cfg bits last a with
  | true =>
    rw [setAxisDir_of_drivesPin h, driveDir_trace]
    by_cases hl : s.pins.dirOut.read a = bits.getLsbD a.val <;>
      simp [dirRecords, h, hl, -BitVec.getLsbD_eq_getElem]
  | false => simp [setAxisDir_of_not_drivesPin h, dirRecords, h]

/-- Driving axis `a`'s pin changes no other axis's record. -/
theorem dirRecords_setAxisDir (bits last : BitVec 8) (s : State) {a : Axis} {axes : List Axis} (ha : a ∉ axes) :
    dirRecords bits last (setAxisDir bits last s a) axes = dirRecords bits last s axes := by
  have hsame : ∀ b ∈ axes, (setAxisDir bits last s a).pins.dirOut.read b = s.pins.dirOut.read b := fun b hb => by
    rw [setAxisDir_dirOut, if_neg (fun ⟨hab, _⟩ => ha (hab ▸ hb))]
  unfold dirRecords
  rw [setAxisDir_cfg, setAxisDir_timer, List.filter_congr fun b hb => by rw [hsame b hb]]

theorem foldl_setAxisDir_trace (bits last : BitVec 8) {axes : List Axis} (h : axes.Nodup) (s : State) :
    (axes.foldl (setAxisDir bits last) s).trace = s.trace ++ dirRecords bits last s axes := by
  induction axes generalizing s with
  | nil => simp [dirRecords]
  | cons a axes ih =>
    obtain ⟨ha, hrest⟩ := List.nodup_cons.1 h
    have hsplit : dirRecords bits last s (a :: axes) = dirRecords bits last s [a] ++ dirRecords bits last s axes := by
      simp only [dirRecords, ← List.map_append, ← List.filter_append, List.singleton_append]
    rw [List.foldl_cons, ih hrest, setAxisDir_trace, dirRecords_setAxisDir bits last s ha, hsplit, List.append_assoc]

theorem foldl_setAxisDir_dirOut (bits last : BitVec 8) {axes : List Axis} (h : axes.Nodup) (s : State) (b : Axis) :
    (axes.foldl (setAxisDir bits last) s).pins.dirOut.read b =
      if b ∈ axes ∧ drivesPin s.cfg bits last b = true then bits.getLsbD b.val else s.pins.dirOut.read b := by
  rw [foldl_axis b (setAxisDir bits last) (fun t => t.pins.dirOut.read b) State.cfg
    (fun c x => if drivesPin c bits last b = true then bits.getLsbD b.val else x)
    (fun t a => setAxisDir_cfg bits last t a) (fun t => by simp [setAxisDir_dirOut])
    (fun t a hab => by simp [setAxisDir_dirOut, hab]) h, ite_and]

/-- `t` is `s` but for the DIR pins and the trace. -/
def OnlyDrivesDir (s t : State) : Prop := t = { s with pins.dirOut := t.pins.dirOut, trace := t.trace }

theorem driveDir_onlyDrivesDir (a : Axis) (level : Bool) (s : State) : OnlyDrivesDir s (driveDir a level s) := by
  unfold driveDir
  split <;> rfl

theorem OnlyDrivesDir.trans {s t u : State} (h : OnlyDrivesDir s t) (k : OnlyDrivesDir t u) : OnlyDrivesDir s u := by
  unfold OnlyDrivesDir at h k ⊢
  rw [k, h]

theorem foldl_setAxisDir_onlyDrivesDir (bits last : BitVec 8) (axes : List Axis) (s : State) :
    OnlyDrivesDir s (axes.foldl (setAxisDir bits last) s) := by
  refine PulseKept.foldl (I := OnlyDrivesDir s) (fun t a h => ?_) axes rfl
  cases hd : drivesPin t.cfg bits last a with
  | true => exact setAxisDir_of_drivesPin hd ▸ h.trans (driveDir_onlyDrivesDir a _ t)
  | false => rwa [setAxisDir_of_not_drivesPin hd]

/-! ## SET_DIRECTIONS -/

/-- Where the live bits agree, no existing axis's pin is driven. -/
theorem drivesPin_of_liveBits_eq {c : Config} {bits last : BitVec 8} (h : liveBits c bits = liveBits c last) {a : Axis}
    (ha : a.val < c.numAxes) : drivesPin c bits last a = false := by
  rw [drivesPin, (liveBits_eq_iff c bits last).1 h a ha, bne_self_eq_false, Bool.false_and]

theorem setDirections_dirOut (bits : BitVec 8) (s : State) (a : Axis) : (setDirections bits s).pins.dirOut.read a =
    if a.val < s.cfg.numAxes ∧ drivesPin s.cfg bits s.bres.lastDirectionBits a = true then bits.getLsbD a.val
    else s.pins.dirOut.read a := by
  unfold setDirections
  simp only []
  split
  · next h => rw [if_neg fun ⟨ha, hd⟩ => by simp [drivesPin_of_liveBits_eq h ha] at hd]
  · simp [foldl_setAxisDir_dirOut _ _ s.cfg.liveAxes_nodup]

theorem setDirections_trace (bits : BitVec 8) (s : State) :
    (setDirections bits s).trace = s.trace ++ dirRecords bits s.bres.lastDirectionBits s s.cfg.liveAxes := by
  unfold setDirections
  simp only []
  split
  · next h =>
    have hnone : dirRecords bits s.bres.lastDirectionBits s s.cfg.liveAxes = [] := by
      simp +contextual [dirRecords, drivesPin_of_liveBits_eq h]
    simp [hnone]
  · exact foldl_setAxisDir_trace _ _ s.cfg.liveAxes_nodup _

theorem setDirections_eq (bits : BitVec 8) (s : State) : setDirections bits s = { s with
    bres := { s.bres with
      countDirection := (setDirections bits s).bres.countDirection
      lastDirectionBits := (setDirections bits s).bres.lastDirectionBits }
    pins.dirOut := (setDirections bits s).pins.dirOut, trace := (setDirections bits s).trace } := by
  unfold setDirections
  simp only []
  split
  · rfl
  · rw [foldl_setAxisDir_onlyDrivesDir]

/-- Settles O43: the pins and the records are those of the loop over the existing axes, which does nothing where the
live bits agree. -/
theorem setDirectionsRule : Obligations.SetDirectionsRule := by
  intro s bits _ last moves
  have hagree := liveBits_eq_iff s.cfg bits last
  refine ⟨_, rfl, fun a => ?_, fun h => ?_, fun ⟨a, ha, hne⟩ k _ => ?_, fun a => ?_, ?_, setDirections_eq bits s⟩
  · simp [setDirections_countDirection, Dir.ofBit]
  · rw [setDirections_lastDirectionBits, if_pos (hagree.2 h)]
  · rw [setDirections_lastDirectionBits, if_neg fun h => hne (hagree.1 h a ha), getLsbD_liveBits]
  · rw [setDirections_dirOut]
    simp [moves, drivesPin, last, and_assoc]
  · rw [setDirections_trace, dirRecords, Config.liveAxes, List.filter_filter]
    refine congrArg (s.trace ++ List.map _ ·) (List.filter_congr fun a _ => ?_)
    simp only [moves, drivesPin, last, Bool.and_comm, Bool.and_left_comm, Bool.and_assoc]

end Sys2Proof.Machine
end

section
/-! SUPPORT. What the engine's work leaves alone: the host's registers, the moves to come, and all of the planner queue
but its head (46_direction_enable.md R265, 44_block_sequencer.md R204). -/

namespace Sys2Proof.Machine

/-- The host's registers with the diagnostics and the fault blanked: what only the host and the endstop source write
(10_state.md R44). -/
def commandRegisters (h : HostIf) : HostIf :=
  { h with overrunCount := 0, lostStepRisk := false, fault := false, faultCode := 0 }

/-- `t` comes from `s` by engine work: the parameters, the command registers and the moves to come are those of `s`, and
the planner queue has lost blocks at its head at most. -/
structure EngineWork (s t : State) : Prop where
  cfg : t.cfg = s.cfg
  registers : commandRegisters t.host = commandRegisters s.host
  schedule : t.env.schedule = s.env.schedule
  queue : t.pq <:+ s.pq

namespace EngineWork

theorem refl (s : State) : EngineWork s s := ⟨rfl, rfl, rfl, List.suffix_rfl⟩

theorem trans {s t u : State} (h : EngineWork s t) (k : EngineWork t u) : EngineWork s u :=
  ⟨k.cfg.trans h.cfg, k.registers.trans h.registers, k.schedule.trans h.schedule, k.queue.trans h.queue⟩

/-- Work that leaves parameters, host registers, queue and the model's fields alone is engine work. -/
theorem of_same {s t : State} (hcfg : t.cfg = s.cfg) (hhost : t.host = s.host) (hpq : t.pq = s.pq)
    (henv : t.env = s.env) : EngineWork s t :=
  ⟨hcfg, by rw [hhost], by rw [henv], hpq ▸ List.suffix_rfl⟩

end EngineWork

theorem discardBlock_engineWork (b : BlockRec) (s : State) : EngineWork s (discardBlock b s) :=
  ⟨by simp, by simp, by simp, by rw [discardBlock_eq]; exact List.tail_suffix _⟩

theorem pulsePhase_engineWork (s : State) : EngineWork s (pulsePhase s) := by
  refine ⟨by simp, by simp, by simp, ?_⟩
  unfold pulsePhase
  split
  · cases hcur : s.seq.current with
    | none => rw [consumeAbort_of_no_block hcur]
    | some b => rw [consumeAbort_of_block hcur]; exact List.tail_suffix _
  · split
    · exact List.suffix_rfl
    · simp

/-- LOAD_NEXT takes the sync blocks it applies from the head of the queue (44_block_sequencer.md R194). -/
theorem loadFrom_engineWork (q : List Descriptor) (s : State) : EngineWork s (loadFrom q s).1 := by
  induction q generalizing s with
  | nil => exact .refl s
  | cons d rest ih =>
    unfold loadFrom
    split
    · exact ⟨rfl, rfl, rfl, List.suffix_rfl⟩
    · split
      · exact ⟨rfl, rfl, rfl, List.suffix_rfl⟩
      · split
        · refine .trans ⟨by simp, by simp, by simp, ?_⟩ (ih _)
          simpa using List.tail_suffix s.pq
        · exact .of_same (by simp) (by simp) (by simp) (by simp)

theorem blockPhase_engineWork (s : State) : EngineWork s (blockPhase s).1 := by
  unfold blockPhase
  split
  · exact loadFrom_engineWork s.pq s
  · next b _ =>
    split
    · have hdone : EngineWork s (completeBlock b s) :=
        .trans (t := emit (.blockDone b.id) s) (.of_same rfl rfl rfl rfl) (discardBlock_engineWork b _)
      exact hdone.trans (loadFrom_engineWork _ _)
    · exact .of_same (by simp) (by simp) (by simp) (by simp)

theorem overrunCheck_commandRegisters (interval e : Nat) (s : State) :
    commandRegisters (overrunCheck interval e s).host = commandRegisters s.host := by
  unfold overrunCheck
  simp only []
  repeat' split
  all_goals rfl

theorem programTimer_engineWork (e : Nat) (s : State) : EngineWork s (programTimer e s) :=
  ⟨by simp, overrunCheck_commandRegisters (selectInterval s) e s, by simp [programTimer], by simp⟩

theorem engineWork_engineKept (s : State) : EngineKept (EngineWork s) where
  nextMain _ _ h := h.trans (.of_same rfl rfl rfl rfl)
  nextAdv _ _ h := h.trans (.of_same rfl rfl rfl rfl)
  nextBaby _ _ h := h.trans (.of_same rfl rfl rfl rfl)
  pulsePhase u h := h.trans (pulsePhase_engineWork u)
  stepEvent u h := h.trans (.of_same (by simp) (by simp) (by simp) (by simp))
  shapingIsr u h := h.trans (.of_same (by simp) (by simp) (by simp) (by simp))
  advanceIsr u h := h.trans (.of_same (by simp) (by simp) (by simp) (by simp))
  babystepIsr u h := h.trans (.of_same (by simp) (by simp) (by simp) (by simp))
  blockPhase u h := h.trans (blockPhase_engineWork u)
  program u e h := h.trans (programTimer_engineWork e u)

/-- Every engine operation is engine work: a reply and a discarded block are too. -/
theorem exec_engineWork {i : Instr} {s t : State} (hf : i.format = .evt ∨ i.format = .pln) (h : exec i s = .next t) :
    EngineWork s t :=
  (engineWork_engineKept s).exec (fun _ _ hu => hu.trans ⟨rfl, rfl, rfl, List.suffix_rfl⟩)
    (fun _ hu => hu.trans ⟨rfl, rfl, rfl, List.tail_suffix _⟩) hf (.refl s) h

/-- Settles O60: the operation is engine work, which keeps the registers and all of the queue but its head; the trace
and the enable lines have the frame of an operation. -/
theorem engineFrameHolds : Obligations.EngineFrameHolds := by
  intro s t i hf h
  obtain ⟨hcfg, hregs, hsched, hqueue⟩ := exec_engineWork (.inl hf) h
  simp only [commandRegisters, HostIf.mk.injEq] at hregs
  obtain ⟨harg, hresult, hpending, hcmd, herr, hcode, hpos, hhit, -⟩ := hregs
  obtain ⟨⟨added, htrace⟩, -, hlines⟩ := exec_opFrame h
  have hcommand : ∀ f, i ≠ .enable f ∧ i ≠ .disable f := fun f => by
    constructor <;> rintro rfl <;> simp at hf
  exact ⟨hcfg, harg, hresult, hpending, hcmd, herr, hcode, hpos, hhit, hlines hcommand, hsched,
    ⟨added, htrace.symm⟩, ⟨_, List.suffix_iff_eq_drop.1 hqueue⟩⟩

end Sys2Proof.Machine
end

section
/-! SUPPORT. Commands: the operand checks that raise HostErrors, the results of the plain and the synchronizing
commands, and BABYSTEP (47_host_interface.md R276, R279 to R288, 60_exceptions.md R311 to R313). -/

namespace Sys2Proof

theorem Instr.format_eq_cmd_iff (i : Instr) : i.format = .cmd ↔ i.opc < 0x80 := by
  unfold Instr.format formatOf
  rw [opcOf_encode]
  split_ifs with h <;> simp [h]

theorem Instr.wellFormed_of_axisField {i : Instr} {f : Fin 16} (h : i.axisField = some f) (c : Config) :
    i.wellFormed c = decide (f.val < c.numAxes) := by
  simp [Instr.wellFormed, h]

theorem Instr.wellFormed_of_no_axisField {i : Instr} (h : i.axisField = none) (c : Config) : i.wellFormed c = true := by
  simp [Instr.wellFormed, h]

namespace Machine

/-! ## The operand checks (47_host_interface.md R276) -/

theorem operandError_of_not_wellFormed {i : Instr} {s : State} (h : i.wellFormed s.cfg = false) :
    operandError i s = some .badAxis := by
  simp [operandError, h]

/-- Only BABYSTEP has checks beyond its axis. -/
theorem operandError_of_wellFormed {i : Instr} {s : State} (h : i.wellFormed s.cfg = true)
    (hbaby : ∀ f, i ≠ .babystep f) : operandError i s = none := by
  cases i with
  | babystep f => exact absurd rfl (hbaby f)
  | _ => simp [operandError, h]

theorem operandError_of_no_axisField {i : Instr} (h : i.axisField = none) (s : State) : operandError i s = none :=
  operandError_of_wellFormed (i.wellFormed_of_no_axisField h s.cfg) fun f hi => by
    rw [hi] at h; cases h

/-- BABYSTEP's checks, in LEGALITY's order: axis, feature, argument. -/
theorem operandError_babystep (f : Fin 16) (s : State) : operandError (.babystep f) s =
    if s.cfg.numAxes ≤ f.val then some .badAxis
    else if s.cfg.babystepping = false then some .featureAbsent
    else if 2 ≤ (s.host.arg.read 0).toNat then some .badArg
    else none := by
  simp [operandError, Instr.wellFormed, Instr.axisField, argDirClean, argWord, Nat.succ_le_iff]

/-- A command that takes an axis, on axis field `f`. -/
theorem axisCommand_fields {f : Fin 16} {i : Instr}
    (h : i ∈ [Instr.getPosition f, .setAxisPosition f, .babystep f, .enable f, .disable f]) :
    i.format = .cmd ∧ i.axisField = some f := by
  rw [Instr.format_eq_cmd_iff]
  simp only [List.mem_cons, List.not_mem_nil, or_false] at h
  rcases h with rfl | rfl | rfl | rfl | rfl <;> exact ⟨by simp [Instr.opc], rfl⟩

/-- Settles O10: LEGALITY's operand checks, which the command makes itself. -/
theorem badOperandsRaiseHostErrors : Obligations.BadOperandsRaiseHostErrors := by
  intro s f
  have hcmd : (Instr.babystep f).format = .cmd := (axisCommand_fields (f := f) (by simp)).1
  refine ⟨fun hf i hi => ?_, fun hf hfeature => ?_, fun hf hfeature harg => ?_⟩
  · obtain ⟨hcmd, haxis⟩ := axisCommand_fields hi
    have hwf : i.wellFormed s.cfg = false := by simp [Instr.wellFormed_of_axisField haxis, hf]
    exact exec_operandError hcmd (operandError_of_not_wellFormed hwf)
  · have herr : operandError (.babystep f) s = some .featureAbsent := by simp [operandError_babystep, hf, hfeature]
    exact exec_operandError hcmd herr
  · have herr : operandError (.babystep f) s = some .badArg := by simp [operandError_babystep, hf, hfeature, harg]
    exact exec_operandError hcmd herr

/-! ## Commands without an axis -/

theorem perform_of_no_axisField {i : Instr} (h : i.axisField = none) (s : State) (k : State → State) :
    perform i s k = .next (k s) := by
  simp [perform, operandError_of_no_axisField h]

theorem blockBusy_of_none {s : State} (h : s.seq.current = none) : blockBusy s = false := by
  simp [blockBusy, h]

theorem blockBusy_of_some {s : State} {b : BlockRec} (h : s.seq.current = some b) :
    blockBusy s = (b.id == s.host.arg.read 0) := by
  simp [blockBusy, h, argId, argWord]

theorem exec_isBlockBusy (s : State) : exec .isBlockBusy s = .next (setResult (boolWord (blockBusy s)) s) :=
  perform_of_no_axisField (i := .isBlockBusy) rfl s _

theorem exec_isIdle (s : State) : exec .isIdle s = .next (setResult (boolWord (idle s)) s) :=
  perform_of_no_axisField (i := .isIdle) rfl s _

theorem idle_of_not_engineIdle {s : State} (h : ¬EngineIdle s) : idle s = false := by
  rwa [← idle_iff_engineIdle, Bool.not_eq_true] at h

/-- Settles O11: none of these commands has an operand to check, so each runs its body. -/
theorem plainCommandResults : Obligations.PlainCommandResults := by
  intro s
  refine ⟨rfl, rfl, rfl, rfl, fun hcur => ?_, fun b hcur => ?_, fun hidle => ?_, fun hbusy => ?_⟩
  · rw [exec_isBlockBusy, blockBusy_of_none hcur]; rfl
  · rw [exec_isBlockBusy, blockBusy_of_some hcur]; simp [boolWord, setResult]
  · rw [exec_isIdle, (idle_iff_engineIdle s).2 hidle]; rfl
  · rw [exec_isIdle, idle_of_not_engineIdle hbusy]; rfl

/-! ## Synchronizing commands -/

theorem whenIdle_of_idle {s : State} (h : EngineIdle s) (k : State → State) : whenIdle k s = k s :=
  if_pos ((idle_iff_engineIdle s).2 h)

theorem whenIdle_of_not_idle {s : State} (h : ¬EngineIdle s) (k : State → State) : whenIdle k s = holdCommand s :=
  if_neg fun hi => h ((idle_iff_engineIdle s).1 hi)

theorem exec_setPosition (s : State) :
    exec .setPosition s = .next (whenIdle (fun t => setResult 0 (loadPositions t)) s) :=
  perform_of_no_axisField (i := .setPosition) rfl s _

section
variable {s : State} {a : Axis} (ha : a.val < s.cfg.numAxes)
include ha

theorem exec_getPosition : exec (.getPosition (fieldOf a)) s =
    .next (whenIdle (fun t => setResult (t.bres.countPosition.read a) t) s) :=
  performAxis_fieldOf (i := .getPosition (fieldOf a)) (operandError_of_wellFormed (decide_eq_true ha) nofun) ha _

theorem exec_setAxisPosition : exec (.setAxisPosition (fieldOf a)) s =
    .next (whenIdle (fun t => setResult 0 (setCountPosition a (argWord 0 t) t)) s) :=
  performAxis_fieldOf (i := .setAxisPosition (fieldOf a)) (operandError_of_wellFormed (decide_eq_true ha) nofun) ha _

end

/-- Settles O12: each command runs its body where the engine is idle and is held where it is not. -/
theorem positionCommands : Obligations.PositionCommands := by
  refine fun s a ha => ⟨fun hidle => ?_, fun hbusy => ?_⟩
  · rw [exec_getPosition ha, exec_setAxisPosition ha, exec_setPosition]
    simp only [whenIdle_of_idle hidle]
    exact ⟨rfl, rfl, _, rfl, fun b => PerAxis.read_build _ b⟩
  · simp only [List.mem_cons, List.not_mem_nil, or_false, forall_eq_or_imp, forall_eq]
    rw [exec_getPosition ha, exec_setAxisPosition ha, exec_setPosition]
    simp only [whenIdle_of_not_idle hbusy]
    exact ⟨rfl, rfl, rfl⟩

/-! ## BABYSTEP (47_host_interface.md R285) -/

/-- A legal argument's bit 0 is its direction (30_encoding.md R83). -/
theorem argDir_sign {s : State} (h : s.host.arg.read 0 = 0 ∨ s.host.arg.read 0 = 1) :
    (argDir s).sign = if s.host.arg.read 0 = 1 then -1 else 1 := by
  rcases h with h | h <;> simp [argDir, argWord, h, Dir.ofBit, Dir.sign]

theorem exec_babystep {s : State} {a : Axis} (ha : a.val < s.cfg.numAxes) (hfeature : s.cfg.babystepping = true)
    (harg : s.host.arg.read 0 = 0 ∨ s.host.arg.read 0 = 1) :
    exec (.babystep (fieldOf a)) s = .next (requestBabystep a s) := by
  have hfield : ¬s.cfg.numAxes ≤ (fieldOf a).val := Nat.not_le.2 ha
  have hok : operandError (.babystep (fieldOf a)) s = none := by
    rcases harg with harg | harg <;> simp [operandError_babystep, hfield, hfeature, harg]
  exact performAxis_fieldOf hok ha _

/-- Settles O14: the request is counted exactly where the new count is within the bound. -/
theorem babystepRequest : Obligations.BabystepRequest := by
  intro s a ha hfeature harg n
  rw [exec_babystep ha hfeature harg, requestBabystep, argDir_sign harg]
  exact ⟨fun hle => by rw [if_pos hle]; rfl, fun hgt => by rw [if_neg (Nat.not_le.2 hgt)]; rfl⟩

end Machine
end Sys2Proof
end

section
/-! SUPPORT. The command handshake: LEGALITY's order, ISSUE and SYNC_PERFORM (47_host_interface.md R275 to R277). -/

namespace Sys2Proof.Machine

/-! ## LEGALITY (47_host_interface.md R276) -/

/-- The OPC values of the commands (30_encoding.md R84). -/
def commandOpcs : List Nat := [0x01, 0x10, 0x11, 0x12, 0x13, 0x15, 0x16, 0x17, 0x18, 0x19, 0x1A, 0x1B]

/-- A word's command has its OPC, and its AXIS where it takes an axis. -/
theorem commandOf_fields {w : Word} {i : Instr} (h : commandOf w = some i) :
    i.format = .cmd ∧ i.opc = opcOf w ∧ (i.axisField = some (axisOf w) ∨ i.axisField = none) := by
  unfold commandOf at h
  split at h
  · next hf =>
    have hfields : i.opc = opcOf w ∧ (i.axisField = some (axisOf w) ∨ i.axisField = none) := by
      rcases Option.or_eq_some_iff.1 h with hi | ⟨-, hi⟩
      · exact (axisInstr_fields hi).imp_right .inl
      · exact (plainInstr_fields hi).imp_right .inr
    have hformat : i.format = formatOf w := by simp only [Instr.format, formatOf, opcOf_encode, hfields.1]
    exact ⟨hformat.trans hf, hfields⟩
  · cases h

theorem opc_mem_commandOpcs {i : Instr} (h : i.format = .cmd) : i.opc ∈ commandOpcs := by
  rw [Instr.format_eq_cmd_iff] at h
  cases i <;> simp [Instr.opc, commandOpcs] at h ⊢

/-- A word names a command exactly if its OPC is one of theirs. -/
theorem commandOf_eq_none_iff (w : Word) : commandOf w = none ↔ opcOf w ∉ commandOpcs := by
  constructor
  · intro hnone hmem
    simp only [commandOpcs, List.mem_cons, List.not_mem_nil, or_false] at hmem
    rcases hmem with h | h | h | h | h | h | h | h | h | h | h | h <;>
      simp [commandOf, formatOf, axisInstr, plainInstr, h] at hnone
  · intro hmem
    cases hc : commandOf w with
    | none => rfl
    | some i =>
      obtain ⟨hf, hopc, -⟩ := commandOf_fields hc
      exact absurd (hopc ▸ opc_mem_commandOpcs hf) hmem

theorem legality_of_no_command {w : Word} (h : commandOf w = none) (s : State) :
    legality w s = some .illegalOpcode := by
  simp only [legality, h]

theorem legality_of_command {w : Word} {i : Instr} (h : commandOf w = some i) (s : State) : legality w s =
    if rsvOf w ≠ 0 then some .reservedField
    else if i.axisField = none ∧ (axisOf w).val ≠ 0 then some .badAxis
    else operandError i s := by
  simp only [legality, h]

/-- Settles O8: a word that names no command has code 1; for each command the checks come in the rule's order, its AXIS
field being an axis or zero. -/
theorem legalityOrder : Obligations.LegalityOrder := by
  intro w s opc axis
  change _ = if opcOf w ∉ commandOpcs then _ else _
  cases hc : commandOf w with
  | none =>
    rw [legality_of_no_command hc, if_pos ((commandOf_eq_none_iff w).1 hc)]
    rfl
  | some i =>
    obtain ⟨hf, hopc, haxis⟩ := commandOf_fields hc
    have hmem : opcOf w ∈ commandOpcs := hopc ▸ opc_mem_commandOpcs hf
    rw [if_neg (not_not.2 hmem), legality_of_command hc, show opc = i.opc from hopc.symm,
      show w.toNat / 4096 = rsvOf w from rfl, show axis = (axisOf w).val from rfl]
    cases i with
    | babystep f =>
      obtain rfl : f = axisOf w := Option.some.inj (haxis.resolve_right nofun)
      rw [operandError_babystep]
      simp [Instr.opc, Instr.axisField, apply_ite (Option.map HostError.code), HostError.code]
    | getPosition f | setAxisPosition f | enable f | disable f =>
      obtain rfl : f = axisOf w := Option.some.inj (haxis.resolve_right nofun)
      simp [operandError, Instr.wellFormed, Instr.opc, Instr.axisField, apply_ite (Option.map HostError.code),
        HostError.code]
    | nop | setPosition | isBlockBusy | abort | clearEndstops | isIdle | clearDiag =>
      rw [operandError_of_no_axisField rfl]
      simp [Instr.opc, Instr.axisField, apply_ite (Option.map HostError.code), HostError.code]
    | _ => simp [Instr.format_eq_cmd_iff, Instr.opc] at hf

/-! ## ISSUE (47_host_interface.md R275) -/

section
variable {w : Word} {s : State}

theorem issue_of_pending (h : s.host.cmdPending = true) : issue w s = .next (raiseHostError .cmdOverrun s) := by
  simp [issue, h]

theorem issue_of_illegal {e : HostError} (hp : s.host.cmdPending = false) (h : legality w s = some e) :
    issue w s = .next (raiseHostError e s) := by
  simp [issue, hp, h]

theorem issue_of_synchronizing {i : Instr} (hp : s.host.cmdPending = false) (h : legality w s = none)
    (hd : decode w = .ok i) (hi : i.synchronizing = true) : issue w s = .next (holdCommand (acceptCommand w s)) := by
  simp [issue, hp, h, hd, hi]

theorem issue_of_not_synchronizing {i : Instr} (hp : s.host.cmdPending = false) (h : legality w s = none)
    (hd : decode w = .ok i) (hi : i.synchronizing = false) : issue w s = exec i (acceptCommand w s) := by
  simp [issue, hp, h, hd, hi]

end

/-- A step whose oldest move writes CMD issues the word. -/
theorem step_write_cmd {s : State} {w : Word} {rest : List Move} (hlegal : s.cfg.legal = true)
    (hs : s.env.schedule = .write s.cfg.regBase 4 w :: rest) : step s = issue w { s with env.schedule := rest } :=
  (step_head hlegal hs).trans (hostWrite_cmd w { s with env.schedule := rest })

/-- Settles O7: the four outcomes of ISSUE. -/
theorem issueHandshake : Obligations.IssueHandshake := by
  intro s w rest hlegal hs s0 s1
  rw [step_write_cmd hlegal hs]
  refine ⟨fun hp => issue_of_pending hp, fun hp e he => issue_of_illegal hp he, fun hp hok => ?_⟩
  obtain ⟨i, hd, hf, -⟩ := legality_none hok
  exact ⟨i, hd, (decode_format hd).trans hf, issue_of_synchronizing hp hok hd, issue_of_not_synchronizing hp hok hd⟩

/-! ## SYNC_PERFORM (47_host_interface.md R277) -/

theorem syncPerform_of_enabled {s : State} {i : Instr} (hp : s.host.cmdPending = true) (hidle : EngineIdle s)
    (hd : decode s.host.pendingCmd = .ok i) : syncPerform s = exec i (releaseCommand s) := by
  simp [syncPerform, syncEnabled, hp, (idle_iff_engineIdle s).2 hidle, hd]

theorem syncPerform_of_not_enabled {s : State} (h : s.host.cmdPending = false ∨ ¬EngineIdle s) :
    syncPerform s = .next s := by
  have hoff : syncEnabled s = false := by
    rcases h with h | h
    · simp [syncEnabled, h]
    · simp [syncEnabled, idle_of_not_engineIdle h]
  simp [syncPerform, hoff]

/-- Under a legal configuration an AXIS field below NUM_AXES is that of an axis. -/
theorem exists_fieldOf {c : Config} (hlegal : c.legal = true) {f : Fin 16} (hf : f.val < c.numAxes) :
    ∃ a : Axis, a.val < c.numAxes ∧ f = fieldOf a :=
  ⟨⟨f.val, hf.trans_le (Config.legal_numAxes_le hlegal)⟩, hf, rfl⟩

/-- A synchronizing command of an existing axis, performed when the engine is idle, writes the result and positions
alone (47_host_interface.md R280 to R282). -/
theorem exec_synchronizing_of_idle {s : State} {i : Instr} (hlegal : s.cfg.legal = true) (hi : i.synchronizing = true)
    (hwf : i.wellFormed s.cfg = true) (hidle : EngineIdle s) :
    ∃ v p, exec i s = .next { s with host.result := v, bres.countPosition := p } := by
  cases i with
  | setPosition => exact ⟨_, _, by rw [exec_setPosition, whenIdle_of_idle hidle]; rfl⟩
  | getPosition f =>
    obtain ⟨a, ha, rfl⟩ := exists_fieldOf hlegal (of_decide_eq_true hwf)
    exact ⟨_, _, by rw [exec_getPosition ha, whenIdle_of_idle hidle]; rfl⟩
  | setAxisPosition f =>
    obtain ⟨a, ha, rfl⟩ := exists_fieldOf hlegal (of_decide_eq_true hwf)
    exact ⟨_, _, by rw [exec_setAxisPosition ha, whenIdle_of_idle hidle]; rfl⟩
  | _ => cases hi

/-- Settles O9: not enabled it does nothing; enabled it runs the pending command, which synchronizes. -/
theorem syncPerformOnlyWhenIdle : Obligations.SyncPerformOnlyWhenIdle := by
  intro s rest hlegal hpending hs
  rw [step_head hlegal hs]
  refine ⟨fun h => syncPerform_of_not_enabled h, fun hp hidle => ?_⟩
  obtain ⟨i, hd, hi, hwf⟩ := hpending hp
  obtain ⟨v, p, hx⟩ :=
    exec_synchronizing_of_idle (s := releaseCommand { s with env.schedule := rest }) hlegal hi hwf hidle
  exact ⟨v, p, (syncPerform_of_enabled (s := { s with env.schedule := rest }) hp hidle hd).trans hx⟩

/-- Settles O5: LEGALITY of a command's word is the check of its operands. -/
theorem stepRunsCommandWord : Obligations.StepRunsCommandWord := by
  intro s w i rest hlegal hd hf
  refine ⟨fun hp hs => ?_, fun hp hw hidle hs => ?_⟩
  · have hcheck : legality w { s with env.schedule := rest } = operandError i s := legality_of_decode hd hf
    rw [step_write_cmd hlegal hs]
    refine ⟨fun hok hi => issue_of_not_synchronizing hp (hcheck.trans hok) hd hi, fun hbad => ?_⟩
    obtain ⟨e, he⟩ : ∃ e, operandError i { s with env.schedule := rest } = some e := Option.ne_none_iff_exists'.1 hbad
    rw [exec_operandError hf he]
    exact issue_of_illegal hp (hcheck.trans he)
  · rw [step_head hlegal hs]
    exact syncPerform_of_enabled (s := { s with env.schedule := rest }) hp hidle (hw ▸ hd)

end Sys2Proof.Machine
end

section
/-! SUPPORT. The endstop port, the planner port and reset (47_host_interface.md R295, R300 to R302,
70_reset_and_hazards.md R340, R341). -/

namespace Sys2Proof.Machine

/-! ## The endstop port (47_host_interface.md R295) -/

theorem axisOperand_eq_none {c : Config} {f : Fin 16} (h : c.numAxes ≤ f.val) : axisOperand c f = none :=
  dif_neg fun hlt => absurd hlt.1 (Nat.not_lt.2 h)

theorem exec_endstop {s : State} {a : Axis} (ha : a.val < s.cfg.numAxes) :
    exec (.endstop (fieldOf a)) s = .next (endstopTriggered a s) := by
  simp [exec, execEndstop, axisOperand_fieldOf ha]

theorem exec_endstop_of_no_axis {s : State} {f : Fin 16} (h : s.cfg.numAxes ≤ f.val) :
    exec (.endstop f) s = .next s := by
  simp [exec, execEndstop, axisOperand_eq_none h]

/-- ENDSTOP is the only operation of the endstop port (30_encoding.md R86). -/
theorem eq_endstop_of_format {i : Instr} (h : i.format = .ein) : ∃ f, i = .endstop f := by
  cases i with
  | endstop f => exact ⟨f, rfl⟩
  | _ => simp [Instr.format, formatOf, opcOf_encode, Instr.opc] at h

/-- A word that is no ENDSTOP word changes nothing (30_encoding.md R89). -/
theorem endstopInput_ignored {w : Word} (h : ∀ f, decode w ≠ .ok (.endstop f)) (s : State) :
    endstopInput w s = .next s := by
  unfold endstopInput
  split
  · next i hd =>
    refine if_neg fun hf => ?_
    obtain ⟨f, rfl⟩ := eq_endstop_of_format hf
    exact h f hd
  · rfl

/-- Settles O15: the trigger of an existing axis, and the two kinds of word that are ignored. -/
theorem endstopRecordsAndAborts : Obligations.EndstopRecordsAndAborts := by
  refine ⟨fun s a ha => exec_endstop ha, fun s f => exec_endstop_of_no_axis, fun s w rest hlegal hs hw => ?_⟩
  rw [step_head hlegal hs]
  exact endstopInput_ignored hw _

/-! ## The planner port (47_host_interface.md R300 to R302) -/

theorem plannerMove_appends {d : Descriptor} {s : State} (hr : s.pq.length < s.cfg.plannerCap)
    (hb : ¬PlannerDutyBroken d s) : plannerMove d s = .next { s with pq := s.pq ++ [d] } := by
  rw [← breaksPlannerDuty_iff] at hb
  simp [plannerMove, plannerAppend, hr, hb]

theorem plannerMove_of_full {d : Descriptor} {s : State} (hr : s.cfg.plannerCap ≤ s.pq.length) :
    plannerMove d s = .next s := by
  simp [plannerMove, plannerAppend, Nat.not_lt.2 hr]

theorem exec_getCurrentBlock {s : State} (h : s.host.fault = false) :
    exec .getCurrentBlock s = .next (setReply (.block s.pq.head?) s) :=
  congrArg _ (engineStep_of_no_fault h)

theorem exec_discardCurrentBlock {s : State} (h : s.host.fault = false) :
    exec .discardCurrentBlock s = .next (plannerDiscard s) :=
  congrArg _ (engineStep_of_no_fault h)

/-- Settles O19: the two operations of the port where no fault stands, and the three outcomes of an append. -/
theorem plannerPort : Obligations.PlannerPort := by
  refine fun s => ⟨exec_getCurrentBlock, fun hfault d rest hpq => ?_, fun hfault hpq => ?_,
    fun d rest hlegal hs => ?_⟩
  · rw [exec_discardCurrentBlock hfault, plannerDiscard, hpq, List.tail_cons]
  · have htail : s.pq.tail = s.pq := by rw [hpq, List.tail_nil]
    rw [exec_discardCurrentBlock hfault, plannerDiscard, htail]
  · rw [step_head hlegal hs]
    exact ⟨fun hr hb => plannerMove_appends hr hb, fun hr hb => plannerMove_refused hr hb,
      fun hfull => plannerMove_of_full hfull⟩

/-! ## Reset (70_reset_and_hazards.md R340, R341) -/

/-- Settles O55: nothing is loaded, queued, pending or raised at reset, and every counter is 0. -/
theorem invariantsAtReset : Obligations.InvariantsAtReset := by
  intro c pq e s
  have hzero : ∀ a, s.babyPending.read a = 0 ∧ s.shaping.delta.read a = 0 ∧ s.shaping.queue.read a = [] := fun a =>
    ⟨PerAxis.read_all 0 a, PerAxis.read_all 0 a, PerAxis.read_all [] a⟩
  refine ⟨fun a => PerAxis.read_all false a, nofun, nofun, fun a _ => ?_, fun a _ => ?_, fun a _ => ?_,
    ⟨Nat.zero_le _, Nat.zero_le _, Nat.zero_le _, Nat.zero_le _⟩, fun a => ?_, nofun,
    ⟨Nat.two_pow_pos 32, Nat.two_pow_pos 32, Nat.two_pow_pos 32⟩, nofun⟩
  all_goals simp [hzero a]

/-- Settles O56: the step is `resetMachine` on the state without the move. -/
theorem resetValues : Obligations.ResetValues := by
  intro s rest hlegal hs
  refine ⟨_, step_head hlegal hs, ?_⟩
  simp [resetMachine, State.resetWith]

end Sys2Proof.Machine
end

section
/-! SUPPORT. What every step keeps of a pending command and of the block a fault refused (47_host_interface.md R277,
60_exceptions.md R313, R314). -/

namespace Sys2Proof.Machine

/-! ## The pending command (47_host_interface.md R277) -/

/-- A pending command is of the same meaning in any state with the same parameters and handshake. -/
theorem PendingCommandLegal.of_same {s t : State} (h : PendingCommandLegal s) (hcfg : t.cfg = s.cfg)
    (hpending : t.host.cmdPending = s.host.cmdPending) (hcmd : t.host.pendingCmd = s.host.pendingCmd) :
    PendingCommandLegal t := by
  unfold PendingCommandLegal
  rw [hcfg, hpending, hcmd]
  exact h

/-- An operation that does not synchronize leaves the handshake alone (47_host_interface.md R275). -/
theorem exec_keeps_handshake {i : Instr} {s t : State} (hi : i.synchronizing = false) (h : exec i s = .next t) :
    t.host.cmdPending = s.host.cmdPending ∧ t.host.pendingCmd = s.host.pendingCmd := by
  rcases Instr.format_host_or_engine i with hf | hf
  · have hsame := (exec_hostFrame hf h).synchronized hi
    simp only [synchronizedPart, Prod.mk.injEq] at hsame
    exact hsame.2
  · have hregs := (exec_engineWork hf h).registers
    simp only [commandRegisters, HostIf.mk.injEq] at hregs
    obtain ⟨-, -, hpending, hcmd, -⟩ := hregs
    exact ⟨hpending, hcmd⟩

theorem exec_keeps_pendingCommandLegal {i : Instr} {s t : State} (hi : i.synchronizing = false)
    (hs : PendingCommandLegal s) (h : exec i s = .next t) : PendingCommandLegal t :=
  have ⟨hpending, hcmd⟩ := exec_keeps_handshake hi h
  hs.of_same ((cfg_kept s.cfg).exec i rfl h) hpending hcmd

/-- With no command pending there is nothing to ask. -/
theorem PendingCommandLegal.of_none {s : State} (h : s.host.cmdPending = false) : PendingCommandLegal s :=
  fun hp => by rw [h] at hp; cases hp

/-- A command is pended only by ISSUE, which has checked it, and SYNC_PERFORM ends it. -/
theorem step_keeps_pendingCommandLegal {s t : State} (hs : PendingCommandLegal s) (h : step s = .next t) :
    PendingCommandLegal t := by
  obtain ⟨hlegal, m, e, hm⟩ := step_next h
  rcases runMove_next hm with ⟨r, rfl⟩ | ⟨e, rfl⟩ | ⟨w, i, hd, hi, hwf, rfl⟩ | ⟨w, i, hp, hi, -, hx⟩ |
    ⟨i, hidle, hp, hd, hx⟩ | ⟨i, v, rfl⟩ | rfl | ⟨i, hf, hx⟩ | ⟨d, rfl⟩ | ⟨draw, rfl⟩ | rfl
  · exact hs
  · exact hs
  · exact fun _ => ⟨i, hd, hi, hwf⟩
  · exact .of_none ((exec_keeps_handshake hi hx).1.trans hp)
  · obtain ⟨j, hj, hsync, hwf⟩ := hs hp
    cases hd.symm.trans hj
    obtain ⟨v, p, hx'⟩ := exec_synchronizing_of_idle (s := releaseCommand { s with env := e }) hlegal hsync hwf
      ((idle_iff_engineIdle _).1 hidle)
    cases hx.symm.trans hx'
    exact .of_none rfl
  · exact hs
  · exact hs
  · have hi : i.synchronizing = false :=
      Instr.synchronizing_of_not_cmd fun hcmd => by rw [hcmd] at hf; rcases hf with hf | hf | hf <;> cases hf
    exact exec_keeps_pendingCommandLegal (s := { s with env := e }) hi hs hx
  · unfold plannerAppend
    split <;> exact hs
  · exact exec_keeps_pendingCommandLegal (i := .tick) (s := { s with env := { e with elapsed := draw } }) rfl hs rfl
  · exact .of_none rfl

/-! ## The planner queue under a fault (60_exceptions.md R314) -/

theorem requestBabystep_pq (a : Axis) (s : State) : (requestBabystep a s).pq = s.pq := by
  unfold requestBabystep
  simp only []
  split <;> rfl

theorem driveEnable_pq (a : Axis) (on : Bool) (s : State) : (reportEnable (driveEnable a on s)).pq = s.pq :=
  driveEnable_keeps (P := fun t => (reportEnable t).pq = s.pq) fun _ _ => rfl

theorem whenIdle_pq {k : State → State} {s : State} (h : (k s).pq = s.pq) : (whenIdle k s).pq = s.pq := by
  unfold whenIdle
  split
  · exact h
  · rfl

/-- The host and the endstop source leave the planner queue alone (47_host_interface.md R300). -/
theorem exec_host_pq {i : Instr} {s t : State} (hf : i.format = .cmd ∨ i.format = .ein) (h : exec i s = .next t) :
    t.pq = s.pq := by
  have herr : ∀ e, (raiseHostError e s).pq = s.pq := fun _ => rfl
  cases i with
  | nop | isBlockBusy | abort | clearEndstops | isIdle | clearDiag =>
    simp only [exec, execNop, execIsBlockBusy, execAbort, execClearEndstops, execIsIdle, execClearDiag] at h
    exact perform_keeps (P := fun t => t.pq = s.pq) herr rfl h
  | setPosition =>
    simp only [exec, execSetPosition] at h
    exact perform_keeps (P := fun t => t.pq = s.pq) herr (whenIdle_pq rfl) h
  | getPosition f | setAxisPosition f =>
    simp only [exec, execGetPosition, execSetAxisPosition] at h
    exact performAxis_keeps (P := fun t => t.pq = s.pq) herr (fun _ => whenIdle_pq rfl) h
  | babystep f =>
    exact performAxis_keeps (P := fun t => t.pq = s.pq) herr (fun a => requestBabystep_pq a s) h
  | enable f | disable f =>
    simp only [exec, execEnable, execDisable] at h
    refine performAxis_keeps (P := fun t => t.pq = s.pq) herr (fun a => ?_) h
    exact driveEnable_pq a _ s
  | endstop f =>
    simp only [exec, execEndstop] at h
    split at h <;> cases h <;> rfl
  | _ => simp [Instr.format, formatOf, opcOf_encode, Instr.opc] at hf

/-- Under a fault no operation touches the planner queue. -/
theorem exec_pq_of_fault {i : Instr} {s t : State} (hfault : s.host.fault = true) (h : exec i s = .next t) :
    t.pq = s.pq := by
  rcases Instr.format_host_or_engine i with hf | hf
  · exact exec_host_pq hf h
  · rw [exec_of_fault hfault hf] at h
    cases h
    rfl

theorem plannerAppend_prefix (d : Descriptor) (s : State) : s.pq <+: (plannerAppend d s).pq := by
  unfold plannerAppend
  split
  · exact List.prefix_append _ _
  · exact List.prefix_rfl

/-- Under a fault a step, reset included, takes nothing from the planner queue. -/
theorem step_pq_of_fault {s t : State} (hfault : s.host.fault = true) (h : step s = .next t) : s.pq <+: t.pq := by
  obtain ⟨-, m, e, hm⟩ := step_next h
  have hsame : t.pq = s.pq → s.pq <+: t.pq := fun heq => heq ▸ List.prefix_rfl
  rcases runMove_next hm with ⟨r, rfl⟩ | ⟨e, rfl⟩ | ⟨w, i, -, -, -, rfl⟩ | ⟨w, i, -, -, -, hx⟩ | ⟨i, -, -, -, hx⟩ |
    ⟨i, v, rfl⟩ | rfl | ⟨i, -, hx⟩ | ⟨d, rfl⟩ | ⟨draw, rfl⟩ | rfl
  · exact hsame rfl
  · exact hsame rfl
  · exact hsame rfl
  · exact hsame (exec_pq_of_fault (s := acceptCommand w { s with env := e }) hfault hx)
  · exact hsame (exec_pq_of_fault (s := releaseCommand { s with env := e }) hfault hx)
  · exact hsame rfl
  · exact hsame rfl
  · exact hsame (exec_pq_of_fault (s := { s with env := e }) hfault hx)
  · exact plannerAppend_prefix d { s with env := e }
  · exact hsame (exec_pq_of_fault (i := .tick) (s := { s with env := { e with elapsed := draw } }) hfault rfl)
  · exact hsame rfl

/-! ## The block a fault refused (60_exceptions.md R314) -/

theorem FaultHoldsBlock.of_no_fault {s : State} (h : s.host.fault = false) : FaultHoldsBlock s :=
  fun hfault => by rw [h] at hfault; cases hfault

/-- The block stays at the head of a queue that is only appended to. -/
theorem FaultHoldsBlock.of_prefix {s t : State} (h : FaultHoldsBlock s) (hcfg : t.cfg = s.cfg)
    (hfault : t.host.fault = s.host.fault) (hcode : t.host.faultCode = s.host.faultCode) (hpq : s.pq <+: t.pq) :
    FaultHoldsBlock t := by
  intro hf
  obtain ⟨d, rest, hd, hrefused⟩ := h (hfault ▸ hf)
  obtain ⟨more, hmore⟩ := hpq
  refine ⟨d, rest ++ more, by rw [← hmore, hd, List.cons_append], ?_⟩
  rwa [hcode, hcfg]

/-- BLOCK_PHASE raises a fault only with the refused block at the head of the queue. -/
theorem blockPhase_faultHoldsBlock {s : State} (hno : s.host.fault = false) : FaultHoldsBlock (blockPhase s).1 :=
  fun hfault => (blockPhase_refused hno hfault).holds hfault

theorem tick_faultHoldsBlock {s : State} (hno : s.host.fault = false) : FaultHoldsBlock (tick s) := by
  rw [tick_of_no_fault hno]
  split
  · next hfault => exact (tickTasks_fault hno hfault).2.2.2.1
  · next hfault => exact .of_no_fault (by simpa using hfault)

/-- An engine operation raises a fault only with the refused block at the head of the queue. -/
theorem exec_engine_faultHoldsBlock {i : Instr} {s t : State} (hf : i.format = .evt ∨ i.format = .pln)
    (hno : s.host.fault = false) (h : exec i s = .next t) : FaultHoldsBlock t := by
  cases i with
  | tick => cases h; exact tick_faultHoldsBlock hno
  | blockPhase => rw [exec_blockPhase hno] at h; cases h; exact blockPhase_faultHoldsBlock hno
  | pulsePhase | stepEvent | shapingIsr | advanceIsr | babystepIsr | getCurrentBlock | discardCurrentBlock =>
    cases h
    rw [engineStep_of_no_fault hno]
    exact .of_no_fault (by simpa using hno)
  | _ => simp [Instr.format, formatOf, opcOf_encode, Instr.opc] at hf

/-- Every operation keeps the refused block at the head of the queue: the host's do not touch queue and fault, and the
engine's do nothing under a fault. -/
theorem exec_keeps_faultHoldsBlock {i : Instr} {s t : State} (hs : FaultHoldsBlock s) (h : exec i s = .next t) :
    FaultHoldsBlock t := by
  rcases Instr.format_host_or_engine i with hf | hf
  · have hengine := (exec_hostFrame hf h).engine
    simp only [enginePart, Prod.mk.injEq] at hengine
    obtain ⟨-, -, -, -, -, -, -, hfault, hcode⟩ := hengine
    exact hs.of_prefix ((cfg_kept s.cfg).exec i rfl h) hfault hcode (exec_host_pq hf h ▸ List.prefix_rfl)
  · cases hno : s.host.fault with
    | false => exact exec_engine_faultHoldsBlock hf hno h
    | true =>
      rw [exec_of_fault hno hf] at h
      cases h
      exact hs

theorem step_keeps_faultHoldsBlock {s t : State} (hs : FaultHoldsBlock s) (h : step s = .next t) :
    FaultHoldsBlock t := by
  obtain ⟨-, m, e, hm⟩ := step_next h
  rcases runMove_next hm with ⟨r, rfl⟩ | ⟨e, rfl⟩ | ⟨w, i, -, -, -, rfl⟩ | ⟨w, i, -, -, -, hx⟩ | ⟨i, -, -, -, hx⟩ |
    ⟨i, v, rfl⟩ | rfl | ⟨i, -, hx⟩ | ⟨d, rfl⟩ | ⟨draw, rfl⟩ | rfl
  · exact hs
  · exact hs
  · exact hs
  · exact exec_keeps_faultHoldsBlock (s := acceptCommand w { s with env := e }) hs hx
  · exact exec_keeps_faultHoldsBlock (s := releaseCommand { s with env := e }) hs hx
  · exact hs
  · exact hs
  · exact exec_keeps_faultHoldsBlock (s := { s with env := e }) hs hx
  · refine hs.of_prefix ?_ ?_ ?_ (plannerAppend_prefix d { s with env := e })
    all_goals unfold plannerAppend; split <;> rfl
  · exact exec_keeps_faultHoldsBlock (i := .tick) (s := { s with env := { e with elapsed := draw } }) hs rfl
  · exact .of_no_fault rfl

/-- Settles O54: the two invariants, each by the moves a step can make, and the queue under a fault, which reset does not
take from either. -/
theorem stepKeepsPendingAndFaultBlock : Obligations.StepKeepsPendingAndFaultBlock :=
  fun _ _ h => ⟨fun hs => step_keeps_pendingCommandLegal hs h, fun hs => step_keeps_faultHoldsBlock hs h,
    fun hfault _ => (step_pq_of_fault hfault h).imp fun _ heq => heq.symm⟩

end Sys2Proof.Machine
end
